-- ==== Sys2Proof/Word.lean ====
section
/-! DEFINITION. The words of the part's interfaces: octets, 32-bit words, and the index types of the things the manual
numbers ("Names of numbered things", 00_scope.md). -/

namespace Sys2Proof

/-- An octet (00_scope.md, "Terms"). -/
abbrev Byte := BitVec 8

/-- A 32-bit word of the register window or an address of host memory. -/
abbrev Word := BitVec 32

/-- A serial line, 0..3. -/
abbrev LineNo := Fin 4

/-- A station handle, 0..63. -/
abbrev Handle := Fin 64

/-- A submission queue, 0..3. -/
abbrev QueueNo := Fin 4

/-- One of the two rings the part writes, as a RETIRE write names it (section 11.1). -/
inductive Ring where
  | completion
  | event
  deriving DecidableEq, Repr

end Sys2Proof
end

