-- ==== Sys2Proof/Config.lean ====
section
/-! DEFINITION. What the part fixes once: its identity, its sizes, the unit its clocks count in, and the one free value. -/

namespace Sys2Proof.Config

/-- The vendor code that IDENT reads (R154). -/
def vendorCode : Nat := 0x3A71

/-- The part code that IDENT reads (R154). -/
def partCode : Nat := 0x0B44

/-- The revision that IDENT reads (R154). -/
def revision : Nat := 0x01

/-- Exchange contexts of the pool (R56). -/
def contexts : Nat := 256

/-- The model's clocks count in units of 1/144 µs, in which every bit time of R2 and half of it is a whole number.
DESIGN CHOICE (entry 3). -/
def ticksPerMicrosecond : Nat := 144

/-- Units of the model's clocks in one millisecond. -/
def ticksPerMillisecond : Nat := 144000

/-- One bit time at each rate code of R2, in units of 1/144 µs. -/
def bitTicks : Fin 8 → Nat
  | 0 => 15000
  | 1 => 7500
  | 2 => 3750
  | 3 => 2500
  | 4 => 1250
  | 5 => 576
  | 6 => 288
  | 7 => 144

/-- The bit rate of each rate code, in bit/s (R2). -/
def bitRate : Fin 8 → Nat
  | 0 => 9600
  | 1 => 19200
  | 2 => 38400
  | 3 => 57600
  | 4 => 115200
  | 5 => 250000
  | 6 => 500000
  | 7 => 1000000

/-- FREE VALUE (entry 12): how far a write that a reset or FAILED cuts short had got in host memory. R160 says that a
transaction already issued may still complete; nothing says how many had. Applied to `State.landings`; it has no body,
so no proof can see its values. -/
opaque landed : Nat → Nat

end Sys2Proof.Config
end

