-- ==== Sys2Proof/Syntax.lean ====
section
/-! DEFINITION. The commands: one constructor per row of spec/opcode_table.json. No row carries bits; the operands are
what the host, the bus or the wire supplies when the event happens. -/

namespace Sys2Proof

/-- How a bus read of the part ended: the octets read, in ascending address order, or a bus error (section 10.5). -/
inductive BusRead where
  | good (octets : List Byte)
  | error
  deriving DecidableEq, Repr

/-- How a bus write of the part ended: good, or a bus error after `done` transactions had ended good (section 10.5). -/
inductive BusWrite where
  | good
  | error (done : Nat)
  deriving DecidableEq, Repr

/-- The stop bit of a character (R3): sampled at mark, or at space, a framing error, with the line back at mark `held`
units of 1/144 µs after the middle of the stop bit. -/
inductive StopBit where
  | good
  | error (held : Nat)
  deriving DecidableEq, Repr

/-- A command of the part. `value` is the 32-bit word written to a register, `record` the 32 octets of a submission
record whose read has ended good, `wait` the time, in units of 1/144 µs, from the part's last event to this one
(entry 3). -/
inductive Instr where
  /-- HARDWARE_RESET (R161): the reset input has been held for 1 µs. -/
  | hardwareReset
  /-- RESET_RELEASE (R161): the reset input is released. -/
  | resetRelease
  /-- SOFT_RESET (R160): a CONTROL write with bit 1 set. -/
  | softReset (value : Word)
  /-- ENABLE_WRITTEN_1 (R156, R158): a CONTROL write with bit 1 clear and bit 0 set. -/
  | enableWritten1 (value : Word)
  /-- ENABLE_WRITTEN_0 (R156, R158): a CONTROL write with bits 1 and 0 clear. -/
  | enableWritten0 (value : Word)
  /-- SETUP_ADDR_WRITE (R154). -/
  | setupAddrWrite (value : Word)
  /-- POST_TAIL (R131): a POST write with restart (bit 2) clear. -/
  | postTail (value : Word)
  /-- POST_RESTART (R132): a POST write with restart (bit 2) set. -/
  | postRestart (value : Word)
  /-- RETIRE (R146). -/
  | retire (value : Word)
  /-- INT_STATUS_WRITE (R151). -/
  | intStatusWrite (value : Word)
  /-- INT_ENABLE_WRITE (R151). -/
  | intEnableWrite (value : Word)
  /-- REGISTER_WRITE_IGNORED (R154): a write at the offset of IDENT (0x00) or STATUS (0x08). -/
  | registerWriteIgnored (offset : BitVec 5) (value : Word)
  /-- SETUP_READ_END (R156, R157). -/
  | setupReadEnd (result : BusRead)
  /-- FETCH_CHOICE (R134). -/
  | fetchChoice
  /-- RECORD_READ_ERROR (R137). -/
  | recordReadError
  /-- UNKNOWN_KIND (R140): the record read carries a kind code outside the twelve kinds. -/
  | unknownKind (record : List Byte)
  /-- EXCHANGE (R139): the record read is an EXCHANGE. -/
  | exchange (record : List Byte)
  /-- BROADCAST (R74): the record read is a BROADCAST. -/
  | broadcast (record : List Byte)
  /-- ADD_STATION (R116). -/
  | addStation (record : List Byte)
  /-- REMOVE_STATION (R117). -/
  | removeStation (record : List Byte)
  /-- PAUSE_STATION (R119). -/
  | pauseStation (record : List Byte)
  /-- RESUME_STATION (R120). -/
  | resumeStation (record : List Byte)
  /-- SET_LINE_DISABLE (R121): a SET_LINE whose enable octet is 0. -/
  | setLineDisable (record : List Byte)
  /-- SET_LINE_ENABLE (R122): a SET_LINE whose enable octet is not 0 (entry 17). -/
  | setLineEnable (record : List Byte)
  /-- QUIESCE_LINE (R124). -/
  | quiesceLine (record : List Byte)
  /-- RESUME_LINE (R125). -/
  | resumeLine (record : List Byte)
  /-- LINE_RESET (R126). -/
  | lineReset (record : List Byte)
  /-- ABORT (R76). -/
  | abort (record : List Byte)
  /-- FENCE (R79). -/
  | fence (record : List Byte)
  /-- BAND_TABLE_READ_END (R123). -/
  | bandTableReadEnd (line : LineNo) (result : BusRead)
  /-- SCHEDULER_CHOICE (R103): the engine of the line consults its scheduler, `wait` after the part's last event. -/
  | schedulerChoice (line : LineNo) (wait : Nat)
  /-- PAYLOAD_READ_END (R59): the payload read of the line ends good with these octets. -/
  | payloadReadEnd (line : LineNo) (octets : List Byte)
  /-- PAYLOAD_READ_ERROR (R58). -/
  | payloadReadError (line : LineNo)
  /-- ABANDONED_READ_END (R85). -/
  | abandonedReadEnd (line : LineNo)
  /-- TRANSMIT_END (R86). -/
  | transmitEnd (line : LineNo)
  /-- CHARACTER_RECEIVED (R87): the receiver passes on a character. -/
  | characterReceived (line : LineNo) (octet : Byte) (mark : Bool) (stop : StopBit)
  /-- INTER_CHARACTER_GAP_EXPIRY (R11, R12). -/
  | interCharacterGapExpiry (line : LineNo)
  /-- REPLY_TIMER_EXPIRY (R87). -/
  | replyTimerExpiry (line : LineNo)
  /-- REPLY_WRITE_END (R63). -/
  | replyWriteEnd (line : LineNo) (result : BusWrite)
  /-- BREAK_DETECTED (R91). -/
  | breakDetected (line : LineNo)
  /-- STUCK (R92). -/
  | stuck (line : LineNo)
  /-- LINE_RETURN_TO_MARK (R83): the space ended `wait` after the part's last event. -/
  | lineReturnToMark (line : LineNo) (wait : Nat)
  /-- RECOVERY_END (R92). -/
  | recoveryEnd (line : LineNo)
  /-- GUARD_END (R89). -/
  | guardEnd (line : LineNo)
  /-- BREAK_SPACE_END (R16). -/
  | breakSpaceEnd (line : LineNo)
  /-- BREAK_RELEASE (R94). -/
  | breakRelease (line : LineNo)
  /-- POLL_TIMER_EXPIRY (R37). -/
  | pollTimerExpiry (handle : Handle)
  /-- HOLD_TIMER_EXPIRY (R38). -/
  | holdTimerExpiry (handle : Handle)
  /-- PROBE_TIMER_EXPIRY (R39). -/
  | probeTimerExpiry (handle : Handle)
  /-- COMPLETION_ENTRY_POSTED (R145). -/
  | completionEntryPosted
  /-- COMPLETION_WRITE_ERROR (R159), after `done` of the entry's four transactions had ended good. -/
  | completionWriteError (done : Nat)
  /-- EVENT_ENTRY_POSTED (R150). -/
  | eventEntryPosted
  /-- EVENT_WRITE_ERROR (R159), after `done` of the entry's sixteen transactions had ended good. -/
  | eventWriteError (done : Nat)
  /-- HOLDOFF_TIMER_EXPIRY (R152). -/
  | holdoffTimerExpiry (ring : Ring)
  /-- CHARACTER_BEGUN (R3): half a bit time after its leading edge, `wait` after the part's last event, the line is still
  at space. -/
  | characterBegun (line : LineNo) (wait : Nat)
  /-- GLITCH_DISCARDED (R3): the glitch ended `wait` after the part's last event. -/
  | glitchDiscarded (line : LineNo) (wait : Nat)
  /-- MARK_BIT_READ (R51, R87): a mark bit of 1 is sampled. -/
  | markBitRead (line : LineNo)
  deriving DecidableEq, Repr

end Sys2Proof
end

