-- ==== Sys2Proof/WellFormed.lean ====
section
/-! DEFINITION. Which operands a command of each row can carry. A term that fails a check spells no command of the
part; a meaning refuses it by name (`Refusal.illFormed`, entry 2). -/

namespace Sys2Proof

/-- A record of a known kind: 32 octets, the first of which is the kind code (section 8.5, section 11.3). -/
def recordOf (code : Byte) (record : List Byte) : Bool :=
  record.length == 32 && record[0]? == some code

/-- The twelve kind codes of section 8.5. -/
def kindCodes : List Byte :=
  [0x01, 0x02, 0x10, 0x11, 0x12, 0x13, 0x20, 0x21, 0x22, 0x23, 0x30, 0x31]

/-- A bus read of 64 octets, or its error. -/
def read64 : BusRead → Bool
  | .good octets => octets.length == 64
  | .error => true

/-- What the operands of each row's command admit. -/
def Instr.wellFormed : Instr → Bool
  | .hardwareReset => true
  | .resetRelease => true
  | .softReset value => value.getLsbD 1
  | .enableWritten1 value => !value.getLsbD 1 && value.getLsbD 0
  | .enableWritten0 value => !value.getLsbD 1 && !value.getLsbD 0
  | .setupAddrWrite _ => true
  | .postTail value => !value.getLsbD 2
  | .postRestart value => value.getLsbD 2
  | .retire _ => true
  | .intStatusWrite _ => true
  | .intEnableWrite _ => true
  | .registerWriteIgnored offset _ => offset == 0x00 || offset == 0x08
  | .setupReadEnd result => read64 result
  | .fetchChoice => true
  | .recordReadError => true
  | .unknownKind record => record.length == 32 && !kindCodes.contains (record.getD 0 0)
  | .exchange record => recordOf 0x01 record
  | .broadcast record => recordOf 0x02 record
  | .addStation record => recordOf 0x10 record
  | .removeStation record => recordOf 0x11 record
  | .pauseStation record => recordOf 0x12 record
  | .resumeStation record => recordOf 0x13 record
  | .setLineDisable record => recordOf 0x20 record && record[5]? == some 0
  | .setLineEnable record => recordOf 0x20 record && record[5]? != some 0
  | .quiesceLine record => recordOf 0x21 record
  | .resumeLine record => recordOf 0x22 record
  | .lineReset record => recordOf 0x23 record
  | .abort record => recordOf 0x30 record
  | .fence record => recordOf 0x31 record
  | .bandTableReadEnd _ result => read64 result
  | .schedulerChoice _ _ => true
  | .payloadReadEnd _ octets => octets.length ≤ 240
  | .payloadReadError _ => true
  | .abandonedReadEnd _ => true
  | .transmitEnd _ => true
  | .characterReceived _ _ _ _ => true
  | .interCharacterGapExpiry _ => true
  | .replyTimerExpiry _ => true
  | .replyWriteEnd _ .good => true
  | .replyWriteEnd _ (.error done) => done ≤ 60
  | .breakDetected _ => true
  | .stuck _ => true
  | .lineReturnToMark _ _ => true
  | .recoveryEnd _ => true
  | .guardEnd _ => true
  | .breakSpaceEnd _ => true
  | .breakRelease _ => true
  | .pollTimerExpiry _ => true
  | .holdTimerExpiry _ => true
  | .probeTimerExpiry _ => true
  | .completionEntryPosted => true
  | .completionWriteError done => done < 4
  | .eventEntryPosted => true
  | .eventWriteError done => done < 16
  | .holdoffTimerExpiry _ => true
  | .characterBegun _ _ => true
  | .glitchDiscarded _ _ => true
  | .markBitRead _ => true

end Sys2Proof
end

