-- ==== Sys2Proof/Machine/State.lean ====
section
/-! DEFINITION. The state of the part, block by block as 00_scope.md names the blocks, as plain data; its value after
reset; and the reasons a command can stop. -/

namespace Sys2Proof.Machine

/-- No command of the part ends in a fault: bus errors are ordinary results (section 10.5), and FAILED is a device state
that goes on answering (R159). -/
inductive Fault where
  deriving DecidableEq, Repr

/-- Why a command is refused. -/
inductive Refusal where
  /-- `exec`'s arm of a command that has no meaning yet raises it. Safe: the model stops. -/
  | notModelled (mnemonic : String)
  /-- Every meaning raises it for an operand that no command of its row can carry (`Instr.wellFormed`, entry 2).
  Safe: the model stops. -/
  | illFormed
  deriving DecidableEq, Repr

/-! ## Control block (chapter 10) -/

/-- The device state (section 10.2). -/
inductive DeviceState where
  | ready | starting | running | halting | halted | failed
  deriving DecidableEq, Repr

/-- The cause code that STATUS shows (section 10.2). -/
inductive CauseCode where
  | none | setupRead | setupInvalid | completionWrite | eventWrite
  deriving DecidableEq, Repr

/-! ## Record intake (chapter 8) -/

/-- The class of a queue and of all work it supplies (section 8.4). -/
inductive QueueClass where
  | urgent | normal
  deriving DecidableEq, Repr

/-- The state of a submission queue (section 8.1). -/
inductive QueueState where
  | unused | active | stopped
  deriving DecidableEq, Repr

/-- Why a queue stopped (section 8.3). -/
inductive StopCause where
  | badTail | readError
  deriving DecidableEq, Repr

/-- A pending queue report (R133). -/
structure QueueReport where
  cause : StopCause
  head : Nat
  deriving DecidableEq, Repr

/-- A submission queue descriptor (section 8.1). -/
structure Queue where
  base : Word
  size : Nat
  cls : QueueClass
  head : Nat
  tail : Nat
  state : QueueState
  stopCause : Option StopCause
  fetching : Bool
  report : Option QueueReport
  deriving DecidableEq, Repr

/-- The record read in progress: the queue it reads from, the context reserved for it (R134, R135), and the address of
the entry it reads (R136). -/
structure RecordRead where
  queue : QueueNo
  ctx : Nat
  addr : Word
  deriving DecidableEq, Repr

/-! ## Context pool (chapter 4) -/

/-- The twelve record kinds (section 8.5). -/
inductive RecordKind where
  | exchange | broadcast | addStation | removeStation | pauseStation | resumeStation
  | setLine | quiesceLine | resumeLine | lineReset | abort | fence
  deriving DecidableEq, Repr

/-- The phases of a context (section 4.2). -/
inductive Phase where
  | queued | preparing | attempting | waitingRetry | held | ending
  deriving DecidableEq, Repr

/-- The failure causes an exchange remembers (section 4.1). -/
inductive FailureCause where
  | noAnswer | garbled | wrongStation | unexpected | lineBreak | nakCheck | payloadRead
  deriving DecidableEq, Repr

/-- What a context's record acts on, with the fields its kind carries (sections 4.1, 7, 8.5). -/
inductive Body where
  /-- reserved for a record read in progress (R135) -/
  | reserved
  /-- a record refused at validation, whose fields stand as they were read (R56, R139) -/
  | refused (record : List Byte)
  | exchange (handle : Handle) (payloadAddr : Word) (payloadLen : Nat) (replyAddr : Word) (replyCap : Nat)
  | broadcast (line : LineNo) (payloadAddr : Word) (payloadLen : Nat)
  /-- ADD_STATION, REMOVE_STATION, PAUSE_STATION or RESUME_STATION -/
  | station (handle : Handle)
  | setLine (line : LineNo) (enable : Bool) (rate : Fin 8) (hysteresis : Nat) (tableAddr : Word)
  /-- QUIESCE_LINE, RESUME_LINE or LINE_RESET -/
  | line (line : LineNo)
  | abort (queue : QueueNo) (tag : Nat)
  | fence
  deriving DecidableEq, Repr

/-- An exchange context in use (section 4.1). `id` is the model's name of it. -/
structure Context where
  id : Nat
  queue : QueueNo
  cls : QueueClass
  kindCode : Byte
  kind : Option RecordKind
  tag : Nat
  body : Body
  attemptsMade : Nat
  linkAttempts : Nat
  busyCount : Nat
  abortRequested : Option Nat
  unanswered : Bool
  lastFailure : Option FailureCause
  lastTurnaround : Option Nat
  fenceCount : Nat
  phase : Phase
  deriving DecidableEq, Repr

/-! ## Station table (chapter 2) -/

/-- The states of an entry (section 2.2). -/
inductive StationState where
  | new | online | hold | offline | closing
  deriving DecidableEq, Repr

/-- Link certainty (R24). -/
inductive Link where
  | certain | uncertain
  deriving DecidableEq, Repr

/-- Presence (R20). -/
inductive Presence where
  | present | absent
  deriving DecidableEq, Repr

/-- The kinds of station timer (R35). -/
inductive TimerKind where
  | poll | hold | probe
  deriving DecidableEq, Repr

/-- A running station timer: its kind and the moment of `State.time` at which it expires (entry 3). -/
structure StationTimer where
  kind : TimerKind
  expires : Nat
  deriving DecidableEq, Repr

/-- An in-use station entry (section 2.1). -/
structure Station where
  line : LineNo
  address : BitVec 7
  state : StationState
  closingFrom : Option StationState
  remover : Option Nat
  paused : Bool
  cseq : Bool
  pseq : Bool
  link : Link
  band : Fin 8
  retryLimit : Nat
  missLimit : Nat
  missCount : Nat
  busyLimit : Nat
  pollInterval : Nat
  holdTime : Nat
  probeInterval : Nat
  timer : Option StationTimer
  pollDue : Option Nat
  probeDue : Option Nat
  /-- an attention delivery in progress, with its toggle armed (`true`) or disarmed (R23) -/
  attention : Option Bool
  pending : List Nat
  presenceChanges : Nat
  lastReported : Presence
  deriving DecidableEq, Repr

/-! ## Line engine and line scheduler (chapters 3, 5, 6) -/

/-- Engine states (section 5.1). -/
inductive EngineState where
  | disabled | idle | guard | preparing | transmit | await | receive | breakOut | quiesced
  deriving DecidableEq, Repr

/-- The line condition (section 5.1). -/
inductive Condition where
  | clear | break | stuck | recovering
  deriving DecidableEq, Repr

/-- What the transmit output does: rest or drive at mark, drive the space of a break, or carry the bits of `txFrame`
(R1, R16). -/
inductive TxOutput where
  | mark | space | frame
  deriving DecidableEq, Repr

/-- The band table (section 3.1): bounds B1..B7 and reply timeouts W0..W7, in µs. -/
structure BandTable where
  bounds : Vector Nat 7
  waits : Vector Nat 8
  deriving DecidableEq, Repr

/-- The attempt the engine carries out, as the scheduler chose it. -/
inductive Job where
  /-- a COMMAND attempt of an exchange; `origin` is the phase the context came from (R59, R60) -/
  | command (ctx : Nat) (handle : Handle) (origin : Phase)
  | broadcast (ctx : Nat)
  /-- a POLL, with the pseq it carries (R72, R73) -/
  | poll (handle : Handle) (pseq : Bool)
  | link (handle : Handle)
  | probe (handle : Handle)
  deriving DecidableEq, Repr

/-- A payload of the receive buffer that has not been delivered (R63, R73). -/
inductive RxPayload where
  /-- a REPLY being written for a context -/
  | reply (ctx : Nat) (octets : List Byte)
  /-- an ATTENTION handed to the event writer -/
  | attention (octets : List Byte)
  deriving DecidableEq, Repr

/-- A line: its engine (chapter 5) and its scheduler (R102). Moments are of `State.time` (entry 3). -/
structure Line where
  state : EngineState
  condition : Condition
  quiesce : Bool
  quietSince : Option Nat
  gapSince : Nat
  /-- the moment GUARD was last entered: a guard ends no earlier (R88, R89) -/
  guardSince : Nat
  /-- the leading edge of the space or character last begun, while it is measured -/
  spaceEdge : Option Nat
  /-- a character is being received, or a framing error is held (R3) -/
  receiving : Bool
  /-- the moment from which the receiver has looked for a transition: it was blind, off or at a character before (R3, R82) -/
  looksSince : Nat
  markSince : Option Nat
  txBuffer : List Byte
  txHolds : Option Nat
  txFrame : List Byte
  txStart : Nat
  driverEnable : Bool
  txd : TxOutput
  job : Option Job
  abandoned : Bool
  sentAt : Nat
  turnaround : Option Nat
  replyTimer : Option Nat
  rxOctets : List Byte
  rxWrong : Bool
  rxBuffer : Option RxPayload
  breakStart : Nat
  breakRate : Option (Fin 8)
  boundResets : List Nat
  quiescers : List Nat
  bandTable : Option BandTable
  hysteresis : Nat
  rate : Option (Fin 8)
  /-- the moment the rate in force was installed: thresholds at it are compared from then on (R97) -/
  rateSince : Nat
  setLine : Option Nat
  bandReading : Bool
  breaksSeen : Nat
  breakEnded : Bool
  stuckSeen : Bool
  chatter : Nat
  resetPending : Bool
  resetRecords : List Nat
  retryList : List Nat
  urgentPtr : Fin 65
  normalPtr : Fin 65
  linkPtr : Fin 64
  service : Nat
  fifo : List Nat
  /-- the engine owes its scheduler a consultation (R85, R113; entry 24) -/
  consultDue : Bool
  deriving DecidableEq, Repr

/-! ## Completion writer, event writer and interrupt unit (chapter 9) -/

/-- Completion statuses (section 11.4). -/
inductive Status where
  | ok | overrun | refused | noReply | stationBusy | stationOffline | hostReadError | hostWriteError | refusedState
  | lineBreak | cancelled | aborted | tooLate | notFound | badRecord | badStation | duplicateAddress
  deriving DecidableEq, Repr

/-- Completion details (section 11.4). -/
inductive Detail where
  | none
  | failure (cause : FailureCause)
  | reason (octet : Byte)
  | handle (h : Handle)
  | unknownKind | reservedNonzero | fieldRange | bandTableInvalid | handleFree | handleClosing | handleInUse
  | bandTableRead
  | engine (state : EngineState)
  | lineConfiguring
  deriving DecidableEq, Repr

/-- A completion handed to the writer (R80, R114, R144). -/
structure Completion where
  ctx : Nat
  kindCode : Byte
  tag : Nat
  queue : QueueNo
  status : Status
  detail : Detail
  replyLength : Nat
  band : Option (Fin 8)
  turnaround : Option Nat
  deriving DecidableEq, Repr

/-- A completion entry being written: its context, its address and its 16 octets (R144). -/
structure CompletionWrite where
  ctx : Nat
  addr : Word
  octets : List Byte
  deriving DecidableEq, Repr

/-- An ATTENTION report handed to the event writer (R73). -/
structure AttentionReport where
  line : LineNo
  handle : Handle
  pseq : Bool
  ap : Bool
  octets : List Byte
  deriving DecidableEq, Repr

/-- An event entry being written: its address, its 64 octets, and the line and handle of an ATTENTION (R149). -/
structure EventWrite where
  addr : Word
  octets : List Byte
  attention : Option (LineNo × Handle)
  deriving DecidableEq, Repr

/-- What both writers hold of their ring (R143, R147). -/
structure RingState where
  base : Word
  size : Nat
  tail : Nat
  phase : Bool
  hostHead : Nat
  deriving DecidableEq, Repr

/-- A ring's coalescing (section 9.4): the holdoff is in µs, the timer holds the moment of `State.clock` at which it
expires. -/
structure Coalescing where
  threshold : Nat
  holdoff : Nat
  count : Nat
  timer : Option Nat
  deriving DecidableEq, Repr

/-- The part. The last five fields are the model's own (INVENTORY.md). -/
structure State where
  device : DeviceState
  cause : CauseCode
  enable : Bool
  setupAddr : Word
  resetHeld : Bool
  intStatus : BitVec 5
  intEnable : BitVec 5
  intPin : Bool
  completionInt : Coalescing
  eventInt : Coalescing
  queues : Vector Queue 4
  fetchUrgent : QueueNo
  fetchNormal : QueueNo
  reading : Option RecordRead
  /-- the fetch arbiter owes a look (R134, R142; entry 24) -/
  fetchDue : Bool
  pool : List Context
  stations : Vector (Option Station) 64
  lines : Vector Line 4
  completion : RingState
  handed : List Completion
  completionWrite : Option CompletionWrite
  event : RingState
  attentions : List AttentionReport
  eventWrite : Option EventWrite
  reserved : Nat
  refusedLines : List LineNo
  clock : Nat
  time : Nat
  mem : List Host.Cell
  landings : Nat
  pending : List Instr
  deriving DecidableEq, Repr

/-! ## Reset values -/

/-- A queue descriptor after either reset (R129; base, size and class: entry 14). -/
def Queue.reset : Queue where
  base := 0
  size := 0
  cls := .normal
  head := 0
  tail := 0
  state := .unused
  stopCause := none
  fetching := false
  report := none

/-- A line after either reset (R47, R81, R102). -/
def Line.reset : Line where
  state := .disabled
  condition := .clear
  quiesce := false
  quietSince := none
  gapSince := 0
  guardSince := 0
  spaceEdge := none
  receiving := false
  looksSince := 0
  markSince := none
  txBuffer := []
  txHolds := none
  txFrame := []
  txStart := 0
  driverEnable := false
  txd := .mark
  job := none
  abandoned := false
  sentAt := 0
  turnaround := none
  replyTimer := none
  rxOctets := []
  rxWrong := false
  rxBuffer := none
  breakStart := 0
  breakRate := none
  boundResets := []
  quiescers := []
  bandTable := none
  hysteresis := 0
  rate := none
  setLine := none
  bandReading := false
  rateSince := 0
  breaksSeen := 0
  breakEnded := false
  stuckSeen := false
  chatter := 0
  resetPending := false
  resetRecords := []
  retryList := []
  urgentPtr := 64
  normalPtr := 64
  linkPtr := 63
  service := 0
  fifo := []
  consultDue := false

/-- A ring after either reset (R143, R147; base and size: entry 14). -/
def RingState.reset : RingState where
  base := 0
  size := 0
  tail := 0
  phase := true
  hostHead := 0

/-- A ring's coalescing after either reset (R151; threshold and holdoff: entry 14). -/
def Coalescing.reset : Coalescing where
  threshold := 0
  holdoff := 0
  count := 0
  timer := none

/-- The part right after a hardware reset whose input has been released (R161, entry 19). -/
def State.reset : State where
  device := .ready
  cause := .none
  enable := false
  setupAddr := 0
  resetHeld := false
  intStatus := 0
  intEnable := 0
  intPin := false
  completionInt := Coalescing.reset
  eventInt := Coalescing.reset
  queues := Vector.replicate 4 Queue.reset
  fetchUrgent := 3
  fetchNormal := 3
  reading := none
  fetchDue := false
  pool := []
  stations := Vector.replicate 64 none
  lines := Vector.replicate 4 Line.reset
  completion := RingState.reset
  handed := []
  completionWrite := none
  event := RingState.reset
  attentions := []
  eventWrite := none
  reserved := 0
  refusedLines := []
  clock := 0
  time := 0
  mem := []
  landings := 0
  pending := []

end Sys2Proof.Machine
end

