-- ==== Sys2Proof/Machine/Operands.lean ====
section
/-! DEFINITION. The operand forms: fields of register values, records, the setup block and the band table block, as
chapter 11 lays them out, and the checks chapters 3, 8 and 10 make on them. Everything is little-endian
(00_scope.md, "Octet order"). -/

namespace Sys2Proof.Machine

/-- The octet at offset `i`. -/
def octetAt (octets : List Byte) (i : Nat) : Byte := octets.getD i 0

/-- The octet at offset `i` as a number. -/
def le8 (octets : List Byte) (i : Nat) : Nat := (octetAt octets i).toNat

/-- The two octets at offset `i`, the least significant first. -/
def le16 (octets : List Byte) (i : Nat) : Nat := le8 octets i + 256 * le8 octets (i + 1)

/-- The four octets at offset `i`, the least significant first. -/
def le32 (octets : List Byte) (i : Nat) : Nat := le16 octets i + 65536 * le16 octets (i + 2)

/-- The four octets at offset `i` as a host address. -/
def addrAt (octets : List Byte) (i : Nat) : Word := BitVec.ofNat 32 (le32 octets i)

/-! ## Register values (section 11.1) -/

/-- POST write, bits 1..0: the queue. -/
def postQueue (value : Word) : QueueNo := ⟨value.toNat % 4, Nat.mod_lt _ (by decide)⟩

/-- POST write, bits 31..16: the tail. -/
def postTailField (value : Word) : Nat := value.toNat / 65536

/-- RETIRE write, bit 0: the ring. -/
def retireRing (value : Word) : Ring := if value.getLsbD 0 then .event else .completion

/-- RETIRE write, bits 31..16: the head. -/
def retireHead (value : Word) : Nat := value.toNat / 65536

/-- A SETUP_ADDR write: the six low bits are discarded (R154). -/
def setupAddrField (value : Word) : Word := value &&& 0xFFFFFFC0#32

/-- The five cause bits of INT_STATUS and INT_ENABLE. -/
def causeBits (value : Word) : BitVec 5 := value.setWidth 5

/-! ## Records (section 11.3) -/

/-- The kind a kind code names (section 8.5). -/
def kindOfCode (code : Byte) : Option RecordKind :=
  if code = 0x01 then some .exchange
  else if code = 0x02 then some .broadcast
  else if code = 0x10 then some .addStation
  else if code = 0x11 then some .removeStation
  else if code = 0x12 then some .pauseStation
  else if code = 0x13 then some .resumeStation
  else if code = 0x20 then some .setLine
  else if code = 0x21 then some .quiesceLine
  else if code = 0x22 then some .resumeLine
  else if code = 0x23 then some .lineReset
  else if code = 0x30 then some .abort
  else if code = 0x31 then some .fence
  else none

/-- Octet 0: the kind code. -/
def recKind (r : List Byte) : Byte := octetAt r 0

/-- Octets 1..2: the tag. -/
def recTag (r : List Byte) : Nat := le16 r 1

/-- Octet 4 of the station records and of EXCHANGE: the handle. -/
def recHandle (r : List Byte) : Handle := ⟨le8 r 4 % 64, Nat.mod_lt _ (by decide)⟩

/-- Octet 4 of BROADCAST and the line records: the line. -/
def recLine (r : List Byte) : LineNo := ⟨le8 r 4 % 4, Nat.mod_lt _ (by decide)⟩

/-- Octet 5 of ADD_STATION: the line. -/
def recStationLine (r : List Byte) : LineNo := ⟨le8 r 5 % 4, Nat.mod_lt _ (by decide)⟩

/-- Octet 6 of ADD_STATION: the address. -/
def recAddress (r : List Byte) : BitVec 7 := BitVec.ofNat 7 (le8 r 6)

/-- Octet 7 of ADD_STATION: the initial band. -/
def recBand (r : List Byte) : Fin 8 := ⟨le8 r 7 % 8, Nat.mod_lt _ (by decide)⟩

/-- Octet 6 of SET_LINE: the rate code. -/
def recRate (r : List Byte) : Fin 8 := ⟨le8 r 6 % 8, Nat.mod_lt _ (by decide)⟩

/-- Octet 4 of ABORT: the queue of the target. -/
def recQueue (r : List Byte) : QueueNo := ⟨le8 r 4 % 4, Nat.mod_lt _ (by decide)⟩

/-- The offsets, after the header, that the fields of each kind occupy. -/
def fieldOffsets : RecordKind → List Nat
  | .exchange => [4, 5, 6, 8, 9, 10, 11, 12, 13, 14, 15]
  | .broadcast => [4, 5, 8, 9, 10, 11]
  | .addStation => [4, 5, 6, 7, 8, 9, 10, 12, 13, 14, 15, 16, 17]
  | .removeStation => [4]
  | .pauseStation => [4]
  | .resumeStation => [4]
  | .setLine => [4, 5, 6, 8, 9, 12, 13, 14, 15]
  | .quiesceLine => [4]
  | .resumeLine => [4]
  | .lineReset => [4]
  | .abort => [4, 6, 7]
  | .fence => []

/-- Check 1b of R140: every reserved octet of the kind is zero (octet 3, and every octet the kind does not list). -/
def reservedZero (kind : RecordKind) (r : List Byte) : Bool :=
  (List.range 29).all fun i => (fieldOffsets kind).contains (i + 3) || octetAt r (i + 3) == 0

/-- Check 1c of R140: every field the kind examines lies in its range (sections 7.3, 7.4, 8.5). -/
def fieldsInRange (kind : RecordKind) (r : List Byte) : Bool :=
  match kind with
  | .exchange => le8 r 4 < 64 && le8 r 5 ≤ 240 && le8 r 6 ≤ 240
  | .broadcast => le8 r 4 < 4 && le8 r 5 ≤ 240
  | .addStation =>
    le8 r 4 < 64 && le8 r 5 < 4 && (1 ≤ le8 r 6 && le8 r 6 ≤ 126) && le8 r 7 < 8 && le8 r 8 < 8
      && (1 ≤ le8 r 9 && le8 r 9 ≤ 15)
      && (le16 r 12 == 0 || (5 ≤ le16 r 12 && le16 r 12 ≤ 60000))
      && (1 ≤ le16 r 14 && le16 r 14 ≤ 60000)
      && (100 ≤ le16 r 16 && le16 r 16 ≤ 60000)
  | .removeStation => le8 r 4 < 64
  | .pauseStation => le8 r 4 < 64
  | .resumeStation => le8 r 4 < 64
  | .setLine =>
    le8 r 4 < 4 && (le8 r 5 == 0 || (le8 r 5 == 1 && le8 r 6 < 8 && le32 r 12 % 4 == 0))
  | .quiesceLine => le8 r 4 < 4
  | .resumeLine => le8 r 4 < 4
  | .lineReset => le8 r 4 < 4
  | .abort => le8 r 4 < 4
  | .fence => true

/-- The fields of a record whose ranges hold, as the context keeps them (R56). -/
def bodyOf (kind : RecordKind) (r : List Byte) : Body :=
  match kind with
  | .exchange => .exchange (recHandle r) (addrAt r 8) (le8 r 5) (addrAt r 12) (le8 r 6)
  | .broadcast => .broadcast (recLine r) (addrAt r 8) (le8 r 5)
  | .addStation => .station (recHandle r)
  | .removeStation => .station (recHandle r)
  | .pauseStation => .station (recHandle r)
  | .resumeStation => .station (recHandle r)
  | .setLine => .setLine (recLine r) (le8 r 5 == 1) (recRate r) (le16 r 8) (addrAt r 12)
  | .quiesceLine => .line (recLine r)
  | .resumeLine => .line (recLine r)
  | .lineReset => .line (recLine r)
  | .abort => .abort (recQueue r) (le16 r 6)
  | .fence => .fence

/-! ## The setup block (section 11.2, R157) -/

/-- A power of two in 16..4096. -/
def ringSize4096 (n : Nat) : Bool := [16, 32, 64, 128, 256, 512, 1024, 2048, 4096].contains n

/-- A power of two in 16..1024. -/
def ringSize1024 (n : Nat) : Bool := [16, 32, 64, 128, 256, 512, 1024].contains n

/-- The size field of queue `q`. -/
def setupQueueSize (b : List Byte) (q : Nat) : Nat := le16 b (8 * q + 4)

/-- R157 for one queue: a size of 0 examines nothing else of the queue. -/
def setupQueueValid (b : List Byte) (q : Nat) : Bool :=
  setupQueueSize b q == 0
    || (ringSize4096 (setupQueueSize b q) && le32 b (8 * q) % 32 == 0 && le8 b (8 * q + 6) ≤ 1
        && le8 b (8 * q + 7) == 0)

/-- R157: the conditions a setup block must meet. -/
def setupValid (b : List Byte) : Bool :=
  (List.range 4).all (setupQueueValid b)
    && (List.range 4).any (fun q => setupQueueSize b q != 0)
    && le32 b 32 % 16 == 0 && ringSize4096 (le16 b 36)
    && le32 b 40 % 64 == 0 && ringSize1024 (le16 b 44)
    && 1 ≤ le8 b 38 && 1 ≤ le8 b 46
    && le8 b 39 == 0 && le8 b 47 == 0
    && (List.range 12).all (fun i => le8 b (52 + i) == 0)

/-- The descriptor that R129 installs for queue `q`. DESIGN CHOICE (entry 14): R157 does not examine the class octet of a
queue of size 0, and one that names no class installs NORMAL. -/
def setupQueue (b : List Byte) (q : Nat) : Queue :=
  { Queue.reset with
    base := addrAt b (8 * q)
    size := setupQueueSize b q
    cls := if le8 b (8 * q + 6) = 1 then .urgent else .normal
    state := if setupQueueSize b q = 0 then .unused else .active }

/-! ## The band table block (section 11.2, R48) -/

/-- The band table a block spells: bounds at 4(b - 1), timeouts at 28 + 4b. -/
def bandTableOf (b : List Byte) : BandTable where
  bounds := #v[le32 b 0, le32 b 4, le32 b 8, le32 b 12, le32 b 16, le32 b 20, le32 b 24]
  waits := #v[le32 b 28, le32 b 32, le32 b 36, le32 b 40, le32 b 44, le32 b 48, le32 b 52, le32 b 56]

/-- The bound B_k, k = 0..8: B_0 is 0 and B_8 unbounded (R52). -/
def BandTable.bound (t : BandTable) (k : Nat) : Option Nat :=
  if k = 0 then some 0 else t.bounds[k - 1]?

/-- The reply timeout W_b in µs (R51). -/
def BandTable.wait (t : BandTable) (b : Fin 8) : Nat := t.waits[b]

/-- R48: the conditions a band table block must meet. -/
def bandBlockValid (b : List Byte) : Bool :=
  (List.range 7).all (fun k => 1 ≤ le32 b (4 * k) && le32 b (4 * k) ≤ 999999)
    && (List.range 6).all (fun k => le32 b (4 * k) < le32 b (4 * (k + 1)))
    && (List.range 8).all (fun k => 100 ≤ le32 b (28 + 4 * k) && le32 b (28 + 4 * k) ≤ 1000000)
    && (List.range 7).all (fun k => le32 b (4 * k) < le32 b (28 + 4 * k))
    && le32 b 24 < le32 b 56
    && (List.range 4).all (fun i => le8 b (60 + i) == 0)

end Sys2Proof.Machine
end

