-- ==== Sys2Proof/Machine/Ops.lean ====
section
/-! DEFINITION. The named operations over the state: reading and writing one line, station, queue or context; host
memory as the part has written it; the clocks; handing a completion to the writer. Every meaning goes through these. -/

namespace Sys2Proof.Machine

/-- The 64 handles in ascending order. -/
def allHandles : List Handle := List.finRange 64

/-- The four lines in ascending order. -/
def allLines : List LineNo := List.finRange 4

/-- The four queues in ascending order. -/
def allQueues : List QueueNo := List.finRange 4

/-! ## One line, one station, one queue -/

/-- The line `l`. -/
def State.line (s : State) (l : LineNo) : Line := s.lines[l]

/-- The state with line `l` replaced. -/
def State.setLine (s : State) (l : LineNo) (x : Line) : State := { s with lines := s.lines.set l x }

/-- The state with line `l` changed by `f`. -/
def State.updLine (s : State) (l : LineNo) (f : Line → Line) : State := s.setLine l (f (s.line l))

/-- The entry of handle `h`: none when it is free. -/
def State.station (s : State) (h : Handle) : Option Station := s.stations[h]

/-- The state with the entry of `h` replaced. -/
def State.setStation (s : State) (h : Handle) (x : Option Station) : State :=
  { s with stations := s.stations.set h x }

/-- The state with the entry of `h` changed by `f` if it is in use. -/
def State.updStation (s : State) (h : Handle) (f : Station → Station) : State :=
  s.setStation h ((s.station h).map f)

/-- The descriptor of queue `q`. -/
def State.queue (s : State) (q : QueueNo) : Queue := s.queues[q]

/-- The state with queue `q` changed by `f`. -/
def State.updQueue (s : State) (q : QueueNo) (f : Queue → Queue) : State :=
  { s with queues := s.queues.set q (f (s.queue q)) }

/-! ## Contexts (chapter 4) -/

/-- The context in use named `id`. -/
def State.ctx (s : State) (id : Nat) : Option Context := s.pool.find? fun c => c.id == id

/-- The state with the context `id` changed by `f`. A context in ENDING is finished for every purpose but the write
(section 4.6), so nothing changes it. -/
def State.updCtx (s : State) (id : Nat) (f : Context → Context) : State :=
  { s with pool := s.pool.map fun c => if c.id = id ∧ c.phase ≠ .ending then f c else c }

/-- The phase of context `id`. -/
def State.phaseOf (s : State) (id : Nat) : Option Phase := (s.ctx id).map (·.phase)

/-- The station handle of an exchange. -/
def Context.exchangeHandle (c : Context) : Option Handle :=
  match c.body with
  | .exchange h _ _ _ _ => some h
  | _ => none

/-- The lowest context not in use (entry 5), while one is free. -/
def State.freeCtx (s : State) : Option Nat :=
  (List.range Config.contexts).find? fun i => !s.pool.any fun c => c.id == i

/-- A context reserved for a record read of queue `q` (R56, R135). DESIGN CHOICE (entry 30): until the read has ended the
spec says nothing of its kind, tag and phase; they are none, 0 and QUEUED. -/
def reservedContext (id : Nat) (q : QueueNo) (cls : QueueClass) : Context where
  id := id
  queue := q
  cls := cls
  kindCode := 0
  kind := none
  tag := 0
  body := .reserved
  attemptsMade := 0
  linkAttempts := 0
  busyCount := 0
  abortRequested := none
  unanswered := false
  lastFailure := none
  lastTurnaround := none
  fenceCount := 0
  phase := .queued

/-! ## Interrupt causes (R151) -/

/-- Bit numbers of the causes in INT_STATUS and INT_ENABLE (section 11.1). -/
inductive IntCause where
  | completion | event | halted | failed | rejected
  deriving DecidableEq, Repr

/-- The mask of a cause. -/
def IntCause.mask : IntCause → BitVec 5
  | .completion => 1
  | .event => 2
  | .halted => 4
  | .failed => 8
  | .rejected => 16

/-- R151: the interrupt output follows status and enable. -/
def State.drivePin (s : State) : State := { s with intPin := s.intStatus &&& s.intEnable != 0 }

/-- Set a cause; a cause already set stays set (R151). The output follows at once. -/
def State.setCause (s : State) (c : IntCause) : State :=
  ({ s with intStatus := s.intStatus ||| c.mask } : State).drivePin

/-! ## Device conditions -/

/-- The part acts on events: its reset input is not held (R161). -/
def State.live (s : State) : Bool := !s.resetHeld

/-- Lines, intake and station timers act: the part is live and not FAILED (R159). -/
def State.operating (s : State) : Bool := s.live && s.device != .failed

/-- The writers write and the rings are installed: RUNNING, HALTING or HALTED (R153). -/
def State.posting (s : State) : Bool :=
  s.live && (s.device == .running || s.device == .halting || s.device == .halted)

/-! ## Time (entry 3) -/

/-- Time passes: the clock of the holdoff timers counts on, and the time of the lines and the station timers does too,
except in FAILED (R35, R99). -/
def State.elapse (s : State) (d : Nat) : State :=
  { s with
    clock := s.clock + d
    time := if s.device = .failed then s.time else s.time + d }

/-- The part's time reaches the moment `t`, if it has not passed it already. -/
def State.reach (s : State) (t : Nat) : State := s.elapse (t - s.time)

/-- The bit time of the line, in units of 1/144 µs (R2). -/
def Line.bit (x : Line) : Nat := (x.rate.map Config.bitTicks).getD 0

/-- The character time C: eleven bit times (section 1.1). -/
def Line.char (x : Line) : Nat := 11 * x.bit

/-- The moment at which a duration that began at `start` reaches `n` C (R15). A rate installed meanwhile has the time
elapsed compared from its installation on (R97, R123), so that a threshold already passed then is reached there. -/
def Line.reaches (x : Line) (start n : Nat) : Nat := max (start + n * x.char) x.rateSince

/-! ## Lists and notices -/

/-- A context joins the tail of a list that holds no duplicates (R46, R102). -/
def joinTail (ids : List Nat) (id : Nat) : List Nat := if ids.contains id then ids else ids ++ [id]

/-- R113: a notice of new work. An IDLE engine owes its scheduler a consultation; in any other state the notice has no
effect of its own. -/
def Line.noticed (x : Line) : Line := if x.state = .idle then { x with consultDue := true } else x

/-- The scheduler of line `l` is told that new work exists (R40, R113). -/
def State.notify (s : State) (l : LineNo) : State := s.updLine l Line.noticed

/-- The schedulers of the lines listed are told that new work exists (R113). -/
def State.tellLines (s : State) (ls : List LineNo) : State :=
  { s with lines := Vector.ofFn fun l => if ls.contains l then (s.line l).noticed else s.line l }

/-- R142: the fetch arbiter is told; while a read is in progress the event has no effect of its own. -/
def State.tellArbiter (s : State) : State := { s with fetchDue := s.fetchDue || s.reading.isNone }

/-! ## Host memory, as the part has written it (entry 11) -/

/-- The canonical form: addresses strictly rising. An unlisted address has no octet of the part's, so no entry equals
what an unlisted address reads as. -/
def memoryOrdered (m : List Host.Cell) : Bool := m.Pairwise fun a b => a.1 < b.1

/-- The octet the part has written at `a`, if it has written one. -/
def readMem (m : List Host.Cell) (a : Nat) : Option Byte := (m.find? fun c => c.1 == a).map (·.2)

/-- Write one octet, keeping the canonical form. -/
def writeByte (a : Nat) (b : Byte) : List Host.Cell → List Host.Cell
  | [] => [(a, b)]
  | (k, v) :: rest =>
    if a < k then (a, b) :: (k, v) :: rest
    else if a = k then (a, b) :: rest
    else (k, v) :: writeByte a b rest

/-- The address `i` octets after `base`, in 32 bits (entry 13). -/
def addrPlus (base : Word) (i : Nat) : Nat := (base + BitVec.ofNat 32 i).toNat

/-- Write octet `i` of `octets` at `base + i`, for each offset `i` listed, in that order. -/
def writeOctets (base : Word) (octets : List Byte) (offsets : List Nat) (m : List Host.Cell) : List Host.Cell :=
  offsets.foldl (fun m i => writeByte (addrPlus base i) (octetAt octets i) m) m

/-- The offsets of the first `n` words of a list of word offsets. -/
def wordOffsets (words : List Nat) (n : Nat) : List Nat :=
  (words.take n).flatMap fun w => [4 * w, 4 * w + 1, 4 * w + 2, 4 * w + 3]

/-- The words of a completion entry in the order they are written: the phase word, 3, last (R144). -/
def completionWords : List Nat := [0, 1, 2, 3]

/-- The words of an event entry in the order they are written: the phase word, 0, last (R149). -/
def eventWords : List Nat := [1, 2, 3, 4, 5, 6, 7, 8, 9, 10, 11, 12, 13, 14, 15, 0]

/-- The offsets of the first `n` transactions of a write of `len` octets at `base`, each within one aligned word (R63). -/
def transactionOffsets (base : Word) (len n : Nat) : List Nat :=
  (List.range len).filter fun i => (base.toNat % 4 + i) / 4 < n

/-- The transactions of a write of `len` octets at `base`. -/
def transactionCount (base : Word) (len : Nat) : Nat :=
  if len = 0 then 0 else (base.toNat % 4 + len - 1) / 4 + 1

/-! ## Handing completions (R144) -/

/-- Hand a completion to the writer: the context enters ENDING and joins the tail of the handed list. A context whose
end is already decided is not handed again (R144), and one reserved for a read under way has no record to end. -/
def State.hand (s : State) (id : Nat) (status : Status) (detail : Detail) (replyLength : Nat)
    (band : Option (Fin 8)) (turnaround : Option Nat) : State :=
  match s.ctx id with
  | none => s
  | some c =>
    if c.phase = .ending ∨ c.body = .reserved then s
    else
      { s.updCtx id (fun c => { c with phase := .ending }) with
        handed := s.handed ++ [{
          ctx := id, kindCode := c.kindCode, tag := c.tag, queue := c.queue, status := status, detail := detail,
          replyLength := replyLength, band := band, turnaround := turnaround }] }

/-- End a record that has no reply, band or turnaround: a management record, an ABORT, a FENCE, or a record refused at
validation (R80, R114, R141). -/
def State.endRecord (s : State) (id : Nat) (status : Status) (detail : Detail) : State :=
  s.hand id status detail 0 none none

end Sys2Proof.Machine
end

