-- ==== Sys2Proof/Machine/Frames.lean ====
section
/-! DEFINITION. Characters, the check, the frames the part sends and how it judges the frame it receives
(chapter 1, section 11.6). -/

namespace Sys2Proof.Machine

/-! ## Characters (R1) -/

/-- The bits of one character in the order sent, `true` for mark: a start bit at space, the data bits least significant
first, the mark bit, a stop bit at mark (R1). -/
def characterBits (octet : Byte) (m : Bool) : List Bool :=
  [false] ++ (List.range 8).map (fun i => octet.getLsbD i) ++ [m, true]

/-- The bits of a frame: no gaps, the mark bit 1 in position 0 alone (R1). -/
def frameBits (frame : List Byte) : List Bool :=
  frame.zipIdx.flatMap fun p => characterBits p.1 (p.2 == 0)

/-! ## The check (R6) -/

/-- One bit of the check register: the generator is x^16 + x^12 + x^5 + 1. -/
def crcBit (r : BitVec 16) : BitVec 16 := if r.getLsbD 15 then (r <<< 1) ^^^ 0x1021#16 else r <<< 1

/-- One octet, most significant bit first. -/
def crcOctet (r : BitVec 16) (b : Byte) : BitVec 16 :=
  (List.range 8).foldl (fun r _ => crcBit r) (r ^^^ (b.setWidth 16 <<< 8))

/-- The check of a run of octets: the register starts at all ones. -/
def crc (octets : List Byte) : BitVec 16 := octets.foldl crcOctet 0xFFFF#16

/-- The two check octets, high octet first. -/
def checkOctets (body : List Byte) : List Byte :=
  [(crc body >>> 8).setWidth 8, (crc body).setWidth 8]

/-! ## Frames the part sends (R4 to R7) -/

/-- The kinds the part sends (R7). -/
inductive SentKind where
  | command | poll | linkReset
  deriving DecidableEq, Repr

/-- The kind codes of R7. -/
def SentKind.code : SentKind → Byte
  | .command => 1
  | .poll => 2
  | .linkReset => 3

/-- R5: kind in bits 3..0, sequence bit in bit 4, zeros above. -/
def controlOctet (k : SentKind) (seq : Bool) : Byte := k.code ||| (if seq then 0x10#8 else 0x00#8)

/-- A frame of the part: address with direction 0, control, length, payload, check (R4, R5, R6). -/
def formFrame (addr : BitVec 7) (k : SentKind) (seq : Bool) (payload : List Byte) : List Byte :=
  let body := addr.setWidth 8 :: controlOctet k seq :: BitVec.ofNat 8 payload.length :: payload
  body ++ checkOctets body

/-! ## Frames the part receives (R8 to R14) -/

/-- The reason classes of a NAK (R9). -/
inductive NakClass where
  | check | refused | unsupported
  deriving DecidableEq, Repr

/-- The outcomes of an attempt that awaits an answer (R14). A decoded REPLY or ATTENTION carries its payload. -/
inductive AttemptOutcome where
  | ack
  | reply (octets : List Byte)
  | busy
  | nak (cls : NakClass) (reason : Byte)
  | attention (octets : List Byte)
  | idle
  | noAnswer | garbled | wrongStation | unexpected | lineBreak
  deriving DecidableEq, Repr

/-- Decoded answers are of answer class (R14). -/
def AttemptOutcome.isAnswer : AttemptOutcome → Bool
  | .ack => true
  | .reply _ => true
  | .busy => true
  | .nak _ _ => true
  | .attention _ => true
  | .idle => true
  | .noAnswer => false
  | .garbled => false
  | .wrongStation => false
  | .unexpected => false
  | .lineBreak => false

/-- The misses of R25. -/
def AttemptOutcome.isMiss : AttemptOutcome → Bool
  | .noAnswer => true
  | .garbled => true
  | .wrongStation => true
  | .unexpected => true
  | .ack => false
  | .reply _ => false
  | .busy => false
  | .nak _ _ => false
  | .attention _ => false
  | .idle => false
  | .lineBreak => false

/-- The failure cause an exchange remembers of an outcome (R62): every failure, and a NAK CHECK. -/
def AttemptOutcome.failure : AttemptOutcome → Option FailureCause
  | .noAnswer => some .noAnswer
  | .garbled => some .garbled
  | .wrongStation => some .wrongStation
  | .unexpected => some .unexpected
  | .lineBreak => some .lineBreak
  | .nak .check _ => some .nakCheck
  | .nak .refused _ => none
  | .nak .unsupported _ => none
  | .ack => none
  | .reply _ => none
  | .busy => none
  | .attention _ => none
  | .idle => none

/-- R9: the reason class of a NAK's payload octet. -/
def nakClass (reason : Byte) : NakClass :=
  if reason = 1 then .check else if reason = 3 then .unsupported else .refused

/-- R12: the address octet of the answer: direction 1 and the address the part sent to. -/
def answerAddress (addr : BitVec 7) : Byte := 0x80#8 ||| addr.setWidth 8

/-- R7 and R8: the answer a station frame of kind code `code` and this payload gives to the kind sent; none where the
kind is not permitted or its length not allowed. -/
def decodeAnswer (sent : SentKind) (code : Nat) (payload : List Byte) : Option AttemptOutcome :=
  match sent, code with
  | .command, 8 => if payload.length = 0 then some .ack else none
  | .command, 9 => if payload.length ≤ 240 then some (.reply payload) else none
  | .command, 10 => if payload.length = 0 then some .busy else none
  | .command, 11 => if payload.length = 1 then some (.nak (nakClass (octetAt payload 0)) (octetAt payload 0)) else none
  | .poll, 12 => if 1 ≤ payload.length ∧ payload.length ≤ 48 then some (.attention payload) else none
  | .poll, 13 => if payload.length = 0 then some .idle else none
  | .poll, 10 => if payload.length = 0 then some .busy else none
  | .linkReset, 8 => if payload.length = 0 then some .ack else none
  | _, _ => none

/-- R13: the outcome of a good frame, from its control octet and payload. -/
def judgeGoodFrame (sent : SentKind) (control : Byte) (payload : List Byte) : AttemptOutcome :=
  if control.getLsbD 7 || control.getLsbD 6 then .unexpected
  else (decodeAnswer sent (control.toNat % 16) payload).getD .unexpected

/-- The AP bit of a control octet (section 11.6). -/
def apBit (control : Byte) : Bool := control.getLsbD 5

/-- What a received character does to the answer frame (R11 to R13). -/
inductive FrameStep where
  /-- the frame goes on -/
  | more
  /-- the address was wrong; the rest is not interpreted (R12) -/
  | wrong
  /-- a check of R11 failed -/
  | garbled
  /-- the last octet of a good frame: its outcome and AP bit -/
  | good (o : AttemptOutcome) (ap : Bool)
  deriving DecidableEq, Repr

/-- R11 to R13: judge the next character of an answer, after the octets `before`. -/
def judgeCharacter (sent : SentKind) (addr : BitVec 7) (before : List Byte) (octet : Byte) (mark ferr : Bool) :
    FrameStep :=
  if ferr then .garbled
  else if before.length = 0 then (if octet = answerAddress addr then .more else .wrong)
  else if mark then .garbled
  else if before.length = 2 then (if octet.toNat > 240 then .garbled else .more)
  else
    let frame := before ++ [octet]
    let n := le8 frame 2
    if frame.length < n + 5 then .more
    else if frame.drop (n + 3) = checkOctets (frame.take (n + 3)) then
      .good (judgeGoodFrame sent (octetAt frame 1) ((frame.drop 3).take n)) (apBit (octetAt frame 1))
    else .garbled

end Sys2Proof.Machine
end

