-- ==== Sys2Proof/Machine/Stations.lean ====
section
/-! DEFINITION. The station entry: presence, bands, misses, timers, and what each outcome of an attempt does to it
(chapters 2 and 3). Pure functions of one entry; `now` is a moment of `State.time`. -/

namespace Sys2Proof.Machine

/-! ## Presence (R20, R21) -/

/-- The presence that a state other than CLOSING gives (R20). -/
def presenceOf : StationState → Presence
  | .new => .absent
  | .online => .present
  | .hold => .present
  | .offline => .absent
  | .closing => .absent

/-- The presence of an in-use entry: a CLOSING one has that of its closing-from state (R20). -/
def Station.presence (st : Station) : Presence :=
  match st.state with
  | .closing => presenceOf (st.closingFrom.getD .closing)
  | x => presenceOf x

/-- Count a presence change, saturating at 255 (R20). -/
def Station.countChange (st : Station) : Station :=
  { st with presenceChanges := min 255 (st.presenceChanges + 1) }

/-! ## A new entry (R18) -/

/-- The entry that an ADD_STATION record takes into use. -/
def newStation (r : List Byte) : Station where
  line := recStationLine r
  address := recAddress r
  state := .new
  closingFrom := none
  remover := none
  paused := false
  cseq := false
  pseq := false
  link := .uncertain
  band := recBand r
  retryLimit := le8 r 8
  missLimit := le8 r 9
  missCount := 0
  busyLimit := le8 r 10
  pollInterval := le16 r 12
  holdTime := le16 r 14
  probeInterval := le16 r 16
  timer := none
  pollDue := none
  probeDue := none
  attention := none
  pending := []
  presenceChanges := 0
  lastReported := .absent

/-! ## Timers (R35, R36) -/

/-- A timer of this kind and length in ms, started at `now`. -/
def startTimer (kind : TimerKind) (ms now : Nat) : Option StationTimer :=
  some { kind := kind, expires := now + ms * Config.ticksPerMillisecond }

/-- The poll timer that an ONLINE station with a non-zero interval and poll due clear starts; none otherwise (R35). -/
def Station.pollTimer (st : Station) (now : Nat) : Option StationTimer :=
  if st.pollInterval ≠ 0 ∧ st.pollDue = none then startTimer .poll st.pollInterval now else none

/-- The remaining time of the running timer, in units of the clock (section 2.1). -/
def Station.timerRemaining (st : Station) (now : Nat) : Option Nat := st.timer.map fun t => t.expires - now

/-! ## Bands (R52, R53) -/

/-- The band that contains the turnaround `t`: as many bounds lie below it (section 3.1). -/
def BandTable.bandOf (tbl : BandTable) (t : Nat) : Nat := tbl.bounds.toList.countP fun b => b < t

/-- R52: the band after a decoded answer with turnaround `t`. -/
def bandAfterAnswer (tbl : BandTable) (hysteresis t : Nat) (b : Fin 8) : Fin 8 :=
  if b.val < 7 ∧ tbl.bounds.toList.getD b.val 0 < t then
    ⟨tbl.bandOf t % 8, Nat.mod_lt _ (by decide)⟩
  else if 0 < b.val ∧ t + hysteresis ≤ tbl.bounds.toList.getD (b.val - 1) 0 then
    ⟨b.val - 1, by omega⟩
  else b

/-- R53: a NO_ANSWER steps the band up by one; 7 stays 7. -/
def bandAfterSilence (b : Fin 8) : Fin 8 := ⟨min 7 (b.val + 1), by omega⟩

/-- The first step of R29 on the band: R52 for a decoded answer, R53 for NO_ANSWER, nothing else. -/
def Station.updateBand (st : Station) (table : Option BandTable) (hysteresis : Nat) (o : AttemptOutcome)
    (turnaround : Option Nat) : Station :=
  if o = .noAnswer then { st with band := bandAfterSilence st.band }
  else if o.isAnswer then
    match table, turnaround with
    | some tbl, some t => { st with band := bandAfterAnswer tbl hysteresis t st.band }
    | _, _ => st
  else st

/-! ## Misses and OFFLINE (R25 to R28) -/

/-- R28, the entry's own part: OFFLINE, link UNCERTAIN, poll due clear, a probe timer, a presence change from ONLINE. -/
def Station.goOffline (st : Station) (now : Nat) : Station :=
  let st' := { st with
    state := .offline
    missCount := st.missLimit
    link := .uncertain
    pollDue := none
    timer := startTimer .probe st.probeInterval now }
  if st.state = .online then st'.countChange else st'

/-- R25, R27, R28: a miss of a NEW or ONLINE station. -/
def Station.miss (st : Station) (now : Nat) : Station :=
  if st.missCount + 1 ≥ st.missLimit then st.goOffline now else { st with missCount := st.missCount + 1 }

/-! ## HOLD (R34) -/

/-- R34: BUSY takes an ONLINE station to HOLD with a hold timer. -/
def Station.enterHold (st : Station) (now : Nat) : Station :=
  { st with state := .hold, missCount := 0, timer := startTimer .hold st.holdTime now }

/-! ## The outcomes of each kind of attempt -/

/-- An acknowledged LINK_RESET: both sequence bits 0, any toggle disarmed, link CERTAIN (R22 to R24). -/
def Station.linkAcknowledged (st : Station) : Station :=
  { st with cseq := false, pseq := false, link := .certain, attention := st.attention.map fun _ => false }

/-- The outcome of a COMMAND attempt to an ONLINE station (R22, R24, R25, R27, R28, R34). -/
def Station.afterCommand (st : Station) (o : AttemptOutcome) (now : Nat) : Station :=
  match o with
  | .ack => { st with missCount := 0, cseq := !st.cseq, link := .certain }
  | .reply _ => { st with missCount := 0, cseq := !st.cseq, link := .certain }
  | .busy => st.enterHold now
  | .nak .check _ => st
  | .nak .refused _ => { st with missCount := 0, link := .certain }
  | .nak .unsupported _ => { st with missCount := 0, link := .certain }
  | .attention _ => { st with missCount := 0 }
  | .idle => { st with missCount := 0 }
  | .noAnswer => st.miss now
  | .garbled => st.miss now
  | .wrongStation => st.miss now
  | .unexpected => st.miss now
  | .lineBreak => st

/-- R32, the effect of each outcome of a POLL once poll due has been cleared. -/
def Station.pollAnswered (st : Station) (o : AttemptOutcome) (now : Nat) : Station :=
  match o with
  | .attention _ => { st with missCount := 0, attention := some true }
  | .idle => { st with missCount := 0 }
  | .busy => st.enterHold now
  | .noAnswer => st.miss now
  | .garbled => st.miss now
  | .wrongStation => st.miss now
  | .unexpected => st.miss now
  | .ack => { st with missCount := 0 }
  | .reply _ => { st with missCount := 0 }
  | .nak _ _ => st
  | .lineBreak => st

/-- R32 without the restart of the poll timer: poll due is cleared, then the outcome's effect. -/
def Station.pollOutcome (st : Station) (o : AttemptOutcome) (now : Nat) : Station :=
  ({ st with pollDue := none } : Station).pollAnswered o now

/-- R32: the outcome of a POLL attempt to an ONLINE station; still ONLINE, its poll timer restarts. -/
def Station.afterPoll (st : Station) (o : AttemptOutcome) (now : Nat) : Station :=
  let st' := st.pollOutcome o now
  if st'.state = .online ∧ st'.pollInterval ≠ 0 then
    { st' with timer := startTimer .poll st'.pollInterval now }
  else st'

/-- R30: the outcome of a link-service attempt to a NEW or ONLINE station. -/
def Station.afterLink (st : Station) (o : AttemptOutcome) (now : Nat) : Station :=
  if o = .ack then
    let st' := { st.linkAcknowledged with missCount := 0 }
    if st.state = .new then { st' with state := .online, timer := st.pollTimer now }.countChange else st'
  else if o.isMiss then st.miss now
  else st

/-- R31: the outcome of a probe of an OFFLINE station. -/
def Station.afterProbe (st : Station) (o : AttemptOutcome) (now : Nat) : Station :=
  let st := { st with probeDue := none }
  if o = .ack then
    { st.linkAcknowledged with
      missCount := 0
      state := .online
      timer := if st.pollInterval ≠ 0 then startTimer .poll st.pollInterval now else none }.countChange
  else { st with timer := startTimer .probe st.probeInterval now }

/-- R44: the outcome of an attempt to a CLOSING station. -/
def Station.afterClosing (st : Station) (job : Job) (o : AttemptOutcome) : Station :=
  match job, o with
  | .command _ _ _, .ack => { st with cseq := !st.cseq, link := .certain }
  | .command _ _ _, .reply _ => { st with cseq := !st.cseq, link := .certain }
  | .command _ _ _, .nak .refused _ => { st with link := .certain }
  | .command _ _ _, .nak .unsupported _ => { st with link := .certain }
  | .poll _ _, .attention _ => { st with attention := some true }
  | .link _, .ack => st.linkAcknowledged
  | .probe _, .ack => st.linkAcknowledged
  | _, _ => st

/-- R33: the AP bit of a good frame, the last step of R29. -/
def Station.applyAp (st : Station) (ap : Bool) (now : Nat) : Station :=
  if ap && (st.state == .online || st.state == .hold) then
    { st with
      pollDue := some (st.pollDue.getD now)
      timer := if st.timer.map (·.kind) = some .poll then none else st.timer }
  else st

/-- The effect of the outcome by the kind of attempt, on a station in the state that kind is made in (R30 to R32, R34). -/
def Station.afterJob (st : Station) (job : Job) (o : AttemptOutcome) (now : Nat) : Station :=
  match job, st.state with
  | .command _ _ _, .online => st.afterCommand o now
  | .poll _ _, .online => st.afterPoll o now
  | .link _, .new => st.afterLink o now
  | .link _, .online => st.afterLink o now
  | .probe _, .offline => st.afterProbe o now
  | _, _ => st

/-- R29, the entry's own part: band and miss count, state, sequence bits and link, timer and due flags, then AP. A
CLOSING entry is under R44. -/
def Station.applyOutcome (st : Station) (table : Option BandTable) (hysteresis : Nat) (job : Job)
    (o : AttemptOutcome) (turnaround : Option Nat) (ap : Bool) (now : Nat) : Station :=
  if st.state = .closing then st.afterClosing job o
  else ((st.updateBand table hysteresis o turnaround).afterJob job o now).applyAp ap now

/-! ## Breaks (R41) -/

/-- R41: a break reaches an in-use entry in any state. -/
def Station.breakReaches (st : Station) : Station := st.linkAcknowledged

/-! ## What the entry offers its scheduler (R40) -/

/-- The station offers a poll. -/
def Station.offersPoll (st : Station) : Bool :=
  st.state == .online && !st.paused && st.pollDue.isSome && st.attention.isNone

/-- The station offers a probe. -/
def Station.offersProbe (st : Station) : Bool :=
  st.state == .offline && !st.paused && st.probeDue.isSome

/-! ## Timer expiries (R37 to R39) -/

/-- R37: the poll timer expires at the moment `t`. -/
def Station.pollExpired (st : Station) (t : Nat) : Station :=
  { st with pollDue := some (st.pollDue.getD t), timer := none }

/-- R38: the hold timer expires at the moment `t`. -/
def Station.holdExpired (st : Station) (t : Nat) : Station :=
  { st with state := .online, timer := st.pollTimer t }

/-- R39: the probe timer expires at the moment `t`. -/
def Station.probeExpired (st : Station) (t : Nat) : Station :=
  { st with probeDue := some (st.probeDue.getD t), timer := none }

/-! ## CLOSING (R43) and attention deliveries (R23) -/

/-- R43, steps 1 to 4, with the waiting REMOVE_STATION record. -/
def Station.enterClosing (st : Station) (remover : Nat) : Station :=
  { st with
    closingFrom := some st.state
    state := .closing
    remover := some remover
    timer := none
    pollDue := none
    probeDue := none }

/-- R23: the ATTENTION entry has been written. -/
def Station.deliveryEnds (st : Station) : Station :=
  { st with pseq := if st.attention = some true then !st.pseq else st.pseq, attention := none }

end Sys2Proof.Machine
end

