-- ==== Sys2Proof/Machine/Exchanges.lean ====
section
/-! DEFINITION. The end of exchanges, broadcasts and records that wait: leaving the lists, the uncertainty marking, the
drain of a CLOSING station, the freeing of its entry, ABORT's part (chapter 4, sections 2.9 and 2.10). -/

namespace Sys2Proof.Machine

/-- The line on which an exchange or broadcast stands: its station's, or its own. -/
def State.contextLine (s : State) (c : Context) : Option LineNo :=
  match c.body with
  | .exchange h _ _ _ _ => (s.station h).map (·.line)
  | .broadcast l _ _ => some l
  | _ => none

/-- The handle of the station an attempt addresses. -/
def Job.handle : Job → Option Handle
  | .command _ h _ => some h
  | .broadcast _ => none
  | .poll h _ => some h
  | .link h => some h
  | .probe h => some h

/-- R14: an attempt is in progress from the start of its transmission until its outcome is fixed. -/
def Line.attempting (x : Line) (h : Handle) : Bool :=
  (x.state == .transmit || x.state == .await || x.state == .receive) && x.job.bind Job.handle == some h

/-- The context stands in PREPARING or ATTEMPTING. -/
def State.inAttempt (s : State) (id : Nat) : Bool :=
  s.phaseOf id == some .preparing || s.phaseOf id == some .attempting

/-- R45: a CLOSING entry with an empty list, no attempt in progress and no delivery becomes free, and its
REMOVE_STATION ends OK. -/
def State.tryFree (s : State) (h : Handle) : State :=
  match s.station h with
  | none => s
  | some st =>
    if st.state = .closing ∧ st.pending = [] ∧ (s.line st.line).attempting h = false ∧ st.attention = none then
      match st.remover with
      | some id => (s.setStation h none).endRecord id .ok .none
      | none => s.setStation h none
    else s

/-- R46: an exchange leaves its station's pending list. -/
def State.leavePending (s : State) (c : Context) : State :=
  match c.exchangeHandle with
  | some h => s.updStation h fun st => { st with pending := st.pending.erase c.id }
  | none => s

/-- The context leaves the line's retry list and FIFO, and the transmit buffer no longer holds its payload. -/
def Line.forget (x : Line) (id : Nat) : Line :=
  { x with
    retryList := x.retryList.erase id
    fifo := x.fifo.erase id
    txHolds := if x.txHolds = some id then none else x.txHolds }

/-- R70, steps 1 and 2: the context leaves its pending list, FIFO and retry list, and the transmit buffer no longer
holds its payload. -/
def State.leaveLists (s : State) (c : Context) : State :=
  match s.contextLine c with
  | some l => (s.leavePending c).updLine l fun x => x.forget c.id
  | none => s.leavePending c

/-- The statuses under which an unanswered transmission leaves the link in doubt (R68). -/
def Status.marksUncertain : Status → Bool
  | .noReply => true
  | .stationOffline => true
  | .aborted => true
  | .cancelled => true
  | _ => false

/-- R68: the station's link becomes UNCERTAIN; where an exchange stands at the head of its list, its scheduler is told
(R40). -/
def State.linkInDoubt (s : State) (h : Handle) : State :=
  match s.station h with
  | none => s
  | some st =>
    let s' := s.setStation h (some { st with link := .uncertain })
    if st.link = .certain ∧ st.pending ≠ [] then s'.notify st.line else s'

/-- R68: the uncertainty marking. -/
def State.markUncertain (s : State) (c : Context) (status : Status) : State :=
  match c.exchangeHandle with
  | some h => if c.unanswered && status.marksUncertain then s.linkInDoubt h else s
  | none => s

/-- R80: the detail of an exchange's or broadcast's end: the last failure cause, or none. -/
def Context.failureDetail (c : Context) : Detail :=
  match c.lastFailure with
  | some f => .failure f
  | none => .none

/-- R55: the band an exchange's completion carries, the station's as it stands. -/
def State.completionBand (s : State) (c : Context) : Option (Fin 8) :=
  match c.exchangeHandle with
  | some h => (s.station h).map (·.band)
  | none => none

/-- R70: the end of one exchange or broadcast is decided. -/
def State.endOne (s : State) (id : Nat) (status : Status) (detail : Detail) (replyLength : Nat) : State :=
  match s.ctx id with
  | none => s
  | some c =>
    if c.phase = .ending then s
    else
      let s' := (s.leaveLists c).markUncertain c status
      s'.hand id status detail replyLength (s'.completionBand c) c.lastTurnaround

/-- End an exchange whose detail is its last failure cause (R80). -/
def State.endPlain (s : State) (id : Nat) (status : Status) : State :=
  s.endOne id status (((s.ctx id).map Context.failureDetail).getD .none) 0

/-- R43, step 5, and R28, step 6: end every context of the station's list, in order. -/
def State.endList (s : State) (h : Handle) (status : Status) : State :=
  match s.station h with
  | none => s
  | some st => st.pending.foldl (fun s id => s.endPlain id status) s

/-- R43: the waiting contexts of a CLOSING station end CANCELLED once none of its list is in PREPARING or ATTEMPTING. -/
def State.drainClosing (s : State) (h : Handle) : State :=
  match s.station h with
  | none => s
  | some st =>
    if st.state = .closing ∧ (st.pending.any fun id => s.inAttempt id) = false then s.endList h .cancelled else s

/-- The station table looks at a CLOSING entry: drain (R43), then free (R45). -/
def State.settleClosing (s : State) (h : Handle) : State := (s.drainClosing h).tryFree h

/-- R70 with what follows it: the end of an exchange or broadcast, then the look at its CLOSING station. -/
def State.endExchange (s : State) (id : Nat) (status : Status) (detail : Detail) (replyLength : Nat) : State :=
  match s.ctx id with
  | none => s
  | some c =>
    let s' := s.endOne id status detail replyLength
    match c.exchangeHandle with
    | some h => s'.settleClosing h
    | none => s'

/-- R70 for an end whose detail is the last failure cause and whose reply length is 0 (R80). -/
def State.endWith (s : State) (id : Nat) (status : Status) : State :=
  s.endExchange id status (((s.ctx id).map Context.failureDetail).getD .none) 0

/-- The ABORT that waits for context `id`, if one does (R78). -/
def State.aborter (s : State) (id : Nat) : Option Nat := (s.ctx id).bind (·.abortRequested)

/-- End the ABORT `a` that waited, after its target's completion (R77, R78). -/
def State.endAbort (s : State) (a : Option Nat) (status : Status) : State :=
  match a with
  | some id => s.endRecord id status .none
  | none => s

end Sys2Proof.Machine
end

