-- ==== Sys2Proof/Machine/Flags.lean ====
section
/-! DEFINITION. The flags and counts of the interrupt unit and of the event ring's places: coalescing (R152), posted and
free places (R135, R147), pending reports and the grant condition (R147, R148). -/

namespace Sys2Proof.Machine

/-! ## Rings -/

/-- Entries posted and not retired: the tail minus the host head, modulo the size (section 9.1). -/
def RingState.posted (r : RingState) : Nat := (r.tail + r.size - r.hostHead) % r.size

/-- The tail after a posting, wrapping from size - 1 to 0 (R145). -/
def RingState.nextTail (r : RingState) : Nat := if r.tail + 1 = r.size then 0 else r.tail + 1

/-- R145, R150: a posting advances the tail and flips the phase when it wraps. -/
def RingState.post (r : RingState) : RingState :=
  { r with tail := r.nextTail, phase := if r.tail + 1 = r.size then !r.phase else r.phase }

/-- R146: the distance from the host head to `v`, modulo the size. -/
def RingState.distance (r : RingState) (v : Nat) : Nat := (v + r.size - r.hostHead) % r.size

/-- R146: the head value lies within the posted entries. -/
def RingState.mayRetire (r : RingState) (v : Nat) : Bool := v < r.size && r.distance v ≤ r.posted

/-- R135: a completion credit is free. -/
def State.creditFree (s : State) : Bool := s.completion.posted + s.pool.length + 1 < s.completion.size

/-! ## Coalescing (R152) -/

/-- One posting: the new coalescing state, and whether the ring's cause is set. `now` is `State.clock`. -/
def Coalescing.posting (c : Coalescing) (now : Nat) : Coalescing × Bool :=
  let count := min 255 (c.count + 1)
  if c.holdoff = 0 ∨ count ≥ c.threshold then ({ c with count := 0, timer := none }, true)
  else
    ({ c with
        count := count
        timer := if c.count = 0 then some (now + c.holdoff * Config.ticksPerMicrosecond) else c.timer }, false)

/-- The holdoff timer's expiry: the count becomes 0 and the timer is stopped. -/
def Coalescing.expire (c : Coalescing) : Coalescing := { c with count := 0, timer := none }

/-- A posting of the completion ring reaches the interrupt unit. -/
def State.completionPosting (s : State) : State :=
  let r := s.completionInt.posting s.clock
  let s := { s with completionInt := r.1 }
  if r.2 then s.setCause .completion else s

/-- A posting of the event ring reaches the interrupt unit. -/
def State.eventPosting (s : State) : State :=
  let r := s.eventInt.posting s.clock
  let s := { s with eventInt := r.1 }
  if r.2 then s.setCause .event else s

/-! ## Reports and places of the event ring (R147, R148) -/

/-- R101: the line has a line report pending. -/
def Line.reportPending (x : Line) : Bool := x.breaksSeen != 0 || x.breakEnded || x.stuckSeen || x.chatter != 0

/-- R21: the entry has a presence report pending. -/
def State.presencePending (s : State) (h : Handle) : Bool :=
  match s.station h with
  | some st => st.presenceChanges != 0
  | none => false

/-- The pending reports (R147): at most 4 of lines, 4 of queues and 64 of stations. -/
def State.pendingReports (s : State) : Nat :=
  (allLines.countP fun l => (s.line l).reportPending)
    + (allQueues.countP fun q => (s.queue q).report.isSome)
    + (allHandles.countP fun h => s.presencePending h)

/-- The free places of the event ring (R147). -/
def State.freePlaces (s : State) : Nat := s.event.size - 1 - (s.reserved + s.event.posted)

/-- R148: a reservation is granted when the free places outnumber the pending reports. -/
def State.grantable (s : State) : Bool := s.pendingReports < s.freePlaces

/-- R148: after a retirement, a release, a posting or a taken report the grant condition is judged again; when it
holds, the refused lines are told (R113) and the record is cleared. -/
def State.judgeGrant (s : State) : State :=
  if s.grantable then { s.tellLines s.refusedLines with refusedLines := [] } else s

/-- R148: a refused request records the line. -/
def State.recordRefusal (s : State) (l : LineNo) : State :=
  { s with refusedLines := if s.refusedLines.contains l then s.refusedLines else s.refusedLines ++ [l] }

/-- R148: a grant raises the reserved count and ends the line's record of refusal. -/
def State.grantReservation (s : State) (l : LineNo) : State :=
  { s with reserved := s.reserved + 1, refusedLines := s.refusedLines.filter fun k => k != l }

/-- R148: a release lowers the reserved count. -/
def State.releaseReservation (s : State) : State := ({ s with reserved := s.reserved - 1 } : State).judgeGrant

end Sys2Proof.Machine
end

