-- ==== Sys2Proof/Machine/Writers.lean ====
section
/-! DEFINITION. The completion writer and the event writer: the octets of their entries (sections 11.4, 11.5, R163,
R164), beginning a write (R144, R149), and what follows every step in which something may have been handed to them. -/

namespace Sys2Proof.Machine

/-! ## Completion entries -/

/-- Status codes (section 11.4). -/
def Status.code : Status → Byte
  | .ok => 0x00
  | .overrun => 0x01
  | .refused => 0x02
  | .noReply => 0x03
  | .stationBusy => 0x04
  | .stationOffline => 0x05
  | .hostReadError => 0x06
  | .hostWriteError => 0x07
  | .refusedState => 0x08
  | .lineBreak => 0x09
  | .cancelled => 0x0A
  | .aborted => 0x0B
  | .tooLate => 0x0C
  | .notFound => 0x0D
  | .badRecord => 0x0E
  | .badStation => 0x0F
  | .duplicateAddress => 0x10

/-- Failure causes as details (section 11.4). -/
def FailureCause.code : FailureCause → Byte
  | .noAnswer => 0x01
  | .garbled => 0x02
  | .wrongStation => 0x03
  | .unexpected => 0x04
  | .lineBreak => 0x05
  | .nakCheck => 0x06
  | .payloadRead => 0x07

/-- Engine states as details: 0x30..0x38 (section 11.4). -/
def EngineState.code : EngineState → Byte
  | .disabled => 0x30
  | .idle => 0x31
  | .guard => 0x32
  | .preparing => 0x33
  | .transmit => 0x34
  | .await => 0x35
  | .receive => 0x36
  | .breakOut => 0x37
  | .quiesced => 0x38

/-- Detail codes (section 11.4). -/
def Detail.code : Detail → Byte
  | .none => 0x00
  | .failure c => c.code
  | .reason octet => octet
  | .handle h => BitVec.ofNat 8 h.val
  | .unknownKind => 0x11
  | .reservedNonzero => 0x12
  | .fieldRange => 0x13
  | .bandTableInvalid => 0x14
  | .handleFree => 0x18
  | .handleClosing => 0x19
  | .handleInUse => 0x1A
  | .bandTableRead => 0x20
  | .engine state => state.code
  | .lineConfiguring => 0x3F

/-- Octet `i`, least significant first, of a number. -/
def octetOf (n i : Nat) : Byte := BitVec.ofNat 8 (n / 256 ^ i)

/-- The word at offset 8: bits 19..0 the turnaround, bit 31 its presence (section 11.4). -/
def turnaroundWord : Option Nat → Nat
  | some t => 0x80000000 + t % 0x100000
  | none => 0

/-- Octet 7: bits 2..0 the band, bit 7 its presence (section 11.4). -/
def bandOctet : Option (Fin 8) → Byte
  | some b => BitVec.ofNat 8 (0x80 + b.val)
  | none => 0

/-- The 16 octets of a completion entry (section 11.4, R163); `head` is the source queue's head as the write begins. -/
def completionOctets (c : Completion) (head : Nat) (phase : Bool) : List Byte :=
  let t := turnaroundWord c.turnaround
  [c.kindCode, c.status.code, c.detail.code, BitVec.ofNat 8 c.queue.val,
   octetOf c.tag 0, octetOf c.tag 1, BitVec.ofNat 8 c.replyLength, bandOctet c.band,
   octetOf t 0, octetOf t 1, octetOf t 2, octetOf t 3,
   octetOf head 0, octetOf head 1, 0, if phase then 0x80 else 0]

/-- R144: the writer takes the head of the handed list and begins its entry at the tail. -/
def State.startCompletion (s : State) : State :=
  match s.completionWrite, s.handed with
  | none, c :: rest =>
    { s with
      handed := rest
      completionWrite := some {
        ctx := c.ctx
        addr := s.completion.base + BitVec.ofNat 32 (16 * s.completion.tail)
        octets := completionOctets c (s.queue c.queue).head s.completion.phase } }
  | _, _ => s

/-! ## Event entries -/

/-- The first word of an event entry: the report kind and, in bit 7 of octet 3, the phase (section 11.5). -/
def eventHeader (kind : Byte) (phase : Bool) : List Byte := [kind, 0, 0, if phase then 0x80 else 0]

/-- An octet of a flag. -/
def flagOctet (b : Bool) (value : Byte) : Byte := if b then value else 0

/-- Fill with zeros to 64 octets (R164). -/
def fill64 (octets : List Byte) : List Byte := (octets ++ List.replicate 64 0).take 64

/-- The octets of an ATTENTION entry (section 11.5). -/
def attentionOctets (r : AttentionReport) (phase : Bool) : List Byte :=
  fill64 (eventHeader 0x01 phase
    ++ [BitVec.ofNat 8 r.handle.val, flagOctet r.pseq 1 ||| flagOctet r.ap 2, BitVec.ofNat 8 r.octets.length]
    ++ List.replicate 9 0 ++ r.octets)

/-- Presence codes (section 11.5). -/
def Presence.code : Presence → Byte
  | .absent => 0
  | .present => 1

/-- The octets of a PRESENCE entry (section 11.5). -/
def presenceOctets (h : Handle) (st : Station) (phase : Bool) : List Byte :=
  fill64 (eventHeader 0x02 phase
    ++ [BitVec.ofNat 8 h.val, st.presence.code, BitVec.ofNat 8 st.presenceChanges, st.lastReported.code])

/-- Condition codes (section 11.5). -/
def Condition.code : Condition → Byte
  | .clear => 0
  | .break => 1
  | .stuck => 2
  | .recovering => 3

/-- The octets of a LINE entry (section 11.5). -/
def lineOctets (l : LineNo) (x : Line) (phase : Bool) : List Byte :=
  fill64 (eventHeader 0x03 phase
    ++ [BitVec.ofNat 8 l.val, BitVec.ofNat 8 x.breaksSeen, BitVec.ofNat 8 x.chatter,
        flagOctet x.breakEnded 1 ||| flagOctet x.stuckSeen 2, x.condition.code])

/-- Stop cause codes (section 11.5). -/
def StopCause.code : StopCause → Byte
  | .badTail => 1
  | .readError => 2

/-- The octets of a QUEUE_STOPPED entry (section 11.5). -/
def queueStoppedOctets (q : QueueNo) (r : QueueReport) (phase : Bool) : List Byte :=
  fill64 (eventHeader 0x04 phase
    ++ [BitVec.ofNat 8 q.val, r.cause.code, 0, 0, octetOf r.head 0, octetOf r.head 1])

/-- Begin an event entry of these octets at the tail (R149). -/
def State.beginEvent (s : State) (octets : List Byte) (attention : Option (LineNo × Handle)) : State :=
  { s with eventWrite := some {
      addr := s.event.base + BitVec.ofNat 32 (64 * s.event.tail), octets := octets, attention := attention } }

/-- Take a place for a pending report; the grant condition is judged again (R148, R149). -/
def State.takePlace (s : State) : State := ({ s with reserved := s.reserved + 1 } : State).judgeGrant

/-- R101: the line's report is taken and its counts are cleared. -/
def State.takeLineReport (s : State) (l : LineNo) : State :=
  let x := s.line l
  ((s.updLine l fun x => { x with breaksSeen := 0, chatter := 0, breakEnded := false, stuckSeen := false }).beginEvent
    (lineOctets l x s.event.phase) none).takePlace

/-- R133: the queue's report is taken. -/
def State.takeQueueReport (s : State) (q : QueueNo) (r : QueueReport) : State :=
  ((s.updQueue q fun x => { x with report := none }).beginEvent (queueStoppedOctets q r s.event.phase) none).takePlace

/-- R21: the presence report is taken: last reported becomes the current presence, the count 0. -/
def State.takePresenceReport (s : State) (h : Handle) (st : Station) : State :=
  ((s.setStation h (some { st with lastReported := st.presence, presenceChanges := 0 })).beginEvent
    (presenceOctets h st s.event.phase) none).takePlace

/-- R149, step 2: line reports first, then queue reports, then presence reports, each lowest number first. -/
def State.takeReport (s : State) : State :=
  match allLines.find? fun l => (s.line l).reportPending with
  | some l => s.takeLineReport l
  | none =>
    match allQueues.find? fun q => (s.queue q).report.isSome with
    | some q =>
      match (s.queue q).report with
      | some r => s.takeQueueReport q r
      | none => s
    | none =>
      match allHandles.find? fun h => s.presencePending h with
      | some h =>
        match s.station h with
        | some st => s.takePresenceReport h st
        | none => s
      | none => s

/-- R149: with no write in progress, an ATTENTION first, then, when a place is free, a pending report. -/
def State.startEvent (s : State) : State :=
  match s.eventWrite with
  | some _ => s
  | none =>
    match s.attentions with
    | r :: rest =>
      ({ s with attentions := rest } : State).beginEvent (attentionOctets r s.event.phase) (some (r.line, r.handle))
    | [] => if 0 < s.freePlaces then s.takeReport else s

/-! ## After a step (entry 6) -/

/-- A line engine holds the device in HALTING (R158). -/
def EngineState.busy : EngineState → Bool
  | .preparing => true
  | .transmit => true
  | .await => true
  | .receive => true
  | .breakOut => true
  | .disabled => false
  | .idle => false
  | .guard => false
  | .quiesced => false

/-- R158: in HALTING, HALTED follows as soon as nothing is under way, and the HALTED cause is set. -/
def State.checkHalted (s : State) : State :=
  if s.device = .halting ∧ s.reading = none ∧ (allLines.all fun l => !(s.line l).state.busy) then
    ({ s with device := .halted } : State).setCause .halted
  else s

/-- What ends a step in which completions, reports or halting may have moved: the writers begin what they can, and the
device enters HALTED if it may. Outside RUNNING, HALTING and HALTED the writers begin nothing (R153). -/
def State.finish (s : State) : State :=
  if s.posting then s.startCompletion.startEvent.checkHalted else s

end Sys2Proof.Machine
end

