-- ==== Sys2Proof/Machine/Engine.lean ====
section
/-! DEFINITION. The line engine's shared operations: sending a frame, leaving an attempt, breaks, delivering an outcome
to the station table and to the exchange or poll, replies, payload reads that end or are abandoned (chapters 4 and 5). -/

namespace Sys2Proof.Machine

/-! ## Sending a frame (R4 to R7, R61, R69, R72, R74, R86, R109) -/

/-- The frame kind of an attempt (R7). -/
def Job.sentKind : Job → SentKind
  | .command _ _ _ => .command
  | .broadcast _ => .command
  | .poll _ _ => .poll
  | .link _ => .linkReset
  | .probe _ => .linkReset

/-- R4: the address of the attempt's frame. -/
def State.jobAddress (s : State) (job : Job) : BitVec 7 :=
  match job.handle with
  | some h => ((s.station h).map (·.address)).getD 0
  | none => 0

/-- R5: the sequence bit of the attempt's frame. -/
def State.jobSequence (s : State) (job : Job) : Bool :=
  match job with
  | .command _ h _ => ((s.station h).map (·.cseq)).getD false
  | .poll _ p => p
  | .broadcast _ => false
  | .link _ => false
  | .probe _ => false

/-- The payload of the attempt's frame: the transmit buffer for a COMMAND, none otherwise (section 1.2). -/
def State.jobPayload (s : State) (l : LineNo) (job : Job) : List Byte :=
  match job with
  | .command _ _ _ => (s.line l).txBuffer
  | .broadcast _ => (s.line l).txBuffer
  | .poll _ _ => []
  | .link _ => []
  | .probe _ => []

/-- The frame of the attempt (R4 to R6). -/
def State.jobFrame (s : State) (l : LineNo) (job : Job) : List Byte :=
  formFrame (s.jobAddress job) job.sentKind (s.jobSequence job) (s.jobPayload l job)

/-- R109: some station of the line offers a poll or a probe. -/
def State.lineOffers (s : State) (l : LineNo) : Bool :=
  allHandles.any fun h =>
    match s.station h with
    | some st => st.line == l && (st.offersPoll || st.offersProbe)
    | none => false

/-- R109: the service counter as the frame of `job` begins. -/
def State.serviceAfter (s : State) (l : LineNo) (job : Job) : Nat :=
  match job with
  | .command _ _ _ => if s.lineOffers l then min 255 ((s.line l).service + 1) else (s.line l).service
  | .broadcast _ => if s.lineOffers l then min 255 ((s.line l).service + 1) else (s.line l).service
  | .poll _ _ => 0
  | .probe _ => 0
  | .link _ => (s.line l).service

/-- The context's part in the start of a transmission (R61, R69, R74). -/
def State.beginAttempt (s : State) (job : Job) : State :=
  match job with
  | .command id _ _ => s.updCtx id fun c => { c with phase := .attempting, attemptsMade := c.attemptsMade + 1 }
  | .broadcast id => s.updCtx id fun c => { c with phase := .attempting, attemptsMade := 1 }
  | .link h =>
    match s.station h with
    | some st =>
      if st.state = .online ∧ st.link = .uncertain then
        match st.pending with
        | id :: _ => s.updCtx id fun c => { c with linkAttempts := c.linkAttempts + 1 }
        | [] => s
      else s
    | none => s
  | .poll _ _ => s
  | .probe _ => s

/-- The engine's part in the start of a transmission at `now`: TRANSMIT, driver enable asserted, the frame on the output;
a character being received is discarded (R3, R82, R86). -/
def Line.beginFrame (x : Line) (job : Job) (frame : List Byte) (service now : Nat) : Line :=
  { x with
    state := .transmit
    driverEnable := true
    txd := .frame
    txFrame := frame
    txStart := now
    job := some job
    spaceEdge := none
    receiving := false
    turnaround := none
    replyTimer := none
    rxOctets := []
    rxWrong := false
    service := service }

/-- An attempt begins: the frame's first start bit (R61, R86). -/
def State.beginTransmit (s : State) (l : LineNo) (job : Job) : State :=
  (s.beginAttempt job).updLine l fun x => x.beginFrame job (s.jobFrame l job) (s.serviceAfter l job) s.time

/-! ## Waiting QUIESCE_LINE records (R95, R124) -/

/-- The QUIESCE_LINE records waiting on the line end OK, in acceptance order. -/
def State.endQuiescers (s : State) (l : LineNo) : State :=
  ((s.line l).quiescers.foldl (fun s id => s.endRecord id .ok .none) s).updLine l fun x => { x with quiescers := [] }

/-- R89: the engine enters GUARD at `now`, without an attempt or a read. -/
def Line.enterGuard (x : Line) (now : Nat) : Line :=
  { x with state := .guard, job := none, abandoned := false, guardSince := now }

/-- The engine leaves an attempt state or comes from IDLE into GUARD (R89); the waiting QUIESCE_LINE records end. -/
def State.toGuard (s : State) (l : LineNo) : State :=
  (s.updLine l fun x => x.enterGuard s.time).endQuiescers l

/-! ## Breaks that reach the stations (R41, R67) -/

/-- R41 for every in-use entry of the line. -/
def State.breakStations (s : State) (l : LineNo) : State :=
  { s with stations := s.stations.map fun o => o.map fun st => if st.line = l then st.breakReaches else st }

/-- The exchange `id` stands in WAITING_RETRY for a station of the line that is not CLOSING (entry 10). -/
def State.retryWaits (s : State) (l : LineNo) (c : Context) : Bool :=
  c.phase == .waitingRetry &&
    match c.exchangeHandle with
    | some h =>
      match s.station h with
      | some st => st.line == l && st.state != .closing
      | none => false
    | none => false

/-- R67: an exchange ends LINE_BREAK, which is also its last failure cause. -/
def State.endBreak (s : State) (id : Nat) : State :=
  (s.updCtx id fun c => { c with lastFailure := some .lineBreak }).endWith id .lineBreak

/-- R67: every exchange of the line's stations in WAITING_RETRY ends LINE_BREAK, in acceptance order (entry 7). -/
def State.endRetries (s : State) (l : LineNo) : State :=
  ((s.pool.filter fun c => s.retryWaits l c).map (·.id)).foldl (fun s id => s.endBreak id) s

/-- A break, incoming or the part's own, reaches the stations of the line (R41, R67). -/
def State.breakReaches (s : State) (l : LineNo) : State := (s.breakStations l).endRetries l

/-! ## The part's own break (R16, R93, R94) -/

/-- The engine's part in entering BREAK_OUT at `now` (R83, R92, R94); `records` join those that waited. -/
def Line.beginBreak (x : Line) (records : List Nat) (now : Nat) : Line :=
  { x with
    state := .breakOut
    driverEnable := true
    txd := .space
    breakEnded := x.breakEnded || x.condition != .clear
    condition := .clear
    spaceEdge := none
    receiving := false
    markSince := none
    quietSince := none
    breakStart := now
    breakRate := x.rate
    resetPending := false
    resetRecords := []
    boundResets := x.resetRecords ++ records
    job := none }

/-- R94: entry into BREAK_OUT at `now`. -/
def State.enterBreakOut (s : State) (l : LineNo) (records : List Nat) (now : Nat) : State :=
  (s.updLine l fun x => x.beginBreak records now).breakReaches l

/-! ## Replies (R63) -/

/-- R122: the band table read of an outstanding SET_LINE begins; the transmit buffer holds no context's payload (R58). -/
def Line.beginBandRead (x : Line) : Line := { x with bandReading := true, txHolds := none }

/-- R63, R113: the receive buffer is released and the scheduler is told. -/
def Line.releaseBuffer (x : Line) : Line := { x.noticed with rxBuffer := none }

/-- The reply write has ended: the buffer is released, and a band table read that waited for it begins (R122). -/
def Line.replyDelivered (x : Line) : Line :=
  let x := x.releaseBuffer
  if x.setLine.isSome && !x.bandReading then x.beginBandRead else x

/-- The reply buffer's address and capacity. -/
def Context.replyBuffer (c : Context) : Word × Nat :=
  match c.body with
  | .exchange _ _ _ addr cap => (addr, cap)
  | _ => (0, 0)

/-- R63: status and reply length by the end of the write, the reply's length `n` and the capacity. -/
def replyEnd (result : BusWrite) (n cap : Nat) : Status × Nat :=
  match result with
  | .good => if n ≤ cap then (.ok, n) else (.overrun, cap)
  | .error _ => (.hostWriteError, min n cap)

/-- R63: how many transactions of the write reached memory. An error after as many good transactions as the write has, or
more, cannot arise: the command does not occur (DESIGN CHOICE, entry 31), so that `done` is below the count here. -/
def writtenTransactions (result : BusWrite) (base : Word) (len : Nat) : Nat :=
  match result with
  | .good => transactionCount base len
  | .error done => min done (transactionCount base len)

/-- R63: the reply write ends; the octets are in memory, the exchange ends, a waiting ABORT ends TOO_LATE (R78). -/
def State.replyWritten (s : State) (l : LineNo) (id : Nat) (octets : List Byte) (result : BusWrite) : State :=
  match s.ctx id with
  | none => s.updLine l Line.replyDelivered
  | some c =>
    let buf := c.replyBuffer
    let len := min octets.length buf.2
    let e := replyEnd result octets.length buf.2
    let s := { s with mem := writeOctets buf.1 octets
                        (transactionOffsets buf.1 len (writtenTransactions result buf.1 len)) s.mem }
    ((s.updLine l Line.replyDelivered).endExchange id e.1 c.failureDetail e.2).endAbort c.abortRequested .tooLate

/-- R63: a decoded REPLY is put in the receive buffer and its write begins; with nothing to write it ends at once
(entry 15). -/
def State.beginReply (s : State) (l : LineNo) (id : Nat) (octets : List Byte) : State :=
  let s := s.updLine l fun x => { x with rxBuffer := some (.reply id octets) }
  if ((s.ctx id).map fun c => min octets.length c.replyBuffer.2) = some 0 then s.replyWritten l id octets .good else s

/-! ## Outcomes (R14, R29, R62 to R73) -/

/-- The outcome's marks on the exchange's context (R34, R55, R62, R64, R68). -/
def Context.noteOutcome (c : Context) (o : AttemptOutcome) (turnaround : Option Nat) : Context :=
  let c := if o.isAnswer then { c with lastTurnaround := turnaround } else c
  let c := match o.failure with
    | some f => { c with lastFailure := some f }
    | none => c
  match o with
  | .ack => { c with unanswered := false }
  | .reply _ => { c with unanswered := false }
  | .busy => { c with unanswered := false, busyCount := min 255 (c.busyCount + 1), attemptsMade := 0 }
  | .nak .refused _ => { c with unanswered := false }
  | .nak .unsupported _ => { c with unanswered := false }
  | .nak .check _ => c
  | .attention _ => c
  | .idle => c
  | .noAnswer => c
  | .garbled => c
  | .wrongStation => c
  | .unexpected => c
  | .lineBreak => c

/-- The outcome's marks on the context of a COMMAND attempt; no other attempt of a station has one. -/
def State.noteContext (s : State) (job : Job) (o : AttemptOutcome) (turnaround : Option Nat) : State :=
  match job with
  | .command id _ _ => s.updCtx id fun c => c.noteOutcome o turnaround
  | .broadcast _ => s
  | .poll _ _ => s
  | .link _ => s
  | .probe _ => s

/-- R66: a retry is called for: WAITING_RETRY, at the tail of the retry list (R102). -/
def State.awaitRetry (s : State) (l : LineNo) (id : Nat) : State :=
  (s.updCtx id fun c => { c with phase := .waitingRetry }).updLine l fun x =>
    { x with retryList := joinTail x.retryList id }

/-- R66, R71, R78: a failure of miss class or a NAK CHECK that did not take the station OFFLINE. -/
def State.exchangeFailed (s : State) (l : LineNo) (c : Context) (st : Station) : State :=
  match c.abortRequested with
  | some a => (s.endWith c.id .aborted).endAbort (some a) .ok
  | none =>
    if c.attemptsMade < 1 + st.retryLimit then
      if st.state = .closing then s.endWith c.id .cancelled else s.awaitRetry l c.id
    else s.endWith c.id .noReply

/-- R64, R71, R78: a BUSY; the context has counted it. -/
def State.exchangeBusy (s : State) (c : Context) (st : Station) : State :=
  match c.abortRequested with
  | some a => (s.endWith c.id .aborted).endAbort (some a) .ok
  | none =>
    if st.busyLimit ≠ 0 ∧ st.busyLimit ≤ c.busyCount then s.endWith c.id .stationBusy
    else if st.state = .closing then s.endWith c.id .cancelled
    else s.updCtx c.id fun c => { c with phase := .held }

/-- R62, R71, R78: the exchange acts on the outcome of its COMMAND attempt, the station having applied it. -/
def State.exchangeActs (s : State) (l : LineNo) (c : Context) (st : Station) (o : AttemptOutcome) : State :=
  match o with
  | .ack => (s.endWith c.id .ok).endAbort c.abortRequested .tooLate
  | .reply octets => s.beginReply l c.id octets
  | .busy => s.exchangeBusy c st
  | .nak .refused reason =>
    (s.endExchange c.id .refused (.reason reason) 0).endAbort c.abortRequested .tooLate
  | .nak .unsupported reason =>
    (s.endExchange c.id .refused (.reason reason) 0).endAbort c.abortRequested .tooLate
  | .nak .check _ => s.exchangeFailed l c st
  | .noAnswer => s.exchangeFailed l c st
  | .garbled => s.exchangeFailed l c st
  | .wrongStation => s.exchangeFailed l c st
  | .unexpected => s.exchangeFailed l c st
  | .lineBreak =>
    match c.abortRequested with
    | some a => (s.endWith c.id .aborted).endAbort (some a) .ok
    | none => s.endWith c.id .lineBreak
  | .attention _ => s
  | .idle => s

/-- R28, steps 5 and 6: the exchange whose attempt caused the miss ends STATION_OFFLINE, or ABORTED with its ABORT; then
every other context of the list ends STATION_OFFLINE, in order. -/
def State.drainOffline (s : State) (h : Handle) (job : Job) : State :=
  let s := match job with
    | .command id _ _ =>
      match s.aborter id with
      | some a => (s.endPlain id .aborted).endAbort (some a) .ok
      | none => s.endPlain id .stationOffline
    | _ => s
  s.endList h .stationOffline

/-- R69: the loop after a link-service miss that left the station ONLINE: the head exchange ends NO_REPLY when its link
attempts are used up, with the cause of the last one. -/
def State.linkLoop (s : State) (st : Station) (o : AttemptOutcome) : State :=
  match st.pending with
  | [] => s
  | id :: _ =>
    match s.ctx id with
    | none => s
    | some c =>
      if c.linkAttempts < 1 + st.retryLimit then s
      else (s.updCtx id fun c => { c with lastFailure := o.failure }).endWith id .noReply

/-- R72, R73: a POLL's outcome releases its reservation, or an ATTENTION is handed to the event writer. -/
def State.pollActs (s : State) (l : LineNo) (h : Handle) (pseq : Bool) (o : AttemptOutcome) (ap : Bool) : State :=
  match o with
  | .attention octets =>
    { s.updLine l fun x => { x with rxBuffer := some (.attention octets) } with
      attentions := s.attentions ++ [{ line := l, handle := h, pseq := pseq, ap := ap, octets := octets }] }
  | _ => s.releaseReservation

/-- What the attempt does with its outcome once the station table has applied it; `st` is the entry before, `st'` after.
DESIGN CHOICE (entry 35): a poll of a CLOSING station releases its reservation, and the grant condition is judged, before the
entry becomes free with its pending presence report. -/
def State.jobActs (s : State) (l : LineNo) (h : Handle) (job : Job) (st st' : Station) (o : AttemptOutcome)
    (ap : Bool) : State :=
  let wentOffline := st.state ≠ .offline ∧ st'.state = .offline
  match job with
  | .command id _ _ =>
    if wentOffline then s.drainOffline h job
    else
      match s.ctx id with
      | some c => s.exchangeActs l c st' o
      | none => s
  | .poll _ pseq =>
    let s := if wentOffline then s.drainOffline h job else s
    (s.pollActs l h pseq o ap).settleClosing h
  | .link _ =>
    if wentOffline then s.drainOffline h job
    else if st'.state = .online ∧ o.isMiss then s.linkLoop st' o
    else s.settleClosing h
  | .probe _ => s.settleClosing h
  | .broadcast _ => s

/-- R88: an outcome is passed first to the station table, which applies it whole (R29), then to the exchange or poll. -/
def State.deliver (s : State) (l : LineNo) (job : Job) (o : AttemptOutcome) (ap : Bool) : State :=
  let x := s.line l
  let turnaround := if o.isAnswer then x.turnaround else none
  let s := (s.updLine l fun x => { x with job := none, turnaround := none, replyTimer := none }).noteContext job o
    turnaround
  match job.handle with
  | none => s
  | some h =>
    match s.station h with
    | none => s
    | some st =>
      let st' := st.applyOutcome x.bandTable x.hysteresis job o turnaround ap s.time
      (s.setStation h (some st')).jobActs l h job st st' o ap

/-- The attempt of the line ends with this outcome and the engine enters GUARD (R87, R88, R91). -/
def State.endAttempt (s : State) (l : LineNo) (o : AttemptOutcome) (ap : Bool) : State :=
  match (s.line l).job with
  | none => s.toGuard l
  | some job => (s.deliver l job o ap).toGuard l

/-! ## Payload reads (R58 to R60, R85) -/

/-- The context a payload read is for. -/
def Job.context : Job → Option Nat
  | .command id _ _ => some id
  | .broadcast id => some id
  | .poll _ _ => none
  | .link _ => none
  | .probe _ => none

/-- The payload length of a context's request. -/
def Context.payloadLength (c : Context) : Nat :=
  match c.body with
  | .exchange _ _ n _ _ => n
  | .broadcast _ _ n => n
  | _ => 0

/-- R85, R89, R95: the engine comes to rest in QUIESCED when quiesce was requested, and in IDLE, where it owes its
scheduler a consultation, otherwise. -/
def Line.rest (x : Line) : Line :=
  { x with state := if x.quiesce then .quiesced else .idle, consultDue := !x.quiesce }

/-- R85: a payload read that sends nothing leaves PREPARING for BREAK_OUT, QUIESCED or IDLE. -/
def State.leaveRead (s : State) (l : LineNo) : State :=
  let s := s.updLine l fun x => { x with job := none, abandoned := false }
  if (s.line l).resetPending && s.device == .running then s.enterBreakOut l [] s.time
  else (s.updLine l Line.rest).endQuiescers l

/-- The context returns to the phase it came from (R59, R60); a retry rejoins the retry list at its head (R102). -/
def State.returnToWait (s : State) (l : LineNo) (id : Nat) (origin : Phase) : State :=
  let s := s.updCtx id fun c => { c with phase := origin }
  if origin = .waitingRetry then s.updLine l fun x => { x with retryList := id :: x.retryList.erase id } else s

/-- R59: the payload read has ended good with the transmit buffer filled. -/
def State.readGood (s : State) (l : LineNo) (job : Job) : State :=
  match job with
  | .command id h origin =>
    match s.aborter id with
    | some a => ((s.endWith id .aborted).endAbort (some a) .ok).leaveRead l
    | none =>
      match s.station h with
      | none => s.leaveRead l
      | some st =>
        if st.state = .closing then (s.endWith id .cancelled).leaveRead l
        else if st.paused then (s.returnToWait l id origin).leaveRead l
        else s.beginTransmit l job
  | .broadcast id =>
    match s.aborter id with
    | some a => ((s.endWith id .aborted).endAbort (some a) .ok).leaveRead l
    | none => s.beginTransmit l job
  | .poll _ _ => s.leaveRead l
  | .link _ => s.leaveRead l
  | .probe _ => s.leaveRead l

/-- The transmit buffer takes the payload of the job's context (R58). -/
def State.fillBuffer (s : State) (l : LineNo) (job : Job) (octets : List Byte) : State :=
  s.updLine l fun x => { x with txBuffer := octets, txHolds := job.context }

/-- R58: the exchange or broadcast whose payload read met a bus error ends. DEDUCED (entry 34): PAYLOAD_READ, which R58 sets
as the last failure cause of an exchange, is a broadcast's too. -/
def State.readFailed (s : State) (l : LineNo) (id : Nat) : State :=
  let unanswered := ((s.ctx id).map (·.unanswered)).getD false
  let abort := s.aborter id
  let s := (s.updLine l fun x => { x with txHolds := none }).updCtx id
    fun c => { c with lastFailure := some .payloadRead }
  let s := match abort with
    | some a => (s.endWith id .aborted).endAbort (some a) .ok
    | none => s.endWith id (if unanswered then .noReply else .hostReadError)
  s.leaveRead l

/-- R58: the engine and the context enter PREPARING; a payload of length 0 is read as soon as it is begun (entry 15). -/
def State.beginRead (s : State) (l : LineNo) (job : Job) (id : Nat) : State :=
  let s := (s.updLine l fun x => { x with state := .preparing, job := some job, abandoned := false, txHolds := none }).updCtx
    id fun c => { c with phase := .preparing }
  if ((s.ctx id).map Context.payloadLength) = some 0 then (s.fillBuffer l job []).readGood l job else s

/-- The chosen attempt of an exchange or broadcast starts: TRANSMIT when the buffer holds its payload, PREPARING
otherwise (R85). -/
def State.startWork (s : State) (l : LineNo) (job : Job) (id : Nat) : State :=
  if (s.line l).txHolds = some id then s.beginTransmit l job else s.beginRead l job id

/-- R60, R91 step 1: a break abandons the read; the context ends ABORTED when its abort was requested, and otherwise
returns to the phase it came from. -/
def State.abandonRead (s : State) (l : LineNo) : State :=
  match (s.line l).job with
  | none => s
  | some job =>
    let s := s.updLine l fun x => { x with job := none, abandoned := true, txHolds := none }
    match job with
    | .command id _ origin =>
      match s.aborter id with
      | some a => (s.endWith id .aborted).endAbort (some a) .ok
      | none => s.returnToWait l id origin
    | .broadcast id =>
      match s.aborter id with
      | some a => (s.endWith id .aborted).endAbort (some a) .ok
      | none => s.updCtx id fun c => { c with phase := .queued }
    | .poll _ _ => s
    | .link _ => s
    | .probe _ => s

/-- R118: an exchange whose read was abandoned while its station is CLOSING ends CANCELLED when the break has been
applied (entry 10). -/
def State.cancelAbandoned (s : State) (job : Option Job) : State :=
  match job with
  | some (.command id h _) =>
    match s.station h with
    | some st => if st.state = .closing then s.endWith id .cancelled else s
    | none => s
  | _ => s

end Sys2Proof.Machine
end

