-- ==== Sys2Proof/Machine/Scheduler.lean ====
section
/-! DEFINITION. The line scheduler: the eight steps of its choice (chapter 6) and the engine's move out of IDLE (R85). -/

namespace Sys2Proof.Machine

/-- The first of 0..n-1, in cyclic order after `p`, that is ready (R106, R108, R134). -/
def firstAfter (n p : Nat) (ready : Nat → Bool) : Option Nat :=
  ((List.range n).map fun i => (p + 1 + i) % n).find? ready

/-- A station of line `l`. -/
def State.stationOn (s : State) (l : LineNo) (h : Handle) : Option Station :=
  match s.station h with
  | some st => if st.line = l then some st else none
  | none => none

/-- R106: the station needs link service and is not paused. -/
def Station.needsLink (st : Station) : Bool :=
  !st.paused && (st.state == .new || (st.state == .online && st.link == .uncertain && !st.pending.isEmpty))

/-- R107: the station is ready in the class `k`. -/
def State.stationReady (s : State) (k : QueueClass) (st : Station) : Bool :=
  st.state == .online && st.link == .certain && !st.paused &&
    match st.pending.head?.bind s.ctx with
    | some c => c.phase == .queued && c.cls == k
    | none => false

/-- R107: the broadcast FIFO of the line is ready in the class `k`. -/
def State.fifoReady (s : State) (l : LineNo) (k : QueueClass) : Bool :=
  match (s.line l).fifo.head?.bind s.ctx with
  | some c => c.phase == .queued && c.cls == k
  | none => false

/-- R107, R108: candidate `i` (a handle, or 64 for the FIFO) is ready in the class. -/
def State.candidateReady (s : State) (l : LineNo) (k : QueueClass) (i : Nat) : Bool :=
  if h : i < 64 then
    match s.stationOn l ⟨i, h⟩ with
    | some st => s.stationReady k st
    | none => false
  else s.fifoReady l k

/-- The older of two offers by due stamp; the lower handle, met first, when they compare equal (R110 to R112). -/
def olderOffer (best : Option (Handle × Nat)) (h : Handle) (stamp : Option Nat) : Option (Handle × Nat) :=
  match stamp, best with
  | none, b => b
  | some t, none => some (h, t)
  | some t, some (h', t') => if t < t' then some (h, t) else some (h', t')

/-- The station of the line with the oldest stamp that `due` gives. -/
def State.oldest (s : State) (l : LineNo) (due : Station → Option Nat) : Option Handle :=
  (allHandles.foldl (fun best h => olderOffer best h ((s.stationOn l h).bind due)) none).map (·.1)

/-- The due stamp of a poll the station offers (R40). -/
def Station.pollStamp (st : Station) : Option Nat := if st.offersPoll then st.pollDue else none

/-- The due stamp of a probe the station offers (R40). -/
def Station.probeStamp (st : Station) : Option Nat := if st.offersProbe then st.probeDue else none

/-- What the scheduler offers (R103). -/
inductive Choice where
  | reset
  | retry (ctx : Nat)
  | link (handle : Handle)
  | work (k : QueueClass) (candidate : Nat)
  | poll (handle : Handle)
  | probe (handle : Handle)
  | nothing
  deriving DecidableEq, Repr

/-- R105: the first context of the retry list whose station is not paused. -/
def State.retryChoice (s : State) (l : LineNo) : Option Nat :=
  (s.line l).retryList.find? fun id =>
    match (s.ctx id).bind Context.exchangeHandle with
    | some h =>
      match s.station h with
      | some st => !st.paused
      | none => false
    | none => false

/-- R106: the first station after the link-service pointer that needs link service. -/
def State.linkChoice (s : State) (l : LineNo) : Option Nat :=
  firstAfter 64 (s.line l).linkPtr.val fun i =>
    if h : i < 64 then
      match s.stationOn l ⟨i, h⟩ with
      | some st => st.needsLink
      | none => false
    else false

/-- The round-robin pointer of a class (R108). -/
def Line.classPtr (x : Line) : QueueClass → Fin 65
  | .urgent => x.urgentPtr
  | .normal => x.normalPtr

/-- R108: the first candidate ready in the class after its pointer. -/
def State.classChoice (s : State) (l : LineNo) (k : QueueClass) : Option Nat :=
  firstAfter 65 ((s.line l).classPtr k).val (s.candidateReady l k)

/-- A station of the line offers a poll (R110, R111). -/
def State.pollOffered (s : State) (l : LineNo) : Option Handle := s.oldest l Station.pollStamp

/-- R110: the oldest poll or probe offered, polls only when a reservation would be granted. -/
def State.starvedChoice (s : State) (l : LineNo) : Option Handle :=
  s.oldest l fun st => if s.grantable then st.pollStamp.orElse (fun _ => st.probeStamp) else st.probeStamp

/-- R110, R111: the handle chosen at step 5 is polled when it is ONLINE and probed when it is OFFLINE. -/
def State.pollOrProbe (s : State) (h : Handle) : Choice :=
  match s.station h with
  | some st => if st.state = .online then .poll h else .probe h
  | none => .nothing

/-- Steps 6 to 8 of R103. -/
def State.lateChoice (s : State) (l : LineNo) : Choice :=
  match s.classChoice l .normal with
  | some i => .work .normal i
  | none =>
    match (if s.grantable then s.pollOffered l else none) with
    | some h => .poll h
    | none =>
      match s.oldest l Station.probeStamp with
      | some h => .probe h
      | none => .nothing

/-- R110: step 5 is taken. -/
def State.starved (s : State) (l : LineNo) : Bool := 8 ≤ (s.line l).service

/-- R103: the scheduler's choice on the state as it stands. -/
def State.choose (s : State) (l : LineNo) : Choice :=
  if (s.line l).resetPending then .reset
  else
    match s.retryChoice l with
    | some id => .retry id
    | none =>
      match s.linkChoice l with
      | some i => .link ⟨i % 64, Nat.mod_lt _ (by decide)⟩
      | none =>
        match s.classChoice l .urgent with
        | some i => .work .urgent i
        | none =>
          match (if s.starved l then s.starvedChoice l else none) with
          | some h => s.pollOrProbe h
          | none => s.lateChoice l

/-- R110, R111, R148: the consultation asks for a reservation it is refused: a poll is offered, none can be granted, and
step 5 or step 7 is reached. -/
def State.asksInVain (s : State) (l : LineNo) : Bool :=
  (s.pollOffered l).isSome && !s.grantable &&
    !(s.line l).resetPending && (s.retryChoice l).isNone && (s.linkChoice l).isNone
    && (s.classChoice l .urgent).isNone
    && (s.starved l || (s.classChoice l .normal).isNone)

/-- R108: the pointer of the class moves to the candidate chosen. -/
def Line.movePtr (x : Line) (k : QueueClass) (i : Fin 65) : Line :=
  match k with
  | .urgent => { x with urgentPtr := i }
  | .normal => { x with normalPtr := i }

/-- R107: the head exchange of a chosen station starts. -/
def State.startHead (s : State) (l : LineNo) (h : Handle) (origin : Phase) : State :=
  match (s.station h).bind fun st => st.pending.head? with
  | some id => s.startWork l (.command id h origin) id
  | none => s

/-- R107: the head of the chosen broadcast FIFO starts. -/
def State.startBroadcast (s : State) (l : LineNo) : State :=
  match (s.line l).fifo.head? with
  | some id => s.startWork l (.broadcast id) id
  | none => s

/-- R72, R111: a poll under a granted reservation, with the station's pseq as held at the start. -/
def State.startPoll (s : State) (l : LineNo) (h : Handle) : State :=
  match s.station h with
  | some st => (s.grantReservation l).beginTransmit l (.poll h st.pseq)
  | none => s

/-- R85, R103: the engine acts on the choice. -/
def State.act (s : State) (l : LineNo) (choice : Choice) : State :=
  match choice with
  | .reset => s.enterBreakOut l [] s.time
  | .retry id =>
    match (s.ctx id).bind Context.exchangeHandle with
    | some h =>
      (s.updLine l fun x => { x with retryList := x.retryList.erase id }).startWork l (.command id h .waitingRetry) id
    | none => s
  | .link h => (s.updLine l fun x => { x with linkPtr := h }).beginTransmit l (.link h)
  | .work k i =>
    let s := s.updLine l fun x => x.movePtr k ⟨i % 65, Nat.mod_lt _ (by decide)⟩
    if h : i < 64 then s.startHead l ⟨i, h⟩ .queued else s.startBroadcast l
  | .poll h => s.startPoll l h
  | .probe h => s.beginTransmit l (.probe h)
  | .nothing => s

/-- R84, R85: at `now` the quiet time has reached 2 C and no character is being received. -/
def Line.quietReached (x : Line) (now : Nat) : Bool :=
  match x.quietSince with
  | some t => t + 2 * x.char ≤ now && !x.receiving
  | none => false

/-- R85: the engine may leave IDLE, and it owes its scheduler a consultation (R113). -/
def State.mayChoose (s : State) (l : LineNo) : Bool :=
  let x := s.line l
  x.state == .idle && s.device == .running && s.live && !x.quiesce && x.condition == .clear && x.quietReached s.time
    && x.rxBuffer.isNone && x.consultDue

/-- The consultation owed is being made. -/
def Line.consulted (x : Line) : Line := { x with consultDue := false }

/-- R103: one consultation: a refused request is recorded (R148), then the choice is acted on. -/
def State.consult (s : State) (l : LineNo) : State :=
  let s := s.updLine l Line.consulted
  (if s.asksInVain l then s.recordRefusal l else s).act l (s.choose l)

end Sys2Proof.Machine
end

