-- ==== Sys2Proof/Machine/Device.lean ====
section
/-! DEFINITION. The part as a whole: one command's common frame, rejected register writes, register reads, the setup
block's installation, entry into FAILED, resets, and the passing of time (chapter 10, section 11.1). -/

namespace Sys2Proof.Machine

/-! ## A command -/

/-- What every command shares. Operands that no command of the row can carry are refused by name (entry 2); while the
reset input is held nothing acts (R161), and an event that the part's state rules out does not occur and changes nothing
(entry 1); otherwise the command has its effect. -/
def runCommand (c : Instr) (occurs : Bool) (effect : State → State) (s : State) : Host.Outcome State Fault Refusal :=
  if c.wellFormed then .next (if s.live && occurs then effect s else s) else .refused .illFormed

/-- An ignored register write sets REJECTED (R151). -/
def State.reject (s : State) : State := s.setCause .rejected

/-- POST and RETIRE writes are taken, and entries are posted (R130, R146, R153). -/
def DeviceState.started : DeviceState → Bool
  | .running => true
  | .halting => true
  | .halted => true
  | .ready => false
  | .starting => false
  | .failed => false

/-! ## Register reads (section 11.1). A read is no command of the table and changes nothing (entry 25). -/

/-- STATUS bits 2..0 (section 11.1). -/
def DeviceState.code : DeviceState → Nat
  | .ready => 0
  | .starting => 1
  | .running => 2
  | .halting => 3
  | .halted => 4
  | .failed => 5

/-- STATUS bits 10..8 (section 11.1). -/
def CauseCode.code : CauseCode → Nat
  | .none => 0
  | .setupRead => 1
  | .setupInvalid => 2
  | .completionWrite => 3
  | .eventWrite => 4

/-- The two bits of a queue in a POST read (section 11.1). -/
def QueueState.code : QueueState → Nat
  | .unused => 0
  | .active => 1
  | .stopped => 2

/-- IDENT: vendor code, part code, revision (R154). -/
def identValue : Word :=
  BitVec.ofNat 32 (Config.vendorCode * 2 ^ 18 + Config.partCode * 2 ^ 6 + Config.revision)

/-- CONTROL: ENABLE; SOFT_RESET reads 0 (R155). -/
def State.controlValue (s : State) : Word := if s.enable then 1 else 0

/-- STATUS: device state and cause code (R154). -/
def State.statusValue (s : State) : Word := BitVec.ofNat 32 (s.device.code + 256 * s.cause.code)

/-- POST: the four queue states (R130). -/
def State.postValue (s : State) : Word :=
  BitVec.ofNat 32 ((s.queue 0).state.code + 4 * (s.queue 1).state.code + 16 * (s.queue 2).state.code
    + 64 * (s.queue 3).state.code)

/-- RETIRE: the completion tail below, the event tail above (R146). -/
def State.retireValue (s : State) : Word := BitVec.ofNat 32 (s.completion.tail + 65536 * s.event.tail)

/-- What the host reads at an offset of the register window (section 10.1): none off the eight aligned words. -/
def State.readRegister (s : State) (offset : Nat) : Option Word :=
  match offset with
  | 0x00 => some identValue
  | 0x04 => some s.controlValue
  | 0x08 => some s.statusValue
  | 0x0C => some s.setupAddr
  | 0x10 => some s.postValue
  | 0x14 => some s.retireValue
  | 0x18 => some (s.intStatus.setWidth 32)
  | 0x1C => some (s.intEnable.setWidth 32)
  | _ => none

/-! ## Starting (R156, R157) -/

/-- A return from STARTING to READY (R156, R157). -/
def State.backToReady (s : State) (cause : CauseCode) : State :=
  { s with device := .ready, cause := cause, enable := false }

/-- R113, R142: the device enters RUNNING: the fetch arbiter and every line's scheduler are told. -/
def State.enterRunning (s : State) : State := { s.tellLines allLines with device := .running }.tellArbiter

/-- R157: the setup block `b` is installed as one change and the device enters RUNNING. -/
def State.install (s : State) (b : List Byte) : State :=
  { s.enterRunning with
    queues := #v[setupQueue b 0, setupQueue b 1, setupQueue b 2, setupQueue b 3]
    completion := { s.completion with base := addrAt b 32, size := le16 b 36 }
    event := { s.event with base := addrAt b 40, size := le16 b 44 }
    completionInt := { s.completionInt with threshold := le8 b 38, holdoff := le16 b 48 }
    eventInt := { s.eventInt with threshold := le8 b 46, holdoff := le16 b 50 } }

/-- R156, R157: the end of the setup block read. -/
def State.setupEnds (s : State) (result : BusRead) : State :=
  if s.enable then
    match result with
    | .error => s.backToReady .setupRead
    | .good b => if setupValid b then s.install b else s.backToReady .setupInvalid
  else s.backToReady .none

/-! ## Halting and resuming (R158, R98) -/

/-- R98: an IDLE or QUIESCED line serves its pending line reset when the device returns to RUNNING. -/
def State.serveReset (s : State) (l : LineNo) : State :=
  if ((s.line l).state = .idle ∨ (s.line l).state = .quiesced) ∧ (s.line l).resetPending = true then
    s.enterBreakOut l [] s.time
  else s

/-- R158: entry into RUNNING from HALTING or HALTED. DESIGN CHOICE (entry 32): R98 and R158 give no order among the lines
that serve a pending line reset in this step; the model serves them from line 0 to line 3, which orders the completions of
the exchanges their breaks end. -/
def State.resume (s : State) : State := allLines.foldl (fun s l => s.serveReset l) s.enterRunning

/-! ## Writes cut short (entries 11 and 12) -/

/-- The completion entry under way stops: some of its words are in memory. -/
def State.landCompletion (s : State) : State :=
  match s.completionWrite with
  | none => s
  | some w =>
    { s with
      mem := writeOctets w.addr w.octets (wordOffsets completionWords (Config.landed s.landings % 5)) s.mem
      landings := s.landings + 1 }

/-- The event entry under way stops: some of its words are in memory. -/
def State.landEvent (s : State) : State :=
  match s.eventWrite with
  | none => s
  | some w =>
    { s with
      mem := writeOctets w.addr w.octets (wordOffsets eventWords (Config.landed s.landings % 17)) s.mem
      landings := s.landings + 1 }

/-- The reply write of line `l` under way stops: some of its transactions have ended good. -/
def State.landReply (s : State) (l : LineNo) : State :=
  match (s.line l).rxBuffer with
  | some (.reply id octets) =>
    match s.ctx id with
    | none => s
    | some c =>
      let buf := c.replyBuffer
      let len := min octets.length buf.2
      { s with
        mem := writeOctets buf.1 octets
          (transactionOffsets buf.1 len (Config.landed s.landings % (transactionCount buf.1 len + 1))) s.mem
        landings := s.landings + 1 }
  | some (.attention _) => s
  | none => s

/-- The reply writes of the four lines stop. -/
def State.landReplies (s : State) : State := allLines.foldl (fun s l => s.landReply l) s

/-! ## FAILED (R159, R99) -/

/-- R99: the line is released at once; everything else of the engine keeps its value. -/
def Line.release (x : Line) : Line := { x with driverEnable := false, txd := .mark, replyTimer := none }

/-- R159: entry into FAILED. -/
def State.enterFailed (s : State) (cause : CauseCode) : State :=
  ({ s with device := .failed, cause := cause, lines := s.lines.map Line.release } : State).setCause .failed

/-! ## Resets (R160, R161) -/

/-- R160: the writes under way when a reset comes: some of the transactions issued are in memory. In FAILED every write
has stopped already (R145, R150, R153). DESIGN CHOICE (entry 12): the order in which writes of different clients reach
overlapping memory is not defined (section 10.5); the model's is the completion entry, the event entry, then the reply
writes by line number. -/
def State.landWrites (s : State) : State :=
  if s.device = .failed then s else s.landCompletion.landEvent.landReplies

/-- R160: every block takes its reset values; SETUP_ADDR and INT_ENABLE stay. What was written of the entries and
replies under way stays in memory; the clocks, memory and the waiting commands are the model's (entries 3, 11, 12). -/
def State.softResetValues (s : State) : State :=
  let landed := s.landWrites
  { State.reset with
    setupAddr := s.setupAddr
    intEnable := s.intEnable
    clock := s.clock
    time := s.time
    mem := landed.mem
    landings := landed.landings
    pending := s.pending }

/-- R161: the reset input has been held for 1 µs. -/
def State.hardResetValues (s : State) : State :=
  { s.softResetValues with setupAddr := 0, intEnable := 0, resetHeld := true }

/-! ## Time on an idle part (entry 4) -/

/-- One microsecond passes in which nothing happens. While a reset is held no time is counted (R161). -/
def State.tick (s : State) : State := if s.resetHeld then s else s.elapse Config.ticksPerMicrosecond

end Sys2Proof.Machine
end

