-- ==== Sys2Proof/Machine/Intake.lean ====
section
/-! DEFINITION. The record intake: the fetch arbiter's choice, the end of a record read, and the validation of an
accepted record (chapter 8, section 7.2). -/

namespace Sys2Proof.Machine

/-! ## The fetch arbiter (R134, R135) -/

/-- Queue `i` is ACTIVE, non-empty and of class `k`. -/
def State.queueReady (s : State) (k : QueueClass) (i : Nat) : Bool :=
  if h : i < 4 then
    let q := s.queue ⟨i, h⟩
    q.state == .active && q.head != q.tail && q.cls == k
  else false

/-- R134: the queue the arbiter chooses in the class after its pointer. -/
def State.classQueue (s : State) (k : QueueClass) : Option QueueNo :=
  let p := match k with
    | .urgent => s.fetchUrgent
    | .normal => s.fetchNormal
  (firstAfter 4 p.val (s.queueReady k)).map fun i => ⟨i % 4, Nat.mod_lt _ (by decide)⟩

/-- R134: URGENT queues before NORMAL ones. -/
def State.fetchQueue (s : State) : Option (QueueClass × QueueNo) :=
  match s.classQueue .urgent with
  | some q => some (.urgent, q)
  | none => (s.classQueue .normal).map fun q => (.normal, q)

/-- R134: the arbiter makes a choice. -/
def State.mayFetch (s : State) : Bool :=
  s.device == .running && s.reading.isNone && s.freeCtx.isSome && s.creditFree && s.fetchQueue.isSome

/-- R136: the address of the record at the queue's head. -/
def Queue.recordAddr (q : Queue) : Word := q.base + BitVec.ofNat 32 (32 * q.head)

/-- R134, R135: the pointer moves, a context is reserved, fetch in progress is set and the read starts. -/
def State.beginFetch (s : State) : State :=
  match s.fetchQueue, s.freeCtx with
  | some (k, q), some id =>
    let s := match k with
      | .urgent => { s with fetchUrgent := q }
      | .normal => { s with fetchNormal := q }
    { s.updQueue q fun x => { x with fetching := true } with
      reading := some { queue := q, ctx := id, addr := (s.queue q).recordAddr }
      pool := s.pool ++ [reservedContext id q k] }
  | _, _ => s

/-- R134, R142: the arbiter makes the look it owes, and a choice if the conditions hold. -/
def State.fetchLook (s : State) : State :=
  let s := { s with fetchDue := false }
  if s.mayFetch then s.beginFetch else s

/-! ## The POST register (R131 to R133) -/

/-- R131: a tail outside the ring stops the queue; the report waits for a read in progress. -/
def Queue.stopBadTail (q : Queue) : Queue :=
  { q with
    state := .stopped
    stopCause := some .badTail
    report := if q.fetching then q.report else some { cause := .badTail, head := q.head } }

/-- R131: a POST write with restart 0 of an ACTIVE queue. -/
def Queue.postTail (q : Queue) (tail : Nat) : Queue :=
  if tail < q.size then { q with tail := tail } else q.stopBadTail

/-- R132: a restart of a STOPPED queue without a read in progress. -/
def Queue.restart (q : Queue) : Queue :=
  { q with head := 0, tail := 0, stopCause := none, state := .active }

/-! ## The end of a record read (R136, R137) -/

/-- R136: the head advances and fetch in progress is cleared; a queue that stopped during the read reports now, with
the advanced head (R133). -/
def Queue.readEnds (q : Queue) : Queue :=
  let head := if q.head + 1 = q.size then 0 else q.head + 1
  { q with
    head := head
    fetching := false
    report := if q.state = .stopped then some { cause := q.stopCause.getD .badTail, head := head } else q.report }

/-- R137, steps 2 to 5: the head stays and the queue stops with READ_ERROR, unless it had stopped with BAD_TAIL. -/
def Queue.readFails (q : Queue) : Queue :=
  let cause := if q.state = .stopped then q.stopCause.getD .readError else .readError
  { q with
    fetching := false
    state := .stopped
    stopCause := some cause
    report := some { cause := cause, head := q.head } }

/-- R137: the context and its credit are released; the arbiter looks again (R142). -/
def State.readFails (s : State) : State :=
  match s.reading with
  | none => s
  | some rd =>
    { s.updQueue rd.queue Queue.readFails with
      reading := none
      fetchDue := true
      pool := s.pool.filter fun c => c.id != rd.ctx }

/-! ## Validation (R140, R115) -/

/-- Check 2 of R140: the handle is in use and not CLOSING. -/
def State.checkHandle (s : State) (h : Handle) : Option (Status × Detail) :=
  match s.station h with
  | none => some (.badStation, .handleFree)
  | some st => if st.state = .closing then some (.badStation, .handleClosing) else none

/-- The in-use entry that holds the (line, address) pair. -/
def State.pairHolder (s : State) (l : LineNo) (a : BitVec 7) : Option Handle :=
  allHandles.find? fun h =>
    match s.station h with
    | some st => st.line == l && st.address == a
    | none => false

/-- Checks 3 and 4 of R140: the handle is free and the pair is unused. -/
def State.checkNew (s : State) (r : List Byte) : Option (Status × Detail) :=
  if (s.station (recHandle r)).isSome then some (.badStation, .handleInUse)
  else (s.pairHolder (recStationLine r) (recAddress r)).map fun h => (.duplicateAddress, .handle h)

/-- R115: the engine states in which a line record is taken or waits. -/
def linePermits (k : RecordKind) (state : EngineState) : Bool :=
  match k with
  | .setLine => state == .disabled || state == .quiesced
  | .quiesceLine => state != .disabled
  | .resumeLine => state == .quiesced
  | .lineReset => state != .disabled
  | .exchange => true
  | .broadcast => true
  | .addStation => true
  | .removeStation => true
  | .pauseStation => true
  | .resumeStation => true
  | .abort => true
  | .fence => true

/-- Check 5 of R140: the line engine state permits the record, and no SET_LINE is outstanding for a SET_LINE or a
RESUME_LINE (R115). -/
def State.checkLine (s : State) (k : RecordKind) (l : LineNo) : Option (Status × Detail) :=
  let x := s.line l
  if x.setLine.isSome && (k == .setLine || k == .resumeLine) then some (.refusedState, .lineConfiguring)
  else if linePermits k x.state then none
  else some (.refusedState, .engine x.state)

/-- Checks 2 to 5 of R140 for a record of kind `k`. -/
def State.checkKind (s : State) (k : RecordKind) (r : List Byte) : Option (Status × Detail) :=
  match k with
  | .exchange => s.checkHandle (recHandle r)
  | .broadcast => none
  | .addStation => s.checkNew r
  | .removeStation => s.checkHandle (recHandle r)
  | .pauseStation => s.checkHandle (recHandle r)
  | .resumeStation => s.checkHandle (recHandle r)
  | .setLine => s.checkLine .setLine (recLine r)
  | .quiesceLine => s.checkLine .quiesceLine (recLine r)
  | .resumeLine => s.checkLine .resumeLine (recLine r)
  | .lineReset => s.checkLine .lineReset (recLine r)
  | .abort => none
  | .fence => none

/-- R140: the first check that the record fails, or none when it is taken. -/
def State.verdict (s : State) (r : List Byte) : Option (Status × Detail) :=
  match kindOfCode (recKind r) with
  | none => some (.badRecord, .unknownKind)
  | some k =>
    if reservedZero k r = false then some (.badRecord, .reservedNonzero)
    else if fieldsInRange k r = false then some (.badRecord, .fieldRange)
    else s.checkKind k r

/-! ## Acceptance (R136, R139, R141) -/

/-- The fields the context keeps: those of a record taken, and the octets of a refused one as they were read (R56,
R139). -/
def State.recordBody (s : State) (r : List Byte) : Body :=
  match s.verdict r, kindOfCode (recKind r) with
  | none, some k => bodyOf k r
  | _, _ => .refused r

/-- R56, R139: the record is written into its reserved context. -/
def Context.accept (c : Context) (r : List Byte) (body : Body) : Context :=
  { reservedContext c.id c.queue c.cls with
    kindCode := recKind r, kind := kindOfCode (recKind r), tag := recTag r, body := body }

/-- R136: the read ends good and the record is accepted into its context; the arbiter looks again (R142). -/
def State.accept (s : State) (rd : RecordRead) (r : List Byte) : State :=
  { (s.updQueue rd.queue Queue.readEnds).updCtx rd.ctx fun c => c.accept r (s.recordBody r) with
    reading := none
    fetchDue := true }

/-- A record read can end: one is in progress and the device is RUNNING or HALTING (R138). -/
def State.readInProgress (s : State) : Bool :=
  (s.device == .running || s.device == .halting) && s.reading.isSome

/-- R139: the record is accepted and validated; refused, it ends at once (R141); taken, it acts (`act`, on its
context). Then the writers and the control block follow (entry 6). -/
def State.takeRecord (s : State) (r : List Byte) (act : State → Nat → State) : State :=
  match s.reading with
  | none => s
  | some rd =>
    match s.verdict r with
    | some v => ((s.accept rd r).endRecord rd.ctx v.1 v.2).finish
    | none => (act (s.accept rd r) rd.ctx).finish

end Sys2Proof.Machine
end

