-- ==== Sys2Proof/Machine/Control.lean ====
section
/-! DEFINITION. The commands on the part as a whole: resets, the CONTROL, SETUP_ADDR and interrupt registers, the end of
the setup block read, and the holdoff timers (chapter 10, section 9.4). -/

namespace Sys2Proof.Machine

/-- HARDWARE_RESET (R161): the reset input has been held asserted for 1 µs. -/
def execHardwareReset (s : State) : Host.Outcome State Fault Refusal := .next s.hardResetValues

/-- RESET_RELEASE (R161): the reset input is released and the device is READY. -/
def execResetRelease (s : State) : Host.Outcome State Fault Refusal := .next { s with resetHeld := false }

/-- SOFT_RESET (R160): complete when the write is answered; the ENABLE bit of the write is not applied. -/
def execSoftReset (v : Word) (s : State) : Host.Outcome State Fault Refusal :=
  runCommand (.softReset v) true State.softResetValues s

/-- ENABLE written 1, by device state (R155, R156, R158, R159). -/
def State.enableOne (s : State) : State :=
  match s.device with
  | .ready => { s with enable := true, cause := .none, device := .starting }
  | .starting => { s with enable := true }
  | .running => { s with enable := true }
  | .halting => ({ s with enable := true } : State).resume.finish
  | .halted => ({ s with enable := true } : State).resume.finish
  | .failed => s.reject

/-- ENABLE_WRITTEN_1 (R156, R158). -/
def execEnableWritten1 (v : Word) (s : State) : Host.Outcome State Fault Refusal :=
  runCommand (.enableWritten1 v) true State.enableOne s

/-- ENABLE written 0, by device state (R155, R156, R158, R159). -/
def State.enableZero (s : State) : State :=
  match s.device with
  | .ready => { s with enable := false }
  | .starting => { s with enable := false }
  | .running => ({ s with enable := false, device := .halting } : State).finish
  | .halting => { s with enable := false }
  | .halted => { s with enable := false }
  | .failed => s.reject

/-- ENABLE_WRITTEN_0 (R156, R158). -/
def execEnableWritten0 (v : Word) (s : State) : Host.Outcome State Fault Refusal :=
  runCommand (.enableWritten0 v) true State.enableZero s

/-- A write of SETUP_ADDR is taken in READY alone (R154). -/
def State.writeSetupAddr (s : State) (v : Word) : State :=
  if s.device = .ready then { s with setupAddr := setupAddrField v } else s.reject

/-- SETUP_ADDR_WRITE (R154). -/
def execSetupAddrWrite (v : Word) (s : State) : Host.Outcome State Fault Refusal :=
  runCommand (.setupAddrWrite v) true (fun s => s.writeSetupAddr v) s

/-- INT_STATUS_WRITE (R151): each cause written as 1 is cleared. -/
def execIntStatusWrite (v : Word) (s : State) : Host.Outcome State Fault Refusal :=
  runCommand (.intStatusWrite v) true
    (fun s => ({ s with intStatus := s.intStatus &&& ~~~causeBits v } : State).drivePin) s

/-- INT_ENABLE_WRITE (R151): the five enables are replaced. -/
def execIntEnableWrite (v : Word) (s : State) : Host.Outcome State Fault Refusal :=
  runCommand (.intEnableWrite v) true (fun s => ({ s with intEnable := causeBits v } : State).drivePin) s

/-- REGISTER_WRITE_IGNORED (R154, R162): a write of IDENT or STATUS sets REJECTED whatever its value. -/
def execRegisterWriteIgnored (offset : BitVec 5) (v : Word) (s : State) : Host.Outcome State Fault Refusal :=
  runCommand (.registerWriteIgnored offset v) true State.reject s

/-- SETUP_READ_END (R156, R157): the read that STARTING makes has ended. -/
def execSetupReadEnd (result : BusRead) (s : State) : Host.Outcome State Fault Refusal :=
  runCommand (.setupReadEnd result) (s.device == .starting) (fun s => s.setupEnds result) s

/-- The holdoff timer of a ring (section 9.4). -/
def State.holdoffTimer (s : State) (ring : Ring) : Option Nat :=
  match ring with
  | .completion => s.completionInt.timer
  | .event => s.eventInt.timer

/-- R152: a holdoff timer expires: the clock reaches its moment, the count becomes 0 and the ring's cause is set. -/
def State.holdoffExpires (s : State) (ring : Ring) : State :=
  let s := s.elapse ((s.holdoffTimer ring).getD s.clock - s.clock)
  match ring with
  | .completion => ({ s with completionInt := s.completionInt.expire } : State).setCause .completion
  | .event => ({ s with eventInt := s.eventInt.expire } : State).setCause .event

/-- HOLDOFF_TIMER_EXPIRY (R152): the timers run in every device state, FAILED included. -/
def execHoldoffTimerExpiry (ring : Ring) (s : State) : Host.Outcome State Fault Refusal :=
  runCommand (.holdoffTimerExpiry ring) (s.holdoffTimer ring).isSome (fun s => s.holdoffExpires ring) s

end Sys2Proof.Machine
end

