-- ==== Sys2Proof/Machine/Queues.lean ====
section
/-! DEFINITION. The commands on the rings: POST and RETIRE writes, the fetch arbiter's choice, the error of a record read,
and the ends of completion and event entry writes (chapters 8 and 9). -/

namespace Sys2Proof.Machine

/-! ## POST (R130 to R133) -/

/-- R131: an ACTIVE queue takes the tail; one it records is a notice to the fetch arbiter (R142). -/
def State.postedTail (s : State) (q : QueueNo) (tail : Nat) : State :=
  let s' := s.updQueue q fun q => q.postTail tail
  if tail < (s.queue q).size then s'.tellArbiter else s'

/-- R130, R131: a POST write with restart 0. -/
def State.postTail (s : State) (v : Word) : State :=
  if s.device.started ∧ (s.queue (postQueue v)).state = .active then
    (s.postedTail (postQueue v) (postTailField v)).finish
  else s.reject

/-- POST_TAIL (R131). -/
def execPostTail (v : Word) (s : State) : Host.Outcome State Fault Refusal :=
  runCommand (.postTail v) true (fun s => s.postTail v) s

/-- R130, R132: a POST write with restart 1. -/
def State.postRestart (s : State) (v : Word) : State :=
  if s.device.started ∧ (s.queue (postQueue v)).state = .stopped ∧ (s.queue (postQueue v)).fetching = false then
    (s.updQueue (postQueue v) Queue.restart).tellArbiter
  else s.reject

/-- POST_RESTART (R132). -/
def execPostRestart (v : Word) (s : State) : Host.Outcome State Fault Refusal :=
  runCommand (.postRestart v) true (fun s => s.postRestart v) s

/-! ## RETIRE (R146) -/

/-- R146: a RETIRE of the completion ring that moves its host head frees credits: the fetch arbiter is told (R142). -/
def State.retireCompletion (s : State) (head : Nat) : State :=
  if head = s.completion.hostHead then s
  else ({ s with completion := { s.completion with hostHead := head } } : State).tellArbiter

/-- R146: a RETIRE of the event ring that moves its host head frees places: the grant condition is judged again (R148)
and the event writer looks for a report to take (R149). -/
def State.retireEvent (s : State) (head : Nat) : State :=
  if head = s.event.hostHead then s
  else ({ s with event := { s.event with hostHead := head } } : State).judgeGrant.finish

/-- R146: a RETIRE write, judged against its ring. -/
def State.retire (s : State) (v : Word) : State :=
  if s.device.started then
    match retireRing v with
    | .completion =>
      if s.completion.mayRetire (retireHead v) then s.retireCompletion (retireHead v) else s.reject
    | .event => if s.event.mayRetire (retireHead v) then s.retireEvent (retireHead v) else s.reject
  else s.reject

/-- RETIRE (R146). -/
def execRetire (v : Word) (s : State) : Host.Outcome State Fault Refusal :=
  runCommand (.retire v) true (fun s => s.retire v) s

/-! ## Record reads (R134 to R137) -/

/-- FETCH_CHOICE (R134, R142): the arbiter looks when an event of R142 has told it to (entry 24). -/
def execFetchChoice (s : State) : Host.Outcome State Fault Refusal :=
  runCommand .fetchChoice (s.operating && s.fetchDue) State.fetchLook s

/-- RECORD_READ_ERROR (R137). -/
def execRecordReadError (s : State) : Host.Outcome State Fault Refusal :=
  runCommand .recordReadError s.readInProgress (fun s => s.readFails.finish) s

/-! ## Completion entries (R145, R159) -/

/-- R79: the FENCE `id` counts one entry fewer; at 0 it ends OK. -/
def State.fenceCounts (s : State) (id : Nat) : State :=
  let s := s.updCtx id fun c => { c with fenceCount := c.fenceCount - 1 }
  if (s.ctx id).map (·.fenceCount) = some 0 then s.endRecord id .ok .none else s

/-- R79: the FENCEs that count the context `c`: those of its queue accepted after it whose end is not decided. -/
def State.fencesAfter (s : State) (c : Context) : List Nat :=
  (((s.pool.dropWhile fun d => d.id != c.id).drop 1).filter fun d =>
    d.kind == some .fence && d.queue == c.queue && d.phase == .queued).map (·.id)

/-- R145, step 2: the context becomes free and the FENCEs that count it are told. -/
def State.freeContext (s : State) (id : Nat) : State :=
  match s.ctx id with
  | none => s
  | some c =>
    let s' := (s.fencesAfter c).foldl (fun s id => s.fenceCounts id) s
    { s' with pool := s'.pool.filter fun d => d.id != id }

/-- R145: the fourth transaction of the entry has ended good. -/
def State.completionPosted (s : State) : State :=
  match s.completionWrite with
  | none => s
  | some w =>
    (({ s with
        mem := writeOctets w.addr w.octets (wordOffsets completionWords 4) s.mem
        completion := s.completion.post
        completionWrite := none } : State).freeContext w.ctx).tellArbiter.completionPosting.finish

/-- COMPLETION_ENTRY_POSTED (R145). -/
def execCompletionEntryPosted (s : State) : Host.Outcome State Fault Refusal :=
  runCommand .completionEntryPosted (s.posting && s.completionWrite.isSome) State.completionPosted s

/-- R145, R159: a transaction of the entry ends in a bus error after `done` have ended good. DESIGN CHOICE (entry 12): its
words reach memory before those of the other writes the failure cuts short. -/
def State.completionFails (s : State) (done : Nat) : State :=
  match s.completionWrite with
  | none => s
  | some w =>
    ({ s with mem := writeOctets w.addr w.octets (wordOffsets completionWords done) s.mem } : State).landEvent.landReplies.enterFailed
      .completionWrite

/-- COMPLETION_WRITE_ERROR (R159). -/
def execCompletionWriteError (done : Nat) (s : State) : Host.Outcome State Fault Refusal :=
  runCommand (.completionWriteError done) (s.posting && s.completionWrite.isSome) (fun s => s.completionFails done) s

/-! ## Event entries (R150, R159) -/

/-- R150, step 3: the line releases its receive buffer and the station's delivery ends (R73, R23, R45). The
buffer's release tells the line's scheduler; the end of a delivery with poll due set is the same notice (R113). -/
def State.attentionWritten (s : State) (attention : Option (LineNo × Handle)) : State :=
  match attention with
  | none => s
  | some (l, h) =>
    ((s.updLine l Line.releaseBuffer).updStation h Station.deliveryEnds).settleClosing h

/-- R150: the last transaction of the entry has ended good. DESIGN CHOICE (entry 36): the entry of a CLOSING station becomes free
with the end of its delivery (step 3), and its pending presence report is discarded, before R148's grant condition is judged. -/
def State.eventPosted (s : State) : State :=
  match s.eventWrite with
  | none => s
  | some w =>
    (({ s with
        mem := writeOctets w.addr w.octets (wordOffsets eventWords 16) s.mem
        event := s.event.post
        reserved := s.reserved - 1
        eventWrite := none } : State).attentionWritten w.attention).eventPosting.judgeGrant.finish

/-- EVENT_ENTRY_POSTED (R150). -/
def execEventEntryPosted (s : State) : Host.Outcome State Fault Refusal :=
  runCommand .eventEntryPosted (s.posting && s.eventWrite.isSome) State.eventPosted s

/-- R150, R159: a transaction of the entry ends in a bus error after `done` have ended good. DESIGN CHOICE (entry 12): its
words reach memory before those of the other writes the failure cuts short. -/
def State.eventFails (s : State) (done : Nat) : State :=
  match s.eventWrite with
  | none => s
  | some w =>
    ({ s with mem := writeOctets w.addr w.octets (wordOffsets eventWords done) s.mem } : State).landCompletion.landReplies.enterFailed
      .eventWrite

/-- EVENT_WRITE_ERROR (R159). -/
def execEventWriteError (done : Nat) (s : State) : Host.Outcome State Fault Refusal :=
  runCommand (.eventWriteError done) (s.posting && s.eventWrite.isSome) (fun s => s.eventFails done) s

end Sys2Proof.Machine
end

