-- ==== Sys2Proof/Machine/Records.lean ====
section
/-! DEFINITION. The fourteen commands of a record read that has ended good: the record is accepted, validated, and acts
(sections 4.9, 4.10, 7 and 8.5). -/

namespace Sys2Proof.Machine

/-- A record `r` is accepted and acts by `act` when it is taken. -/
def runRecord (c : Instr) (r : List Byte) (act : State → Nat → State) (s : State) :
    Host.Outcome State Fault Refusal :=
  runCommand c s.readInProgress (fun s => s.takeRecord r act) s

/-- A management record ends OK in the step of its acceptance (R114). -/
def State.endOk (s : State) (id : Nat) : State := s.endRecord id .ok .none

/-- UNKNOWN_KIND (R140, check 1a): refused, with the kind code as read. -/
def execUnknownKind (r : List Byte) (s : State) : Host.Outcome State Fault Refusal :=
  runRecord (.unknownKind r) r (fun s _ => s) s

/-! ## EXCHANGE and BROADCAST -/

/-- R46, R141: the exchange joins its station's list and the scheduler is told, or ends STATION_OFFLINE at once for an OFFLINE station. -/
def State.acceptExchange (s : State) (h : Handle) (id : Nat) : State :=
  match s.station h with
  | none => s
  | some st =>
    if st.state = .offline then s.hand id .stationOffline .none 0 (some st.band) none
    else (s.setStation h (some { st with pending := joinTail st.pending id })).notify st.line

/-- EXCHANGE (R139). -/
def execExchange (r : List Byte) (s : State) : Host.Outcome State Fault Refusal :=
  runRecord (.exchange r) r (fun s id => s.acceptExchange (recHandle r) id) s

/-- R74, R113: the broadcast joins the FIFO and the scheduler is told. -/
def Line.queueBroadcast (x : Line) (id : Nat) : Line := { x.noticed with fifo := x.fifo ++ [id] }

/-- BROADCAST (R74): it joins its line's broadcast FIFO, whatever the engine state. -/
def execBroadcast (r : List Byte) (s : State) : Host.Outcome State Fault Refusal :=
  runRecord (.broadcast r) r (fun s id => s.updLine (recLine r) fun x => x.queueBroadcast id) s

/-! ## Station records (R116 to R120) -/

/-- R18: the entry is taken into use and the scheduler of its line is told. -/
def State.addStation (s : State) (r : List Byte) : State :=
  (s.setStation (recHandle r) (some (newStation r))).notify (recStationLine r)

/-- ADD_STATION (R116, R18). -/
def execAddStation (r : List Byte) (s : State) : Host.Outcome State Fault Refusal :=
  runRecord (.addStation r) r (fun s id => (s.addStation r).endOk id) s

/-- REMOVE_STATION (R117, R43): CLOSING, the drain, and the freeing if nothing is in flight. -/
def execRemoveStation (r : List Byte) (s : State) : Host.Outcome State Fault Refusal :=
  runRecord (.removeStation r) r
    (fun s id => (s.updStation (recHandle r) fun st => st.enterClosing id).settleClosing (recHandle r)) s

/-- PAUSE_STATION (R119). -/
def execPauseStation (r : List Byte) (s : State) : Host.Outcome State Fault Refusal :=
  runRecord (.pauseStation r) r
    (fun s id => (s.updStation (recHandle r) fun st => { st with paused := true }).endOk id) s

/-- R120: the paused flag is cleared; where it was set, the scheduler of the station's line is told. -/
def State.resumeStation (s : State) (h : Handle) : State :=
  match s.station h with
  | none => s
  | some st =>
    let s' := s.setStation h (some { st with paused := false })
    if st.paused then s'.notify st.line else s'

/-- RESUME_STATION (R120). -/
def execResumeStation (r : List Byte) (s : State) : Host.Outcome State Fault Refusal :=
  runRecord (.resumeStation r) r (fun s id => (s.resumeStation (recHandle r)).endOk id) s

/-! ## Line records (R121 to R126) -/

/-- R97, R83: the engine enters DISABLED; from another condition than CLEAR the break-ended flag is set (R92). Band
table, hysteresis, rate, report counts and pending line reset are kept. -/
def Line.disable (x : Line) : Line :=
  { x with
    state := .disabled
    breakEnded := x.breakEnded || x.condition != .clear
    condition := .clear
    quiesce := false
    quietSince := none
    spaceEdge := none
    receiving := false
    markSince := none }

/-- R121: a QUIESCED line enters DISABLED; a DISABLED line stays as it is. -/
def State.disableLine (s : State) (l : LineNo) : State :=
  if (s.line l).state = .quiesced then s.updLine l Line.disable else s

/-- SET_LINE_DISABLE (R121). -/
def execSetLineDisable (r : List Byte) (s : State) : Host.Outcome State Fault Refusal :=
  runRecord (.setLineDisable r) r (fun s id => (s.disableLine (recLine r)).endOk id) s

/-- A reply write of the line is under way (R63). -/
def Line.replying (x : Line) : Bool :=
  match x.rxBuffer with
  | some (.reply _ _) => true
  | some (.attention _) => false
  | none => false

/-- R122: the SET_LINE is outstanding; the band table read begins, or waits for a reply write to end. -/
def Line.configure (x : Line) (id : Nat) : Line :=
  let x' := { x with setLine := some id }
  if x.replying then x' else x'.beginBandRead

/-- SET_LINE_ENABLE (R122). -/
def execSetLineEnable (r : List Byte) (s : State) : Host.Outcome State Fault Refusal :=
  runRecord (.setLineEnable r) r (fun s id => s.updLine (recLine r) fun x => x.configure id) s

/-- R95, R124: quiesce requested is set; an IDLE engine enters QUIESCED; an attempt or a break is waited for. -/
def State.quiesceLine (s : State) (l : LineNo) (id : Nat) : State :=
  let s' := s.updLine l fun x => { x with quiesce := true }
  let wait := s'.updLine l fun x => { x with quiescers := x.quiescers ++ [id] }
  match (s.line l).state with
  | .idle => (s'.updLine l fun x => { x with state := .quiesced }).endOk id
  | .guard => s'.endOk id
  | .quiesced => s'.endOk id
  | .preparing => wait
  | .transmit => wait
  | .await => wait
  | .receive => wait
  | .breakOut => wait
  | .disabled => s

/-- QUIESCE_LINE (R124). -/
def execQuiesceLine (r : List Byte) (s : State) : Host.Outcome State Fault Refusal :=
  runRecord (.quiesceLine r) r (fun s id => s.quiesceLine (recLine r) id) s

/-- R96, R125: quiesce requested is cleared and the engine moves to IDLE, where it owes its scheduler a consultation. -/
def Line.resume (x : Line) : Line := { x with quiesce := false, state := .idle, consultDue := true }

/-- RESUME_LINE (R125). -/
def execResumeLine (r : List Byte) (s : State) : Host.Outcome State Fault Refusal :=
  runRecord (.resumeLine r) r (fun s id => (s.updLine (recLine r) Line.resume).endOk id) s

/-- R93, R113: the record joins the list of the pending line reset, and the scheduler is told. -/
def Line.deferReset (x : Line) (id : Nat) : Line :=
  { x.noticed with resetPending := true, resetRecords := x.resetRecords ++ [id] }

/-- R93, R126: the record is bound to a break begun at once, to the break in progress, or to the pending line reset. -/
def State.resetLine (s : State) (l : LineNo) (id : Nat) : State :=
  let defer := s.updLine l fun x => x.deferReset id
  let now := if s.device = .running then s.enterBreakOut l [id] s.time else defer
  match (s.line l).state with
  | .idle => now
  | .guard => now
  | .quiesced => now
  | .breakOut => s.updLine l fun x => { x with boundResets := x.boundResets ++ [id] }
  | .preparing => defer
  | .transmit => defer
  | .await => defer
  | .receive => defer
  | .disabled => s

/-- LINE_RESET (R126). -/
def execLineReset (r : List Byte) (s : State) : Host.Outcome State Fault Refusal :=
  runRecord (.lineReset r) r (fun s id => s.resetLine (recLine r) id) s

/-! ## ABORT (R76 to R78) -/

/-- A context of kind EXCHANGE or BROADCAST from queue `q` with tag `t` (R76). -/
def Context.named (c : Context) (q : QueueNo) (t : Nat) : Bool :=
  (c.kind == some .exchange || c.kind == some .broadcast) && c.queue == q && c.tag == t

/-- R76: the target is the first accepted whose end is not decided and whose abort requested is clear. -/
def State.abortTarget (s : State) (q : QueueNo) (t : Nat) : Option Context :=
  s.pool.find? fun c => c.named q t && c.phase != .ending && c.abortRequested.isNone

/-- R76: the status of an ABORT without a target. -/
def State.abortMiss (s : State) (q : QueueNo) (t : Nat) : Status :=
  if s.pool.any fun c => c.named q t && c.phase == .ending then .tooLate else .notFound

/-- R77, R78: the ABORT acts by its target's phase. -/
def State.abortContext (s : State) (c : Context) (id : Nat) : State :=
  match c.phase with
  | .queued => (s.endWith c.id .aborted).endOk id
  | .waitingRetry => (s.endWith c.id .aborted).endOk id
  | .held => (s.endWith c.id .aborted).endOk id
  | .preparing => s.updCtx c.id fun d => { d with abortRequested := some id }
  | .attempting => s.updCtx c.id fun d => { d with abortRequested := some id }
  | .ending => s

/-- R76: the search and its result. -/
def State.abortRecord (s : State) (q : QueueNo) (t id : Nat) : State :=
  match s.abortTarget q t with
  | some c => s.abortContext c id
  | none => s.endRecord id (s.abortMiss q t) .none

/-- ABORT (R76). -/
def execAbort (r : List Byte) (s : State) : Host.Outcome State Fault Refusal :=
  runRecord (.abort r) r (fun s id => s.abortRecord (recQueue r) (le16 r 6) id) s

/-! ## FENCE (R79) -/

/-- R79: the other contexts in use of the FENCE's queue, all of them fetched before it. -/
def State.fenceCountOf (s : State) (id : Nat) : Nat :=
  match s.ctx id with
  | none => 0
  | some c => s.pool.countP fun d => d.id != id && d.queue == c.queue

/-- R79: the count is taken at acceptance; at 0 the FENCE ends OK. -/
def State.fenceRecord (s : State) (id : Nat) : State :=
  let n := s.fenceCountOf id
  let s := s.updCtx id fun c => { c with fenceCount := n }
  if n = 0 then s.endOk id else s

/-- FENCE (R79). -/
def execFence (r : List Byte) (s : State) : Host.Outcome State Fault Refusal :=
  runRecord (.fence r) r (fun s id => s.fenceRecord id) s

end Sys2Proof.Machine
end

