-- ==== Sys2Proof/Machine/Lines.lean ====
section
/-! DEFINITION. The commands of a line that the engine's own work gives: the scheduler's choice, the ends of its reads
and writes, of its frame, of its guard and of its break, and the band table read (chapters 3 to 7). -/

namespace Sys2Proof.Machine

/-! ## The scheduler's choice (R85, R103) -/

/-- SCHEDULER_CHOICE (R85, R103): `wait` after the part's last event the engine makes the consultation it owes
(entry 24). -/
def execSchedulerChoice (l : LineNo) (wait : Nat) (s : State) : Host.Outcome State Fault Refusal :=
  runCommand (.schedulerChoice l wait) ((s.reach (s.time + wait)).mayChoose l)
    (fun s => ((s.reach (s.time + wait)).consult l).finish) s

/-! ## Payload reads (R58 to R60, R85) -/

/-- The line's engine is in PREPARING with a read that no break has abandoned. -/
def State.reads (s : State) (l : LineNo) : Bool :=
  s.operating && (s.line l).state == .preparing && !(s.line l).abandoned

/-- The payload length that the read in progress asks for. -/
def State.readLength (s : State) (l : LineNo) : Option Nat :=
  (((s.line l).job.bind Job.context).bind s.ctx).map Context.payloadLength

/-- R58: where in host memory the payload read in progress reads: the payload's address (entry 11). -/
def State.payloadReadAt (s : State) (l : LineNo) : Option Word :=
  (((s.line l).job.bind Job.context).bind s.ctx).bind fun c =>
    match c.body with
    | .exchange _ addr _ _ _ => some addr
    | .broadcast _ addr _ => some addr
    | _ => none

/-- R59: the payload read ends good with these octets. -/
def State.payloadRead (s : State) (l : LineNo) (octets : List Byte) : State :=
  match (s.line l).job with
  | none => s
  | some job => ((s.fillBuffer l job octets).readGood l job).finish

/-- PAYLOAD_READ_END (R59). -/
def execPayloadReadEnd (l : LineNo) (octets : List Byte) (s : State) : Host.Outcome State Fault Refusal :=
  runCommand (.payloadReadEnd l octets) (s.reads l && s.readLength l == some octets.length)
    (fun s => s.payloadRead l octets) s

/-- R58: the payload read ends in a bus error. -/
def State.payloadFails (s : State) (l : LineNo) : State :=
  match (s.line l).job.bind Job.context with
  | none => s
  | some id => (s.readFailed l id).finish

/-- PAYLOAD_READ_ERROR (R58). -/
def execPayloadReadError (l : LineNo) (s : State) : Host.Outcome State Fault Refusal :=
  runCommand (.payloadReadError l) (s.reads l && (s.readLength l).isSome) (fun s => s.payloadFails l) s

/-- ABANDONED_READ_END (R85): the outstanding transaction of an abandoned read has ended, and the engine enters GUARD
with its quiet time as it stands (entry 16). -/
def execAbandonedReadEnd (l : LineNo) (s : State) : Host.Outcome State Fault Refusal :=
  runCommand (.abandonedReadEnd l) (s.operating && (s.line l).state == .preparing && (s.line l).abandoned)
    (fun s => (s.toGuard l).finish) s

/-! ## The end of a frame (R10, R51, R68, R74, R86) -/

/-- R84: the quiet time restarts at `t`, unless it restarts later already: it counts from the latest of its events, and a
character passed on with a framing error may have an end of its stop bit that is still to come. -/
def Line.restartQuiet (x : Line) (t : Nat) : Line := { x with quietSince := some (max (x.quietSince.getD 0) t) }

/-- The driver is released at the moment `t`: the receiver takes up the line, and the quiet time restarts there (R82, R84). -/
def Line.releaseDriver (x : Line) (t : Nat) : Line :=
  { x.restartQuiet t with driverEnable := false, txd := .mark, txFrame := [], looksSince := t }

/-- The moment of the last stop bit: n characters of C each (R1). -/
def Line.frameEnd (x : Line) : Nat := x.txStart + x.txFrame.length * x.char

/-- R51: the length of the reply timer, in µs: W_b of the line's band table for the station's band. -/
def State.replyTimeout (s : State) (l : LineNo) (h : Handle) : Nat :=
  match (s.line l).bandTable, s.station h with
  | some t, some st => t.wait st.band
  | _, _ => 0

/-- R86: AWAIT: at the last stop bit, the moment `t`, the reply timer starts and the turnaround measurement begins (R50,
R51). -/
def Line.await (x : Line) (timeout t : Nat) : Line :=
  { x with
    state := .await
    sentAt := t
    replyTimer := some (t + timeout * Config.ticksPerMicrosecond)
    rxOctets := []
    rxWrong := false }

/-- R61, R68: a COMMAND sent to a station is unanswered from its last stop bit. -/
def State.markUnanswered (s : State) (job : Job) : State :=
  match job with
  | .command id _ _ => s.updCtx id fun c => { c with unanswered := true }
  | .broadcast _ => s
  | .poll _ _ => s
  | .link _ => s
  | .probe _ => s

/-- R86 by the kind of frame, whose last stop bit ended at `t`; the driver has been released. -/
def State.frameSent (s : State) (l : LineNo) (job : Job) (t : Nat) : State :=
  match job with
  | .broadcast id => ((s.endWith id .ok).endAbort (s.aborter id) .tooLate).toGuard l
  | .command _ h _ => (s.markUnanswered job).updLine l fun x => x.await (s.replyTimeout l h) t
  | .poll h _ => s.updLine l fun x => x.await (s.replyTimeout l h) t
  | .link h => s.updLine l fun x => x.await (s.replyTimeout l h) t
  | .probe h => s.updLine l fun x => x.await (s.replyTimeout l h) t

/-- R86: the frame's last stop bit has been sent. -/
def State.transmitEnds (s : State) (l : LineNo) : State :=
  match (s.line l).job with
  | none => s
  | some job =>
    let t := (s.line l).frameEnd
    (((s.reach t).updLine l fun x => x.releaseDriver t).frameSent l job t).finish

/-- TRANSMIT_END (R86). -/
def execTransmitEnd (l : LineNo) (s : State) : Host.Outcome State Fault Refusal :=
  runCommand (.transmitEnd l) (s.operating && (s.line l).state == .transmit && (s.line l).job.isSome)
    (fun s => s.transmitEnds l) s

/-! ## Reply writes (R63) -/

/-- R63: the reply write of the line ends. -/
def State.replyWriteEnds (s : State) (l : LineNo) (result : BusWrite) : State :=
  match (s.line l).rxBuffer with
  | some (.reply id octets) => (s.replyWritten l id octets result).finish
  | some (.attention _) => s
  | none => s

/-- R63: the transactions of the line's reply write. -/
def State.replyTransactions (s : State) (l : LineNo) : Nat :=
  match (s.line l).rxBuffer with
  | some (.reply id octets) =>
    match s.ctx id with
    | some c => transactionCount c.replyBuffer.1 (min octets.length c.replyBuffer.2)
    | none => 0
  | some (.attention _) => 0
  | none => 0

/-- The reply write can end so: in error, at one of its transactions (entry 31). -/
def State.mayEndReply (s : State) (l : LineNo) (result : BusWrite) : Bool :=
  s.operating && (s.line l).replying &&
    match result with
    | .good => true
    | .error done => done < s.replyTransactions l

/-- REPLY_WRITE_END (R63). -/
def execReplyWriteEnd (l : LineNo) (result : BusWrite) (s : State) : Host.Outcome State Fault Refusal :=
  runCommand (.replyWriteEnd l result) (s.mayEndReply l result) (fun s => s.replyWriteEnds l result) s

/-! ## The band table read (R48, R49, R97, R123) -/

/-- R49: bounds, timeouts, hysteresis and rate are installed as one change at `now`, and the SET_LINE is no longer
outstanding. -/
def Line.install (x : Line) (t : BandTable) (hysteresis : Nat) (rate : Fin 8) (now : Nat) : Line :=
  { x with
    bandTable := some t, hysteresis := hysteresis, rate := some rate, rateSince := now, setLine := none
    bandReading := false }

/-- R97: the receiver of a line that leaves DISABLED starts at `now`: the condition is CLEAR and the quiet time starts. -/
def Line.startReceiver (x : Line) (now : Nat) : Line :=
  { x with
    condition := .clear, quietSince := some now, spaceEdge := none, receiving := false, looksSince := now, markSince := none }

/-- R97: on another line a character being received is discarded; the durations being measured keep the time elapsed, that
of a space under way among them, and are compared from now on with thresholds at the new rate (`Line.reaches`). DEDUCED
(entry 37): after a discarded character the receiver looks for a transition from the installation on. -/
def Line.dropCharacter (x : Line) : Line :=
  { x with receiving := false, looksSince := if x.receiving then x.rateSince else x.looksSince }

/-- R97: installation on a DISABLED line: its break now, or GUARD with a pending line reset. -/
def State.enableLine (s : State) (l : LineNo) : State :=
  let s := s.updLine l fun x => x.startReceiver s.time
  if s.device = .running then s.enterBreakOut l [] s.time
  else s.updLine l fun x => { x with state := .guard, guardSince := s.time, resetPending := true }

/-- R49, R97, R123: the valid table is installed and the record ends OK; the engine acts by its state (entry 20). -/
def State.installTable (s : State) (l : LineNo) (id : Nat) (b : List Byte) (hysteresis : Nat) (rate : Fin 8) : State :=
  let s' := (s.updLine l fun x => x.install (bandTableOf b) hysteresis rate s.time).endOk id
  if (s.line l).state = .disabled then s'.enableLine l else s'.updLine l Line.dropCharacter

/-- R123: the record ends without a table installed and stops being outstanding. -/
def State.tableFails (s : State) (l : LineNo) (id : Nat) (status : Status) (detail : Detail) : State :=
  (s.updLine l fun x => { x with setLine := none, bandReading := false }).endRecord id status detail

/-- R123: the hysteresis and rate of the outstanding SET_LINE's record. -/
def State.setLineFields (s : State) (id : Nat) : Nat × Fin 8 :=
  match s.ctx id with
  | none => (0, 0)
  | some c =>
    match c.body with
    | .setLine _ _ rate hysteresis _ => (hysteresis, rate)
    | _ => (0, 0)

/-- R122: where in host memory the line's band table read reads: the address of the outstanding SET_LINE (entry 11). -/
def State.tableReadAt (s : State) (l : LineNo) : Option Word :=
  ((s.line l).setLine.bind s.ctx).bind fun c =>
    match c.body with
    | .setLine _ _ _ _ addr => some addr
    | _ => none

/-- R123: the band table read ends. -/
def State.tableReadEnds (s : State) (l : LineNo) (result : BusRead) : State :=
  match (s.line l).setLine with
  | none => s
  | some id =>
    (match result with
      | .error => s.tableFails l id .hostReadError .bandTableRead
      | .good b =>
        if bandBlockValid b then s.installTable l id b (s.setLineFields id).1 (s.setLineFields id).2
        else s.tableFails l id .badRecord .bandTableInvalid).finish

/-- BAND_TABLE_READ_END (R123). -/
def execBandTableReadEnd (l : LineNo) (result : BusRead) (s : State) : Host.Outcome State Fault Refusal :=
  runCommand (.bandTableReadEnd l result) (s.operating && (s.line l).bandReading && (s.line l).setLine.isSome)
    (fun s => s.tableReadEnds l result) s

/-! ## The end of a guard (R89) -/

/-- R89: the quiet time can reach 2 C: the condition is CLEAR, no character is being received, a quiet time runs. -/
def Line.guardMayEnd (x : Line) : Bool :=
  x.state == .guard && x.condition == .clear && !x.receiving && x.quietSince.isSome

/-- The moment the quiet time reaches 2 C. -/
def Line.quietMoment (x : Line) : Nat := x.reaches (x.quietSince.getD 0) 2

/-- R88, R89: the moment the guard ends: when the quiet time reaches 2 C, or on the entry into GUARD where it had reached it
before, as after a fragment ended by a gap. -/
def Line.guardMoment (x : Line) : Nat := max x.quietMoment x.guardSince

/-- R89: BREAK_OUT, QUIESCED or IDLE. -/
def State.guardEnds (s : State) (l : LineNo) : State :=
  let t := (s.line l).guardMoment
  let s := s.reach t
  (if (s.line l).resetPending = true ∧ s.device = .running then s.enterBreakOut l [] t
    else s.updLine l Line.rest).finish

/-- GUARD_END (R89). -/
def execGuardEnd (l : LineNo) (s : State) : Host.Outcome State Fault Refusal :=
  runCommand (.guardEnd l) (s.operating && (s.line l).guardMayEnd) (fun s => s.guardEnds l) s

/-! ## The part's own break (R16, R94) -/

/-- C at the rate the break began with (R94). -/
def Line.breakChar (x : Line) : Nat := 11 * (x.breakRate.map Config.bitTicks).getD 0

/-- BREAK_SPACE_END (R16): after 16 C of space the transmit output is driven at mark. -/
def execBreakSpaceEnd (l : LineNo) (s : State) : Host.Outcome State Fault Refusal :=
  runCommand (.breakSpaceEnd l) (s.operating && (s.line l).state == .breakOut && (s.line l).txd == .space)
    (fun s => (s.reach ((s.line l).breakStart + 16 * (s.line l).breakChar)).updLine l
      fun x => { x with txd := .mark }) s

/-- R94: the LINE_RESET records bound to the break end OK, in acceptance order. -/
def State.endBound (s : State) (l : LineNo) : State :=
  ((s.line l).boundResets.foldl (fun s id => s.endOk id) s).updLine l fun x => { x with boundResets := [] }

/-- R94: the driver enable is released, the bound records end, then the waiting QUIESCE_LINE records (entry 8); the
engine enters GUARD with the quiet time restarted. -/
def State.breakReleased (s : State) (l : LineNo) : State :=
  let t := (s.line l).breakStart + 24 * (s.line l).breakChar
  ((((s.reach t).updLine l fun x => x.releaseDriver t).endBound l).toGuard l).finish

/-- BREAK_RELEASE (R94): after 8 C of mark. -/
def execBreakRelease (l : LineNo) (s : State) : Host.Outcome State Fault Refusal :=
  runCommand (.breakRelease l) (s.operating && (s.line l).state == .breakOut && (s.line l).txd == .mark)
    (fun s => s.breakReleased l) s

end Sys2Proof.Machine
end

