-- ==== Sys2Proof/Machine/Receiver.lean ====
section
/-! DEFINITION. The commands of a line's receiver: characters, glitches, the answer's mark bit and gap, the reply timer,
and the line condition (sections 1.1, 1.5, 5.1 and 5.3 to 5.5). -/

namespace Sys2Proof.Machine

/-- The receiver watches: the engine is neither DISABLED nor driving the line (section 5.1), and the part operates. -/
def State.watching (s : State) (l : LineNo) : Bool :=
  s.operating &&
    match (s.line l).state with
    | .disabled => false
    | .transmit => false
    | .breakOut => false
    | .idle => true
    | .guard => true
    | .preparing => true
    | .await => true
    | .receive => true
    | .quiesced => true

/-- The leading edge of the character being received; of one not announced by a CHARACTER_BEGUN, the present
(entry 26). -/
def Line.charEdge (x : Line) (now : Nat) : Nat := if x.receiving then x.spaceEdge.getD now else now

/-- The leading edge of the space under way; of one not announced by a CHARACTER_BEGUN, the present (entry 26). -/
def Line.breakEdge (x : Line) (now : Nat) : Nat := x.spaceEdge.getD now

/-! ## Characters that begin, and glitches (R3) -/

/-- R3, R83: a transition or a glitch is not ruled out by a character being received or a space under way. -/
def Line.mayBegin (x : Line) : Bool :=
  !x.receiving && (x.condition == .clear || (x.condition == .recovering && x.spaceEdge.isNone))

/-- R11, R12: in RECEIVE a gap of more than 3 C ends the frame before the next character begins. -/
def Line.withinGap (x : Line) (edge : Nat) : Bool :=
  x.state != .receive || x.rxOctets.isEmpty || edge ≤ x.gapSince + 3 * x.char

/-- R3: a character has begun: its leading edge came at `edge` and the line is at space half a bit time after it. In
RECOVERING it begins no character and the 8 C of mark are to be counted again (R83). -/
def Line.beginCharacter (x : Line) (edge : Nat) : Line :=
  { x with spaceEdge := some edge, receiving := x.condition == .clear, markSince := none }

/-- The leading edge of a character that is confirmed `wait` after the part's last event. -/
def State.begunEdge (s : State) (l : LineNo) (wait : Nat) : Nat := s.time + wait - (s.line l).bit / 2

/-- R3, R82: the leading edge of a character confirmed at `t`, half a bit time before, lies in the time in which the receiver
has looked for it: not before the release of the driver, nor in the character, glitch or break before (DEDUCED, entry 37). -/
def Line.looksAt (x : Line) (t : Nat) : Bool := x.looksSince + x.bit / 2 ≤ t

/-- CHARACTER_BEGUN (R3). -/
def execCharacterBegun (l : LineNo) (wait : Nat) (s : State) : Host.Outcome State Fault Refusal :=
  runCommand (.characterBegun l wait)
    (s.watching l && (s.line l).mayBegin && (s.line l).looksAt (s.time + wait) && (s.line l).withinGap (s.begunEdge l wait))
    (fun s => (s.reach (s.time + wait)).updLine l fun x => x.beginCharacter (s.begunEdge l wait)) s

/-- R84: a glitch discarded at `t` restarts the quiet time, so that an IDLE engine owes its scheduler a consultation when
it has run again (R85); it is no part of any other gap or condition, and the receiver looks for the next transition (R3). -/
def Line.discardGlitch (x : Line) (t : Nat) : Line :=
  if x.condition = .clear then { x.noticed.restartQuiet t with spaceEdge := none, looksSince := t } else { x with looksSince := t }

/-- GLITCH_DISCARDED (R3): the space shorter than half a bit time ended `wait` after the part's last event. -/
def execGlitchDiscarded (l : LineNo) (wait : Nat) (s : State) : Host.Outcome State Fault Refusal :=
  runCommand (.glitchDiscarded l wait) (s.watching l && (s.line l).mayBegin)
    (fun s => (s.reach (s.time + wait)).updLine l fun x => x.discardGlitch (s.time + wait)) s

/-! ## The answer's mark bit (R50, R51, R87) -/

/-- The moment a mark bit is sampled: 9.5 bit times after the leading edge (R51). -/
def Line.markMoment (x : Line) (now : Nat) : Nat := x.charEdge now + 19 * x.bit / 2

/-- R87: the engine awaits an answer and the mark bit is read before the reply timer expires (entry 21). -/
def Line.marksInTime (x : Line) (now : Nat) : Bool :=
  x.state == .await && x.condition == .clear &&
    match x.replyTimer with
    | some deadline => x.markMoment now ≤ deadline
    | none => false

/-- R50, R87: the reply timer stops, the turnaround is fixed in whole µs, rounded down, and the engine enters RECEIVE
with that character at position 0. -/
def Line.fixTurnaround (x : Line) (now : Nat) : Line :=
  { x with
    state := .receive
    replyTimer := none
    turnaround := some ((x.charEdge now - x.sentAt) / Config.ticksPerMicrosecond)
    rxOctets := []
    rxWrong := false
    spaceEdge := some (x.charEdge now)
    receiving := true }

/-- R87: a mark bit of 1 is read in AWAIT. -/
def State.readMark (s : State) (l : LineNo) : State :=
  (s.reach ((s.line l).markMoment s.time)).updLine l fun x => x.fixTurnaround s.time

/-- MARK_BIT_READ (R51, R87). -/
def execMarkBitRead (l : LineNo) (s : State) : Host.Outcome State Fault Refusal :=
  runCommand (.markBitRead l) (s.watching l && (s.line l).marksInTime s.time && (s.line l).receiving)
    (fun s => s.readMark l) s

/-! ## Characters received (R11 to R13, R87, R88, R90) -/

/-- R84: the stop bit of a character passed on at `pass` ends eleven bit times after its leading edge; the quiet time restarts
there, and the gap to the next character is counted from there (R15). The receiver looks for the next transition (R3). -/
def Line.endCharacter (x : Line) (edge pass : Nat) : Line :=
  { x.restartQuiet (edge + 11 * x.bit) with
    spaceEdge := none, receiving := false, looksSince := pass, gapSince := edge + 11 * x.bit }

/-- R3: the moment at which a character is passed on: when its stop bit is sampled at mark, at its middle, which completes it;
with a framing error, when the line has returned to mark after that. -/
def Line.passMoment (x : Line) (edge : Nat) : StopBit → Nat
  | .good => edge + 21 * x.bit / 2
  | .error held => edge + 21 * x.bit / 2 + held

/-- R3, R15: a character with a framing error that is still held when 2 C have passed since the leading edge of its start
bit is withdrawn, and the space resolves into a break. DEDUCED (entry 33): so also one whose mark bit or a data bit was read
as 1, as R51 has it of the mark bit. -/
def Line.notWithdrawn (x : Line) (edge : Nat) (stop : StopBit) : Bool :=
  match stop with
  | .good => true
  | .error held => x.passMoment edge (.error held) < edge + 2 * x.char

/-- The stop bit was sampled at space. -/
def framingError : StopBit → Bool
  | .good => false
  | .error _ => true

/-- R90: a chatter character is counted. -/
def Line.countChatter (x : Line) : Line := { x with chatter := min 255 (x.chatter + 1) }

/-- R88: the next character of the answer is judged. -/
def State.receiveOctet (s : State) (l : LineNo) (octet : Byte) (mark ferr : Bool) : State :=
  let x := s.line l
  match x.job with
  | none => s
  | some job =>
    if x.rxWrong then s
    else
      match judgeCharacter job.sentKind (s.jobAddress job) x.rxOctets octet mark ferr with
      | .more => s.updLine l fun x => { x with rxOctets := x.rxOctets ++ [octet] }
      | .wrong => s.updLine l fun x => { x with rxOctets := x.rxOctets ++ [octet], rxWrong := true }
      | .garbled => s.endAttempt l .garbled false
      | .good o ap => s.endAttempt l o ap

/-- What the character does by the engine state; the character has ended. -/
def State.useCharacter (s : State) (l : LineNo) (octet : Byte) (mark ferr : Bool) : State :=
  match (s.line l).state with
  | .receive => s.receiveOctet l octet mark ferr
  | .idle => (s.updLine l Line.countChatter).toGuard l
  | .guard => s.updLine l Line.countChatter
  | .preparing => s.updLine l Line.countChatter
  | .quiesced => s.updLine l Line.countChatter
  | .await => s.updLine l Line.countChatter
  | .disabled => s
  | .transmit => s
  | .breakOut => s

/-- The first character of an answer, its mark bit not announced by a MARK_BIT_READ, reads it now (entry 21). -/
def State.answerBegins (s : State) (l : LineNo) (mark : Bool) : State :=
  if (s.line l).state = .await ∧ mark = true then s.readMark l else s

/-- R3, R87: the receiver passes on a character whose leading edge came at `edge`. -/
def State.takeCharacter (s : State) (l : LineNo) (octet : Byte) (mark : Bool) (stop : StopBit) (edge : Nat) : State :=
  let s := s.answerBegins l mark
  let pass := (s.line l).passMoment edge stop
  let s := (s.reach pass).updLine l fun x => x.endCharacter edge pass
  (s.useCharacter l octet mark (framingError stop)).finish

/-- A character with this leading edge can be passed on: the condition is CLEAR (R83), an answer's first character comes in
time (R87), a later one within the gap (R11), and a framing error before it is withdrawn (R3). -/
def Line.mayReceive (x : Line) (mark : Bool) (stop : StopBit) (now : Nat) : Bool :=
  x.condition == .clear && (x.state != .await || !mark || x.marksInTime now) && x.withinGap (x.charEdge now)
    && x.notWithdrawn (x.charEdge now) stop

/-- CHARACTER_RECEIVED (R87). -/
def execCharacterReceived (l : LineNo) (octet : Byte) (mark : Bool) (stop : StopBit) (s : State) :
    Host.Outcome State Fault Refusal :=
  runCommand (.characterReceived l octet mark stop) (s.watching l && (s.line l).mayReceive mark stop s.time)
    (fun s => s.takeCharacter l octet mark stop ((s.line l).charEdge s.time)) s

/-! ## The gap and the reply timer (R11, R12, R87) -/

/-- R11, R12: a gap in the answer can pass 3 C: a character of it has ended and none is being received. -/
def Line.gapOpen (x : Line) : Bool :=
  x.state == .receive && x.condition == .clear && !x.receiving && !x.rxOctets.isEmpty

/-- R11, R12: GARBLED, or WRONG_STATION after a wrong address. -/
def Line.gapOutcome (x : Line) : AttemptOutcome := if x.rxWrong then .wrongStation else .garbled

/-- INTER_CHARACTER_GAP_EXPIRY (R11, R12). -/
def execInterCharacterGapExpiry (l : LineNo) (s : State) : Host.Outcome State Fault Refusal :=
  runCommand (.interCharacterGapExpiry l) (s.operating && (s.line l).gapOpen)
    (fun s =>
      ((s.reach ((s.line l).gapSince + 3 * (s.line l).char)).endAttempt l (s.line l).gapOutcome false).finish) s

/-- R84, R87: the quiet time restarts at the expiry, the moment `t`, unless a character is being received. -/
def Line.quietAtExpiry (x : Line) (t : Nat) : Line := if x.receiving then x else x.restartQuiet t

/-- R87: the reply timer expires. -/
def State.replyExpires (s : State) (l : LineNo) : State :=
  let t := (s.line l).replyTimer.getD 0
  (((s.reach t).updLine l fun x => x.quietAtExpiry t).endAttempt l .noAnswer false).finish

/-- REPLY_TIMER_EXPIRY (R87). -/
def execReplyTimerExpiry (l : LineNo) (s : State) : Host.Outcome State Fault Refusal :=
  runCommand (.replyTimerExpiry l) (s.operating && (s.line l).state == .await && (s.line l).replyTimer.isSome)
    (fun s => s.replyExpires l) s

/-! ## The line condition (R83, R91, R92) -/

/-- R83: the space that began at `edge` reaches 2 C. -/
def Line.enterBreak (x : Line) (edge : Nat) : Line :=
  { x with condition := .break, spaceEdge := some edge, receiving := false, markSince := none, quietSince := none }

/-- R91, step 1: a read not yet abandoned is. -/
def State.breakOnRead (s : State) (l : LineNo) : State :=
  if (s.line l).state = .preparing ∧ (s.line l).abandoned = false then s.abandonRead l else s

/-- The attempt whose read a break abandons, or none. -/
def Line.abandonedJob (x : Line) : Option Job := if x.state = .preparing then x.job else none

/-- R91, step 3: the attempt in progress ends LINE_BREAK. -/
def State.breakOnAttempt (s : State) (l : LineNo) : State :=
  if (s.line l).state = .await ∨ (s.line l).state = .receive then
    match (s.line l).job with
    | some job => s.deliver l job .lineBreak false
    | none => s
  else s

/-- R91, step 5: IDLE, AWAIT and RECEIVE go to GUARD. -/
def State.guardAfterBreak (s : State) (l : LineNo) : State :=
  if (s.line l).state = .idle ∨ (s.line l).state = .await ∨ (s.line l).state = .receive then s.toGuard l else s

/-- R91: the five effects of the detection of a break, in order. -/
def State.breakDetected (s : State) (l : LineNo) : State :=
  let job := (s.line l).abandonedJob
  let edge := (s.line l).breakEdge s.time
  let s := (s.reach ((s.line l).reaches edge 2)).updLine l fun x => x.enterBreak edge
  let s := (((s.breakOnRead l).breakReaches l).cancelAbandoned job).breakOnAttempt l
  ((s.updLine l fun x => { x with breaksSeen := min 255 (x.breaksSeen + 1) }).guardAfterBreak l).finish

/-- BREAK_DETECTED (R91). -/
def execBreakDetected (l : LineNo) (s : State) : Host.Outcome State Fault Refusal :=
  runCommand (.breakDetected l)
    (s.watching l && ((s.line l).condition == .clear || (s.line l).condition == .recovering))
    (fun s => s.breakDetected l) s

/-- STUCK (R92): the space reaches 256 C. -/
def execStuck (l : LineNo) (s : State) : Host.Outcome State Fault Refusal :=
  runCommand (.stuck l) (s.watching l && (s.line l).condition == .break)
    (fun s => ((s.reach ((s.line l).reaches ((s.line l).breakEdge s.time) 256)).updLine l
      fun x => { x with condition := .stuck, stuckSeen := true }).finish) s

/-- R83: the line returns to mark from a break, or from a space that interrupted the recovery. -/
def Line.mayReturn (x : Line) : Bool :=
  x.condition == .break || x.condition == .stuck || (x.condition == .recovering && x.spaceEdge.isSome)

/-- R83: RECOVERING, with the 8 C of mark counted from the return, the moment `t`. -/
def Line.returnToMark (x : Line) (t : Nat) : Line :=
  { x with condition := .recovering, spaceEdge := none, looksSince := t, markSince := some t }

/-- LINE_RETURN_TO_MARK (R83): the space ended `wait` after the part's last event. -/
def execLineReturnToMark (l : LineNo) (wait : Nat) (s : State) : Host.Outcome State Fault Refusal :=
  runCommand (.lineReturnToMark l wait) (s.watching l && (s.line l).mayReturn)
    (fun s => (s.reach (s.time + wait)).updLine l fun x => x.returnToMark (s.time + wait)) s

/-- R83: the 8 C of continuous mark are being counted. -/
def Line.recovering (x : Line) : Bool :=
  x.condition == .recovering && x.spaceEdge.isNone && x.markSince.isSome

/-- The moment at which the 8 C of mark have passed. -/
def Line.recoveryMoment (x : Line) : Nat := x.reaches (x.markSince.getD 0) 8

/-- R83, R84, R92: CLEAR at the moment `t`; break ended is set and the quiet time restarts. -/
def Line.recover (x : Line) (t : Nat) : Line :=
  { x.restartQuiet t with condition := .clear, breakEnded := true, markSince := none }

/-- RECOVERY_END (R92). -/
def execRecoveryEnd (l : LineNo) (s : State) : Host.Outcome State Fault Refusal :=
  runCommand (.recoveryEnd l) (s.watching l && (s.line l).recovering)
    (fun s => ((s.reach (s.line l).recoveryMoment).updLine l fun x => x.recover (s.line l).recoveryMoment).finish) s

end Sys2Proof.Machine
end

