-- ==== Sys2Proof/Machine/Timers.lean ====
section
/-! DEFINITION. The commands of the station timers (section 2.7). -/

namespace Sys2Proof.Machine

/-- The moment at which the running timer of `h` expires, when it is of kind `k`. -/
def State.timerOf (s : State) (h : Handle) (k : TimerKind) : Option Nat :=
  match (s.station h).bind (·.timer) with
  | some t => if t.kind = k then some t.expires else none
  | none => none

/-- A timer of kind `k` of station `h` runs (R35). -/
def State.timerRuns (s : State) (h : Handle) (k : TimerKind) : Bool := s.operating && (s.timerOf h k).isSome

/-- The timer of kind `k` of station `h` expires at its own moment, and the entry changes by `f` of that moment. -/
def State.timerExpires (s : State) (h : Handle) (k : TimerKind) (f : Station → Nat → Station) : State :=
  let t := (s.timerOf h k).getD 0
  (s.reach t).updStation h fun st => f st t

/-- R37, R38, R39: the scheduler of the station's line is told that new work exists. -/
def State.tellStationLine (s : State) (h : Handle) : State :=
  match s.station h with
  | some st => s.notify st.line
  | none => s

/-- POLL_TIMER_EXPIRY (R37). -/
def execPollTimerExpiry (h : Handle) (s : State) : Host.Outcome State Fault Refusal :=
  runCommand (.pollTimerExpiry h) (s.timerRuns h .poll)
    (fun s => (s.timerExpires h .poll Station.pollExpired).tellStationLine h) s

/-- R38: an exchange in HELD at the head of the list returns to QUEUED. -/
def State.releaseHeld (s : State) (h : Handle) : State :=
  match (s.station h).bind (·.pending.head?) with
  | some id => s.updCtx id fun c => { c with phase := if c.phase = .held then .queued else c.phase }
  | none => s

/-- HOLD_TIMER_EXPIRY (R38). -/
def execHoldTimerExpiry (h : Handle) (s : State) : Host.Outcome State Fault Refusal :=
  runCommand (.holdTimerExpiry h) (s.timerRuns h .hold)
    (fun s => ((s.timerExpires h .hold Station.holdExpired).releaseHeld h).tellStationLine h) s

/-- PROBE_TIMER_EXPIRY (R39). -/
def execProbeTimerExpiry (h : Handle) (s : State) : Host.Outcome State Fault Refusal :=
  runCommand (.probeTimerExpiry h) (s.timerRuns h .probe)
    (fun s => (s.timerExpires h .probe Station.probeExpired).tellStationLine h) s

end Sys2Proof.Machine
end

