-- ==== Sys2Proof/Machine/Dispatch.lean ====
section
/-! DEFINITION. The dispatch of a command to its meaning: one arm per row of spec/opcode_table.json. -/

namespace Sys2Proof.Machine

def exec (i : Instr) (s : State) : Host.Outcome State Fault Refusal :=
  match i with
  | .hardwareReset => Sys2Proof.Machine.execHardwareReset s
  | .resetRelease => Sys2Proof.Machine.execResetRelease s
  | .softReset v => Sys2Proof.Machine.execSoftReset v s
  | .enableWritten1 v => Sys2Proof.Machine.execEnableWritten1 v s
  | .enableWritten0 v => Sys2Proof.Machine.execEnableWritten0 v s
  | .setupAddrWrite v => Sys2Proof.Machine.execSetupAddrWrite v s
  | .postTail v => Sys2Proof.Machine.execPostTail v s
  | .postRestart v => Sys2Proof.Machine.execPostRestart v s
  | .retire v => Sys2Proof.Machine.execRetire v s
  | .intStatusWrite v => Sys2Proof.Machine.execIntStatusWrite v s
  | .intEnableWrite v => Sys2Proof.Machine.execIntEnableWrite v s
  | .registerWriteIgnored offset v => Sys2Proof.Machine.execRegisterWriteIgnored offset v s
  | .setupReadEnd result => Sys2Proof.Machine.execSetupReadEnd result s
  | .fetchChoice => Sys2Proof.Machine.execFetchChoice s
  | .recordReadError => Sys2Proof.Machine.execRecordReadError s
  | .unknownKind r => Sys2Proof.Machine.execUnknownKind r s
  | .exchange r => Sys2Proof.Machine.execExchange r s
  | .broadcast r => Sys2Proof.Machine.execBroadcast r s
  | .addStation r => Sys2Proof.Machine.execAddStation r s
  | .removeStation r => Sys2Proof.Machine.execRemoveStation r s
  | .pauseStation r => Sys2Proof.Machine.execPauseStation r s
  | .resumeStation r => Sys2Proof.Machine.execResumeStation r s
  | .setLineDisable r => Sys2Proof.Machine.execSetLineDisable r s
  | .setLineEnable r => Sys2Proof.Machine.execSetLineEnable r s
  | .quiesceLine r => Sys2Proof.Machine.execQuiesceLine r s
  | .resumeLine r => Sys2Proof.Machine.execResumeLine r s
  | .lineReset r => Sys2Proof.Machine.execLineReset r s
  | .abort r => Sys2Proof.Machine.execAbort r s
  | .fence r => Sys2Proof.Machine.execFence r s
  | .bandTableReadEnd l result => Sys2Proof.Machine.execBandTableReadEnd l result s
  | .schedulerChoice l wait => Sys2Proof.Machine.execSchedulerChoice l wait s
  | .payloadReadEnd l octets => Sys2Proof.Machine.execPayloadReadEnd l octets s
  | .payloadReadError l => Sys2Proof.Machine.execPayloadReadError l s
  | .abandonedReadEnd l => Sys2Proof.Machine.execAbandonedReadEnd l s
  | .transmitEnd l => Sys2Proof.Machine.execTransmitEnd l s
  | .characterReceived l octet mark stop => Sys2Proof.Machine.execCharacterReceived l octet mark stop s
  | .interCharacterGapExpiry l => Sys2Proof.Machine.execInterCharacterGapExpiry l s
  | .replyTimerExpiry l => Sys2Proof.Machine.execReplyTimerExpiry l s
  | .replyWriteEnd l result => Sys2Proof.Machine.execReplyWriteEnd l result s
  | .breakDetected l => Sys2Proof.Machine.execBreakDetected l s
  | .stuck l => Sys2Proof.Machine.execStuck l s
  | .lineReturnToMark l wait => Sys2Proof.Machine.execLineReturnToMark l wait s
  | .recoveryEnd l => Sys2Proof.Machine.execRecoveryEnd l s
  | .guardEnd l => Sys2Proof.Machine.execGuardEnd l s
  | .breakSpaceEnd l => Sys2Proof.Machine.execBreakSpaceEnd l s
  | .breakRelease l => Sys2Proof.Machine.execBreakRelease l s
  | .pollTimerExpiry h => Sys2Proof.Machine.execPollTimerExpiry h s
  | .holdTimerExpiry h => Sys2Proof.Machine.execHoldTimerExpiry h s
  | .probeTimerExpiry h => Sys2Proof.Machine.execProbeTimerExpiry h s
  | .completionEntryPosted => Sys2Proof.Machine.execCompletionEntryPosted s
  | .completionWriteError done => Sys2Proof.Machine.execCompletionWriteError done s
  | .eventEntryPosted => Sys2Proof.Machine.execEventEntryPosted s
  | .eventWriteError done => Sys2Proof.Machine.execEventWriteError done s
  | .holdoffTimerExpiry ring => Sys2Proof.Machine.execHoldoffTimerExpiry ring s
  | .characterBegun l wait => Sys2Proof.Machine.execCharacterBegun l wait s
  | .glitchDiscarded l wait => Sys2Proof.Machine.execGlitchDiscarded l wait s
  | .markBitRead l => Sys2Proof.Machine.execMarkBitRead l s

end Sys2Proof.Machine
end

