-- ==== Sys2Proof/Safety.lean ====
section
/-! DEFINITION. What a safe state of the part is, in the terms the statements use: the invariants that the numbered rules
give the machine, and the agreement of two states outside what a step may move. -/

namespace Sys2Proof.Machine

/-! ## Invariants -/

/-- R82 for one line: the driver enable is asserted only in TRANSMIT and BREAK_OUT, and while it is released the
transmit output rests at mark. -/
def Line.driverRule (x : Line) : Prop :=
  (x.driverEnable = true → x.state = .transmit ∨ x.state = .breakOut) ∧ (x.driverEnable = false → x.txd = .mark)

/-- R82 on every line. -/
def State.DriversSafe (s : State) : Prop := ∀ l, (s.line l).driverRule

/-- R19: the (line, address) pairs of in-use entries are pairwise distinct, and every address lies in 1..126. -/
def State.PairsDistinct (s : State) : Prop :=
  (∀ h st, s.station h = some st → 1 ≤ st.address.toNat ∧ st.address.toNat ≤ 126) ∧
    ∀ h k a b, s.station h = some a → s.station k = some b → a.line = b.line → a.address = b.address → h = k

/-- R26 for one entry, with the range of the miss count (section 2.1): the count equals the limit exactly when the
station is OFFLINE, or CLOSING from OFFLINE. -/
def Station.missRule (st : Station) : Prop :=
  1 ≤ st.missLimit ∧ st.missCount ≤ st.missLimit ∧
    (st.missCount = st.missLimit ↔ st.state = .offline ∨ (st.state = .closing ∧ st.closingFrom = some .offline))

/-- R26 on every in-use entry. -/
def State.MissesCounted (s : State) : Prop := ∀ h st, s.station h = some st → st.missRule

/-- R35 for one entry: a poll timer only in ONLINE with a non-zero interval and poll due clear, a hold timer only in
HOLD, a probe timer only in OFFLINE; and in OFFLINE poll due is clear (R28). -/
def Station.timerRule (st : Station) : Prop :=
  (∀ t, st.timer = some t →
      (t.kind = .poll → st.state = .online ∧ st.pollInterval ≠ 0 ∧ st.pollDue = none) ∧
      (t.kind = .hold → st.state = .hold) ∧ (t.kind = .probe → st.state = .offline)) ∧
    (st.state = .offline → st.pollDue = none)

/-- R35 on every in-use entry. -/
def State.TimersMatch (s : State) : Prop := ∀ h st, s.station h = some st → st.timerRule

/-- R151: the interrupt output is asserted exactly while a cause is set in both status and enable. -/
def State.PinFollows (s : State) : Prop := s.intPin = (s.intStatus &&& s.intEnable != 0)

/-- R47: every line not DISABLED holds a band table and a bit rate. -/
def State.LinesConfigured (s : State) : Prop :=
  ∀ l, (s.line l).state ≠ .disabled → (s.line l).bandTable.isSome = true ∧ (s.line l).rate.isSome = true

/-- R46, R102: no pending list and no retry list holds a context twice. -/
def State.ListsDistinct (s : State) : Prop :=
  (∀ h st, s.station h = some st → st.pending.Nodup) ∧ ∀ l, (s.line l).retryList.Nodup

/-- The rings have been installed and no reset has come since: neither READY nor STARTING (R157). -/
def State.Installed (s : State) : Prop := s.device ≠ .ready ∧ s.device ≠ .starting

/-- The indices of an installed ring lie in it (R143, R147). -/
def RingState.indexed (r : RingState) : Prop := r.tail < r.size ∧ r.hostHead < r.size

/-- The contexts whose completions the writer holds, in the order in which their entries are posted: the one being written,
then the handed list (R144). -/
def State.completionOrder (s : State) : List Nat :=
  (match s.completionWrite with
    | some w => [w.ctx]
    | none => []) ++ s.handed.map (·.ctx)

/-- R135, R143: contexts in use plus entries posted and not retired never exceed the completion ring's size minus one;
the completions held are of different contexts in use, whose end is decided, and the record read in progress has a
context reserved for it. Before the ring is installed nothing is in use. -/
def State.CreditsKept (s : State) : Prop :=
  s.completionOrder.Nodup ∧
    (∀ id ∈ s.completionOrder, ∃ c ∈ s.pool, c.id = id ∧ c.phase = .ending ∧ c.body ≠ .reserved) ∧
    (∀ rd, s.reading = some rd → ∃ c ∈ s.pool, c.id = rd.ctx ∧ c.body = .reserved) ∧
    (s.Installed → s.completion.indexed ∧ s.completion.posted + s.pool.length ≤ s.completion.size - 1) ∧
    (¬ s.Installed → s.pool = [] ∧ s.completion.tail = 0 ∧ s.completion.hostHead = 0)

/-- The line carries out a POLL, under the reservation it was granted (R72). -/
def Line.polling (x : Line) : Bool :=
  match x.job with
  | some (.poll _ _) => true
  | _ => false

/-- The places of the event ring that are in use: those of the polls under way, of the ATTENTION reports handed, and of the
entry being written (R147). -/
def State.placesHeld (s : State) : Nat :=
  (allLines.countP fun l => (s.line l).polling) + s.attentions.length + (if s.eventWrite.isSome then 1 else 0)

/-- R147: reservations plus entries posted and not retired never exceed the event ring's size minus one, and every poll
under way, every ATTENTION handed and the entry being written hold a place each. -/
def State.PlacesKept (s : State) : Prop :=
  s.placesHeld ≤ s.reserved ∧
    (s.Installed → s.event.indexed ∧ s.reserved + s.event.posted ≤ s.event.size - 1) ∧
    (¬ s.Installed → s.reserved = 0 ∧ s.event.tail = 0 ∧ s.event.hostHead = 0)

/-- The part's memory holds its canonical form (entry 11). -/
def State.MemoryCanonical (s : State) : Prop := memoryOrdered s.mem = true

/-! ## Frames -/

/-- Every line but `l` is the same in both states. -/
def State.SameOtherLines (s t : State) (l : LineNo) : Prop := ∀ k, k ≠ l → t.line k = s.line k

/-- Every entry of the station table but that of `h` is the same in both states. -/
def State.SameOtherStations (s t : State) (h : Handle) : Prop := ∀ k, k ≠ h → t.station k = s.station k

/-- Every octet of host memory reads the same in both states. -/
def State.SameMemory (s t : State) : Prop := ∀ a, readMem t.mem a = readMem s.mem a

/-- Every octet of host memory outside the `n` octets from `base` reads the same in both states. -/
def State.SameMemoryOutside (s t : State) (base : Word) (n : Nat) : Prop :=
  ∀ a, (∀ i, i < n → a ≠ addrPlus base i) → readMem t.mem a = readMem s.mem a

/-- Between the two states the line may have been told of new work (R113): an IDLE engine may owe a consultation more. -/
def Line.Told (x y : Line) : Prop :=
  (x.consultDue = true → y.consultDue = true) ∧ (x.state ≠ .idle → y.consultDue = x.consultDue)

/-- A line keeps everything but the counts that a taken line report clears (R101) and a notice (R113). -/
def Line.SameButReport (x y : Line) : Prop :=
  x.Told y ∧
    y = { x with
          breaksSeen := y.breaksSeen, breakEnded := y.breakEnded, stuckSeen := y.stuckSeen, chatter := y.chatter
          consultDue := y.consultDue }

/-- An entry keeps everything but what a taken presence report sets (R21). -/
def Station.SameButReport (x y : Station) : Prop :=
  y = { x with lastReported := y.lastReported, presenceChanges := y.presenceChanges }

/-- A queue keeps everything but its report (R133). -/
def Queue.SameButReport (x y : Queue) : Prop := y = { x with report := y.report }

/-- Device, interrupt unit and writers may move between the two states as the end of a step moves them (entry 6): reports
are taken, writes begin, HALTED is entered. -/
def State.WritersMoved (s t : State) : Prop :=
  (∀ q, (s.queue q).SameButReport (t.queue q)) ∧ (t.device = s.device ∨ (s.device = .halting ∧ t.device = .halted))

/-- What the writers and the control block may move at the end of a step (entry 6): the writers' lists and writes in
progress, the reserved count and the record of refused lines, one report's counts, and HALTED with its cause. -/
def State.SameButWriters (s t : State) : Prop :=
  t = { s with
        device := t.device, intStatus := t.intStatus, intPin := t.intPin, queues := t.queues, stations := t.stations
        lines := t.lines, handed := t.handed, completionWrite := t.completionWrite, attentions := t.attentions
        eventWrite := t.eventWrite, reserved := t.reserved, refusedLines := t.refusedLines } ∧
    s.WritersMoved t ∧ (∀ l, (s.line l).SameButReport (t.line l)) ∧
    (∀ h, match s.station h, t.station h with
      | some x, some y => x.SameButReport y
      | none, none => True
      | _, _ => False)

/-- A line keeps everything but what the ends of its work change (R70), the counts of a taken report, and a notice. -/
def Line.SameButEnds (x y : Line) : Prop :=
  x.Told y ∧
    y = { x with
          retryList := y.retryList, fifo := y.fifo, txHolds := y.txHolds, breaksSeen := y.breaksSeen
          breakEnded := y.breakEnded, stuckSeen := y.stuckSeen, chatter := y.chatter, consultDue := y.consultDue }

/-- An entry keeps everything but its pending list and link (R70, R68) and what a taken report sets; only a CLOSING
entry may become free (R45). -/
def SameButEndsStation (x y : Option Station) : Prop :=
  match x, y with
  | some x, some y =>
    y = { x with
          pending := y.pending, link := y.link, lastReported := y.lastReported
          presenceChanges := y.presenceChanges }
  | some x, none => x.state = .closing
  | none, none => True
  | none, some _ => False

/-- What the ends of records, exchanges and broadcasts may move, with the end of the step that follows them: contexts and
the handed list, the lists and the link of stations, the lists of lines, and what the writers move. -/
def State.SameButEnds (s t : State) : Prop :=
  t = { s with
        device := t.device, intStatus := t.intStatus, intPin := t.intPin, queues := t.queues, stations := t.stations
        lines := t.lines, pool := t.pool, handed := t.handed, completionWrite := t.completionWrite
        attentions := t.attentions, eventWrite := t.eventWrite, reserved := t.reserved
        refusedLines := t.refusedLines } ∧
    s.WritersMoved t ∧ (∀ l, (s.line l).SameButEnds (t.line l)) ∧
    (∀ h, SameButEndsStation (s.station h) (t.station h))

/-! ## What the statements say of a command -/

/-- The command is ignored and sets REJECTED (R151): nothing else changes. -/
def State.Rejects (s t : State) : Prop :=
  t = { s with
        intStatus := s.intStatus ||| 0x10#5
        intPin := (s.intStatus ||| 0x10#5) &&& s.intEnable != 0 }

/-- R70, R144: the end of the record in context `id` has been decided with this status and detail: the context is
ENDING, and its completion waits for the writer or is being written. -/
def State.Reports (t : State) (id : Nat) (status : Status) (detail : Detail) : Prop :=
  t.phaseOf id = some .ending ∧
    ((∃ e ∈ t.handed, e.ctx = id ∧ e.status = status ∧ e.detail = detail) ∨
      ∃ w, t.completionWrite = some w ∧ w.ctx = id ∧ w.octets[1]? = some status.code ∧ w.octets[2]? = some detail.code)

/-- `State.Reports` with the reply length the completion carries (R63). -/
def State.ReportsReply (t : State) (id : Nat) (status : Status) (detail : Detail) (n : Nat) : Prop :=
  t.phaseOf id = some .ending ∧
    ((∃ e ∈ t.handed, e.ctx = id ∧ e.status = status ∧ e.detail = detail ∧ e.replyLength = n) ∨
      ∃ w, t.completionWrite = some w ∧ w.ctx = id ∧ w.octets[1]? = some status.code ∧
        w.octets[2]? = some detail.code ∧ w.octets[6]? = some (BitVec.ofNat 8 n))

/-- An octet of host memory that a write under way may still reach (entries 11 and 12). -/
def State.InFlight (s : State) (a : Nat) : Prop :=
  (∃ w, s.completionWrite = some w ∧ ∃ i, i < 16 ∧ a = addrPlus w.addr i) ∨
    (∃ w, s.eventWrite = some w ∧ ∃ i, i < 64 ∧ a = addrPlus w.addr i) ∨
    ∃ l id octets c, (s.line l).rxBuffer = some (.reply id octets) ∧ s.ctx id = some c ∧
      ∃ i, i < min octets.length c.replyBuffer.2 ∧ a = addrPlus c.replyBuffer.1 i

/-- The record of a context in use whose end is open: it is not ENDING, and the context is not reserved for a read still
under way (R56, R135). -/
def Context.Live (c : Context) : Prop := c.phase ≠ .ending ∧ c.body ≠ .reserved

/-- The contexts in use have names of their own, below 256 (R56, entry 5). -/
def State.ContextsDistinct (s : State) : Prop := (s.pool.map (·.id)).Nodup ∧ ∀ c ∈ s.pool, c.id < Config.contexts

/-- The record that a command of a record read brings. -/
def recordCarried : Instr → Option (List Byte)
  | .unknownKind r => some r
  | .exchange r => some r
  | .broadcast r => some r
  | .addStation r => some r
  | .removeStation r => some r
  | .pauseStation r => some r
  | .resumeStation r => some r
  | .setLineDisable r => some r
  | .setLineEnable r => some r
  | .quiesceLine r => some r
  | .resumeLine r => some r
  | .lineReset r => some r
  | .abort r => some r
  | .fence r => some r
  | _ => none

/-- The record `r` of command `c` ends its read `rd` on a part that takes it: no reset is held, the device is RUNNING or
HALTING, the command is well formed, and every check of R140 passes. -/
def State.Takes (s : State) (c : Instr) (r : List Byte) (rd : RecordRead) : Prop :=
  s.resetHeld = false ∧ (s.device = .running ∨ s.device = .halting) ∧ s.reading = some rd ∧
    recordCarried c = some r ∧ c.wellFormed = true ∧ s.verdict r = none

/-- The part operates: no reset is held and the device is not FAILED. -/
def State.Operates (s : State) : Prop := s.resetHeld = false ∧ s.device ≠ .failed

/-- The line's engine watches its line: it is neither DISABLED nor driving it (section 5.1). -/
def Line.Watches (x : Line) : Prop := x.state ≠ .disabled ∧ x.state ≠ .transmit ∧ x.state ≠ .breakOut

/-- The state in which line `l` has just begun its own break at `now` (R94, R41), before the exchanges it ends: the line
with the records bound to the break, and the stations of the line. -/
def State.breakStart (s : State) (l : LineNo) (records : List Nat) (now : Nat) : State :=
  { s with
    lines := s.lines.set l { s.line l with
      state := .breakOut, driverEnable := true, txd := .space, condition := .clear
      breakEnded := (s.line l).breakEnded || (s.line l).condition != .clear
      spaceEdge := none, receiving := false, markSince := none, quietSince := none
      breakStart := now, breakRate := (s.line l).rate
      resetPending := false, resetRecords := [], boundResets := (s.line l).resetRecords ++ records, job := none }
    stations := s.stations.map fun o => o.map fun st =>
      if st.line = l then
        { st with cseq := false, pseq := false, link := .certain, attention := st.attention.map fun _ => false }
      else st }

/-- R67: the exchanges of the line's stations in WAITING_RETRY, but those of `own`, end LINE_BREAK with that last failure cause. -/
def State.RetriesBroken (s t : State) (l : LineNo) (own : List Nat) : Prop :=
  ∀ c ∈ s.pool, s.retryWaits l c = true → c.id ∉ own → t.Reports c.id .lineBreak (.failure .lineBreak)

/-- R94: the step begins the part's own break on line `l` at `now`; the exchanges of its stations in WAITING_RETRY end LINE_BREAK
(R67) and every other context is as it was, and every station of the line keeps the CERTAIN link of the break (R41). -/
def State.BeginsBreak (s t : State) (l : LineNo) (records : List Nat) (now : Nat) : Prop :=
  (s.breakStart l records now).SameButEnds t ∧
    (s.ContextsDistinct →
      s.RetriesBroken t l [] ∧
        (∀ id c, s.ctx id = some c → s.retryWaits l c = false → t.ctx id = some c) ∧
        ∀ h st, t.station h = some st → st.line = l → st.link = .certain)

/-- The contexts that the end of the work of a CLOSING station may end beside that work's own (R43, R45). -/
def Station.settling (st : Station) : List Nat :=
  if st.state = .closing then st.pending ++ st.remover.toList else []

/-- The contexts that the end of the line's payload read may end: the read's own, the ABORT that waits for it (R78), and those
that settle with its CLOSING station (R71). -/
def State.endedByRead (s : State) (l : LineNo) : List Nat :=
  match (s.line l).job.bind Job.context with
  | none => []
  | some id => id :: match s.ctx id with
    | none => []
    | some c => c.abortRequested.toList ++ ((c.exchangeHandle.bind s.station).map Station.settling).getD []

/-- R85: the step leaves PREPARING without a frame: for BREAK_OUT when a line reset is pending and the device is RUNNING,
for QUIESCED when quiesce was requested, and for IDLE, where a consultation is owed, otherwise; the waiting QUIESCE_LINE records end unless a break
begins. A break ends the exchanges of the line's stations in WAITING_RETRY, LINE_BREAK where the end of the read has not ended
them (R67). Contexts that none of this reaches are as they were. -/
def State.LeavesRead (s t : State) (l : LineNo) : Prop :=
  (¬ ((s.line l).resetPending = true ∧ s.device = .running) →
      (s.setLine l { s.line l with
        job := none, abandoned := false, state := if (s.line l).quiesce then .quiesced else .idle
        consultDue := !(s.line l).quiesce, quiescers := [] }).SameButEnds t) ∧
    ((s.line l).resetPending = true → s.device = .running →
      ((s.setLine l { s.line l with job := none, abandoned := false }).breakStart l [] s.time).SameButEnds t ∧
        (s.ContextsDistinct →
          (∀ c ∈ s.pool, s.retryWaits l c = true → t.phaseOf c.id = some .ending) ∧
            s.RetriesBroken t l (s.endedByRead l) ∧
            ∀ h st, t.station h = some st → st.line = l → st.link = .certain)) ∧
    (s.ContextsDistinct → ∀ id c, s.ctx id = some c → id ∉ s.endedByRead l → id ∉ (s.line l).quiescers →
      s.retryWaits l c = false → t.ctx id = some c)

/-- R43, R45, R71, R118: the attempt to the CLOSING station `h`, its payload read, its reply write or its attention delivery
is over, `st` being the entry once that has been applied and `own` the exchange it was of. When every other context of the station's list waits, each ends
CANCELLED, and with no attention delivery in progress the entry is free and its REMOVE_STATION record ends OK. -/
def State.ClosingSettles (s t : State) (h : Handle) (st : Station) (own : Option Nat) : Prop :=
  st.pending.Nodup →
    (∀ id ∈ st.pending, some id ≠ own → ∃ c, s.ctx id = some c ∧ c.exchangeHandle = some h ∧
      (c.phase = .queued ∨ c.phase = .waitingRetry ∨ c.phase = .held)) →
    (∀ id c, id ∈ st.pending → some id ≠ own → s.ctx id = some c → t.Reports id .cancelled c.failureDetail) ∧
      (st.attention = none →
        t.station h = none ∧
          ∀ id c, st.remover = some id → id ∉ st.pending → some id ≠ own → s.ctx id = some c → c.Live →
            t.Reports id .ok .none)

/-- A run is safe when it never stops: a well-formed command always answers a next state. -/
def State.Safe (s : State) : Prop :=
  match step s with
  | .next _ => True
  | .fault _ => False
  | .refused _ => False

end Sys2Proof.Machine
end

