-- ==== Sys2Proof/Certificates/Slice0/Obligations.lean ====
section
/-! DEFINITION. The statements for the provers. Each docstring names the rules of spec/ it formalises; a clause that
rests on a choice of the model names its log entry. -/

section

open Sys2Proof Sys2Proof.Machine

/-! ## The step -/

/-- The step takes the command at the front of the queue and runs it on the state with the queue's rest (entry 22). -/
def Obligations.FrontCommandRuns : Prop :=
  ∀ (c : Instr) (rest : List Instr) (s : State), s.pending = c :: rest →
    step s = exec c { s with pending := rest }

/-- The model's choice (entries 3 and 4): on an empty queue one microsecond, 144 units, passes, and nothing else changes. In
FAILED it passes on the clock of the holdoff timers alone. -/
def Obligations.EmptyQueuePassesTime : Prop :=
  ∀ s : State, s.pending = [] →
    (s.resetHeld = true → step s = .next s) ∧
    (s.resetHeld = false → s.device = .failed → step s = .next { s with clock := s.clock + 144 }) ∧
    (s.resetHeld = false → s.device ≠ .failed →
      step s = .next { s with clock := s.clock + 144, time := s.time + 144 })

/-- The model's choice (entries 1 and 2): a command whose operands its row can carry always completes, and every other
term is refused by name. -/
def Obligations.OnlyIllFormedCommandsStop : Prop :=
  ∀ (c : Instr) (s : State),
    (c.wellFormed = true → ∃ t, exec c s = .next t) ∧ (c.wellFormed = false → exec c s = .refused .illFormed)

/-- R161: while the reset input stays asserted, no command but the release and a new hardware reset changes anything,
and no time passes. -/
def Obligations.HeldResetIsInert : Prop :=
  ∀ s : State, s.resetHeld = true →
    (∀ (c : Instr) (t : State), c ≠ .hardwareReset → c ≠ .resetRelease → exec c s = .next t → t = s) ∧
      (s.pending = [] → step s = .next s)

/-! ## Resets -/

/-- R17, R47, R56, R81, R102, R129, R143, R147, R151, R155: what reset leaves; the invariants below hold of it. -/
def Obligations.ResetValues : Prop :=
  (State.reset.device = .ready ∧ State.reset.cause = .none ∧ State.reset.enable = false ∧ State.reset.setupAddr = 0) ∧
  (State.reset.intStatus = 0 ∧ State.reset.intEnable = 0 ∧ State.reset.intPin = false) ∧
  (State.reset.completionInt.count = 0 ∧ State.reset.completionInt.timer = none ∧
    State.reset.eventInt.count = 0 ∧ State.reset.eventInt.timer = none) ∧
  (∀ q, (State.reset.queue q).state = .unused ∧ (State.reset.queue q).head = 0 ∧ (State.reset.queue q).tail = 0 ∧
    (State.reset.queue q).stopCause = none ∧ (State.reset.queue q).fetching = false ∧
    (State.reset.queue q).report = none) ∧
  (State.reset.fetchUrgent = 3 ∧ State.reset.fetchNormal = 3 ∧ State.reset.reading = none ∧ State.reset.pool = []) ∧
  (∀ h, State.reset.station h = none) ∧
  (∀ l, (State.reset.line l).state = .disabled ∧ (State.reset.line l).condition = .clear ∧
    (State.reset.line l).quiesce = false ∧ (State.reset.line l).quietSince = none ∧
    (State.reset.line l).replyTimer = none ∧ (State.reset.line l).driverEnable = false ∧
    (State.reset.line l).txd = .mark ∧ (State.reset.line l).txHolds = none ∧ (State.reset.line l).rxBuffer = none ∧
    (State.reset.line l).bandTable = none ∧ (State.reset.line l).hysteresis = 0 ∧ (State.reset.line l).rate = none ∧
    (State.reset.line l).setLine = none ∧ (State.reset.line l).bandReading = false ∧
    (State.reset.line l).reportPending = false ∧ (State.reset.line l).resetPending = false ∧
    (State.reset.line l).resetRecords = [] ∧ (State.reset.line l).retryList = [] ∧ (State.reset.line l).fifo = [] ∧
    (State.reset.line l).urgentPtr = 64 ∧ (State.reset.line l).normalPtr = 64 ∧ (State.reset.line l).linkPtr = 63 ∧
    (State.reset.line l).service = 0) ∧
  (State.reset.completion.tail = 0 ∧ State.reset.completion.phase = true ∧ State.reset.completion.hostHead = 0 ∧
    State.reset.handed = [] ∧ State.reset.completionWrite = none) ∧
  (State.reset.event.tail = 0 ∧ State.reset.event.phase = true ∧ State.reset.event.hostHead = 0 ∧
    State.reset.reserved = 0 ∧ State.reset.attentions = [] ∧ State.reset.eventWrite = none ∧
    State.reset.refusedLines = []) ∧
  (State.reset.DriversSafe ∧ State.reset.MemoryCanonical ∧ State.reset.PinFollows ∧ State.reset.PairsDistinct ∧
    State.reset.TimersMatch ∧ State.reset.MissesCounted ∧ State.reset.ContextsDistinct) ∧
  (State.reset.LinesConfigured ∧ State.reset.ListsDistinct ∧ State.reset.CreditsKept ∧ State.reset.PlacesKept)

/-- R160: a soft reset takes every reset value but SETUP_ADDR and INT_ENABLE, in any device state. R161: a hardware reset
takes them with SETUP_ADDR 0 and INT_ENABLE 0, and holds them until the input is released. Octets outside the writes
under way stay; in FAILED no write is under way (R153), and no octet changes. The clocks and the waiting commands are the
model's own (entries 3, 11 and 12). -/
def Obligations.ResetsTakeResetValues : Prop :=
  (∀ (v : Word) (s : State), v.getLsbD 1 = true → s.resetHeld = false →
    ∃ t, exec (.softReset v) s = .next t ∧
      t = { State.reset with
            setupAddr := s.setupAddr, intEnable := s.intEnable, clock := s.clock, time := s.time
            mem := t.mem, landings := t.landings, pending := s.pending } ∧
      (∀ a, ¬ s.InFlight a → readMem t.mem a = readMem s.mem a) ∧ (s.device = .failed → t.mem = s.mem)) ∧
  (∀ s : State,
    (∃ t, exec .hardwareReset s = .next t ∧
      t = { State.reset with
            resetHeld := true, clock := s.clock, time := s.time
            mem := t.mem, landings := t.landings, pending := s.pending } ∧
      (∀ a, ¬ s.InFlight a → readMem t.mem a = readMem s.mem a) ∧ (s.device = .failed → t.mem = s.mem)) ∧
    exec .resetRelease s = .next { s with resetHeld := false })

/-! ## CONTROL, SETUP_ADDR and the interrupt registers -/

/-- R155, R156, R158, R159, R98: ENABLE written 1, in each device state. R113, R142: entry into RUNNING tells the scheduler
of every line and the fetch arbiter. R93, R94, R41, R67: an IDLE or QUIESCED line with a pending line reset begins its break at
once, the break reaches the stations of the line, and their exchanges in WAITING_RETRY end LINE_BREAK. Nothing is said of the
order among several such lines, which is the model's choice, entry 32. -/
def Obligations.EnableWrittenOne : Prop :=
  ∀ (v : Word) (s : State), v.getLsbD 1 = false → v.getLsbD 0 = true → s.resetHeld = false →
    (s.device = .ready →
      exec (.enableWritten1 v) s = .next { s with enable := true, cause := .none, device := .starting }) ∧
    (s.device = .starting ∨ s.device = .running → exec (.enableWritten1 v) s = .next { s with enable := true }) ∧
    (s.device = .failed → ∃ t, exec (.enableWritten1 v) s = .next t ∧ s.Rejects t) ∧
    (s.device = .halting ∨ s.device = .halted →
      let served := fun l : LineNo =>
        ((s.line l).state == .idle || (s.line l).state == .quiesced) && (s.line l).resetPending
      let told := fun l : LineNo =>
        { s.line l with consultDue := if (s.line l).state = .idle then true else (s.line l).consultDue }
      let u : State := { s with
        enable := true, device := .running, fetchDue := s.fetchDue || s.reading.isNone
        lines := Vector.ofFn fun l =>
          if served l then ((s.setLine l (told l)).breakStart l [] s.time).line l else told l
        stations := s.stations.map fun (o : Option Station) => o.map fun st =>
          if served st.line then
            { st with cseq := false, pseq := false, link := .certain, attention := st.attention.map fun _ => false }
          else st }
      ∃ t, exec (.enableWritten1 v) s = .next t ∧ t.device = .running ∧ u.SameButEnds t ∧
        (∀ l, served l = true →
          (t.line l).state = .breakOut ∧ (t.line l).driverEnable = true ∧ (t.line l).txd = .space ∧
            (t.line l).resetPending = false ∧ (t.line l).boundResets = (s.line l).resetRecords) ∧
        (s.ContextsDistinct →
          (∀ l, served l = true →
            s.RetriesBroken t l [] ∧ ∀ h st, t.station h = some st → st.line = l → st.link = .certain) ∧
          ∀ id c, s.ctx id = some c → (∀ l, served l = true → s.retryWaits l c = false) → t.ctx id = some c))

/-- R155, R158, R159: ENABLE written 0, in each device state; from RUNNING the device halts, and HALTED follows at once
when no record read and no attempt or break is in progress. -/
def Obligations.EnableWrittenZero : Prop :=
  ∀ (v : Word) (s : State), v.getLsbD 1 = false → v.getLsbD 0 = false → s.resetHeld = false →
    (s.device = .ready ∨ s.device = .starting ∨ s.device = .halting ∨ s.device = .halted →
      exec (.enableWritten0 v) s = .next { s with enable := false }) ∧
    (s.device = .failed → ∃ t, exec (.enableWritten0 v) s = .next t ∧ s.Rejects t) ∧
    (s.device = .running →
      ∃ t, exec (.enableWritten0 v) s = .next t ∧
        ({ s with enable := false, device := .halting } : State).SameButWriters t ∧
        (s.reading = none ∧ (∀ l, (s.line l).state.busy = false) → t.device = .halted ∧ t.intStatus.getLsbD 2 = true) ∧
        (¬ (s.reading = none ∧ ∀ l, (s.line l).state.busy = false) → t.device = .halting))

/-- R154: a write of SETUP_ADDR is taken in READY alone, without its six low bits; no other command but a hardware reset,
which sets it to 0, changes the address held. -/
def Obligations.SetupAddrHeld : Prop :=
  (∀ (v : Word) (s : State), s.resetHeld = false →
    (s.device = .ready → ∃ a : Word, a.toNat = v.toNat / 64 * 64 ∧
      exec (.setupAddrWrite v) s = .next { s with setupAddr := a }) ∧
    (s.device ≠ .ready → ∃ t, exec (.setupAddrWrite v) s = .next t ∧ s.Rejects t)) ∧
  (∀ (c : Instr) (s t : State), exec c s = .next t → t.setupAddr ≠ s.setupAddr →
    (c = .hardwareReset ∧ t.setupAddr = 0) ∨ (s.device = .ready ∧ ∃ v, c = .setupAddrWrite v))

/-- R151: a write of INT_STATUS clears each cause written 1, a write of INT_ENABLE replaces the five enables, and the output
follows at once. R154: a write of IDENT or STATUS is ignored and sets REJECTED. R130, R146, R154, R155: what each register
reads, with the codes of section 11.1. -/
def Obligations.RegistersAnswer : Prop :=
  (∀ (v : Word) (s : State), s.resetHeld = false →
    (∃ t, exec (.intStatusWrite v) s = .next t ∧
      t = { s with intStatus := t.intStatus, intPin := t.intStatus &&& s.intEnable != 0 } ∧
      ∀ i : Fin 5, t.intStatus.getLsbD i = (s.intStatus.getLsbD i && !v.getLsbD i)) ∧
    (∃ t, exec (.intEnableWrite v) s = .next t ∧
      t = { s with intEnable := t.intEnable, intPin := s.intStatus &&& t.intEnable != 0 } ∧
      ∀ i : Fin 5, t.intEnable.getLsbD i = v.getLsbD i)) ∧
  ((∀ (offset : BitVec 5) (v : Word) (s : State), offset = 0x00 ∨ offset = 0x08 → s.resetHeld = false →
    ∃ t, exec (.registerWriteIgnored offset v) s = .next t ∧ s.Rejects t) ∧
  ∀ s : State,
    let device := match s.device with
      | .ready => 0
      | .starting => 1
      | .running => 2
      | .halting => 3
      | .halted => 4
      | .failed => 5
    let cause := match s.cause with
      | .none => 0
      | .setupRead => 1
      | .setupInvalid => 2
      | .completionWrite => 3
      | .eventWrite => 4
    s.readRegister 0x00 = some 0xE9C6D101#32 ∧
    s.readRegister 0x04 = some (if s.enable then 1 else 0) ∧
    s.readRegister 0x08 = some (BitVec.ofNat 32 (device + 256 * cause)) ∧
    s.readRegister 0x0C = some s.setupAddr ∧
    (∃ v, s.readRegister 0x10 = some v ∧ v.toNat < 256 ∧ ∀ q : QueueNo, v.toNat / 4 ^ q.val % 4 =
      match (s.queue q).state with
      | .unused => 0
      | .active => 1
      | .stopped => 2) ∧
    (s.completion.tail < 65536 → s.event.tail < 65536 →
      ∃ v, s.readRegister 0x14 = some v ∧ v.toNat = s.completion.tail + 65536 * s.event.tail) ∧
    s.readRegister 0x18 = some (s.intStatus.setWidth 32) ∧ s.readRegister 0x1C = some (s.intEnable.setWidth 32))

/-! ## Starting -/

/-- R156, R157, R129: the end of the setup block read. R113, R142: entry into RUNNING tells the scheduler of every line and
the fetch arbiter. That a queue of size 0 whose class octet names no class installs NORMAL is the model's choice, entry 14. -/
def Obligations.SetupReadEnds : Prop :=
  ∀ s : State, s.resetHeld = false → s.device = .starting →
    (∀ result, read64 result = true → s.enable = false →
      exec (.setupReadEnd result) s = .next { s with device := .ready, cause := .none }) ∧
    (s.enable = true →
      exec (.setupReadEnd .error) s = .next { s with device := .ready, cause := .setupRead, enable := false }) ∧
    (∀ b : List Byte, b.length = 64 → s.enable = true → setupValid b = false →
      exec (.setupReadEnd (.good b)) s = .next { s with device := .ready, cause := .setupInvalid, enable := false }) ∧
    (∀ b : List Byte, b.length = 64 → s.enable = true → setupValid b = true →
      ∃ t, exec (.setupReadEnd (.good b)) s = .next t ∧
        t = { s with
              device := .running, queues := t.queues, lines := t.lines, fetchDue := s.fetchDue || s.reading.isNone
              completion := { s.completion with base := addrAt b 32, size := le16 b 36 }
              event := { s.event with base := addrAt b 40, size := le16 b 44 }
              completionInt := { s.completionInt with threshold := le8 b 38, holdoff := le16 b 48 }
              eventInt := { s.eventInt with threshold := le8 b 46, holdoff := le16 b 50 } } ∧
        (∀ l, t.line l = if (s.line l).state = .idle then { s.line l with consultDue := true } else s.line l) ∧
        ∀ q : QueueNo,
          t.queue q = {
            base := addrAt b (8 * q.val), size := le16 b (8 * q.val + 4)
            cls := if le8 b (8 * q.val + 6) = 1 then .urgent else .normal
            head := 0, tail := 0, state := if le16 b (8 * q.val + 4) = 0 then .unused else .active
            stopCause := none, fetching := false, report := none })

/-- R157: when a setup block is valid. -/
def Obligations.SetupBlockValidity : Prop :=
  ∀ b : List Byte, setupValid b = true ↔
    (∀ q, q < 4 → le16 b (8 * q + 4) ≠ 0 →
      (∃ k, 4 ≤ k ∧ k ≤ 12 ∧ le16 b (8 * q + 4) = 2 ^ k) ∧ le32 b (8 * q) % 32 = 0 ∧
        (le8 b (8 * q + 6) = 0 ∨ le8 b (8 * q + 6) = 1) ∧ le8 b (8 * q + 7) = 0) ∧
    (∃ q, q < 4 ∧ le16 b (8 * q + 4) ≠ 0) ∧
    (le32 b 32 % 16 = 0 ∧ ∃ k, 4 ≤ k ∧ k ≤ 12 ∧ le16 b 36 = 2 ^ k) ∧
    (le32 b 40 % 64 = 0 ∧ ∃ k, 4 ≤ k ∧ k ≤ 10 ∧ le16 b 44 = 2 ^ k) ∧
    (1 ≤ le8 b 38 ∧ 1 ≤ le8 b 46) ∧
    le8 b 39 = 0 ∧ le8 b 47 = 0 ∧ ∀ i, 52 ≤ i → i < 64 → le8 b i = 0

/-! ## The interrupt unit -/

/-- R152: what a posting does to its ring's count, timer and cause, and the expiry of a holdoff timer. -/
def Obligations.CoalescingAnnounces : Prop :=
  (∀ (c : Coalescing) (now : Nat), c.count < 255 → c.threshold ≤ 255 →
    (c.holdoff = 0 ∨ c.threshold ≤ c.count + 1 → c.posting now = ({ c with count := 0, timer := none }, true)) ∧
    (c.holdoff ≠ 0 → c.count + 1 < c.threshold →
      c.posting now =
        ({ c with
            count := c.count + 1
            timer := if c.count = 0 then some (now + c.holdoff * 144) else c.timer }, false))) ∧
  ∀ (s : State) (e : Nat), s.resetHeld = false →
    let time := if s.device = .failed then s.time else s.time + (e - s.clock)
    (s.completionInt.timer = some e →
      exec (.holdoffTimerExpiry .completion) s = .next { s with
        completionInt := { s.completionInt with count := 0, timer := none }
        clock := max s.clock e, time := time
        intStatus := s.intStatus ||| 0x01#5, intPin := (s.intStatus ||| 0x01#5) &&& s.intEnable != 0 }) ∧
    (s.eventInt.timer = some e →
      exec (.holdoffTimerExpiry .event) s = .next { s with
        eventInt := { s.eventInt with count := 0, timer := none }
        clock := max s.clock e, time := time
        intStatus := s.intStatus ||| 0x02#5, intPin := (s.intStatus ||| 0x02#5) &&& s.intEnable != 0 })

/-! ## Submission queues -/

/-- R130, R131, R133, R162: a POST write with restart 0, by the queue named in bits 1..0 and the tail in bits 31..16. R132: a
POST write with restart 1, whose tail is not examined. R142: a recorded tail and a restart tell the fetch arbiter. -/
def Obligations.PostWritesTaken : Prop :=
  (∀ (v : Word) (s : State) (k : QueueNo), v.getLsbD 2 = false → s.resetHeld = false → v.toNat % 4 = k.val →
    let q := s.queue k
    let tail := v.toNat / 65536
    ((s.device = .running ∨ s.device = .halting ∨ s.device = .halted) → q.state = .active →
      (tail < q.size →
        exec (.postTail v) s = .next (State.finish { s with
          queues := s.queues.set k { q with tail := tail }, fetchDue := s.fetchDue || s.reading.isNone })) ∧
      (q.size ≤ tail → q.fetching = false →
        exec (.postTail v) s = .next (State.finish { s with queues := s.queues.set k { q with
          state := .stopped, stopCause := some .badTail, report := some { cause := .badTail, head := q.head } } })) ∧
      (q.size ≤ tail → q.fetching = true →
        exec (.postTail v) s = .next (State.finish { s with queues := s.queues.set k { q with
          state := .stopped, stopCause := some .badTail } }))) ∧
    (¬ ((s.device = .running ∨ s.device = .halting ∨ s.device = .halted) ∧ q.state = .active) →
      ∃ t, exec (.postTail v) s = .next t ∧ s.Rejects t)) ∧
  (∀ (v : Word) (s : State) (k : QueueNo), v.getLsbD 2 = true → s.resetHeld = false → v.toNat % 4 = k.val →
    let q := s.queue k
    let taken := (s.device = .running ∨ s.device = .halting ∨ s.device = .halted) ∧ q.state = .stopped ∧
      q.fetching = false
    (taken → exec (.postRestart v) s = .next { s with
      queues := s.queues.set k { q with head := 0, tail := 0, stopCause := none, state := .active }
      fetchDue := s.fetchDue || s.reading.isNone }) ∧
    (¬ taken → ∃ t, exec (.postRestart v) s = .next t ∧ s.Rejects t))

/-- R146, R162: a RETIRE write, by the ring in bit 0 and the head in bits 31..16: taken when it retires posted entries
only, ignored otherwise; a value equal to the host head changes nothing. R142: a completion head that moves tells the fetch
arbiter. R147, R148: an event head that moves has the grant condition judged: while the free places outnumber the pending
reports, the refused lines are told and the record is cleared. -/
def Obligations.RetireJudged : Prop :=
  (∀ (v : Word) (s : State), s.resetHeld = false →
    let started := s.device = .running ∨ s.device = .halting ∨ s.device = .halted
    let head := v.toNat / 65536
    let fits := fun r : RingState =>
      head < r.size ∧ (head + r.size - r.hostHead) % r.size ≤ (r.tail + r.size - r.hostHead) % r.size
    (v.getLsbD 0 = false → started → fits s.completion → head = s.completion.hostHead →
      exec (.retire v) s = .next s) ∧
    (v.getLsbD 0 = false → started → fits s.completion → head ≠ s.completion.hostHead →
      exec (.retire v) s = .next { s with
        completion := { s.completion with hostHead := head }, fetchDue := s.fetchDue || s.reading.isNone }) ∧
    (v.getLsbD 0 = true → started → fits s.event → head = s.event.hostHead → exec (.retire v) s = .next s) ∧
    (v.getLsbD 0 = true → started → fits s.event → head ≠ s.event.hostHead →
      exec (.retire v) s = .next (State.finish (State.judgeGrant
        { s with event := { s.event with hostHead := head } }))) ∧
    (¬ (started ∧ fits (if v.getLsbD 0 then s.event else s.completion)) →
      ∃ t, exec (.retire v) s = .next t ∧ s.Rejects t)) ∧
  ∀ s : State,
    let posted := (s.event.tail + s.event.size - s.event.hostHead) % s.event.size
    let reports :=
      ((List.finRange 4).countP fun l => (s.line l).breaksSeen ≠ 0 ∨ (s.line l).breakEnded = true ∨
        (s.line l).stuckSeen = true ∨ (s.line l).chatter ≠ 0) +
      ((List.finRange 4).countP fun q => (s.queue q).report ≠ none) +
      ((List.finRange 64).countP fun h => ∃ st ∈ s.station h, st.presenceChanges ≠ 0)
    (s.grantable = true ↔ reports < s.event.size - 1 - (s.reserved + posted)) ∧
    (s.grantable = false → s.judgeGrant = s) ∧
    (s.grantable = true →
      s.judgeGrant = { s with refusedLines := [], lines := s.judgeGrant.lines } ∧
      ∀ l, s.judgeGrant.line l =
        if l ∈ s.refusedLines ∧ (s.line l).state = .idle then { s.line l with consultDue := true } else s.line l)

/-- R134, R135: the arbiter, when it owes a look (R142; entry 24), chooses the first ready queue after its class's pointer,
URGENT queues before NORMAL ones, moves the pointer, reserves a context and a credit, and starts the read of the record at
base + 32 × head (R136); without its conditions the look alone is made. The context taken is the lowest free one: the
model's choice, entry 5; what it holds until the read has ended: entry 30. -/
def Obligations.FetchArbiterChooses : Prop :=
  ∀ s : State, s.resetHeld = false →
    let ready := fun (k : QueueClass) (q : QueueNo) =>
      (s.queue q).state = .active ∧ (s.queue q).head ≠ (s.queue q).tail ∧ (s.queue q).cls = k
    let may := s.device = .running ∧ s.reading = none ∧ (∃ i, i < 256 ∧ ∀ c ∈ s.pool, c.id ≠ i) ∧
      s.completion.posted + s.pool.length + 1 < s.completion.size
    (∀ (k : QueueClass) (q : QueueNo), s.fetchDue = true → may → ready k q → (k = .normal → ∀ r, ¬ ready .urgent r) →
      (∀ r, ready k r →
        (q.val + 3 - (match k with | .urgent => s.fetchUrgent | .normal => s.fetchNormal).val) % 4 ≤
          (r.val + 3 - (match k with | .urgent => s.fetchUrgent | .normal => s.fetchNormal).val) % 4) →
      ∃ t i, exec .fetchChoice s = .next t ∧ i < 256 ∧ (∀ c ∈ s.pool, c.id ≠ i) ∧
        (∀ j, j < i → ∃ c ∈ s.pool, c.id = j) ∧
        t = { s with
              fetchUrgent := if k = .urgent then q else s.fetchUrgent
              fetchNormal := if k = .normal then q else s.fetchNormal
              queues := s.queues.set q { s.queue q with fetching := true }
              reading := some {
                queue := q, ctx := i, addr := (s.queue q).base + BitVec.ofNat 32 (32 * (s.queue q).head) }
              fetchDue := false
              pool := s.pool ++ [reservedContext i q k] }) ∧
    (s.device ≠ .failed → s.fetchDue = true → ¬ (may ∧ ∃ k q, ready k q) →
      exec .fetchChoice s = .next { s with fetchDue := false }) ∧
    (s.device = .failed ∨ s.fetchDue = false → exec .fetchChoice s = .next s)

/-- R137, R133: a record read that ends in a bus error releases the context, leaves the head, and stops the queue with
READ_ERROR, or leaves BAD_TAIL; the report becomes pending, and the fetch arbiter looks again (R142). -/
def Obligations.RecordReadErrorStopsQueue : Prop :=
  ∀ (s : State) (rd : RecordRead) (cause : StopCause), s.resetHeld = false →
    (s.device = .running ∨ s.device = .halting) → s.reading = some rd →
    (cause = if (s.queue rd.queue).state = .stopped then (s.queue rd.queue).stopCause.getD .readError else .readError) →
    exec .recordReadError s = .next (State.finish { s with
      reading := none
      fetchDue := true
      pool := s.pool.filter fun c => c.id != rd.ctx
      queues := s.queues.set rd.queue { s.queue rd.queue with
        fetching := false, state := .stopped, stopCause := some cause
        report := some { cause := cause, head := (s.queue rd.queue).head } } })

/-- R136, R139, R56: what the good end of a record read leaves, before the record acts or ends: the head advances, the read
is over, a queue stopped during it reports, the fetch arbiter looks again (R142), and the context holds the record, taken
or refused. With it the kind codes of section 8.5, and where in the record each field stands that the context keeps or that
names what the record acts on (section 11.3), least significant octet first. -/
def Obligations.AcceptedRecordIsHeld : Prop :=
  (∀ r : List Byte,
    (∀ i b, r[i]? = some b → le8 r i = b.toNat) ∧
    (∀ i, le16 r i = le8 r i + 256 * le8 r (i + 1) ∧
      (addrAt r i).toNat = le8 r i + 256 * le8 r (i + 1) + 65536 * le8 r (i + 2) + 16777216 * le8 r (i + 3)) ∧
    (kindOfCode (octetAt r 0) = match le8 r 0 with
      | 0x01 => some .exchange
      | 0x02 => some .broadcast
      | 0x10 => some .addStation
      | 0x11 => some .removeStation
      | 0x12 => some .pauseStation
      | 0x13 => some .resumeStation
      | 0x20 => some .setLine
      | 0x21 => some .quiesceLine
      | 0x22 => some .resumeLine
      | 0x23 => some .lineReset
      | 0x30 => some .abort
      | 0x31 => some .fence
      | _ => none) ∧
    (le8 r 4 < 64 → (recHandle r).val = le8 r 4) ∧ (le8 r 4 < 4 → (recLine r).val = le8 r 4) ∧
    (le8 r 5 < 4 → (recStationLine r).val = le8 r 5) ∧ (le8 r 6 < 128 → (recAddress r).toNat = le8 r 6) ∧
    ∀ k, fieldsInRange k r = true →
      match k, bodyOf k r with
      | .exchange, .exchange h pa n ra cap =>
        h.val = le8 r 4 ∧ n = le8 r 5 ∧ cap = le8 r 6 ∧ pa = addrAt r 8 ∧ ra = addrAt r 12
      | .broadcast, .broadcast l pa n => l.val = le8 r 4 ∧ n = le8 r 5 ∧ pa = addrAt r 8
      | .addStation, .station h => h.val = le8 r 4
      | .removeStation, .station h => h.val = le8 r 4
      | .pauseStation, .station h => h.val = le8 r 4
      | .resumeStation, .station h => h.val = le8 r 4
      | .setLine, .setLine l enable rate hysteresis a =>
        l.val = le8 r 4 ∧ (enable = true ↔ le8 r 5 = 1) ∧ (enable = true → rate.val = le8 r 6) ∧
          hysteresis = le16 r 8 ∧ a = addrAt r 12
      | .quiesceLine, .line l => l.val = le8 r 4
      | .resumeLine, .line l => l.val = le8 r 4
      | .lineReset, .line l => l.val = le8 r 4
      | .abort, .abort q tag => q.val = le8 r 4 ∧ tag = le16 r 6
      | .fence, .fence => True
      | _, _ => False) ∧
  ∀ (s : State) (rd : RecordRead) (r : List Byte),
    let q := s.queue rd.queue
    let head := if q.head + 1 = q.size then 0 else q.head + 1
    let t := s.accept rd r
    let holds := fun (body : Body) => t.pool = s.pool.map fun c =>
      if c.id = rd.ctx ∧ c.phase ≠ .ending then
        { id := c.id, queue := c.queue, cls := c.cls, kindCode := octetAt r 0, kind := kindOfCode (octetAt r 0)
          tag := le16 r 1, body := body, attemptsMade := 0, linkAttempts := 0, busyCount := 0, abortRequested := none
          unanswered := false, lastFailure := none, lastTurnaround := none, fenceCount := 0, phase := .queued }
      else c
    t = { s with reading := none, fetchDue := true, queues := t.queues, pool := t.pool } ∧
    (∀ j, j ≠ rd.queue → t.queue j = s.queue j) ∧
    (q.state ≠ .stopped → t.queue rd.queue = { q with head := head, fetching := false }) ∧
    (q.state = .stopped → t.queue rd.queue = { q with
      head := head, fetching := false, report := some { cause := q.stopCause.getD .badTail, head := head } }) ∧
    (∀ k, kindOfCode (octetAt r 0) = some k → s.verdict r = none → holds (bodyOf k r)) ∧
    (∀ v, s.verdict r = some v → holds (.refused r))

/-! ## Validation -/

/-- R140 and R115, with sections 7.3, 7.4, 8.5 and 11.3: the checks in their order, the octets and the ranges of each kind's
fields, and what a well-formed record meets in the station table and the line engines. -/
def Obligations.RecordsChecked : Prop :=
  (∀ (k : RecordKind) (i : Nat), i ∈ fieldOffsets k ↔
    match k with
    | .exchange => (4 ≤ i ∧ i ≤ 6) ∨ (8 ≤ i ∧ i ≤ 15)
    | .broadcast => i = 4 ∨ i = 5 ∨ (8 ≤ i ∧ i ≤ 11)
    | .addStation => (4 ≤ i ∧ i ≤ 10) ∨ (12 ≤ i ∧ i ≤ 17)
    | .removeStation => i = 4
    | .pauseStation => i = 4
    | .resumeStation => i = 4
    | .setLine => (4 ≤ i ∧ i ≤ 6) ∨ i = 8 ∨ i = 9 ∨ (12 ≤ i ∧ i ≤ 15)
    | .quiesceLine => i = 4
    | .resumeLine => i = 4
    | .lineReset => i = 4
    | .abort => i = 4 ∨ i = 6 ∨ i = 7
    | .fence => False) ∧
  (∀ (s : State) (r : List Byte), r.length = 32 →
    (kindOfCode (octetAt r 0) = none → s.verdict r = some (.badRecord, .unknownKind)) ∧
    ∀ k, kindOfCode (octetAt r 0) = some k →
      (((octetAt r 3 ≠ 0 ∨ ∃ i, 4 ≤ i ∧ i < 32 ∧ i ∉ fieldOffsets k ∧ octetAt r i ≠ 0) →
          s.verdict r = some (.badRecord, .reservedNonzero)) ∧
        ((octetAt r 3 = 0 ∧ ∀ i, 4 ≤ i → i < 32 → i ∉ fieldOffsets k → octetAt r i = 0) →
          (fieldsInRange k r = false → s.verdict r = some (.badRecord, .fieldRange)) ∧
            (fieldsInRange k r = true → s.verdict r = s.checkKind k r))) ∧
      (fieldsInRange k r = true ↔
        match k with
        | .exchange => le8 r 4 ≤ 63 ∧ le8 r 5 ≤ 240 ∧ le8 r 6 ≤ 240
        | .broadcast => le8 r 4 ≤ 3 ∧ le8 r 5 ≤ 240
        | .addStation =>
          le8 r 4 ≤ 63 ∧ le8 r 5 ≤ 3 ∧ (1 ≤ le8 r 6 ∧ le8 r 6 ≤ 126) ∧ le8 r 7 ≤ 7 ∧ le8 r 8 ≤ 7 ∧
            (1 ≤ le8 r 9 ∧ le8 r 9 ≤ 15) ∧ (le16 r 12 = 0 ∨ (5 ≤ le16 r 12 ∧ le16 r 12 ≤ 60000)) ∧
            (1 ≤ le16 r 14 ∧ le16 r 14 ≤ 60000) ∧ (100 ≤ le16 r 16 ∧ le16 r 16 ≤ 60000)
        | .removeStation => le8 r 4 ≤ 63
        | .pauseStation => le8 r 4 ≤ 63
        | .resumeStation => le8 r 4 ≤ 63
        | .setLine => le8 r 4 ≤ 3 ∧ (le8 r 5 = 0 ∨ (le8 r 5 = 1 ∧ le8 r 6 ≤ 7 ∧ le32 r 12 % 4 = 0))
        | .quiesceLine => le8 r 4 ≤ 3
        | .resumeLine => le8 r 4 ≤ 3
        | .lineReset => le8 r 4 ≤ 3
        | .abort => le8 r 4 ≤ 3
        | .fence => True)) ∧
  (∀ (s : State) (r : List Byte),
    (∀ k, (k = .exchange ∨ k = .removeStation ∨ k = .pauseStation ∨ k = .resumeStation) →
      s.checkKind k r = match s.station (recHandle r) with
        | none => some (.badStation, .handleFree)
        | some st => if st.state = .closing then some (.badStation, .handleClosing) else none) ∧
    (((s.station (recHandle r)).isSome = true → s.checkKind .addStation r = some (.badStation, .handleInUse)) ∧
      (s.station (recHandle r) = none →
        (∀ h st, s.station h = some st → st.line = recStationLine r → st.address = recAddress r →
          ∃ h' st', s.station h' = some st' ∧ st'.line = recStationLine r ∧ st'.address = recAddress r ∧
            s.checkKind .addStation r = some (.duplicateAddress, .handle h')) ∧
        ((∀ h st, s.station h = some st → ¬ (st.line = recStationLine r ∧ st.address = recAddress r)) →
          s.checkKind .addStation r = none))) ∧
    (∀ k, k = .broadcast ∨ k = .abort ∨ k = .fence → s.checkKind k r = none) ∧
    (let x := s.line (recLine r)
     s.checkKind .setLine r =
        (if x.setLine.isSome then some (.refusedState, .lineConfiguring)
          else if x.state = .disabled ∨ x.state = .quiesced then none else some (.refusedState, .engine x.state)) ∧
      s.checkKind .resumeLine r =
        (if x.setLine.isSome then some (.refusedState, .lineConfiguring)
          else if x.state = .quiesced then none else some (.refusedState, .engine x.state)) ∧
      s.checkKind .quiesceLine r = (if x.state = .disabled then some (.refusedState, .engine x.state) else none) ∧
      s.checkKind .lineReset r = (if x.state = .disabled then some (.refusedState, .engine x.state) else none)))

/-- R139, R141, R128: a record of any kind that fails a check ends in the step of its acceptance, and no station entry
and no line engine changes but for a report that is taken. -/
def Obligations.RefusedRecordEndsAtOnce : Prop :=
  ∀ (c : Instr) (r : List Byte) (s : State) (rd : RecordRead) (x : Context) (status : Status) (detail : Detail),
    recordCarried c = some r → c.wellFormed = true → s.resetHeld = false →
    (s.device = .running ∨ s.device = .halting) → s.reading = some rd → s.verdict r = some (status, detail) →
    s.ctx rd.ctx = some x → x.phase ≠ .ending →
    ∃ t, exec c s = .next t ∧ t.Reports rd.ctx status detail ∧ t.reading = none ∧ t.mem = s.mem ∧
      (∀ l, (s.line l).SameButReport (t.line l)) ∧
      (∀ h, match s.station h, t.station h with
        | some a, some b => a.SameButReport b
        | none, none => True
        | _, _ => False) ∧
      ∀ j, j ≠ rd.ctx → t.ctx j = s.ctx j

/-! ## Records that are taken -/

/-- R46, R74, R141: a taken EXCHANGE joins the tail of its station's pending list and the scheduler of the station's line is
told (R113), or ends STATION_OFFLINE at once for an OFFLINE station; a taken BROADCAST joins the tail of its line's FIFO and
the scheduler is told. R113: being told leaves an IDLE engine with a consultation owed (entry 24), and no other engine with
anything. -/
def Obligations.ExchangeAndBroadcastQueued : Prop :=
  (∀ (s : State) (l : LineNo), s.notify l = s.setLine l
    (if (s.line l).state = .idle then { s.line l with consultDue := true } else s.line l)) ∧
  ∀ (s : State) (r : List Byte) (rd : RecordRead),
    (∀ st, s.Takes (.exchange r) r rd → s.station (recHandle r) = some st →
      (st.state ≠ .offline →
        exec (.exchange r) s = .next (State.finish (((s.accept rd r).setStation (recHandle r)
          (some { st with
            pending := if rd.ctx ∈ st.pending then st.pending else st.pending ++ [rd.ctx] })).notify st.line))) ∧
      (st.state = .offline →
        exec (.exchange r) s = .next (State.finish ((s.accept rd r).hand rd.ctx .stationOffline .none 0
          (some st.band) none)))) ∧
    (s.Takes (.broadcast r) r rd →
      let x := s.line (recLine r)
      exec (.broadcast r) s = .next (State.finish ((s.accept rd r).setLine (recLine r)
        { x with
          fifo := x.fifo ++ [rd.ctx], consultDue := if x.state = .idle then true else x.consultDue })))

/-- R116, R18: a taken ADD_STATION takes the entry into use with the values of R18, tells the scheduler of its line (R113),
and ends OK. -/
def Obligations.StationTakenIntoUse : Prop :=
  ∀ (s : State) (r : List Byte) (rd : RecordRead), s.Takes (.addStation r) r rd →
    ∃ st : Station,
      exec (.addStation r) s =
        .next (State.finish ((((s.accept rd r).setStation (recHandle r) (some st)).notify st.line).endRecord
          rd.ctx .ok .none)) ∧
      st.line.val = le8 r 5 ∧ st.address.toNat = le8 r 6 ∧ st.band.val = le8 r 7 ∧ st.retryLimit = le8 r 8 ∧
      st.missLimit = le8 r 9 ∧ st.busyLimit = le8 r 10 ∧ st.pollInterval = le16 r 12 ∧ st.holdTime = le16 r 14 ∧
      st.probeInterval = le16 r 16 ∧ st.state = .new ∧ st.paused = false ∧ st.cseq = false ∧ st.pseq = false ∧
      st.link = .uncertain ∧ st.missCount = 0 ∧ st.timer = none ∧ st.pollDue = none ∧ st.probeDue = none ∧
      st.attention = none ∧ st.pending = [] ∧ st.presenceChanges = 0 ∧ st.lastReported = .absent

/-- R117, R43, R45: a taken REMOVE_STATION takes the entry to CLOSING. With nothing in flight and nothing waiting it is
free at once and the record ends OK; with a context of its list in PREPARING or ATTEMPTING the list and the entry wait;
otherwise every waiting context ends CANCELLED, and with nothing in flight the entry is then free and the record ends OK; while
an attempt or a delivery of the station is in flight the entry stays CLOSING and the record waits. -/
def Obligations.StationRemoved : Prop :=
  ∀ (s : State) (r : List Byte) (rd : RecordRead) (st : Station), s.Takes (.removeStation r) r rd →
    s.station (recHandle r) = some st →
    let u := s.accept rd r
    let closing : Station :=
      { st with
        closingFrom := some st.state, state := .closing, remover := some rd.ctx, timer := none, pollDue := none
        probeDue := none }
    let inFlight := (s.line st.line).attempting (recHandle r) = true ∨ st.attention ≠ none
    (st.pending = [] → ¬ inFlight →
      exec (.removeStation r) s =
        .next (State.finish (((u.setStation (recHandle r) (some closing)).setStation (recHandle r) none).endRecord
          rd.ctx .ok .none))) ∧
    (st.pending = [] → inFlight →
      exec (.removeStation r) s = .next (State.finish (u.setStation (recHandle r) (some closing)))) ∧
    ((∃ id ∈ st.pending, u.phaseOf id = some .preparing ∨ u.phaseOf id = some .attempting) →
      exec (.removeStation r) s = .next (State.finish (u.setStation (recHandle r) (some closing)))) ∧
    (st.pending ≠ [] → (∀ id ∈ st.pending, u.phaseOf id ≠ some .preparing ∧ u.phaseOf id ≠ some .attempting) →
      ∃ t, exec (.removeStation r) s = .next t ∧
        (u.setStation (recHandle r) (some closing)).SameButEnds t ∧
        (inFlight → (∃ x, t.station (recHandle r) = some x ∧ x.state = .closing) ∧
          (rd.ctx ∉ st.pending → t.ctx rd.ctx = u.ctx rd.ctx)) ∧
        (u.ContextsDistinct → st.pending.Nodup →
          (∀ id ∈ st.pending, ∀ c, u.ctx id = some c → c.phase ≠ .ending → c.exchangeHandle = some (recHandle r) →
            t.Reports id .cancelled c.failureDetail) ∧
          (∀ x, ¬ inFlight → s.ctx rd.ctx = some x → x.phase ≠ .ending →
            (∀ id ∈ st.pending, ∃ c, u.ctx id = some c ∧ c.phase ≠ .ending ∧
              c.exchangeHandle = some (recHandle r)) →
            t.station (recHandle r) = none ∧ t.Reports rd.ctx .ok .none)))

/-- R119, R120: PAUSE_STATION and RESUME_STATION set and clear the paused flag alone, and end OK at once; the resumption of
a paused station tells the scheduler of its line (R113). -/
def Obligations.StationPausedAndResumed : Prop :=
  ∀ (s : State) (r : List Byte) (rd : RecordRead) (st : Station), s.station (recHandle r) = some st →
    (s.Takes (.pauseStation r) r rd →
      exec (.pauseStation r) s = .next (State.finish (((s.accept rd r).setStation (recHandle r)
        (some { st with paused := true })).endRecord rd.ctx .ok .none))) ∧
    (s.Takes (.resumeStation r) r rd →
      (st.paused = true →
        exec (.resumeStation r) s = .next (State.finish ((((s.accept rd r).setStation (recHandle r)
          (some { st with paused := false })).notify st.line).endRecord rd.ctx .ok .none))) ∧
      (st.paused = false →
        exec (.resumeStation r) s = .next (State.finish (((s.accept rd r).setStation (recHandle r)
          (some st)).endRecord rd.ctx .ok .none))))

/-- R121, R97, R122: a SET_LINE with enable 0 takes a QUIESCED line to DISABLED and leaves a DISABLED one, and ends OK; one
with enable 1 becomes the line's outstanding SET_LINE, and its band table read begins unless a reply write is under way. -/
def Obligations.SetLineTaken : Prop :=
  ∀ (s : State) (r : List Byte) (rd : RecordRead),
    let l := recLine r
    let x := s.line l
    (s.Takes (.setLineDisable r) r rd →
      (x.state = .disabled →
        exec (.setLineDisable r) s = .next (State.finish ((s.accept rd r).endRecord rd.ctx .ok .none))) ∧
      (x.state = .quiesced →
        exec (.setLineDisable r) s = .next (State.finish (((s.accept rd r).setLine l
          { x with
            state := .disabled, breakEnded := x.breakEnded || x.condition != .clear, condition := .clear
            quiesce := false, quietSince := none, spaceEdge := none, receiving := false
            markSince := none }).endRecord rd.ctx .ok .none)))) ∧
    (s.Takes (.setLineEnable r) r rd →
      ((∃ id octets, x.rxBuffer = some (.reply id octets)) →
        exec (.setLineEnable r) s =
          .next (State.finish ((s.accept rd r).setLine l { x with setLine := some rd.ctx }))) ∧
      ((∀ id octets, x.rxBuffer ≠ some (.reply id octets)) →
        exec (.setLineEnable r) s = .next (State.finish ((s.accept rd r).setLine l
          { x with setLine := some rd.ctx, bandReading := true, txHolds := none }))))

/-- R124, R95: a taken QUIESCE_LINE, by the engine state. R125: a taken RESUME_LINE finds the engine QUIESCED, clears quiesce
requested, moves the engine to IDLE, where it owes its scheduler a consultation (entry 24), and ends OK. -/
def Obligations.LineQuiescedAndResumed : Prop :=
  (∀ (s : State) (r : List Byte) (rd : RecordRead), s.Takes (.quiesceLine r) r rd →
    let l := recLine r
    let x := s.line l
    (x.state = .idle →
      exec (.quiesceLine r) s = .next (State.finish (((s.accept rd r).setLine l
        { x with quiesce := true, state := .quiesced }).endRecord rd.ctx .ok .none))) ∧
    (x.state = .guard ∨ x.state = .quiesced →
      exec (.quiesceLine r) s = .next (State.finish (((s.accept rd r).setLine l
        { x with quiesce := true }).endRecord rd.ctx .ok .none))) ∧
    (x.state = .preparing ∨ x.state = .transmit ∨ x.state = .await ∨ x.state = .receive ∨ x.state = .breakOut →
      exec (.quiesceLine r) s = .next (State.finish ((s.accept rd r).setLine l
        { x with quiesce := true, quiescers := x.quiescers ++ [rd.ctx] })))) ∧
  (∀ (s : State) (r : List Byte) (rd : RecordRead), s.Takes (.resumeLine r) r rd →
    (s.line (recLine r)).state = .quiesced ∧
    exec (.resumeLine r) s = .next (State.finish (((s.accept rd r).setLine (recLine r)
      { s.line (recLine r) with quiesce := false, state := .idle, consultDue := true }).endRecord rd.ctx .ok .none)))

/-- R126, R93: a taken LINE_RESET is bound to a break begun at once, to the break in progress, or to the pending line
reset, of which an IDLE engine's scheduler is told (R113). -/
def Obligations.LineResetBound : Prop :=
  ∀ (s : State) (r : List Byte) (rd : RecordRead), s.Takes (.lineReset r) r rd →
    let l := recLine r
    let x := s.line l
    let idle := x.state = .idle ∨ x.state = .guard ∨ x.state = .quiesced
    (idle → s.device = .running →
      ∃ t, exec (.lineReset r) s = .next t ∧ (s.accept rd r).BeginsBreak t l [rd.ctx] s.time) ∧
    ((idle ∧ s.device ≠ .running) ∨ x.state = .preparing ∨ x.state = .transmit ∨ x.state = .await ∨
        x.state = .receive →
      exec (.lineReset r) s = .next (State.finish ((s.accept rd r).setLine l
        { x with
          resetPending := true, resetRecords := x.resetRecords ++ [rd.ctx]
          consultDue := if x.state = .idle then true else x.consultDue }))) ∧
    (x.state = .breakOut →
      exec (.lineReset r) s = .next (State.finish ((s.accept rd r).setLine l
        { x with boundResets := x.boundResets ++ [rd.ctx] })))

/-- R76, R77, R78: the target of an ABORT is the first accepted EXCHANGE or BROADCAST of the queue and tag whose end is
not decided and whose abort is not requested; by its phase it ends ABORTED at once, or its abort is requested and the
ABORT waits; without a target the ABORT ends TOO_LATE or NOT_FOUND. -/
def Obligations.AbortFindsItsTarget : Prop :=
  ∀ (s : State) (r : List Byte) (rd : RecordRead), s.Takes (.abort r) r rd →
    let u := s.accept rd r
    let named := fun c : Context =>
      (c.kind = some .exchange ∨ c.kind = some .broadcast) ∧ c.queue.val = le8 r 4 ∧ c.tag = le16 r 6
    let eligible := fun c : Context => named c ∧ c.phase ≠ .ending ∧ c.abortRequested = none
    (∀ (before after : List Context) (c : Context), u.pool = before ++ c :: after → eligible c →
      (∀ d ∈ before, ¬ eligible d) →
      (c.phase = .queued ∨ c.phase = .waitingRetry ∨ c.phase = .held →
        exec (.abort r) s = .next (State.finish ((u.endWith c.id .aborted).endRecord rd.ctx .ok .none))) ∧
      (c.phase = .preparing ∨ c.phase = .attempting →
        exec (.abort r) s =
          .next (State.finish (u.updCtx c.id fun d => { d with abortRequested := some rd.ctx })))) ∧
    ((∀ c ∈ u.pool, ¬ eligible c) →
      ((∃ c ∈ u.pool, named c ∧ c.phase = .ending) →
        exec (.abort r) s = .next (State.finish (u.endRecord rd.ctx .tooLate .none))) ∧
      ((∀ c ∈ u.pool, ¬ (named c ∧ c.phase = .ending)) →
        exec (.abort r) s = .next (State.finish (u.endRecord rd.ctx .notFound .none))))

/-- R79: a taken FENCE counts the other contexts of its queue, ends OK at 0 and waits otherwise. -/
def Obligations.FenceCountsItsQueue : Prop :=
  ∀ (s : State) (r : List Byte) (rd : RecordRead) (x : Context), s.Takes (.fence r) r rd →
    s.ctx rd.ctx = some x → x.phase ≠ .ending →
    let n := s.pool.countP fun d => d.id != rd.ctx && d.queue == x.queue
    (n = 0 → ∃ t, exec (.fence r) s = .next t ∧ t.Reports rd.ctx .ok .none ∧
      ((s.accept rd r).SameButEnds t)) ∧
    (n ≠ 0 → exec (.fence r) s =
      .next (State.finish ((s.accept rd r).updCtx rd.ctx fun c => { c with fenceCount := n })))

/-- R144: handing a completion puts its context in ENDING and the completion at the tail of the handed list, once. R70, R68,
R80: the end of an exchange of a station that is not CLOSING: it leaves its lists, the buffer no longer holds its payload,
the link is marked UNCERTAIN where R68 says so, which tells the scheduler when it was CERTAIN and an exchange is left at the
head (R40), and its completion carries the band and the turnaround. -/
def Obligations.ExchangeEndDecided : Prop :=
  (∀ (s : State) (c : Context) (status : Status) (detail : Detail) (n : Nat) (band : Option (Fin 8)) (t : Option Nat),
    (s.ctx c.id = some c → c.Live →
      s.hand c.id status detail n band t = { s with
        pool := s.pool.map fun d => if d.id = c.id ∧ d.phase ≠ .ending then { d with phase := .ending } else d
        handed := s.handed ++ [{
          ctx := c.id, kindCode := c.kindCode, tag := c.tag, queue := c.queue, status := status, detail := detail
          replyLength := n, band := band, turnaround := t }] }) ∧
    (s.ctx c.id = some c → ¬ c.Live → s.hand c.id status detail n band t = s)) ∧
  (∀ (s : State) (c : Context) (h : Handle) (st : Station) (status : Status),
    s.ctx c.id = some c → c.phase ≠ .ending → c.exchangeHandle = some h → s.station h = some st → st.state ≠ .closing →
    let x := s.line st.line
    let marked := c.unanswered = true ∧
      (status = .noReply ∨ status = .stationOffline ∨ status = .aborted ∨ status = .cancelled)
    let told := marked ∧ st.link = .certain ∧ st.pending.erase c.id ≠ [] ∧ x.state = .idle
    ∃ link due, (marked → link = .uncertain) ∧ (¬ marked → link = st.link) ∧
      (told → due = true) ∧ (¬ told → due = x.consultDue) ∧
      s.endWith c.id status =
        ((s.setStation h (some { st with pending := st.pending.erase c.id, link := link })).setLine st.line
          { x with
            retryList := x.retryList.erase c.id, fifo := x.fifo.erase c.id
            txHolds := if x.txHolds = some c.id then none else x.txHolds, consultDue := due }).hand
          c.id status (match c.lastFailure with | some f => .failure f | none => .none) 0 (some st.band) c.lastTurnaround)

/-! ## The band table -/

/-- R122, R123, R49, R97: the end of a band table read, which read at the address of the record. The record's OK stands
before the completions of the exchanges that the enabling break ends: the model's choice, entry 20. The moment of the installation,
from which thresholds at the new rate are compared (R97), is kept. That the receiver looks for the next transition from there on,
where a character is discarded, is the model's inference, entry 37. -/
def Obligations.BandTableReadEnds : Prop :=
  ∀ (s : State) (l : LineNo) (id : Nat) (c : Context) (hysteresis : Nat) (rate : Fin 8) (enable : Bool) (a : Word),
    s.Operates → (s.line l).bandReading = true → (s.line l).setLine = some id → s.ctx id = some c →
    c.body = .setLine l enable rate hysteresis a →
    let x := s.line l
    let ended := { x with setLine := none, bandReading := false }
    s.tableReadAt l = some a ∧
    exec (.bandTableReadEnd l .error) s =
        .next (State.finish ((s.setLine l ended).endRecord id .hostReadError .bandTableRead)) ∧
    (∀ b : List Byte, b.length = 64 → bandBlockValid b = false →
      exec (.bandTableReadEnd l (.good b)) s =
        .next (State.finish ((s.setLine l ended).endRecord id .badRecord .bandTableInvalid))) ∧
    (∀ b : List Byte, b.length = 64 → bandBlockValid b = true →
      let on := { ended with
        bandTable := some (bandTableOf b), hysteresis := hysteresis, rate := some rate, rateSince := s.time }
      (x.state ≠ .disabled →
        exec (.bandTableReadEnd l (.good b)) s = .next (State.finish (((s.setLine l on).endRecord id .ok .none).setLine l
          { on with receiving := false, looksSince := if x.receiving then s.time else x.looksSince }))) ∧
      (x.state = .disabled →
        let up := { on with
          condition := .clear, quietSince := some s.time, spaceEdge := none, receiving := false, looksSince := s.time
          markSince := none }
        (s.device ≠ .running →
          exec (.bandTableReadEnd l (.good b)) s = .next (State.finish (((s.setLine l on).endRecord id .ok .none).setLine
            l { up with state := .guard, guardSince := s.time, resetPending := true }))) ∧
        (s.device = .running →
          ∃ t, exec (.bandTableReadEnd l (.good b)) s = .next t ∧
            (((s.setLine l on).endRecord id .ok .none).setLine l up).BeginsBreak t l [] s.time ∧
            (c.phase ≠ .ending → t.Reports id .ok .none ∧
              ∃ rest, t.completionOrder = s.completionOrder ++ id :: rest))))

/-- R48: when a band table block is valid; section 11.2: what it spells. -/
def Obligations.BandBlockValidity : Prop :=
  ∀ b : List Byte,
    (bandBlockValid b = true ↔
      (∀ k, k < 7 → 1 ≤ le32 b (4 * k) ∧ le32 b (4 * k) ≤ 999999) ∧
      (∀ k, k < 6 → le32 b (4 * k) < le32 b (4 * (k + 1))) ∧
      (∀ k, k < 8 → 100 ≤ le32 b (28 + 4 * k) ∧ le32 b (28 + 4 * k) ≤ 1000000) ∧
      (∀ k, k < 7 → le32 b (4 * k) < le32 b (28 + 4 * k)) ∧ le32 b 24 < le32 b 56 ∧
      ∀ i, 60 ≤ i → i < 64 → le8 b i = 0) ∧
    (∀ k : Fin 7, (bandTableOf b).bounds[k] = le32 b (4 * k.val)) ∧
    ∀ k : Fin 8, (bandTableOf b).wait k = le32 b (28 + 4 * k.val)

/-! ## The line scheduler -/

/-- R103 to R112: what the scheduler's choice is: the first step with an eligible candidate, and at each step the
candidate the rules name. -/
def Obligations.SchedulerStepsInOrder : Prop :=
  ∀ (s : State) (l : LineNo),
    let x := s.line l
    let on := fun (h : Handle) (st : Station) => s.station h = some st ∧ st.line = l
    let retryable := fun id => ∃ c h st, s.ctx id = some c ∧ c.exchangeHandle = some h ∧ s.station h = some st ∧
      st.paused = false
    let linkable := fun h => ∃ st, on h st ∧ st.paused = false ∧
      (st.state = .new ∨ (st.state = .online ∧ st.link = .uncertain ∧ st.pending ≠ []))
    let ready := fun (k : QueueClass) (i : Nat) =>
      (∃ h st id c, h.val = i ∧ on h st ∧ st.state = .online ∧ st.link = .certain ∧ st.paused = false ∧
        st.pending.head? = some id ∧ s.ctx id = some c ∧ c.phase = .queued ∧ c.cls = k) ∨
      (i = 64 ∧ ∃ id c, x.fifo.head? = some id ∧ s.ctx id = some c ∧ c.phase = .queued ∧ c.cls = k)
    let polls := fun (h : Handle) (t : Nat) => ∃ st, on h st ∧ st.state = .online ∧ st.paused = false ∧
      st.pollDue = some t ∧ st.attention = none
    let probes := fun (h : Handle) (t : Nat) => ∃ st, on h st ∧ st.state = .offline ∧ st.paused = false ∧
      st.probeDue = some t
    let older := fun (h : Handle) (t : Nat) (k : Handle) (u : Nat) => t < u ∨ (t = u ∧ h ≤ k)
    let noReset := x.resetPending = false
    let noRetry := ∀ id ∈ x.retryList, ¬ retryable id
    let noLink := ∀ h, ¬ linkable h
    let noWork := fun k => ∀ i, ¬ ready k i
    match s.choose l with
    | .reset => x.resetPending = true
    | .retry id => noReset ∧ ∃ before after, x.retryList = before ++ id :: after ∧ retryable id ∧
        ∀ j ∈ before, ¬ retryable j
    | .link h => noReset ∧ noRetry ∧ linkable h ∧
        ∀ k, linkable k → (h.val + 63 - x.linkPtr.val) % 64 ≤ (k.val + 63 - x.linkPtr.val) % 64
    | .work k i => noReset ∧ noRetry ∧ noLink ∧ ready k i ∧
        (∀ j, ready k j → (i + 64 - (match k with | .urgent => x.urgentPtr | .normal => x.normalPtr).val) % 65 ≤
          (j + 64 - (match k with | .urgent => x.urgentPtr | .normal => x.normalPtr).val) % 65) ∧
        (k = .normal → noWork .urgent ∧ (8 ≤ x.service → (∀ h t, ¬ probes h t) ∧
          (s.grantable = true → ∀ h t, ¬ polls h t)))
    | .poll h => noReset ∧ noRetry ∧ noLink ∧ noWork .urgent ∧ s.grantable = true ∧
        ∃ t, polls h t ∧ (∀ k u, polls k u → older h t k u) ∧
          ((8 ≤ x.service ∧ ∀ k u, probes k u → older h t k u) ∨ (x.service < 8 ∧ noWork .normal))
    | .probe h => noReset ∧ noRetry ∧ noLink ∧ noWork .urgent ∧
        ∃ t, probes h t ∧ (∀ k u, probes k u → older h t k u) ∧
          ((8 ≤ x.service ∧ (s.grantable = true → ∀ k u, polls k u → older h t k u)) ∨
            (x.service < 8 ∧ noWork .normal ∧ (s.grantable = true → ∀ k u, ¬ polls k u)))
    | .nothing => noReset ∧ noRetry ∧ noLink ∧ noWork .urgent ∧ noWork .normal ∧ (∀ h t, ¬ probes h t) ∧
        (s.grantable = true → ∀ h t, ¬ polls h t)

/-- R85, R103: an engine that may leave IDLE and owes its scheduler a consultation (R113) acts on the choice; one that may
not is left as it is. The moment of the consultation is `wait` after the part's last event (entries 3 and 24). A refused
request is recorded (R148) in the consultation that reaches step 5 or step 7 with a poll offered and no place to grant,
whatever is then chosen: the model's inference, entry 28. -/
def Obligations.SchedulerChoiceActs : Prop :=
  ∀ (s : State) (l : LineNo) (wait : Nat),
    let x := s.line l
    let now := s.time + wait
    let u := (s.reach now).setLine l { x with consultDue := false }
    let v := if u.asksInVain l then u.recordRefusal l else u
    let may := s.resetHeld = false ∧ s.device = .running ∧ x.state = .idle ∧ x.quiesce = false ∧ x.condition = .clear ∧
      x.receiving = false ∧ x.rxBuffer = none ∧ x.consultDue = true ∧ ∃ q, x.quietSince = some q ∧ q + 2 * x.char ≤ now
    (¬ may → exec (.schedulerChoice l wait) s = .next s) ∧
    (may → u.choose l = .nothing → exec (.schedulerChoice l wait) s = .next (State.finish v)) ∧
    (may → u.choose l = .reset → ∃ t, exec (.schedulerChoice l wait) s = .next t ∧ u.BeginsBreak t l [] now) ∧
    (∀ h st, may → u.choose l = .probe h → s.station h = some st →
      exec (.schedulerChoice l wait) s = .next (State.finish (v.setLine l
        ((u.line l).beginFrame (.probe h) (formFrame st.address .linkReset false []) 0 now)))) ∧
    (∀ h st, may → u.choose l = .poll h → s.station h = some st →
      exec (.schedulerChoice l wait) s = .next (State.finish
        (({ u with reserved := u.reserved + 1, refusedLines := u.refusedLines.filter fun k => k != l } : State).setLine l
          ((u.line l).beginFrame (.poll h st.pseq) (formFrame st.address .poll st.pseq []) 0 now)))) ∧
    (∀ h st, may → u.choose l = .link h → s.station h = some st →
      (st.state = .new →
        exec (.schedulerChoice l wait) s = .next (State.finish (u.setLine l
          (({ u.line l with linkPtr := h } : Line).beginFrame (.link h) (formFrame st.address .linkReset false [])
            x.service now)))) ∧
      (∀ id rest, st.state = .online → st.pending = id :: rest →
        exec (.schedulerChoice l wait) s = .next (State.finish
          ((u.updCtx id fun c => { c with linkAttempts := c.linkAttempts + 1 }).setLine l
            (({ u.line l with linkPtr := h } : Line).beginFrame (.link h) (formFrame st.address .linkReset false [])
              x.service now))))) ∧
    (∀ id c h st, may → u.choose l = .retry id → s.ctx id = some c → c.exchangeHandle = some h → s.station h = some st →
      let y := { u.line l with retryList := x.retryList.erase id }
      let service := if u.lineOffers l then min 255 (x.service + 1) else x.service
      (x.txHolds = some id →
        exec (.schedulerChoice l wait) s = .next (State.finish ((u.updCtx id fun c =>
            { c with phase := .attempting, attemptsMade := c.attemptsMade + 1 }).setLine l
          (y.beginFrame (.command id h .waitingRetry) (formFrame st.address .command st.cseq x.txBuffer) service now)))) ∧
      (x.txHolds ≠ some id → c.payloadLength = 0 → c.abortRequested = none → st.state ≠ .closing →
        exec (.schedulerChoice l wait) s = .next (State.finish ((u.updCtx id fun c =>
            { c with phase := .attempting, attemptsMade := c.attemptsMade + 1 }).setLine l
          (({ y with txBuffer := [], txHolds := some id, abandoned := false } : Line).beginFrame
            (.command id h .waitingRetry) (formFrame st.address .command st.cseq []) service now)))) ∧
      (x.txHolds ≠ some id → c.payloadLength ≠ 0 →
        exec (.schedulerChoice l wait) s = .next (State.finish ((u.updCtx id fun c =>
            { c with phase := .preparing }).setLine l
          { y with
            state := .preparing, job := some (.command id h .waitingRetry), abandoned := false, txHolds := none })))) ∧
    (∀ k i h st id c, may → u.choose l = .work k i → h.val = i → s.station h = some st → st.pending.head? = some id →
      s.ctx id = some c →
      let y := (u.line l).movePtr k h.castSucc
      let service := if u.lineOffers l then min 255 (x.service + 1) else x.service
      (x.txHolds = some id →
        exec (.schedulerChoice l wait) s = .next (State.finish ((v.updCtx id fun c =>
            { c with phase := .attempting, attemptsMade := c.attemptsMade + 1 }).setLine l
          (y.beginFrame (.command id h .queued) (formFrame st.address .command st.cseq x.txBuffer) service now)))) ∧
      (x.txHolds ≠ some id → c.payloadLength = 0 → c.abortRequested = none →
        exec (.schedulerChoice l wait) s = .next (State.finish ((v.updCtx id fun c =>
            { c with phase := .attempting, attemptsMade := c.attemptsMade + 1 }).setLine l
          (({ y with txBuffer := [], txHolds := some id, abandoned := false } : Line).beginFrame
            (.command id h .queued) (formFrame st.address .command st.cseq []) service now)))) ∧
      (x.txHolds ≠ some id → c.payloadLength ≠ 0 →
        exec (.schedulerChoice l wait) s = .next (State.finish ((v.updCtx id fun c =>
            { c with phase := .preparing }).setLine l
          { y with state := .preparing, job := some (.command id h .queued), abandoned := false, txHolds := none })))) ∧
    (∀ k id c, may → u.choose l = .work k 64 → x.fifo.head? = some id → s.ctx id = some c →
      let y := (u.line l).movePtr k 64
      let service := if u.lineOffers l then min 255 (x.service + 1) else x.service
      (x.txHolds = some id →
        exec (.schedulerChoice l wait) s = .next (State.finish ((v.updCtx id fun c =>
            { c with phase := .attempting, attemptsMade := 1 }).setLine l
          (y.beginFrame (.broadcast id) (formFrame 0 .command false x.txBuffer) service now)))) ∧
      (x.txHolds ≠ some id → c.payloadLength = 0 → c.abortRequested = none →
        exec (.schedulerChoice l wait) s = .next (State.finish ((v.updCtx id fun c =>
            { c with phase := .attempting, attemptsMade := 1 }).setLine l
          (({ y with txBuffer := [], txHolds := some id, abandoned := false } : Line).beginFrame (.broadcast id)
            (formFrame 0 .command false []) service now)))) ∧
      (x.txHolds ≠ some id → c.payloadLength ≠ 0 →
        exec (.schedulerChoice l wait) s = .next (State.finish ((v.updCtx id fun c =>
            { c with phase := .preparing }).setLine l
          { y with state := .preparing, job := some (.broadcast id), abandoned := false, txHolds := none }))))

/-- R42: while a station's paused flag is set, no command begins an attempt to it. -/
def Obligations.PausedStationIsNotAddressed : Prop :=
  ∀ (c : Instr) (s t : State) (l : LineNo) (job : Job) (h : Handle) (st : Station), exec c s = .next t →
    (s.line l).state ≠ .transmit → (t.line l).state = .transmit → (t.line l).job = some job → job.handle = some h →
    s.station h = some st → st.paused = false

/-- R4, R5: the address and the control octet of every frame the part sends, by the entry as it is when the attempt is
started; with them the whole of the frame, its length octet, its payload and its check, high octet first, and the driver,
which is enabled at the frame's first start bit. -/
def Obligations.FrameAddressAndControl : Prop :=
  ∀ (s : State) (l : LineNo),
    let sent := fun (t : State) (address control : Byte) (payload : List Byte) =>
      let body := address :: control :: BitVec.ofNat 8 payload.length :: payload
      (t.line l).txFrame = body ++ [(crc body >>> 8).setWidth 8, (crc body).setWidth 8] ∧
        (t.line l).state = .transmit ∧ (t.line l).driverEnable = true ∧ (t.line l).txd = .frame ∧
        (t.line l).txStart = s.time
    (∀ id h origin st, s.station h = some st →
      sent (s.beginTransmit l (.command id h origin)) (st.address.setWidth 8) (if st.cseq then 0x11#8 else 0x01#8)
        (s.line l).txBuffer) ∧
    (∀ h st, s.station h = some st →
      sent (s.startPoll l h) (st.address.setWidth 8) (if st.pseq then 0x12#8 else 0x02#8) []) ∧
    (∀ h st, s.station h = some st →
      sent (s.beginTransmit l (.link h)) (st.address.setWidth 8) 0x03#8 [] ∧
        sent (s.beginTransmit l (.probe h)) (st.address.setWidth 8) 0x03#8 []) ∧
    ∀ id, sent (s.beginTransmit l (.broadcast id)) 0x00#8 0x01#8 (s.line l).txBuffer

/-! ## Payload reads and frames -/

/-- R58, R59, R61, R74, R78, R85: a payload read, from the address of its record, that ends good: the frame is sent unless the
abort was requested, the station is CLOSING, or it is paused. For a paused station the context returns to the phase it came
from, at the head of the retry list when that is WAITING_RETRY (R102), and the transmit buffer keeps its payload. R43, R45,
R71: where the station is CLOSING the end of its exchange settles the entry. -/
def Obligations.PayloadReadEndsGood : Prop :=
  ∀ (s : State) (l : LineNo) (octets : List Byte) (id : Nat) (c : Context),
    s.Operates → (s.line l).state = .preparing → (s.line l).abandoned = false → octets.length ≤ 240 →
    s.ctx id = some c → c.payloadLength = octets.length → c.phase = .preparing →
    let x := { s.line l with txBuffer := octets, txHolds := some id }
    let service := if s.lineOffers l then min 255 (x.service + 1) else x.service
    let breaks := x.resetPending = true ∧ s.device = .running
    let settles := fun (t : State) (h : Handle) (st : Station) => st.state = .closing →
      (s.line st.line).attempting h = false → s.ClosingSettles t h st (some id)
    (∀ job pa, x.job = some job → job.context = some id →
      (∃ h n ra cap, c.body = .exchange h pa n ra cap) ∨ (∃ k n, c.body = .broadcast k pa n) →
      s.payloadReadAt l = some pa) ∧
    (∀ h origin st, x.job = some (.command id h origin) → s.station h = some st → c.exchangeHandle = some h →
      (c.abortRequested = none → st.state ≠ .closing → st.paused = false →
        exec (.payloadReadEnd l octets) s = .next (State.finish ((s.updCtx id fun c =>
            { c with phase := .attempting, attemptsMade := c.attemptsMade + 1 }).setLine l
          (x.beginFrame (.command id h origin) (formFrame st.address .command st.cseq octets) service s.time)))) ∧
      (c.abortRequested = none → st.state ≠ .closing → st.paused = true →
        ∃ t, exec (.payloadReadEnd l octets) s = .next t ∧
          ((s.updCtx id fun c => { c with phase := origin }).setLine l
            { x with
              retryList := if origin = .waitingRetry then id :: x.retryList.erase id else x.retryList }).LeavesRead t l ∧
          (¬ breaks → id ∉ x.quiescers →
            t.phaseOf id = some origin ∧ (t.line l).txHolds = some id ∧
              (origin = .waitingRetry → (t.line l).retryList = id :: x.retryList.erase id)) ∧
          (breaks → s.ContextsDistinct → origin = .queued →
            t.phaseOf id = some .queued ∧ (t.line l).txHolds = some id) ∧
          (breaks → s.ContextsDistinct → origin = .waitingRetry → st.line = l →
            t.Reports id .lineBreak (.failure .lineBreak))) ∧
      (∀ a, c.abortRequested = some a →
        ∃ t, exec (.payloadReadEnd l octets) s = .next t ∧ t.Reports id .aborted c.failureDetail ∧
          (s.setLine l x).LeavesRead t l ∧ settles t h st ∧
          ∀ d, s.ctx a = some d → a ≠ id → d.Live → a ∉ st.pending → t.Reports a .ok .none) ∧
      (c.abortRequested = none → st.state = .closing →
        ∃ t, exec (.payloadReadEnd l octets) s = .next t ∧ t.Reports id .cancelled c.failureDetail ∧
          (s.setLine l x).LeavesRead t l ∧ settles t h st)) ∧
    (x.job = some (.broadcast id) → c.abortRequested = none →
      exec (.payloadReadEnd l octets) s = .next (State.finish ((s.updCtx id fun c =>
          { c with phase := .attempting, attemptsMade := 1 }).setLine l
        (x.beginFrame (.broadcast id) (formFrame 0 .command false octets) service s.time)))) ∧
    (∀ a, x.job = some (.broadcast id) → c.abortRequested = some a → c.exchangeHandle = none → c.body ≠ .reserved →
      ∃ t, exec (.payloadReadEnd l octets) s = .next t ∧ t.Reports id .aborted c.failureDetail ∧
        (s.setLine l x).LeavesRead t l ∧
        ∀ d, s.ctx a = some d → a ≠ id → d.Live → t.Reports a .ok .none)

/-- R58, R78, R85: a payload read that meets a bus error ends its exchange or broadcast, and nothing is sent; an abandoned
read that has ended takes the engine to GUARD. R78: with its abort requested the exchange or broadcast ends ABORTED, and the ABORT
OK. R43, R45, R71: where the station is CLOSING the end of its exchange settles the entry. That a transaction of an abandoned read is always outstanding is the
model's choice, entry 16; that a broadcast's detail is PAYLOAD_READ too is its inference, entry 34. -/
def Obligations.PayloadReadEndsWithoutFrame : Prop :=
  ∀ (s : State) (l : LineNo), s.Operates → (s.line l).state = .preparing →
    (∀ (id : Nat) (c : Context) (job : Job), (s.line l).abandoned = false → (s.line l).job = some job →
      job.context = some id → s.ctx id = some c → c.phase = .preparing → c.body ≠ .reserved →
      ∃ t, exec (.payloadReadError l) s = .next t ∧
        (c.abortRequested = none →
          t.Reports id (if c.unanswered then .noReply else .hostReadError) (.failure .payloadRead)) ∧
        (∀ a, c.abortRequested = some a → t.Reports id .aborted (.failure .payloadRead) ∧
          ∀ d, s.ctx a = some d → a ≠ id → d.Live →
            (∀ h st, c.exchangeHandle = some h → s.station h = some st → a ∉ st.settling) → t.Reports a .ok .none) ∧
        (s.setLine l { s.line l with txHolds := none }).LeavesRead t l ∧
        ∀ h st, c.exchangeHandle = some h → s.station h = some st → st.state = .closing →
          (s.line st.line).attempting h = false → s.ClosingSettles t h st (some id)) ∧
    ((s.line l).abandoned = true →
      ∃ t, exec (.abandonedReadEnd l) s = .next t ∧
        (s.setLine l { s.line l with
          state := .guard, job := none, abandoned := false, guardSince := s.time, quiescers := [] }).SameButEnds t ∧
        ∀ id c, id ∈ (s.line l).quiescers → s.ctx id = some c → c.Live → t.Reports id .ok .none)

/-- R86, R51, R61, R68, R74, R78, R82, R84: the last stop bit of a frame: the driver is released and the quiet time
restarts; a frame that awaits an answer takes the engine to AWAIT with the reply timer W_b of the station's band, and a
broadcast ends OK and takes it to GUARD. R2: the bit time of every rate code, and C, in units of 1/144 µs (entry 3). -/
def Obligations.FrameHasBeenSent : Prop :=
  (∀ (x : Line) (rate : Fin 8), x.rate = some rate →
    let bitsPerSecond := match rate.val with
      | 0 => 9600
      | 1 => 19200
      | 2 => 38400
      | 3 => 57600
      | 4 => 115200
      | 5 => 250000
      | 6 => 500000
      | _ => 1000000
    Config.bitTicks rate * bitsPerSecond = 144 * 1000000 ∧ x.bit = Config.bitTicks rate ∧ x.char = 11 * x.bit) ∧
  ∀ (s : State) (l : LineNo) (job : Job), s.Operates → (s.line l).state = .transmit → (s.line l).job = some job →
    let x := s.line l
    let now := x.txStart + x.txFrame.length * x.char
    let u := s.reach now
    let y := { x with
      driverEnable := false, txd := .mark, txFrame := [], quietSince := some (max (x.quietSince.getD 0) now)
      looksSince := now }
    (∀ h st table, job.handle = some h → s.station h = some st → x.bandTable = some table →
      let z := { y with
        state := .await, sentAt := now, replyTimer := some (now + table.wait st.band * 144), rxOctets := []
        rxWrong := false }
      (∀ id origin, job = .command id h origin →
        exec (.transmitEnd l) s = .next (State.finish ((u.updCtx id fun c => { c with unanswered := true }).setLine l z))) ∧
      ((∀ id origin, job ≠ .command id h origin) →
        exec (.transmitEnd l) s = .next (State.finish (u.setLine l z)))) ∧
    (∀ id c, job = .broadcast id → s.ctx id = some c → c.Live → c.exchangeHandle = none →
      ∃ t, exec (.transmitEnd l) s = .next t ∧ t.Reports id .ok c.failureDetail ∧
        (u.setLine l { y with
          state := .guard, job := none, abandoned := false, guardSince := u.time, quiescers := [] }).SameButEnds t ∧
        ∀ a d, c.abortRequested = some a → s.ctx a = some d → a ≠ id → d.Live → t.Reports a .tooLate .none)

/-! ## The receiver -/

/-- R3, R51, R84, R87: a character begins, a glitch is discarded, and the first mark bit of an answer stops the reply
timer and fixes the turnaround in whole microseconds. A character is confirmed half a bit time after its leading edge, and a
mark bit is sampled 9.5 bit times after it. R82: a leading edge from before the receiver looked for one, because it was blind, or
at another character or glitch (entry 37), begins no character: the announcement changes nothing (entry 1). The quiet time
restarts at the end of the glitch, unless it restarts later already. That a mark bit sampled after the reply timer's moment is
not read, so that the announcement changes nothing, is the model's inference, entries 21 and 1. -/
def Obligations.CharactersBegin : Prop :=
  ∀ (s : State) (l : LineNo) (wait : Nat), s.Operates → (s.line l).Watches →
    let x := s.line l
    let edge := s.time + wait - x.bit / 2
    (x.receiving = false → x.condition = .clear ∨ (x.condition = .recovering ∧ x.spaceEdge = none) →
      (x.looksSince + x.bit / 2 ≤ s.time + wait →
        x.state ≠ .receive ∨ x.rxOctets = [] ∨ edge ≤ x.gapSince + 3 * x.char →
        exec (.characterBegun l wait) s =
          .next ((s.reach (s.time + wait)).setLine l
            { x with spaceEdge := some edge, receiving := x.condition == .clear, markSince := none })) ∧
      (s.time + wait < x.looksSince + x.bit / 2 → exec (.characterBegun l wait) s = .next s) ∧
      (x.condition = .clear →
        exec (.glitchDiscarded l wait) s =
          .next ((s.reach (s.time + wait)).setLine l
            { x with
              quietSince := some (max (x.quietSince.getD 0) (s.time + wait)), spaceEdge := none
              looksSince := s.time + wait, consultDue := if x.state = .idle then true else x.consultDue })) ∧
      (x.condition = .recovering →
        exec (.glitchDiscarded l wait) s =
          .next ((s.reach (s.time + wait)).setLine l { x with looksSince := s.time + wait }))) ∧
    (∀ e deadline, x.state = .await → x.condition = .clear → x.receiving = true → x.spaceEdge = some e →
      x.replyTimer = some deadline →
      (e + 19 * x.bit / 2 ≤ deadline →
        exec (.markBitRead l) s =
          .next ((s.reach (e + 19 * x.bit / 2)).setLine l
            { x with
              state := .receive, replyTimer := none, turnaround := some ((e - x.sentAt) / 144), rxOctets := []
              rxWrong := false })) ∧
      (deadline < e + 19 * x.bit / 2 → exec (.markBitRead l) s = .next s))

/-- R3, R84, R87, R88, R90, R11, R12: a character is passed on at the middle of its stop bit, and one with a framing error when
the line returns to mark after that, unless 2 C have passed since the leading edge of its
start bit, whatever bits were read: the model's inference, entry 33.
The quiet time restarts at the end of its stop bit, where it does not restart later already, and one that is chatter is
counted and moves an IDLE engine to GUARD; in RECEIVE the next octet of the frame is kept while the checks hold, and the
last ends the attempt. The first character of an answer whose mark bit was not announced reads it, in time or not at all:
the model's inference, entry 21; a character that cannot arise changes nothing, entry 1. -/
def Obligations.CharactersReceived : Prop :=
  ∀ (s : State) (l : LineNo) (octet : Byte) (mark : Bool) (stop : StopBit) (e : Nat),
    s.Operates → (s.line l).condition = .clear → (s.line l).receiving = true → (s.line l).spaceEdge = some e →
    let x := s.line l
    let pass := match stop with
      | .good => e + 21 * x.bit / 2
      | .error held => e + 21 * x.bit / 2 + held
    let ferr := match stop with
      | .good => false
      | .error _ => true
    let withdrawn := ferr = true ∧ e + 2 * x.char ≤ pass
    let late := x.state = .receive ∧ x.rxOctets ≠ [] ∧ x.gapSince + 3 * x.char < e
    let u := s.reach pass
    let y := { x with
      spaceEdge := none, receiving := false, looksSince := pass, gapSince := e + 11 * x.bit
      quietSince := some (max (x.quietSince.getD 0) (e + 11 * x.bit)) }
    let z := { y with chatter := min 255 (x.chatter + 1) }
    (¬ withdrawn →
      (x.state = .guard ∨ x.state = .preparing ∨ x.state = .quiesced ∨ (x.state = .await ∧ mark = false) →
        exec (.characterReceived l octet mark stop) s = .next (State.finish (u.setLine l z))) ∧
      (x.state = .idle → x.quiescers = [] →
        exec (.characterReceived l octet mark stop) s =
          .next (State.finish (u.setLine l
            { z with state := .guard, job := none, abandoned := false, guardSince := u.time }))) ∧
      (∀ job, x.state = .receive → ¬ late → x.job = some job → x.rxWrong = true →
        exec (.characterReceived l octet mark stop) s = .next (State.finish (u.setLine l y))) ∧
      (∀ job, x.state = .receive → ¬ late → x.job = some job → x.rxWrong = false →
        (judgeCharacter job.sentKind (s.jobAddress job) x.rxOctets octet mark ferr = .more →
          exec (.characterReceived l octet mark stop) s =
            .next (State.finish (u.setLine l { y with rxOctets := x.rxOctets ++ [octet] }))) ∧
        (judgeCharacter job.sentKind (s.jobAddress job) x.rxOctets octet mark ferr = .wrong →
          exec (.characterReceived l octet mark stop) s =
            .next (State.finish (u.setLine l { y with rxOctets := x.rxOctets ++ [octet], rxWrong := true }))) ∧
        (∀ o ap, judgeCharacter job.sentKind (s.jobAddress job) x.rxOctets octet mark ferr = .good o ap →
          exec (.characterReceived l octet mark stop) s =
            .next (State.finish ((u.setLine l y).endAttempt l o ap))) ∧
        (judgeCharacter job.sentKind (s.jobAddress job) x.rxOctets octet mark ferr = .garbled →
          exec (.characterReceived l octet mark stop) s =
            .next (State.finish ((u.setLine l y).endAttempt l .garbled false)))) ∧
      (∀ t deadline, x.state = .await → mark = true → x.replyTimer = some deadline →
        (e + 19 * x.bit / 2 ≤ deadline → exec (.markBitRead l) s = .next t →
          exec (.characterReceived l octet mark stop) s = exec (.characterReceived l octet mark stop) t) ∧
        (deadline < e + 19 * x.bit / 2 → exec (.characterReceived l octet mark stop) s = .next s))) ∧
    (withdrawn ∨ late → exec (.characterReceived l octet mark stop) s = .next s)

/-- R20, R22 to R25, R29 to R34, R44: what each decoded answer does to its station's entry, band first and AP last, in the
state its kind of attempt is made in and in CLOSING. R62 to R65, R68, R70, R71, R78, R88: the last octet of such an answer to
a COMMAND: the exchange ends, is retried, is held, or has its reply written, and the engine enters GUARD. R30, R31, R72, R73:
the answers to a POLL, with the reservation and the ATTENTION report, to a link-service attempt and to a probe. R71, R43, R45,
R118: where the station went CLOSING during the attempt its exchange ends, and the entry settles. The last character is judged
at the middle of its stop bit, which completes it (R3); from there on the receiver looks for the next one (entry 37). -/
def Obligations.AckCompletesExchange : Prop :=
  (∀ (st : Station) (table : Option BandTable) (hysteresis now id : Nat) (h : Handle) (origin : Phase) (pseq : Bool)
      (turnaround : Option Nat) (ap : Bool),
    let applied := fun (job : Job) (o : AttemptOutcome) => st.applyOutcome table hysteresis job o turnaround ap now
    let b := st.updateBand table hysteresis .ack turnaround
    let final := fun z : Station =>
      if ap = true then
        { z with
          pollDue := some (z.pollDue.getD now)
          timer := if z.timer.map (·.kind) = some .poll then none else z.timer }
      else z
    let polling : Option StationTimer := some { kind := .poll, expires := now + st.pollInterval * 144000 }
    let holding : Option StationTimer := some { kind := .hold, expires := now + st.holdTime * 144000 }
    let linked := fun z : Station =>
      { z with
        missCount := 0, cseq := false, pseq := false, link := .certain, attention := st.attention.map fun _ => false }
    (st.state = .online →
      (applied (.command id h origin) .ack = final { b with missCount := 0, cseq := !st.cseq, link := .certain }) ∧
      (∀ octets, applied (.command id h origin) (.reply octets) =
        final { b with missCount := 0, cseq := !st.cseq, link := .certain }) ∧
      (applied (.command id h origin) .busy = final { b with missCount := 0, state := .hold, timer := holding }) ∧
      (∀ reason, applied (.command id h origin) (.nak .check reason) = final b) ∧
      (∀ cls reason, cls ≠ .check →
        applied (.command id h origin) (.nak cls reason) = final { b with missCount := 0, link := .certain }) ∧
      (∀ octets, applied (.poll h pseq) (.attention octets) = final { b with
        missCount := 0, pollDue := none, attention := some true
        timer := if st.pollInterval ≠ 0 then polling else st.timer }) ∧
      (applied (.poll h pseq) .idle = final { b with
        missCount := 0, pollDue := none, timer := if st.pollInterval ≠ 0 then polling else st.timer }) ∧
      (applied (.poll h pseq) .busy = final { b with
        missCount := 0, pollDue := none, state := .hold, timer := holding }) ∧
      applied (.link h) .ack = final (linked b)) ∧
    (st.state = .new →
      applied (.link h) .ack = final { linked b with
        state := .online, presenceChanges := min 255 (st.presenceChanges + 1)
        timer := if st.pollInterval ≠ 0 ∧ st.pollDue = none then polling else none }) ∧
    (st.state = .offline →
      applied (.probe h) .ack = final { linked b with
        state := .online, probeDue := none, presenceChanges := min 255 (st.presenceChanges + 1)
        timer := if st.pollInterval ≠ 0 then polling else none }) ∧
    (st.state = .closing →
      (applied (.command id h origin) .ack = { st with cseq := !st.cseq, link := .certain }) ∧
      (∀ octets, applied (.command id h origin) (.reply octets) = { st with cseq := !st.cseq, link := .certain }) ∧
      (applied (.command id h origin) .busy = st) ∧
      (∀ reason, applied (.command id h origin) (.nak .check reason) = st) ∧
      (∀ cls reason, cls ≠ .check → applied (.command id h origin) (.nak cls reason) = { st with link := .certain }) ∧
      (∀ octets, applied (.poll h pseq) (.attention octets) = { st with attention := some true }) ∧
      (applied (.poll h pseq) .idle = st ∧ applied (.poll h pseq) .busy = st) ∧
      ∀ job, job = .link h ∨ job = .probe h → applied job .ack =
        { st with cseq := false, pseq := false, link := .certain, attention := st.attention.map fun _ => false })) ∧
  ∀ (s : State) (l : LineNo) (octet : Byte) (mark ap : Bool) (o : AttemptOutcome) (job : Job) (h : Handle)
      (st : Station) (e : Nat),
    s.Operates → (s.line l).state = .receive → (s.line l).condition = .clear → (s.line l).receiving = true →
    (s.line l).spaceEdge = some e → e ≤ (s.line l).gapSince + 3 * (s.line l).char → (s.line l).job = some job →
    (s.line l).rxWrong = false → job.handle = some h → s.station h = some st →
    judgeCharacter job.sentKind st.address (s.line l).rxOctets octet mark false = .good o ap →
    let x := s.line l
    let now := e + 21 * x.bit / 2
    let u := s.reach now
    let after := st.applyOutcome x.bandTable x.hysteresis job o x.turnaround ap u.time
    let y : Line := { x with
      spaceEdge := none, receiving := false, looksSince := now, gapSince := e + 11 * x.bit, state := .guard, job := none
      quietSince := some (max (x.quietSince.getD 0) (e + 11 * x.bit))
      abandoned := false, guardSince := u.time, turnaround := none, replyTimer := none, quiescers := [] }
    let frame := fun (line : Line) (t : State) => ((u.setLine l line).setStation h (some after)).SameButEnds t
    let released := fun t : State => t.reserved = s.reserved - 1 ∨
      (s.eventWrite = none ∧ t.eventWrite.isSome = true ∧ t.reserved = s.reserved - 1 + 1)
    let untouched := fun t : State =>
      ∀ j f, j ∉ x.quiescers → j ∉ st.settling → s.ctx j = some f → t.ctx j = some f
    let settles := fun (t : State) (own : Option Nat) =>
      st.state = .closing → st.line = l → s.ClosingSettles t h after own
    (∀ id origin c pa len base cap, job = .command id h origin → st.state = .online ∨ st.state = .closing →
      s.ctx id = some c → c.phase ≠ .ending → c.body = .exchange h pa len base cap →
      ∃ t, exec (.characterReceived l octet mark .good) s = .next t ∧
        (o = .ack → frame y t ∧ t.Reports id .ok c.failureDetail ∧
          (st.state = .online → ∀ st', t.station h = some st' →
            st'.link = .certain ∧ st'.pending = st.pending.erase id)) ∧
        (∀ octets, o = .reply octets →
          (min octets.length cap ≠ 0 → frame { y with rxBuffer := some (.reply id octets) } t ∧
            (id ∉ x.quiescers → t.ctx id = some { c with unanswered := false, lastTurnaround := x.turnaround })) ∧
          (min octets.length cap = 0 →
            frame (if x.setLine.isSome = true ∧ x.bandReading = false then
                { y with rxBuffer := none, bandReading := true, txHolds := none }
              else { y with rxBuffer := none }) t ∧
            t.ReportsReply id (if octets.length ≤ cap then .ok else .overrun) c.failureDetail 0)) ∧
        (o = .busy → frame y t ∧
          (c.abortRequested.isSome = true → t.Reports id .aborted c.failureDetail) ∧
          (c.abortRequested = none → st.busyLimit ≠ 0 ∧ st.busyLimit ≤ min 255 (c.busyCount + 1) →
            t.Reports id .stationBusy c.failureDetail) ∧
          (c.abortRequested = none → ¬ (st.busyLimit ≠ 0 ∧ st.busyLimit ≤ min 255 (c.busyCount + 1)) →
            (st.state = .closing → t.Reports id .cancelled c.failureDetail) ∧
            (st.state = .online → id ∉ x.quiescers → t.ctx id = some { c with
              unanswered := false, busyCount := min 255 (c.busyCount + 1), attemptsMade := 0
              lastTurnaround := x.turnaround, phase := .held }))) ∧
        (∀ cls reason, o = .nak cls reason → cls ≠ .check → frame y t ∧ t.Reports id .refused (.reason reason)) ∧
        (∀ reason, o = .nak .check reason → frame y t ∧
          (c.abortRequested.isSome = true → t.Reports id .aborted (.failure .nakCheck)) ∧
          (c.abortRequested = none → 1 + st.retryLimit ≤ c.attemptsMade →
            t.Reports id .noReply (.failure .nakCheck)) ∧
          (c.abortRequested = none → c.attemptsMade < 1 + st.retryLimit →
            (st.state = .closing → t.Reports id .cancelled (.failure .nakCheck)) ∧
            (st.state = .online → id ∉ x.quiescers → t.phaseOf id = some .waitingRetry ∧
              (t.line l).retryList = if id ∈ x.retryList then x.retryList else x.retryList ++ [id]))) ∧
        ((∀ octets, o = .reply octets → min octets.length cap = 0) → settles t (some id)) ∧
        (∀ a d, c.abortRequested = some a → s.ctx a = some d → d.Live → a ≠ id → a ∉ st.settling →
          (o = .busy ∨ (∃ reason, o = .nak .check reason) → t.Reports a .ok .none) ∧
          (o = .ack ∨ (∃ octets, o = .reply octets ∧ min octets.length cap = 0) ∨
              (∃ cls reason, o = .nak cls reason ∧ cls ≠ .check) → t.Reports a .tooLate .none))) ∧
    (∀ pseq, job = .poll h pseq → st.state = .online ∨ st.state = .closing →
      ∃ t, exec (.characterReceived l octet mark .good) s = .next t ∧ settles t none ∧
        (∀ octets, o = .attention octets →
          frame { y with rxBuffer := some (.attention octets) } t ∧ t.reserved = s.reserved ∧ untouched t ∧
            let report : AttentionReport := { line := l, handle := h, pseq := pseq, ap := ap, octets := octets }
            (report ∈ t.attentions ∨ ∃ w, t.eventWrite = some w ∧ w.attention = some (l, h) ∧
              w.octets = attentionOctets report s.event.phase)) ∧
        (o = .idle ∨ o = .busy → frame y t ∧ released t ∧ untouched t)) ∧
    (job = .link h → st.state = .new ∨ st.state = .online ∨ st.state = .closing → o = .ack →
      ∃ t, exec (.characterReceived l octet mark .good) s = .next t ∧ frame y t ∧ untouched t ∧ settles t none) ∧
    (job = .probe h → st.state = .offline ∨ st.state = .closing → o = .ack →
      ∃ t, exec (.characterReceived l octet mark .good) s = .next t ∧ frame y t ∧ untouched t ∧ settles t none)

/-- R53: NO_ANSWER of any attempt steps the band of a NEW, ONLINE or OFFLINE station up by one, 7 stays 7, before the miss
count is adjusted; it leaves the band of a CLOSING station. With it the band update of a decoded answer (R52), from the
turnaround t, the bounds and the hysteresis, for a station that is NEW, ONLINE, HOLD or OFFLINE, as the first step of R29,
and none in CLOSING or on any other failure; that the bounds and the hysteresis are the line's is said by
AckCompletesExchange. -/
def Obligations.SilenceStepsTheBand : Prop :=
  (∀ (st : Station) (table : Option BandTable) (hysteresis now : Nat) (job : Job) (turnaround : Option Nat) (ap : Bool),
    (st.state = .new ∨ st.state = .online ∨ st.state = .offline →
      (st.band.val < 7 →
        (st.applyOutcome table hysteresis job .noAnswer turnaround ap now).band.val = st.band.val + 1) ∧
      (st.band.val = 7 → (st.applyOutcome table hysteresis job .noAnswer turnaround ap now).band.val = 7) ∧
      st.applyOutcome table hysteresis job .noAnswer turnaround ap now =
        ((st.updateBand table hysteresis .noAnswer turnaround).afterJob job .noAnswer now).applyAp ap now) ∧
    (st.state = .closing → (st.applyOutcome table hysteresis job .noAnswer turnaround ap now).band = st.band)) ∧
  ∀ (st : Station) (table : BandTable) (hysteresis now t : Nat) (job : Job) (o : AttemptOutcome) (ap : Bool),
    (∀ i j : Fin 7, i < j → table.bounds[i] < table.bounds[j]) →
    let after := (st.applyOutcome (some table) hysteresis job o (some t) ap now).band
    let b := st.band.val
    (o.isAnswer = true → st.state ≠ .closing →
      st.applyOutcome (some table) hysteresis job o (some t) ap now =
        ((st.updateBand (some table) hysteresis o (some t)).afterJob job o now).applyAp ap now ∧
      (∀ hi : b < 7, table.bounds[b] < t → b < after.val ∧
        (∀ k (hk : k < 7), (k < after.val ↔ table.bounds[k] < t))) ∧
      (∀ lo : 0 < b, (∀ hi : b < 7, t ≤ table.bounds[b]) → t + hysteresis ≤ table.bounds[b - 1] →
        after.val = b - 1) ∧
      ((∀ hi : b < 7, t ≤ table.bounds[b]) → (∀ lo : 0 < b, table.bounds[b - 1] < t + hysteresis) →
        after = st.band)) ∧
    (o.isAnswer = true → st.state = .closing → after = st.band) ∧
    (o = .garbled ∨ o = .wrongStation ∨ o = .unexpected ∨ o = .lineBreak → after = st.band)

/-- R25 to R28, R31, R32, R44, R53: what each failure of miss class does to its station's entry. R11 to R13, R66, R69, R72, R78,
R87, R88: the reply timer's expiry, a gap in an answer, a character that garbles it and an answer that is not permitted are
such failures: the exchange of a COMMAND is retried or ends, the link-service loop of a head exchange goes on or ends it, a
poll gives up its reservation, and at the miss limit every context of the station ends. R71, R43, R45, R118: the same failures
of an attempt to a CLOSING station, whose entry they leave as it was: its exchange ends, and the entry settles. That the exchange whose attempt
caused the last miss ends STATION_OFFLINE with that cause as its detail is the model's inference, entry 29; that the head
exchange of a link-service attempt that takes the station OFFLINE ends with the failure cause it had before is its inference
too, entry 18. A character is judged at the middle of its stop bit, or, with a framing error, when the line is back at mark (R3). -/
def Obligations.MissesAreCounted : Prop :=
  (∀ (st : Station) (table : Option BandTable) (hysteresis now : Nat) (job : Job) (o : AttemptOutcome) (ap : Bool),
    o.isMiss = true →
    let z := st.applyOutcome table hysteresis job o none ap now
    let b := { st with band := z.band }
    let final := fun z : Station =>
      if ap = true ∧ st.state = .online then
        { z with
          pollDue := some (z.pollDue.getD now)
          timer := if z.timer.map (·.kind) = some .poll then none else z.timer }
      else z
    let probing : Option StationTimer := some { kind := .probe, expires := now + st.probeInterval * 144000 }
    (st.state = .closing → z = st) ∧
    (st.state ≠ .closing → z.band.val = if o = .noAnswer then min 7 (st.band.val + 1) else st.band.val) ∧
    ((match job with
        | .command _ _ _ => st.state = .online
        | .poll _ _ => st.state = .online
        | .link _ => st.state = .new ∨ st.state = .online
        | .probe _ => False
        | .broadcast _ => False) →
      (st.missCount + 1 < st.missLimit →
        (∀ h pseq, job = .poll h pseq → z = final { b with
          missCount := st.missCount + 1, pollDue := none
          timer := if st.pollInterval ≠ 0 then
              some { kind := .poll, expires := now + st.pollInterval * 144000 } else st.timer }) ∧
        ((∀ h pseq, job ≠ .poll h pseq) → z = final { b with missCount := st.missCount + 1 })) ∧
      (st.missLimit ≤ st.missCount + 1 → z = { b with
        state := .offline, missCount := st.missLimit, link := .uncertain, pollDue := none, timer := probing
        presenceChanges :=
          if st.state = .online then min 255 (st.presenceChanges + 1) else st.presenceChanges })) ∧
    (∀ h, job = .probe h → st.state = .offline → z = { b with probeDue := none, timer := probing })) ∧
  ∀ (s : State) (l : LineNo) (job : Job) (h : Handle) (st : Station) (cmd : Instr) (o : AttemptOutcome)
      (cause : FailureCause) (ap : Bool) (now : Nat) (y : Line),
    let x := s.line l
    let u := s.reach now
    s.Operates → x.job = some job → job.handle = some h → s.station h = some st → st.line = l →
    o.failure = some cause →
    ((cmd = .replyTimerExpiry l ∧ o = .noAnswer ∧ ap = false ∧ x.state = .await ∧ x.replyTimer = some now ∧
        y = if x.receiving then x else { x with quietSince := some (max (x.quietSince.getD 0) now) }) ∨
      (cmd = .interCharacterGapExpiry l ∧ o = (if x.rxWrong then .wrongStation else .garbled) ∧ ap = false ∧
        x.state = .receive ∧ x.condition = .clear ∧ x.receiving = false ∧ x.rxOctets ≠ [] ∧
        now = x.gapSince + 3 * x.char ∧ y = x) ∨
      (∃ octet mark ferr e held,
        let stop := if ferr then StopBit.error held else .good
        cmd = .characterReceived l octet mark stop ∧ x.state = .receive ∧ x.condition = .clear ∧ x.receiving = true ∧
        x.spaceEdge = some e ∧ x.rxWrong = false ∧ (x.rxOctets = [] ∨ e ≤ x.gapSince + 3 * x.char) ∧
        now = (if ferr then e + 21 * x.bit / 2 + held else e + 21 * x.bit / 2) ∧
        (ferr = false ∨ now < e + 2 * x.char) ∧
        y = { x with
          spaceEdge := none, receiving := false, looksSince := now, gapSince := e + 11 * x.bit
          quietSince := some (max (x.quietSince.getD 0) (e + 11 * x.bit)) } ∧
        ((judgeCharacter job.sentKind st.address x.rxOctets octet mark ferr = .garbled ∧ o = .garbled ∧ ap = false) ∨
          (judgeCharacter job.sentKind st.address x.rxOctets octet mark ferr = .good .unexpected ap ∧
            o = .unexpected)))) →
    (st.state = .closing ∨
      match job with
      | .command _ _ _ => st.state = .online
      | .poll _ _ => st.state = .online
      | .link _ => st.state = .new ∨ st.state = .online
      | .probe _ => st.state = .offline
      | .broadcast _ => False) →
    let after := st.applyOutcome x.bandTable x.hysteresis job o none ap u.time
    let atLimit := st.missLimit ≤ st.missCount + 1 ∧ st.state ≠ .offline ∧ st.state ≠ .closing
    ∃ t, exec cmd s = .next t ∧
      ((u.setLine l
        { y with
          state := .guard, job := none, abandoned := false, guardSince := u.time, turnaround := none
          replyTimer := none, quiescers := [] }).setStation h (some after)).SameButEnds t ∧
      (atLimit →
        (∀ st', t.station h = some st' → st'.link = .uncertain) ∧
        ∀ j d, j ∈ st.pending → s.ctx j = some d → d.phase ≠ .ending → d.exchangeHandle = some h →
          (∀ id origin, job = .command id h origin → j ≠ id ∧ (∀ c, s.ctx id = some c → c.abortRequested ≠ some j)) →
          t.Reports j .stationOffline d.failureDetail) ∧
      (∀ id origin c, job = .command id h origin → s.ctx id = some c → c.phase ≠ .ending →
        c.exchangeHandle = some h →
        (c.abortRequested = none → atLimit → t.Reports id .stationOffline (.failure cause)) ∧
        (c.abortRequested = none → ¬ atLimit → st.state = .online → c.attemptsMade < 1 + st.retryLimit →
          id ∉ x.quiescers → t.phaseOf id = some .waitingRetry ∧
            (t.line l).retryList = if id ∈ x.retryList then x.retryList else x.retryList ++ [id]) ∧
        (c.abortRequested = none → st.state = .closing → c.attemptsMade < 1 + st.retryLimit →
          t.Reports id .cancelled (.failure cause)) ∧
        (c.abortRequested = none → ¬ atLimit → 1 + st.retryLimit ≤ c.attemptsMade →
          t.Reports id .noReply (.failure cause)) ∧
        (∀ a, c.abortRequested = some a → t.Reports id .aborted (.failure cause) ∧
          ∀ d, s.ctx a = some d → d.Live → a ≠ id → a ∉ st.settling → t.Reports a .ok .none) ∧
        (st.state = .closing → s.ClosingSettles t h after (some id))) ∧
      ((∀ id origin, job ≠ .command id h origin) → st.state = .closing → s.ClosingSettles t h after none) ∧
      (∀ pseq, job = .poll h pseq → t.reserved = s.reserved - 1 ∨
        (s.eventWrite = none ∧ t.eventWrite.isSome = true ∧ t.reserved = s.reserved - 1 + 1)) ∧
      (∀ id rest c, job = .link h → st.state = .online → st.missCount + 1 < st.missLimit → st.pending = id :: rest →
        s.ctx id = some c → c.phase ≠ .ending → c.exchangeHandle = some h →
        (1 + st.retryLimit ≤ c.linkAttempts → t.Reports id .noReply (.failure cause)) ∧
        (c.linkAttempts < 1 + st.retryLimit → id ∉ x.quiescers → t.ctx id = some c))

/-- R63, R78, R80, R113, R122: the end of a reply write: the octets that reached host memory and the octets that did not, the
end of the exchange with its reply length, the release of the receive buffer, of which the scheduler is told, and the band
table read that waited for it. R45, R118: where the station is CLOSING the end of its exchange settles the entry. Addresses
wrap at 2^32 (entry 13). An error after as many good transactions as the write has,
or more, cannot arise, so that the command changes nothing: the model's choice, entries 31 and 1. -/
def Obligations.ReplyWriteEnds : Prop :=
  ∀ (s : State) (l : LineNo) (id : Nat) (octets : List Byte) (c : Context) (base : Word) (cap : Nat) (h : Handle)
    (pa : Word) (n : Nat),
    s.Operates → (s.line l).rxBuffer = some (.reply id octets) → octets.length ≤ 240 → s.ctx id = some c →
    c.phase ≠ .ending → c.body = .exchange h pa n base cap →
    let len := min octets.length cap
    let transactions := if len = 0 then 0 else (base.toNat % 4 + len - 1) / 4 + 1
    let x : Line := { s.line l with
      rxBuffer := none
      consultDue := if (s.line l).state = .idle then true else (s.line l).consultDue }
    let y : Line :=
      if x.setLine.isSome = true ∧ x.bandReading = false then { x with bandReading := true, txHolds := none } else x
    let aborted := fun t : State => ∀ a d, c.abortRequested = some a → s.ctx a = some d → d.Live → a ≠ id →
      (∀ st, s.station h = some st → a ∉ st.settling) → t.Reports a .tooLate .none
    let settles := fun t : State => ∀ st, s.station h = some st → st.state = .closing →
      (s.line st.line).attempting h = false → s.ClosingSettles t h st (some id)
    (∃ t, exec (.replyWriteEnd l .good) s = .next t ∧
      t.ReportsReply id (if octets.length ≤ cap then .ok else .overrun) c.failureDetail len ∧ aborted t ∧
      settles t ∧
      (({ s with mem := t.mem } : State).setLine l y).SameButEnds t ∧
      (∀ i, i < len → readMem t.mem (addrPlus base i) = octets[i]?) ∧ s.SameMemoryOutside t base len) ∧
    (∀ done, done ≤ 60 → done < transactions →
      ∃ t, exec (.replyWriteEnd l (.error done)) s = .next t ∧
        t.ReportsReply id .hostWriteError c.failureDetail len ∧ aborted t ∧ settles t ∧
        (({ s with mem := t.mem } : State).setLine l y).SameButEnds t ∧
        (∀ i, i < len → (base.toNat % 4 + i) / 4 < done → readMem t.mem (addrPlus base i) = octets[i]?) ∧
        ∀ a, (∀ i, i < len → (base.toNat % 4 + i) / 4 < done → a ≠ addrPlus base i) → readMem t.mem a = readMem s.mem a) ∧
    ∀ done, done ≤ 60 → transactions ≤ done → exec (.replyWriteEnd l (.error done)) s = .next s

/-- R91, R41, R67, R60, R83: the detection of a break: the condition, the count, the engine's state, the stations of the
line, their exchanges in WAITING_RETRY, which end LINE_BREAK in every state of the engine, the read it abandons and the attempt
it ends. The transmit buffer holds no context's payload after an abandoned read. It comes when the space has lasted 2 C, or when
a rate is installed at which it already has (R97). That the engine then stays in PREPARING
for the outstanding transaction is the model's choice, entry 16. The links of the line are CERTAIN after it, unless the end of
an abandoned exchange marks one UNCERTAIN (R68): none is CLOSING, and no ABORT waits for the line's exchange. R30 to R32, R51,
R69, R72, R88: an attempt it ends leaves its station's entry as LINE_BREAK leaves it by the kind of attempt, stops the reply
timer, gives up a poll's reservation, and leaves the contexts that wait for link service as they were. R75, R78: an exchange or a
broadcast whose abort is requested ends ABORTED and its ABORT OK; a broadcast whose read is abandoned waits again at the head of
its FIFO. R45, R71, R118: the exchange of a CLOSING station ends, and the entry settles; that its abandoned and its waiting
exchanges end CANCELLED and not LINE_BREAK is the model's inference, entry 10. -/
def Obligations.BreakReachesTheLine : Prop :=
  ∀ (s : State) (l : LineNo) (e : Nat), s.Operates → (s.line l).Watches →
    (s.line l).condition = .clear ∨ (s.line l).condition = .recovering → (s.line l).spaceEdge = some e →
    let x := s.line l
    let y : Line := { x with
      condition := .break, receiving := false, markSince := none, quietSince := none
      breaksSeen := min 255 (x.breaksSeen + 1) }
    let u : State := { s.reach (max (e + 2 * x.char) x.rateSince) with
      stations := s.stations.map fun (o : Option Station) => o.map fun st =>
        if st.line = l then
          { st with cseq := false, pseq := false, link := .certain, attention := st.attention.map fun _ => false }
        else st }
    let removerWaits := fun st : Station => ∀ j d, st.remover = some j → s.ctx j = some d → s.retryWaits l d = false
    ∃ t, exec (.breakDetected l) s = .next t ∧ t.mem = s.mem ∧ (t.line l).condition = .break ∧
      (s.eventWrite.isSome = true → (t.line l).breaksSeen = min 255 (x.breaksSeen + 1)) ∧
      (∀ k, k ≠ l → (s.line k).SameButEnds (t.line k)) ∧
      (∀ h st, t.station h = some st → st.line = l → st.cseq = false ∧ st.pseq = false ∧ st.attention ≠ some true) ∧
      ((∀ h st, s.station h = some st → st.state ≠ .closing) →
        (∀ id c, x.job.bind Job.context = some id → s.ctx id = some c → c.abortRequested = none) →
        ∀ h st, t.station h = some st → st.line = l → st.link = .certain) ∧
      (x.state = .guard ∨ x.state = .quiesced → (u.setLine l y).SameButEnds t) ∧
      (x.state = .idle →
        (u.setLine l { y with
          state := .guard, job := none, abandoned := false, guardSince := u.time, quiescers := [] }).SameButEnds t) ∧
      (x.state = .preparing → x.abandoned = false → x.job.isSome = true →
        (u.setLine l { y with job := none, abandoned := true }).SameButEnds t ∧ (t.line l).txHolds = none) ∧
      (x.state = .preparing → x.abandoned = true → (u.setLine l y).SameButEnds t) ∧
      (x.state = .await ∨ x.state = .receive → (t.line l).state = .guard ∧ (t.line l).job = none) ∧
      (s.ContextsDistinct →
        s.RetriesBroken t l (if x.state = .preparing ∧ x.abandoned = false then s.endedByRead l else []) ∧
        (x.state = .preparing → x.abandoned = false →
          (∀ id h origin c st, x.job = some (.command id h origin) → s.ctx id = some c → c.phase = .preparing →
            c.exchangeHandle = some h → s.station h = some st → origin = .queued ∨ origin = .waitingRetry →
            (st.line = l → st.state ≠ .closing → c.abortRequested = none →
              (origin = .queued → t.phaseOf id = some .queued) ∧
                (origin = .waitingRetry → t.Reports id .lineBreak (.failure .lineBreak))) ∧
            (st.state = .closing → c.abortRequested = none → t.Reports id .cancelled c.failureDetail) ∧
            (∀ a, c.abortRequested = some a → t.Reports id .aborted c.failureDetail ∧
              ∀ d, s.ctx a = some d → d.Live → a ≠ id → a ∉ st.settling → t.Reports a .ok .none) ∧
            (st.state = .closing → (s.line st.line).attempting h = false → removerWaits st →
              s.ClosingSettles t h st (some id))) ∧
          ∀ id c, x.job = some (.broadcast id) → s.ctx id = some c → c.phase = .preparing → c.exchangeHandle = none →
            c.body ≠ .reserved →
            (c.abortRequested = none → t.ctx id = some { c with phase := .queued } ∧
              ∀ rest, x.fifo = id :: rest → (t.line l).fifo.head? = some id) ∧
            ∀ a, c.abortRequested = some a → t.Reports id .aborted c.failureDetail ∧
              ∀ d, s.ctx a = some d → d.Live → a ≠ id → t.Reports a .ok .none)) ∧
      ∀ job h st, x.state = .await ∨ x.state = .receive → x.job = some job → job.handle = some h →
        s.station h = some st →
        let reached : Station := if st.line = l then
            { st with cseq := false, pseq := false, link := .certain, attention := st.attention.map fun _ => false }
          else st
        let after : Station := match job, st.state with
          | .poll _ _, .online =>
            { reached with
              pollDue := none
              timer := if st.pollInterval ≠ 0 then
                  some { kind := .poll, expires := u.time + st.pollInterval * 144000 } else st.timer }
          | .probe _, .offline =>
            { reached with
              probeDue := none, timer := some { kind := .probe, expires := u.time + st.probeInterval * 144000 } }
          | _, _ => reached
        ((u.setLine l { y with
          state := .guard, job := none, abandoned := false, guardSince := u.time, turnaround := none
          replyTimer := none, quiescers := [] }).setStation h (some after)).SameButEnds t ∧
        (∀ pseq, job = .poll h pseq → t.reserved = s.reserved - 1 ∨
          (s.eventWrite = none ∧ t.eventWrite.isSome = true ∧ t.reserved = s.reserved - 1 + 1)) ∧
        (s.ContextsDistinct →
          ((∀ id origin, job ≠ .command id h origin) →
            (∀ j f, j ∉ x.quiescers → j ∉ st.settling → s.ctx j = some f → s.retryWaits l f = false → t.ctx j = some f) ∧
            (st.line = l → st.state ≠ .closing → ∀ st', t.station h = some st' → st'.link = .certain) ∧
            (st.line = l → st.state = .closing → removerWaits st → s.ClosingSettles t h after none)) ∧
          ∀ id origin c, job = .command id h origin → s.ctx id = some c → c.phase = .attempting →
            c.exchangeHandle = some h →
            (c.abortRequested = none → t.Reports id .lineBreak (.failure .lineBreak)) ∧
            (∀ a, c.abortRequested = some a → t.Reports id .aborted (.failure .lineBreak) ∧
              ∀ d, s.ctx a = some d → d.Live → a ≠ id → a ∉ st.settling → s.retryWaits l d = false →
                t.Reports a .ok .none) ∧
            (st.line = l → st.state = .closing → removerWaits st → s.ClosingSettles t h after (some id)))

/-- R83, R84, R92: STUCK after 256 C of space, RECOVERING at the return to mark, CLEAR after 8 C of mark. R97: a threshold
already passed when the rate in force was installed is reached at the installation. -/
def Obligations.ConditionMoves : Prop :=
  ∀ (s : State) (l : LineNo), s.Operates → (s.line l).Watches →
    let x := s.line l
    (∀ e, x.condition = .break → x.spaceEdge = some e →
      exec (.stuck l) s = .next (State.finish ((s.reach (max (e + 256 * x.char) x.rateSince)).setLine l
        { x with condition := .stuck, stuckSeen := true }))) ∧
    (∀ wait, x.condition = .break ∨ x.condition = .stuck ∨ (x.condition = .recovering ∧ x.spaceEdge.isSome = true) →
      exec (.lineReturnToMark l wait) s = .next ((s.reach (s.time + wait)).setLine l
        { x with
          condition := .recovering, spaceEdge := none, looksSince := s.time + wait
          markSince := some (s.time + wait) })) ∧
    (∀ m, x.condition = .recovering → x.spaceEdge = none → x.markSince = some m →
      let now := max (m + 8 * x.char) x.rateSince
      exec (.recoveryEnd l) s = .next (State.finish ((s.reach now).setLine l
        { x with
          condition := .clear, breakEnded := true, markSince := none
          quietSince := some (max (x.quietSince.getD 0) now) })))

/-! ## Guard and break -/

/-- R89, R93: the guard ends when the quiet time reaches 2 C, at the installation of a rate at which it already has (R123), or
on the entry into GUARD, where it had reached it before (R88), so that a break begun there lasts its 16 C from then on (R94):
in BREAK_OUT for a pending line reset while RUNNING,
otherwise in QUIESCED when quiesce was requested, otherwise in IDLE, where the engine owes its scheduler a consultation
(R85; entry 24). -/
def Obligations.GuardEnds : Prop :=
  ∀ (s : State) (l : LineNo) (q : Nat), s.Operates → (s.line l).state = .guard → (s.line l).condition = .clear →
    (s.line l).receiving = false → (s.line l).quietSince = some q →
    let x := s.line l
    let now := max (max (q + 2 * x.char) x.rateSince) x.guardSince
    let u := s.reach now
    (x.resetPending = true → s.device = .running →
      ∃ t, exec (.guardEnd l) s = .next t ∧ u.BeginsBreak t l [] now) ∧
    (¬ (x.resetPending = true ∧ s.device = .running) →
      (x.quiesce = true → exec (.guardEnd l) s = .next (State.finish (u.setLine l
        { x with state := .quiesced, consultDue := false }))) ∧
      (x.quiesce = false → exec (.guardEnd l) s = .next (State.finish (u.setLine l
        { x with state := .idle, consultDue := true }))))

/-- R16, R94, R95: after 16 C of space the part drives mark, and after 8 C of mark it releases the driver: the records
bound to the break and the waiting QUIESCE_LINE records end OK, each list in acceptance order, and the engine enters GUARD
with the quiet time restarted, R84: at the latest of its events. That the bound records stand first is the model's choice,
entry 8. -/
def Obligations.OwnBreakEnds : Prop :=
  ∀ (s : State) (l : LineNo) (rate : Fin 8), s.Operates → (s.line l).state = .breakOut →
    (s.line l).breakRate = some rate →
    let x := s.line l
    let c := 11 * Config.bitTicks rate
    let released := x.breakStart + 24 * c
    (x.txd = .space →
      exec (.breakSpaceEnd l) s = .next ((s.reach (x.breakStart + 16 * c)).setLine l { x with txd := .mark })) ∧
    (x.txd = .mark →
      ∃ t, exec (.breakRelease l) s = .next t ∧
        (((s.reach released).setLine l
          { x with
            driverEnable := false, txd := .mark, txFrame := [], state := .guard, job := none
            quietSince := some (max (x.quietSince.getD 0) released), looksSince := released
            abandoned := false, guardSince := (s.reach released).time, boundResets := []
            quiescers := [] }).SameButEnds t) ∧
        (∀ id c, id ∈ x.boundResets ++ x.quiescers → s.ctx id = some c → c.Live → t.Reports id .ok .none) ∧
        ((x.boundResets ++ x.quiescers).Nodup →
          (∀ id ∈ x.boundResets ++ x.quiescers, ∃ c, s.ctx id = some c ∧ c.Live) →
          t.completionOrder = s.completionOrder ++ (x.boundResets ++ x.quiescers)))

/-! ## Station timers -/

/-- R35, R37, R38, R39, R40: the expiry of each station timer, at its moment; the scheduler of the station's line is told
(R113). -/
def Obligations.StationTimersExpire : Prop :=
  ∀ (s : State) (h : Handle) (st : Station) (e : Nat), s.Operates → s.station h = some st →
    let u := s.reach e
    (st.timer = some { kind := .poll, expires := e } →
      exec (.pollTimerExpiry h) s = .next ((u.setStation h (some
        { st with pollDue := some (st.pollDue.getD e), timer := none })).notify st.line)) ∧
    (st.timer = some { kind := .probe, expires := e } →
      exec (.probeTimerExpiry h) s = .next ((u.setStation h (some
        { st with probeDue := some (st.probeDue.getD e), timer := none })).notify st.line)) ∧
    (st.timer = some { kind := .hold, expires := e } →
      let on := { st with
        state := .online
        timer := if st.pollInterval ≠ 0 ∧ st.pollDue = none then
            some { kind := .poll, expires := e + st.pollInterval * 144000 }
          else none }
      (st.pending = [] → exec (.holdTimerExpiry h) s = .next ((u.setStation h (some on)).notify st.line)) ∧
      (∀ id rest, st.pending = id :: rest →
        exec (.holdTimerExpiry h) s = .next (((u.setStation h (some on)).updCtx id fun c =>
          { c with phase := if c.phase = .held then .queued else c.phase }).notify st.line)))

/-! ## The writers -/

/-- R145, R79, R152, R56: the posting of a completion entry: its octets are in memory, the tail and phase move, the context
is free, of which the fetch arbiter is told (R142), and a FENCE that counts it counts one fewer and ends OK at 0. -/
def Obligations.CompletionEntryPosted : Prop :=
  ∀ (s : State) (w : CompletionWrite) (x : Context), s.resetHeld = false →
    (s.device = .running ∨ s.device = .halting ∨ s.device = .halted) → s.completionWrite = some w →
    w.octets.length = 16 → s.ctx w.ctx = some x → s.ContextsDistinct →
    ∃ t, exec .completionEntryPosted s = .next t ∧
      t.completion = { s.completion with
        tail := if s.completion.tail + 1 = s.completion.size then 0 else s.completion.tail + 1
        phase := if s.completion.tail + 1 = s.completion.size then !s.completion.phase else s.completion.phase } ∧
      t.completionInt = (s.completionInt.posting s.clock).1 ∧
      ((s.completionInt.posting s.clock).2 = true → t.intStatus.getLsbD 0 = true) ∧
      (∀ i, i < 16 → readMem t.mem (addrPlus w.addr i) = w.octets[i]?) ∧ s.SameMemoryOutside t w.addr 16 ∧
      t.ctx w.ctx = none ∧ (∀ j f, j ≠ w.ctx → s.ctx j = some f → f.kind ≠ some .fence → t.ctx j = some f) ∧
      ({ s with
          completion := t.completion, completionInt := t.completionInt, completionWrite := none
          fetchDue := s.fetchDue || s.reading.isNone, mem := t.mem } : State).SameButEnds t ∧
      ∀ before mid after f, s.pool = before ++ x :: mid ++ f :: after → f.kind = some .fence → f.queue = x.queue →
        f.phase = .queued → f.body ≠ .reserved →
        (f.fenceCount = 1 → t.Reports f.id .ok .none) ∧
          (1 < f.fenceCount → t.ctx f.id = some { f with fenceCount := f.fenceCount - 1 })

/-- R150, R23, R73, R152: the posting of an event entry: its octets are in memory, the tail and phase move, the
reserved place is given up, and for an ATTENTION the delivery ends: pseq toggles when armed, and the receive buffer is
released, of which the line's scheduler is told (R113). R45, R73, R118: where the station is CLOSING the end of its delivery
settles the entry. -/
def Obligations.EventEntryPosted : Prop :=
  ∀ (s : State) (w : EventWrite), s.resetHeld = false →
    (s.device = .running ∨ s.device = .halting ∨ s.device = .halted) → s.eventWrite = some w → w.octets.length = 64 →
    ∃ t, exec .eventEntryPosted s = .next t ∧
      t.event = { s.event with
        tail := if s.event.tail + 1 = s.event.size then 0 else s.event.tail + 1
        phase := if s.event.tail + 1 = s.event.size then !s.event.phase else s.event.phase } ∧
      t.eventInt = (s.eventInt.posting s.clock).1 ∧
      ((s.eventInt.posting s.clock).2 = true → t.intStatus.getLsbD 1 = true) ∧
      (∀ i, i < 64 → readMem t.mem (addrPlus w.addr i) = w.octets[i]?) ∧ s.SameMemoryOutside t w.addr 64 ∧
      (t.eventWrite = none → t.reserved = s.reserved - 1) ∧
      (let u : State := { s with event := t.event, eventInt := t.eventInt, eventWrite := none, mem := t.mem }
       (w.attention = none → u.SameButEnds t) ∧
       ∀ l h st, w.attention = some (l, h) → s.station h = some st →
        let x := s.line l
        ((u.setLine l { x with
          rxBuffer := none, consultDue := if x.state = .idle then true else x.consultDue }).setStation h (some { st with
          attention := none, pseq := if st.attention = some true then !st.pseq else st.pseq })).SameButEnds t ∧
        (st.state ≠ .closing → t.pool = s.pool) ∧
        (st.state = .closing → (s.line st.line).attempting h = false →
          s.ClosingSettles t h { st with attention := none } none))

/-- R159, R99, R145, R150: a bus error of an entry write: the device enters FAILED and names the writer, every line is
released, the words before the failing one are in memory, the entry is not posted, and nothing else changes but octets of
other writes under way (the model's choice, entry 12). -/
def Obligations.WriteErrorFailsTheDevice : Prop :=
  ∀ s : State, s.resetHeld = false → (s.device = .running ∨ s.device = .halting ∨ s.device = .halted) →
    let failed := fun (t : State) (cause : CauseCode) =>
      t = { s with
            device := .failed, cause := cause
            lines := s.lines.map fun x => { x with driverEnable := false, txd := .mark, replyTimer := none }
            intStatus := s.intStatus ||| 0x08#5, intPin := (s.intStatus ||| 0x08#5) &&& s.intEnable != 0
            mem := t.mem, landings := t.landings } ∧
      ∀ a, ¬ s.InFlight a → readMem t.mem a = readMem s.mem a
    (∀ w done, s.completionWrite = some w → done < 4 → w.octets.length = 16 →
      ∃ t, exec (.completionWriteError done) s = .next t ∧ failed t .completionWrite ∧
        (s.eventWrite = none → (∀ l, (s.line l).rxBuffer = none) →
          (∀ i, i < 4 * done → readMem t.mem (addrPlus w.addr i) = w.octets[i]?) ∧
            s.SameMemoryOutside t w.addr (4 * done))) ∧
    (∀ w done, s.eventWrite = some w → done < 16 → w.octets.length = 64 →
      ∃ t, exec (.eventWriteError done) s = .next t ∧ failed t .eventWrite ∧
        (s.completionWrite = none → (∀ l, (s.line l).rxBuffer = none) →
          (∀ i, 4 ≤ i → i < 4 * (done + 1) → readMem t.mem (addrPlus w.addr i) = w.octets[i]?) ∧
            ∀ a, (∀ i, 4 ≤ i → i < 4 * (done + 1) → a ≠ addrPlus w.addr i) → readMem t.mem a = readMem s.mem a))

/-- R144, R149, R158, R163, R164, R101, R133, R21: what ends a step: the completion at the head of the handed list and then an
ATTENTION or a report begin to be written, line reports before queue reports before presence reports, each lowest number
first; no write begins while one is in progress, with nothing handed or pending, or, for a report, without a free place; HALTED is
entered, and its cause set, when no engine is busy and no record read is under way, and not before; nothing else moves; the octets of the entries and the codes of
sections 11.4 and 11.5. That all this stands at the end of the step is the model's choice, entry 6; the address of an entry
wraps at 2^32 (entry 13). -/
def Obligations.WritersFollowTheStep : Prop :=
  (∀ s : State,
    let entry := fun (octets : List Byte) (attention : Option (LineNo × Handle)) => s.finish.eventWrite = some {
      addr := s.event.base + BitVec.ofNat 32 (64 * s.event.tail), octets := octets, attention := attention }
    let free := s.eventWrite = none ∧ s.attentions = [] ∧ 0 < s.freePlaces
    let noLine := ∀ l, (s.line l).reportPending = false
    let noQueue := ∀ q, (s.queue q).report = none
    let noPresence := ∀ h st, s.station h = some st → st.presenceChanges = 0
    let halts := s.device = .halting ∧ s.reading = none ∧ ∀ l, (s.line l).state.busy = false
    s.SameButWriters s.finish ∧
    (s.posting = false → s.finish = s) ∧
    (s.posting = true →
      (∀ c rest, s.completionWrite = none → s.handed = c :: rest →
        s.finish.handed = rest ∧
        s.finish.completionWrite = some {
          ctx := c.ctx, addr := s.completion.base + BitVec.ofNat 32 (16 * s.completion.tail)
          octets := completionOctets c (s.queue c.queue).head s.completion.phase }) ∧
      (∀ r rest, s.eventWrite = none → s.attentions = r :: rest →
        s.finish.attentions = rest ∧ entry (attentionOctets r s.event.phase) (some (r.line, r.handle))) ∧
      (∀ l, free → (s.line l).reportPending = true → (∀ k, k < l → (s.line k).reportPending = false) →
        entry (lineOctets l (s.line l) s.event.phase) none ∧
        (s.finish.line l).reportPending = false ∧ s.finish.reserved = s.reserved + 1) ∧
      (∀ q r, free → noLine → (s.queue q).report = some r → (∀ k, k < q → (s.queue k).report = none) →
        entry (queueStoppedOctets q r s.event.phase) none ∧
        (s.finish.queue q).report = none ∧ s.finish.reserved = s.reserved + 1) ∧
      (∀ h st, free → noLine → noQueue → s.station h = some st → st.presenceChanges ≠ 0 →
        (∀ k st', k < h → s.station k = some st' → st'.presenceChanges = 0) →
        entry (presenceOctets h st s.event.phase) none ∧ s.finish.reserved = s.reserved + 1 ∧
        s.finish.station h = some { st with lastReported := st.presence, presenceChanges := 0 }) ∧
      (s.completionWrite.isSome = true ∨ s.handed = [] →
        s.finish.completionWrite = s.completionWrite ∧ s.finish.handed = s.handed) ∧
      (s.eventWrite.isSome = true ∨ s.attentions ≠ [] ∨ s.freePlaces = 0 ∨ (noLine ∧ noQueue ∧ noPresence) →
        s.finish.reserved = s.reserved ∧ s.finish.refusedLines = s.refusedLines ∧ s.finish.lines = s.lines ∧
          s.finish.queues = s.queues ∧ s.finish.stations = s.stations) ∧
      (s.eventWrite.isSome = true ∨ (s.attentions = [] ∧ (s.freePlaces = 0 ∨ (noLine ∧ noQueue ∧ noPresence))) →
        s.finish.eventWrite = s.eventWrite ∧ s.finish.attentions = s.attentions) ∧
      (halts →
        s.finish.device = .halted ∧ s.finish.intStatus = s.intStatus ||| 0x04#5 ∧
          s.finish.intPin = ((s.intStatus ||| 0x04#5) &&& s.intEnable != 0)) ∧
      (¬ halts →
        s.finish.device = s.device ∧ s.finish.intStatus = s.intStatus ∧ s.finish.intPin = s.intPin))) ∧
  (∀ (c : Completion) (head : Nat) (phase : Bool), (∀ t, c.turnaround = some t → t < 1000000) → c.tag < 65536 →
    c.replyLength ≤ 240 → head < 65536 →
    let o := completionOctets c head phase
    o.length = 16 ∧ o[0]? = some c.kindCode ∧ o[1]? = some c.status.code ∧ o[2]? = some c.detail.code ∧
    le8 o 3 = c.queue.val ∧ le16 o 4 = c.tag ∧ le8 o 6 = c.replyLength ∧
    le8 o 7 = (match c.band with | some b => 0x80 + b.val | none => 0) ∧
    le32 o 8 = (match c.turnaround with | some t => 0x80000000 + t | none => 0) ∧
    le16 o 12 = head ∧ le8 o 14 = 0 ∧ le8 o 15 = (if phase then 0x80 else 0)) ∧
  ([Status.ok, .overrun, .refused, .noReply, .stationBusy, .stationOffline, .hostReadError, .hostWriteError,
      .refusedState, .lineBreak, .cancelled, .aborted, .tooLate, .notFound, .badRecord, .badStation,
      .duplicateAddress].map Status.code = (List.range 17).map (BitVec.ofNat 8) ∧
    [Detail.none, .failure .noAnswer, .failure .garbled, .failure .wrongStation, .failure .unexpected,
      .failure .lineBreak, .failure .nakCheck, .failure .payloadRead, .unknownKind, .reservedNonzero, .fieldRange,
      .bandTableInvalid, .handleFree, .handleClosing, .handleInUse, .bandTableRead, .lineConfiguring].map Detail.code =
      [0x00, 0x01, 0x02, 0x03, 0x04, 0x05, 0x06, 0x07, 0x11, 0x12, 0x13, 0x14, 0x18, 0x19, 0x1A, 0x20, 0x3F] ∧
    [EngineState.disabled, .idle, .guard, .preparing, .transmit, .await, .receive, .breakOut, .quiesced].map
      (fun e => (Detail.engine e).code) = [0x30, 0x31, 0x32, 0x33, 0x34, 0x35, 0x36, 0x37, 0x38] ∧
    (∀ octet, (Detail.reason octet).code = octet) ∧ ∀ h, (Detail.handle h).code.toNat = h.val) ∧
  (∀ (r : AttentionReport) (phase : Bool), r.octets.length ≤ 48 →
    let o := attentionOctets r phase
    o.length = 64 ∧ o[0]? = some 0x01#8 ∧ o[3]? = some (if phase then 0x80#8 else 0) ∧ le8 o 4 = r.handle.val ∧
    le8 o 5 = (if r.pseq then 1 else 0) + (if r.ap then 2 else 0) ∧ le8 o 6 = r.octets.length ∧
    (∀ i, i < r.octets.length → o[16 + i]? = r.octets[i]?) ∧
    (∀ i, i = 1 ∨ i = 2 ∨ (7 ≤ i ∧ i < 16) → o[i]? = some 0) ∧
    ∀ i, 16 + r.octets.length ≤ i → i < 64 → o[i]? = some 0) ∧
  (∀ (h : Handle) (st : Station) (phase : Bool), st.presenceChanges ≤ 255 →
    let o := presenceOctets h st phase
    let code := fun p : Presence => match p with
      | .absent => 0
      | .present => 1
    o.length = 64 ∧ o[0]? = some 0x02#8 ∧ o[3]? = some (if phase then 0x80#8 else 0) ∧ le8 o 4 = h.val ∧
    le8 o 5 = code st.presence ∧ le8 o 6 = st.presenceChanges ∧ le8 o 7 = code st.lastReported ∧
    ∀ i, i = 1 ∨ i = 2 ∨ 8 ≤ i → i < 64 → o[i]? = some 0) ∧
  (∀ (l : LineNo) (x : Line) (phase : Bool), x.breaksSeen ≤ 255 → x.chatter ≤ 255 →
    let o := lineOctets l x phase
    o.length = 64 ∧ o[0]? = some 0x03#8 ∧ o[3]? = some (if phase then 0x80#8 else 0) ∧ le8 o 4 = l.val ∧
    le8 o 5 = x.breaksSeen ∧ le8 o 6 = x.chatter ∧
    le8 o 7 = (if x.breakEnded then 1 else 0) + (if x.stuckSeen then 2 else 0) ∧
    le8 o 8 = (match x.condition with
      | .clear => 0
      | .break => 1
      | .stuck => 2
      | .recovering => 3) ∧
    ∀ i, i = 1 ∨ i = 2 ∨ 9 ≤ i → i < 64 → o[i]? = some 0) ∧
  ∀ (q : QueueNo) (r : QueueReport) (phase : Bool), r.head < 65536 →
    let o := queueStoppedOctets q r phase
    o.length = 64 ∧ o[0]? = some 0x04#8 ∧ o[3]? = some (if phase then 0x80#8 else 0) ∧ le8 o 4 = q.val ∧
    le8 o 5 = (match r.cause with
      | .badTail => 1
      | .readError => 2) ∧
    le16 o 8 = r.head ∧ ∀ i, i = 1 ∨ i = 2 ∨ i = 6 ∨ i = 7 ∨ 10 ≤ i → i < 64 → o[i]? = some 0

/-! ## Headline rules -/

/-- R6: the check: the register starts at all ones, takes octets most significant bit first, and is fed back through
x^16 + x^12 + x^5 + 1. R7, R8, R9, R13: the outcome of a good frame, by the kind sent, the kind answered, its length and bits
7..6 of its control octet, a NAK with its class and its raw octet. R4, R7: the kind and the address of each attempt's frame.
R11, R12: what each character of an answer does, by its position, its mark and stop bits, the address, the length and the
check. A frame that a station forms as section 11.6 lays it out is taken whole: every character but the last goes on, and the
last gives the outcome, with the AP bit. -/
def Obligations.AnswerFrameDecodes : Prop :=
  (crc [] = 0xFFFF#16 ∧ crc [0x31, 0x32, 0x33, 0x34, 0x35, 0x36, 0x37, 0x38, 0x39] = 0x29B1#16 ∧
    ∀ (octets : List Byte) (b : Byte),
      let shift := fun r : BitVec 16 => if r.getLsbD 15 then (r <<< 1) ^^^ 0x1021#16 else r <<< 1
      crc (octets ++ [b]) =
        shift (shift (shift (shift (shift (shift (shift (shift (crc octets ^^^ (b.setWidth 16 <<< 8)))))))))) ∧
  (∀ (sent : SentKind) (control : Byte) (payload : List Byte),
    let n := payload.length
    let code := control.toNat % 16
    let reason := octetAt payload 0
    judgeGoodFrame sent control payload =
      if 64 ≤ control.toNat then .unexpected
      else match sent with
        | .command =>
          if code = 8 ∧ n = 0 then .ack
          else if code = 9 ∧ n ≤ 240 then .reply payload
          else if code = 10 ∧ n = 0 then .busy
          else if code = 11 ∧ n = 1 then
            .nak (if reason = 1 then .check else if reason = 3 then .unsupported else .refused) reason
          else .unexpected
        | .poll =>
          if code = 12 ∧ 1 ≤ n ∧ n ≤ 48 then .attention payload
          else if code = 13 ∧ n = 0 then .idle
          else if code = 10 ∧ n = 0 then .busy
          else .unexpected
        | .linkReset => if code = 8 ∧ n = 0 then .ack else .unexpected) ∧
  (∀ (s : State) (h : Handle) (st : Station) (id : Nat) (origin : Phase) (pseq : Bool), s.station h = some st →
    let is := fun (job : Job) (k : SentKind) => job.sentKind = k ∧ s.jobAddress job = st.address
    is (.command id h origin) .command ∧ is (.poll h pseq) .poll ∧ is (.link h) .linkReset ∧
      is (.probe h) .linkReset) ∧
  (∀ (sent : SentKind) (addr : BitVec 7) (before : List Byte) (octet : Byte) (mark ferr : Bool),
    let step := judgeCharacter sent addr before octet mark ferr
    let frame := before ++ [octet]
    let n := le8 frame 2
    let check := crc (frame.take (n + 3))
    let good := octetAt frame (n + 3) = (check >>> 8).setWidth 8 ∧ octetAt frame (n + 4) = check.setWidth 8
    (ferr = true → step = .garbled) ∧
    (ferr = false → before = [] →
      (octet = 0x80#8 ||| addr.setWidth 8 → step = .more) ∧ (octet ≠ 0x80#8 ||| addr.setWidth 8 → step = .wrong)) ∧
    (ferr = false → before ≠ [] → mark = true → step = .garbled) ∧
    (ferr = false → mark = false → before.length = 1 → step = .more) ∧
    (ferr = false → mark = false → before.length = 2 →
      (octet.toNat ≤ 240 → step = .more) ∧ (240 < octet.toNat → step = .garbled)) ∧
    (ferr = false → mark = false → 3 ≤ before.length →
      (frame.length < n + 5 → step = .more) ∧
      (frame.length = n + 5 →
        (good → step =
          .good (judgeGoodFrame sent (octetAt frame 1) ((frame.drop 3).take n)) ((octetAt frame 1).getLsbD 5)) ∧
        (¬ good → step = .garbled)))) ∧
  ∀ (sent : SentKind) (addr : BitVec 7) (control : Byte) (payload : List Byte), payload.length ≤ 240 →
    let body := (0x80#8 ||| addr.setWidth 8) :: control :: BitVec.ofNat 8 payload.length :: payload
    let frame := body ++ [(crc body >>> 8).setWidth 8, (crc body).setWidth 8]
    (∀ i, i < payload.length + 4 →
      judgeCharacter sent addr (frame.take i) (octetAt frame i) (i == 0) false = .more) ∧
    judgeCharacter sent addr (frame.take (payload.length + 4)) (octetAt frame (payload.length + 4)) false false =
      .good (judgeGoodFrame sent control payload) (control.getLsbD 5)

/-- R82, R99, R100, R151: every step keeps the driver rule of every line, the interrupt output at the causes enabled and
set, and the canonical form of the memory. -/
def Obligations.DriversPinAndMemoryKept : Prop :=
  ∀ s t : State, step s = .next t →
    (s.DriversSafe → t.DriversSafe) ∧ (s.PinFollows → t.PinFollows) ∧ (s.MemoryCanonical → t.MemoryCanonical)

/-- R19, R26, R35, R46, R102: every step keeps the pairs distinct and in range, the timers of each kind in their states, the
miss count at its limit exactly in OFFLINE, and the pending lists and retry lists without duplicates. -/
def Obligations.StationRulesKept : Prop :=
  ∀ s t : State, step s = .next t →
    (s.PairsDistinct → t.PairsDistinct) ∧ (s.TimersMatch → t.TimersMatch) ∧
      (s.TimersMatch → s.MissesCounted → t.MissesCounted) ∧ (s.ListsDistinct → t.ListsDistinct)

/-- R56: every step keeps the contexts in use distinct, each one of the 256. R135, R143: contexts in use plus completion
entries posted never exceed the ring's size minus one. R147: reserved places plus event entries posted never exceed the
ring's size minus one. -/
def Obligations.ContextsStayDistinct : Prop :=
  ∀ s t : State, step s = .next t →
    (s.ContextsDistinct → t.ContextsDistinct) ∧ (s.ContextsDistinct → s.CreditsKept → t.CreditsKept) ∧
      (s.PlacesKept → t.PlacesKept)

/-- R159, R152, R99, R138, R153: in FAILED every command but a reset leaves everything as it was frozen but the interrupt
unit, its clock and the release of the reset input. -/
def Obligations.FailedPartIsFrozen : Prop :=
  ∀ (c : Instr) (s t : State), s.device = .failed → exec c s = .next t → c ≠ .hardwareReset →
    (∀ v, c ≠ .softReset v) →
    t = { s with
          intStatus := t.intStatus, intEnable := t.intEnable, intPin := t.intPin, completionInt := t.completionInt
          eventInt := t.eventInt, clock := t.clock, resetHeld := t.resetHeld }

/-- R47: every step keeps a band table and a bit rate in every line that is not DISABLED; a line leaves DISABLED only by the
good read of a valid band table block, and its band table, hysteresis and bit rate change only by one and by a reset. -/
def Obligations.BandTableRulesTheLine : Prop :=
  (∀ s t : State, step s = .next t → s.LinesConfigured → t.LinesConfigured) ∧
  ∀ (c : Instr) (s t : State) (l : LineNo), exec c s = .next t →
    ((s.line l).state = .disabled → (t.line l).state ≠ .disabled →
      ∃ b, c = .bandTableReadEnd l (.good b) ∧ bandBlockValid b = true) ∧
    ((t.line l).bandTable ≠ (s.line l).bandTable ∨ (t.line l).hysteresis ≠ (s.line l).hysteresis ∨
        (t.line l).rate ≠ (s.line l).rate →
      (∃ b, c = .bandTableReadEnd l (.good b) ∧ bandBlockValid b = true) ∨ c = .hardwareReset ∨
        ∃ v, c = .softReset v)

end
end

