-- ==== Sys2Proof/Laws/State.lean ====
section
/-! SUPPORT. One lemma per field per update of the state, and reading back what an update wrote, so that no later proof
unfolds a record update. -/

namespace Sys2Proof.Machine

variable (s : State)

/-! ## setLine -/

@[simp] theorem State.setLine_device (l : LineNo) (x : Line) : (s.setLine l x).device = s.device := rfl
@[simp] theorem State.setLine_cause (l : LineNo) (x : Line) : (s.setLine l x).cause = s.cause := rfl
@[simp] theorem State.setLine_enable (l : LineNo) (x : Line) : (s.setLine l x).enable = s.enable := rfl
@[simp] theorem State.setLine_setupAddr (l : LineNo) (x : Line) : (s.setLine l x).setupAddr = s.setupAddr := rfl
@[simp] theorem State.setLine_resetHeld (l : LineNo) (x : Line) : (s.setLine l x).resetHeld = s.resetHeld := rfl
@[simp] theorem State.setLine_intStatus (l : LineNo) (x : Line) : (s.setLine l x).intStatus = s.intStatus := rfl
@[simp] theorem State.setLine_intEnable (l : LineNo) (x : Line) : (s.setLine l x).intEnable = s.intEnable := rfl
@[simp] theorem State.setLine_intPin (l : LineNo) (x : Line) : (s.setLine l x).intPin = s.intPin := rfl
@[simp] theorem State.setLine_completionInt (l : LineNo) (x : Line) : (s.setLine l x).completionInt = s.completionInt := rfl
@[simp] theorem State.setLine_eventInt (l : LineNo) (x : Line) : (s.setLine l x).eventInt = s.eventInt := rfl
@[simp] theorem State.setLine_queues (l : LineNo) (x : Line) : (s.setLine l x).queues = s.queues := rfl
@[simp] theorem State.setLine_fetchUrgent (l : LineNo) (x : Line) : (s.setLine l x).fetchUrgent = s.fetchUrgent := rfl
@[simp] theorem State.setLine_fetchNormal (l : LineNo) (x : Line) : (s.setLine l x).fetchNormal = s.fetchNormal := rfl
@[simp] theorem State.setLine_reading (l : LineNo) (x : Line) : (s.setLine l x).reading = s.reading := rfl
@[simp] theorem State.setLine_fetchDue (l : LineNo) (x : Line) : (s.setLine l x).fetchDue = s.fetchDue := rfl
@[simp] theorem State.setLine_pool (l : LineNo) (x : Line) : (s.setLine l x).pool = s.pool := rfl
@[simp] theorem State.setLine_stations (l : LineNo) (x : Line) : (s.setLine l x).stations = s.stations := rfl
@[simp] theorem State.setLine_completion (l : LineNo) (x : Line) : (s.setLine l x).completion = s.completion := rfl
@[simp] theorem State.setLine_handed (l : LineNo) (x : Line) : (s.setLine l x).handed = s.handed := rfl
@[simp] theorem State.setLine_completionWrite (l : LineNo) (x : Line) : (s.setLine l x).completionWrite = s.completionWrite := rfl
@[simp] theorem State.setLine_event (l : LineNo) (x : Line) : (s.setLine l x).event = s.event := rfl
@[simp] theorem State.setLine_attentions (l : LineNo) (x : Line) : (s.setLine l x).attentions = s.attentions := rfl
@[simp] theorem State.setLine_eventWrite (l : LineNo) (x : Line) : (s.setLine l x).eventWrite = s.eventWrite := rfl
@[simp] theorem State.setLine_reserved (l : LineNo) (x : Line) : (s.setLine l x).reserved = s.reserved := rfl
@[simp] theorem State.setLine_refusedLines (l : LineNo) (x : Line) : (s.setLine l x).refusedLines = s.refusedLines := rfl
@[simp] theorem State.setLine_clock (l : LineNo) (x : Line) : (s.setLine l x).clock = s.clock := rfl
@[simp] theorem State.setLine_time (l : LineNo) (x : Line) : (s.setLine l x).time = s.time := rfl
@[simp] theorem State.setLine_mem (l : LineNo) (x : Line) : (s.setLine l x).mem = s.mem := rfl
@[simp] theorem State.setLine_landings (l : LineNo) (x : Line) : (s.setLine l x).landings = s.landings := rfl
@[simp] theorem State.setLine_pending (l : LineNo) (x : Line) : (s.setLine l x).pending = s.pending := rfl

/-! ## setStation -/

@[simp] theorem State.setStation_device (h : Handle) (x : Option Station) : (s.setStation h x).device = s.device := rfl
@[simp] theorem State.setStation_cause (h : Handle) (x : Option Station) : (s.setStation h x).cause = s.cause := rfl
@[simp] theorem State.setStation_enable (h : Handle) (x : Option Station) : (s.setStation h x).enable = s.enable := rfl
@[simp] theorem State.setStation_setupAddr (h : Handle) (x : Option Station) : (s.setStation h x).setupAddr = s.setupAddr := rfl
@[simp] theorem State.setStation_resetHeld (h : Handle) (x : Option Station) : (s.setStation h x).resetHeld = s.resetHeld := rfl
@[simp] theorem State.setStation_intStatus (h : Handle) (x : Option Station) : (s.setStation h x).intStatus = s.intStatus := rfl
@[simp] theorem State.setStation_intEnable (h : Handle) (x : Option Station) : (s.setStation h x).intEnable = s.intEnable := rfl
@[simp] theorem State.setStation_intPin (h : Handle) (x : Option Station) : (s.setStation h x).intPin = s.intPin := rfl
@[simp] theorem State.setStation_completionInt (h : Handle) (x : Option Station) : (s.setStation h x).completionInt = s.completionInt := rfl
@[simp] theorem State.setStation_eventInt (h : Handle) (x : Option Station) : (s.setStation h x).eventInt = s.eventInt := rfl
@[simp] theorem State.setStation_queues (h : Handle) (x : Option Station) : (s.setStation h x).queues = s.queues := rfl
@[simp] theorem State.setStation_fetchUrgent (h : Handle) (x : Option Station) : (s.setStation h x).fetchUrgent = s.fetchUrgent := rfl
@[simp] theorem State.setStation_fetchNormal (h : Handle) (x : Option Station) : (s.setStation h x).fetchNormal = s.fetchNormal := rfl
@[simp] theorem State.setStation_reading (h : Handle) (x : Option Station) : (s.setStation h x).reading = s.reading := rfl
@[simp] theorem State.setStation_fetchDue (h : Handle) (x : Option Station) : (s.setStation h x).fetchDue = s.fetchDue := rfl
@[simp] theorem State.setStation_pool (h : Handle) (x : Option Station) : (s.setStation h x).pool = s.pool := rfl
@[simp] theorem State.setStation_lines (h : Handle) (x : Option Station) : (s.setStation h x).lines = s.lines := rfl
@[simp] theorem State.setStation_completion (h : Handle) (x : Option Station) : (s.setStation h x).completion = s.completion := rfl
@[simp] theorem State.setStation_handed (h : Handle) (x : Option Station) : (s.setStation h x).handed = s.handed := rfl
@[simp] theorem State.setStation_completionWrite (h : Handle) (x : Option Station) : (s.setStation h x).completionWrite = s.completionWrite := rfl
@[simp] theorem State.setStation_event (h : Handle) (x : Option Station) : (s.setStation h x).event = s.event := rfl
@[simp] theorem State.setStation_attentions (h : Handle) (x : Option Station) : (s.setStation h x).attentions = s.attentions := rfl
@[simp] theorem State.setStation_eventWrite (h : Handle) (x : Option Station) : (s.setStation h x).eventWrite = s.eventWrite := rfl
@[simp] theorem State.setStation_reserved (h : Handle) (x : Option Station) : (s.setStation h x).reserved = s.reserved := rfl
@[simp] theorem State.setStation_refusedLines (h : Handle) (x : Option Station) : (s.setStation h x).refusedLines = s.refusedLines := rfl
@[simp] theorem State.setStation_clock (h : Handle) (x : Option Station) : (s.setStation h x).clock = s.clock := rfl
@[simp] theorem State.setStation_time (h : Handle) (x : Option Station) : (s.setStation h x).time = s.time := rfl
@[simp] theorem State.setStation_mem (h : Handle) (x : Option Station) : (s.setStation h x).mem = s.mem := rfl
@[simp] theorem State.setStation_landings (h : Handle) (x : Option Station) : (s.setStation h x).landings = s.landings := rfl
@[simp] theorem State.setStation_pending (h : Handle) (x : Option Station) : (s.setStation h x).pending = s.pending := rfl

/-! ## updQueue -/

@[simp] theorem State.updQueue_device (q : QueueNo) (f : Queue → Queue) : (s.updQueue q f).device = s.device := rfl
@[simp] theorem State.updQueue_cause (q : QueueNo) (f : Queue → Queue) : (s.updQueue q f).cause = s.cause := rfl
@[simp] theorem State.updQueue_enable (q : QueueNo) (f : Queue → Queue) : (s.updQueue q f).enable = s.enable := rfl
@[simp] theorem State.updQueue_setupAddr (q : QueueNo) (f : Queue → Queue) : (s.updQueue q f).setupAddr = s.setupAddr := rfl
@[simp] theorem State.updQueue_resetHeld (q : QueueNo) (f : Queue → Queue) : (s.updQueue q f).resetHeld = s.resetHeld := rfl
@[simp] theorem State.updQueue_intStatus (q : QueueNo) (f : Queue → Queue) : (s.updQueue q f).intStatus = s.intStatus := rfl
@[simp] theorem State.updQueue_intEnable (q : QueueNo) (f : Queue → Queue) : (s.updQueue q f).intEnable = s.intEnable := rfl
@[simp] theorem State.updQueue_intPin (q : QueueNo) (f : Queue → Queue) : (s.updQueue q f).intPin = s.intPin := rfl
@[simp] theorem State.updQueue_completionInt (q : QueueNo) (f : Queue → Queue) : (s.updQueue q f).completionInt = s.completionInt := rfl
@[simp] theorem State.updQueue_eventInt (q : QueueNo) (f : Queue → Queue) : (s.updQueue q f).eventInt = s.eventInt := rfl
@[simp] theorem State.updQueue_fetchUrgent (q : QueueNo) (f : Queue → Queue) : (s.updQueue q f).fetchUrgent = s.fetchUrgent := rfl
@[simp] theorem State.updQueue_fetchNormal (q : QueueNo) (f : Queue → Queue) : (s.updQueue q f).fetchNormal = s.fetchNormal := rfl
@[simp] theorem State.updQueue_reading (q : QueueNo) (f : Queue → Queue) : (s.updQueue q f).reading = s.reading := rfl
@[simp] theorem State.updQueue_fetchDue (q : QueueNo) (f : Queue → Queue) : (s.updQueue q f).fetchDue = s.fetchDue := rfl
@[simp] theorem State.updQueue_pool (q : QueueNo) (f : Queue → Queue) : (s.updQueue q f).pool = s.pool := rfl
@[simp] theorem State.updQueue_stations (q : QueueNo) (f : Queue → Queue) : (s.updQueue q f).stations = s.stations := rfl
@[simp] theorem State.updQueue_lines (q : QueueNo) (f : Queue → Queue) : (s.updQueue q f).lines = s.lines := rfl
@[simp] theorem State.updQueue_completion (q : QueueNo) (f : Queue → Queue) : (s.updQueue q f).completion = s.completion := rfl
@[simp] theorem State.updQueue_handed (q : QueueNo) (f : Queue → Queue) : (s.updQueue q f).handed = s.handed := rfl
@[simp] theorem State.updQueue_completionWrite (q : QueueNo) (f : Queue → Queue) : (s.updQueue q f).completionWrite = s.completionWrite := rfl
@[simp] theorem State.updQueue_event (q : QueueNo) (f : Queue → Queue) : (s.updQueue q f).event = s.event := rfl
@[simp] theorem State.updQueue_attentions (q : QueueNo) (f : Queue → Queue) : (s.updQueue q f).attentions = s.attentions := rfl
@[simp] theorem State.updQueue_eventWrite (q : QueueNo) (f : Queue → Queue) : (s.updQueue q f).eventWrite = s.eventWrite := rfl
@[simp] theorem State.updQueue_reserved (q : QueueNo) (f : Queue → Queue) : (s.updQueue q f).reserved = s.reserved := rfl
@[simp] theorem State.updQueue_refusedLines (q : QueueNo) (f : Queue → Queue) : (s.updQueue q f).refusedLines = s.refusedLines := rfl
@[simp] theorem State.updQueue_clock (q : QueueNo) (f : Queue → Queue) : (s.updQueue q f).clock = s.clock := rfl
@[simp] theorem State.updQueue_time (q : QueueNo) (f : Queue → Queue) : (s.updQueue q f).time = s.time := rfl
@[simp] theorem State.updQueue_mem (q : QueueNo) (f : Queue → Queue) : (s.updQueue q f).mem = s.mem := rfl
@[simp] theorem State.updQueue_landings (q : QueueNo) (f : Queue → Queue) : (s.updQueue q f).landings = s.landings := rfl
@[simp] theorem State.updQueue_pending (q : QueueNo) (f : Queue → Queue) : (s.updQueue q f).pending = s.pending := rfl

/-! ## updCtx -/

@[simp] theorem State.updCtx_device (id : Nat) (f : Context → Context) : (s.updCtx id f).device = s.device := rfl
@[simp] theorem State.updCtx_cause (id : Nat) (f : Context → Context) : (s.updCtx id f).cause = s.cause := rfl
@[simp] theorem State.updCtx_enable (id : Nat) (f : Context → Context) : (s.updCtx id f).enable = s.enable := rfl
@[simp] theorem State.updCtx_setupAddr (id : Nat) (f : Context → Context) : (s.updCtx id f).setupAddr = s.setupAddr := rfl
@[simp] theorem State.updCtx_resetHeld (id : Nat) (f : Context → Context) : (s.updCtx id f).resetHeld = s.resetHeld := rfl
@[simp] theorem State.updCtx_intStatus (id : Nat) (f : Context → Context) : (s.updCtx id f).intStatus = s.intStatus := rfl
@[simp] theorem State.updCtx_intEnable (id : Nat) (f : Context → Context) : (s.updCtx id f).intEnable = s.intEnable := rfl
@[simp] theorem State.updCtx_intPin (id : Nat) (f : Context → Context) : (s.updCtx id f).intPin = s.intPin := rfl
@[simp] theorem State.updCtx_completionInt (id : Nat) (f : Context → Context) : (s.updCtx id f).completionInt = s.completionInt := rfl
@[simp] theorem State.updCtx_eventInt (id : Nat) (f : Context → Context) : (s.updCtx id f).eventInt = s.eventInt := rfl
@[simp] theorem State.updCtx_queues (id : Nat) (f : Context → Context) : (s.updCtx id f).queues = s.queues := rfl
@[simp] theorem State.updCtx_fetchUrgent (id : Nat) (f : Context → Context) : (s.updCtx id f).fetchUrgent = s.fetchUrgent := rfl
@[simp] theorem State.updCtx_fetchNormal (id : Nat) (f : Context → Context) : (s.updCtx id f).fetchNormal = s.fetchNormal := rfl
@[simp] theorem State.updCtx_reading (id : Nat) (f : Context → Context) : (s.updCtx id f).reading = s.reading := rfl
@[simp] theorem State.updCtx_fetchDue (id : Nat) (f : Context → Context) : (s.updCtx id f).fetchDue = s.fetchDue := rfl
@[simp] theorem State.updCtx_stations (id : Nat) (f : Context → Context) : (s.updCtx id f).stations = s.stations := rfl
@[simp] theorem State.updCtx_lines (id : Nat) (f : Context → Context) : (s.updCtx id f).lines = s.lines := rfl
@[simp] theorem State.updCtx_completion (id : Nat) (f : Context → Context) : (s.updCtx id f).completion = s.completion := rfl
@[simp] theorem State.updCtx_handed (id : Nat) (f : Context → Context) : (s.updCtx id f).handed = s.handed := rfl
@[simp] theorem State.updCtx_completionWrite (id : Nat) (f : Context → Context) : (s.updCtx id f).completionWrite = s.completionWrite := rfl
@[simp] theorem State.updCtx_event (id : Nat) (f : Context → Context) : (s.updCtx id f).event = s.event := rfl
@[simp] theorem State.updCtx_attentions (id : Nat) (f : Context → Context) : (s.updCtx id f).attentions = s.attentions := rfl
@[simp] theorem State.updCtx_eventWrite (id : Nat) (f : Context → Context) : (s.updCtx id f).eventWrite = s.eventWrite := rfl
@[simp] theorem State.updCtx_reserved (id : Nat) (f : Context → Context) : (s.updCtx id f).reserved = s.reserved := rfl
@[simp] theorem State.updCtx_refusedLines (id : Nat) (f : Context → Context) : (s.updCtx id f).refusedLines = s.refusedLines := rfl
@[simp] theorem State.updCtx_clock (id : Nat) (f : Context → Context) : (s.updCtx id f).clock = s.clock := rfl
@[simp] theorem State.updCtx_time (id : Nat) (f : Context → Context) : (s.updCtx id f).time = s.time := rfl
@[simp] theorem State.updCtx_mem (id : Nat) (f : Context → Context) : (s.updCtx id f).mem = s.mem := rfl
@[simp] theorem State.updCtx_landings (id : Nat) (f : Context → Context) : (s.updCtx id f).landings = s.landings := rfl
@[simp] theorem State.updCtx_pending (id : Nat) (f : Context → Context) : (s.updCtx id f).pending = s.pending := rfl

/-! ## drivePin -/

@[simp] theorem State.drivePin_device : (s.drivePin).device = s.device := rfl
@[simp] theorem State.drivePin_cause : (s.drivePin).cause = s.cause := rfl
@[simp] theorem State.drivePin_enable : (s.drivePin).enable = s.enable := rfl
@[simp] theorem State.drivePin_setupAddr : (s.drivePin).setupAddr = s.setupAddr := rfl
@[simp] theorem State.drivePin_resetHeld : (s.drivePin).resetHeld = s.resetHeld := rfl
@[simp] theorem State.drivePin_intStatus : (s.drivePin).intStatus = s.intStatus := rfl
@[simp] theorem State.drivePin_intEnable : (s.drivePin).intEnable = s.intEnable := rfl
@[simp] theorem State.drivePin_completionInt : (s.drivePin).completionInt = s.completionInt := rfl
@[simp] theorem State.drivePin_eventInt : (s.drivePin).eventInt = s.eventInt := rfl
@[simp] theorem State.drivePin_queues : (s.drivePin).queues = s.queues := rfl
@[simp] theorem State.drivePin_fetchUrgent : (s.drivePin).fetchUrgent = s.fetchUrgent := rfl
@[simp] theorem State.drivePin_fetchNormal : (s.drivePin).fetchNormal = s.fetchNormal := rfl
@[simp] theorem State.drivePin_reading : (s.drivePin).reading = s.reading := rfl
@[simp] theorem State.drivePin_fetchDue : (s.drivePin).fetchDue = s.fetchDue := rfl
@[simp] theorem State.drivePin_pool : (s.drivePin).pool = s.pool := rfl
@[simp] theorem State.drivePin_stations : (s.drivePin).stations = s.stations := rfl
@[simp] theorem State.drivePin_lines : (s.drivePin).lines = s.lines := rfl
@[simp] theorem State.drivePin_completion : (s.drivePin).completion = s.completion := rfl
@[simp] theorem State.drivePin_handed : (s.drivePin).handed = s.handed := rfl
@[simp] theorem State.drivePin_completionWrite : (s.drivePin).completionWrite = s.completionWrite := rfl
@[simp] theorem State.drivePin_event : (s.drivePin).event = s.event := rfl
@[simp] theorem State.drivePin_attentions : (s.drivePin).attentions = s.attentions := rfl
@[simp] theorem State.drivePin_eventWrite : (s.drivePin).eventWrite = s.eventWrite := rfl
@[simp] theorem State.drivePin_reserved : (s.drivePin).reserved = s.reserved := rfl
@[simp] theorem State.drivePin_refusedLines : (s.drivePin).refusedLines = s.refusedLines := rfl
@[simp] theorem State.drivePin_clock : (s.drivePin).clock = s.clock := rfl
@[simp] theorem State.drivePin_time : (s.drivePin).time = s.time := rfl
@[simp] theorem State.drivePin_mem : (s.drivePin).mem = s.mem := rfl
@[simp] theorem State.drivePin_landings : (s.drivePin).landings = s.landings := rfl
@[simp] theorem State.drivePin_pending : (s.drivePin).pending = s.pending := rfl

/-! ## elapse -/

@[simp] theorem State.elapse_device (d : Nat) : (s.elapse d).device = s.device := rfl
@[simp] theorem State.elapse_cause (d : Nat) : (s.elapse d).cause = s.cause := rfl
@[simp] theorem State.elapse_enable (d : Nat) : (s.elapse d).enable = s.enable := rfl
@[simp] theorem State.elapse_setupAddr (d : Nat) : (s.elapse d).setupAddr = s.setupAddr := rfl
@[simp] theorem State.elapse_resetHeld (d : Nat) : (s.elapse d).resetHeld = s.resetHeld := rfl
@[simp] theorem State.elapse_intStatus (d : Nat) : (s.elapse d).intStatus = s.intStatus := rfl
@[simp] theorem State.elapse_intEnable (d : Nat) : (s.elapse d).intEnable = s.intEnable := rfl
@[simp] theorem State.elapse_intPin (d : Nat) : (s.elapse d).intPin = s.intPin := rfl
@[simp] theorem State.elapse_completionInt (d : Nat) : (s.elapse d).completionInt = s.completionInt := rfl
@[simp] theorem State.elapse_eventInt (d : Nat) : (s.elapse d).eventInt = s.eventInt := rfl
@[simp] theorem State.elapse_queues (d : Nat) : (s.elapse d).queues = s.queues := rfl
@[simp] theorem State.elapse_fetchUrgent (d : Nat) : (s.elapse d).fetchUrgent = s.fetchUrgent := rfl
@[simp] theorem State.elapse_fetchNormal (d : Nat) : (s.elapse d).fetchNormal = s.fetchNormal := rfl
@[simp] theorem State.elapse_reading (d : Nat) : (s.elapse d).reading = s.reading := rfl
@[simp] theorem State.elapse_fetchDue (d : Nat) : (s.elapse d).fetchDue = s.fetchDue := rfl
@[simp] theorem State.elapse_pool (d : Nat) : (s.elapse d).pool = s.pool := rfl
@[simp] theorem State.elapse_stations (d : Nat) : (s.elapse d).stations = s.stations := rfl
@[simp] theorem State.elapse_lines (d : Nat) : (s.elapse d).lines = s.lines := rfl
@[simp] theorem State.elapse_completion (d : Nat) : (s.elapse d).completion = s.completion := rfl
@[simp] theorem State.elapse_handed (d : Nat) : (s.elapse d).handed = s.handed := rfl
@[simp] theorem State.elapse_completionWrite (d : Nat) : (s.elapse d).completionWrite = s.completionWrite := rfl
@[simp] theorem State.elapse_event (d : Nat) : (s.elapse d).event = s.event := rfl
@[simp] theorem State.elapse_attentions (d : Nat) : (s.elapse d).attentions = s.attentions := rfl
@[simp] theorem State.elapse_eventWrite (d : Nat) : (s.elapse d).eventWrite = s.eventWrite := rfl
@[simp] theorem State.elapse_reserved (d : Nat) : (s.elapse d).reserved = s.reserved := rfl
@[simp] theorem State.elapse_refusedLines (d : Nat) : (s.elapse d).refusedLines = s.refusedLines := rfl
@[simp] theorem State.elapse_mem (d : Nat) : (s.elapse d).mem = s.mem := rfl
@[simp] theorem State.elapse_landings (d : Nat) : (s.elapse d).landings = s.landings := rfl
@[simp] theorem State.elapse_pending (d : Nat) : (s.elapse d).pending = s.pending := rfl

/-! ## tellLines -/

@[simp] theorem State.tellLines_device (ls : List LineNo) : (s.tellLines ls).device = s.device := rfl
@[simp] theorem State.tellLines_cause (ls : List LineNo) : (s.tellLines ls).cause = s.cause := rfl
@[simp] theorem State.tellLines_enable (ls : List LineNo) : (s.tellLines ls).enable = s.enable := rfl
@[simp] theorem State.tellLines_setupAddr (ls : List LineNo) : (s.tellLines ls).setupAddr = s.setupAddr := rfl
@[simp] theorem State.tellLines_resetHeld (ls : List LineNo) : (s.tellLines ls).resetHeld = s.resetHeld := rfl
@[simp] theorem State.tellLines_intStatus (ls : List LineNo) : (s.tellLines ls).intStatus = s.intStatus := rfl
@[simp] theorem State.tellLines_intEnable (ls : List LineNo) : (s.tellLines ls).intEnable = s.intEnable := rfl
@[simp] theorem State.tellLines_intPin (ls : List LineNo) : (s.tellLines ls).intPin = s.intPin := rfl
@[simp] theorem State.tellLines_completionInt (ls : List LineNo) : (s.tellLines ls).completionInt = s.completionInt := rfl
@[simp] theorem State.tellLines_eventInt (ls : List LineNo) : (s.tellLines ls).eventInt = s.eventInt := rfl
@[simp] theorem State.tellLines_queues (ls : List LineNo) : (s.tellLines ls).queues = s.queues := rfl
@[simp] theorem State.tellLines_fetchUrgent (ls : List LineNo) : (s.tellLines ls).fetchUrgent = s.fetchUrgent := rfl
@[simp] theorem State.tellLines_fetchNormal (ls : List LineNo) : (s.tellLines ls).fetchNormal = s.fetchNormal := rfl
@[simp] theorem State.tellLines_reading (ls : List LineNo) : (s.tellLines ls).reading = s.reading := rfl
@[simp] theorem State.tellLines_fetchDue (ls : List LineNo) : (s.tellLines ls).fetchDue = s.fetchDue := rfl
@[simp] theorem State.tellLines_pool (ls : List LineNo) : (s.tellLines ls).pool = s.pool := rfl
@[simp] theorem State.tellLines_stations (ls : List LineNo) : (s.tellLines ls).stations = s.stations := rfl
@[simp] theorem State.tellLines_completion (ls : List LineNo) : (s.tellLines ls).completion = s.completion := rfl
@[simp] theorem State.tellLines_handed (ls : List LineNo) : (s.tellLines ls).handed = s.handed := rfl
@[simp] theorem State.tellLines_completionWrite (ls : List LineNo) : (s.tellLines ls).completionWrite = s.completionWrite := rfl
@[simp] theorem State.tellLines_event (ls : List LineNo) : (s.tellLines ls).event = s.event := rfl
@[simp] theorem State.tellLines_attentions (ls : List LineNo) : (s.tellLines ls).attentions = s.attentions := rfl
@[simp] theorem State.tellLines_eventWrite (ls : List LineNo) : (s.tellLines ls).eventWrite = s.eventWrite := rfl
@[simp] theorem State.tellLines_reserved (ls : List LineNo) : (s.tellLines ls).reserved = s.reserved := rfl
@[simp] theorem State.tellLines_refusedLines (ls : List LineNo) : (s.tellLines ls).refusedLines = s.refusedLines := rfl
@[simp] theorem State.tellLines_clock (ls : List LineNo) : (s.tellLines ls).clock = s.clock := rfl
@[simp] theorem State.tellLines_time (ls : List LineNo) : (s.tellLines ls).time = s.time := rfl
@[simp] theorem State.tellLines_mem (ls : List LineNo) : (s.tellLines ls).mem = s.mem := rfl
@[simp] theorem State.tellLines_landings (ls : List LineNo) : (s.tellLines ls).landings = s.landings := rfl
@[simp] theorem State.tellLines_pending (ls : List LineNo) : (s.tellLines ls).pending = s.pending := rfl

/-! ## tellArbiter -/

@[simp] theorem State.tellArbiter_device : (s.tellArbiter).device = s.device := rfl
@[simp] theorem State.tellArbiter_cause : (s.tellArbiter).cause = s.cause := rfl
@[simp] theorem State.tellArbiter_enable : (s.tellArbiter).enable = s.enable := rfl
@[simp] theorem State.tellArbiter_setupAddr : (s.tellArbiter).setupAddr = s.setupAddr := rfl
@[simp] theorem State.tellArbiter_resetHeld : (s.tellArbiter).resetHeld = s.resetHeld := rfl
@[simp] theorem State.tellArbiter_intStatus : (s.tellArbiter).intStatus = s.intStatus := rfl
@[simp] theorem State.tellArbiter_intEnable : (s.tellArbiter).intEnable = s.intEnable := rfl
@[simp] theorem State.tellArbiter_intPin : (s.tellArbiter).intPin = s.intPin := rfl
@[simp] theorem State.tellArbiter_completionInt : (s.tellArbiter).completionInt = s.completionInt := rfl
@[simp] theorem State.tellArbiter_eventInt : (s.tellArbiter).eventInt = s.eventInt := rfl
@[simp] theorem State.tellArbiter_queues : (s.tellArbiter).queues = s.queues := rfl
@[simp] theorem State.tellArbiter_fetchUrgent : (s.tellArbiter).fetchUrgent = s.fetchUrgent := rfl
@[simp] theorem State.tellArbiter_fetchNormal : (s.tellArbiter).fetchNormal = s.fetchNormal := rfl
@[simp] theorem State.tellArbiter_reading : (s.tellArbiter).reading = s.reading := rfl
@[simp] theorem State.tellArbiter_pool : (s.tellArbiter).pool = s.pool := rfl
@[simp] theorem State.tellArbiter_stations : (s.tellArbiter).stations = s.stations := rfl
@[simp] theorem State.tellArbiter_lines : (s.tellArbiter).lines = s.lines := rfl
@[simp] theorem State.tellArbiter_completion : (s.tellArbiter).completion = s.completion := rfl
@[simp] theorem State.tellArbiter_handed : (s.tellArbiter).handed = s.handed := rfl
@[simp] theorem State.tellArbiter_completionWrite : (s.tellArbiter).completionWrite = s.completionWrite := rfl
@[simp] theorem State.tellArbiter_event : (s.tellArbiter).event = s.event := rfl
@[simp] theorem State.tellArbiter_attentions : (s.tellArbiter).attentions = s.attentions := rfl
@[simp] theorem State.tellArbiter_eventWrite : (s.tellArbiter).eventWrite = s.eventWrite := rfl
@[simp] theorem State.tellArbiter_reserved : (s.tellArbiter).reserved = s.reserved := rfl
@[simp] theorem State.tellArbiter_refusedLines : (s.tellArbiter).refusedLines = s.refusedLines := rfl
@[simp] theorem State.tellArbiter_clock : (s.tellArbiter).clock = s.clock := rfl
@[simp] theorem State.tellArbiter_time : (s.tellArbiter).time = s.time := rfl
@[simp] theorem State.tellArbiter_mem : (s.tellArbiter).mem = s.mem := rfl
@[simp] theorem State.tellArbiter_landings : (s.tellArbiter).landings = s.landings := rfl
@[simp] theorem State.tellArbiter_pending : (s.tellArbiter).pending = s.pending := rfl

/-! ## Reading back -/

@[simp] theorem State.line_setLine_same (l : LineNo) (x : Line) : (s.setLine l x).line l = x := by
  simp [State.line, State.setLine]

theorem State.line_setLine_ne {l k : LineNo} (h : k ≠ l) (x : Line) : (s.setLine l x).line k = s.line k := by
  simp only [State.line, State.setLine, Fin.getElem_fin]
  exact Vector.getElem_set_ne l.isLt k.isLt fun e => h (Fin.ext e.symm)

theorem State.line_setLine (l k : LineNo) (x : Line) :
    (s.setLine l x).line k = if k = l then x else s.line k := by
  split
  · next e => subst e; simp
  · next e => exact s.line_setLine_ne e x

@[simp] theorem State.station_setStation_same (h : Handle) (x : Option Station) :
    (s.setStation h x).station h = x := by
  simp [State.station, State.setStation]

theorem State.station_setStation_ne {h k : Handle} (e : k ≠ h) (x : Option Station) :
    (s.setStation h x).station k = s.station k := by
  simp only [State.station, State.setStation, Fin.getElem_fin]
  exact Vector.getElem_set_ne h.isLt k.isLt fun e' => e (Fin.ext e'.symm)

theorem State.station_setStation (h k : Handle) (x : Option Station) :
    (s.setStation h x).station k = if k = h then x else s.station k := by
  split
  · next e => subst e; simp
  · next e => exact s.station_setStation_ne e x

@[simp] theorem State.queue_updQueue_same (q : QueueNo) (f : Queue → Queue) :
    (s.updQueue q f).queue q = f (s.queue q) := by
  simp [State.queue, State.updQueue]

theorem State.queue_updQueue_ne {q k : QueueNo} (e : k ≠ q) (f : Queue → Queue) :
    (s.updQueue q f).queue k = s.queue k := by
  simp only [State.queue, State.updQueue, Fin.getElem_fin]
  exact Vector.getElem_set_ne q.isLt k.isLt fun e' => e (Fin.ext e'.symm)

@[simp] theorem State.updLine_eq (l : LineNo) (f : Line → Line) : s.updLine l f = s.setLine l (f (s.line l)) := rfl

@[simp] theorem State.updStation_eq (h : Handle) (f : Station → Station) :
    s.updStation h f = s.setStation h ((s.station h).map f) := rfl

@[simp] theorem State.line_setStation (h : Handle) (x : Option Station) (l : LineNo) :
    (s.setStation h x).line l = s.line l := rfl

@[simp] theorem State.line_updQueue (q : QueueNo) (f : Queue → Queue) (l : LineNo) :
    (s.updQueue q f).line l = s.line l := rfl

@[simp] theorem State.line_updCtx (id : Nat) (f : Context → Context) (l : LineNo) :
    (s.updCtx id f).line l = s.line l := rfl

@[simp] theorem State.line_elapse (d : Nat) (l : LineNo) : (s.elapse d).line l = s.line l := rfl

@[simp] theorem State.line_drivePin (l : LineNo) : s.drivePin.line l = s.line l := rfl

@[simp] theorem State.station_setLine (l : LineNo) (x : Line) (h : Handle) :
    (s.setLine l x).station h = s.station h := rfl

@[simp] theorem State.station_updQueue (q : QueueNo) (f : Queue → Queue) (h : Handle) :
    (s.updQueue q f).station h = s.station h := rfl

@[simp] theorem State.station_updCtx (id : Nat) (f : Context → Context) (h : Handle) :
    (s.updCtx id f).station h = s.station h := rfl

@[simp] theorem State.station_elapse (d : Nat) (h : Handle) : (s.elapse d).station h = s.station h := rfl

@[simp] theorem State.station_drivePin (h : Handle) : s.drivePin.station h = s.station h := rfl

@[simp] theorem State.queue_setLine (l : LineNo) (x : Line) (q : QueueNo) :
    (s.setLine l x).queue q = s.queue q := rfl

@[simp] theorem State.queue_setStation (h : Handle) (x : Option Station) (q : QueueNo) :
    (s.setStation h x).queue q = s.queue q := rfl

@[simp] theorem State.queue_updCtx (id : Nat) (f : Context → Context) (q : QueueNo) :
    (s.updCtx id f).queue q = s.queue q := rfl

@[simp] theorem State.queue_elapse (d : Nat) (q : QueueNo) : (s.elapse d).queue q = s.queue q := rfl

@[simp] theorem State.queue_drivePin (q : QueueNo) : s.drivePin.queue q = s.queue q := rfl

@[simp] theorem State.ctx_setLine (l : LineNo) (x : Line) (id : Nat) : (s.setLine l x).ctx id = s.ctx id := rfl

@[simp] theorem State.ctx_setStation (h : Handle) (x : Option Station) (id : Nat) :
    (s.setStation h x).ctx id = s.ctx id := rfl

@[simp] theorem State.ctx_updQueue (q : QueueNo) (f : Queue → Queue) (id : Nat) :
    (s.updQueue q f).ctx id = s.ctx id := rfl

@[simp] theorem State.drivePin_intPin : s.drivePin.intPin = (s.intStatus &&& s.intEnable != 0) := rfl

@[simp] theorem State.elapse_clock (d : Nat) : (s.elapse d).clock = s.clock + d := rfl

@[simp] theorem State.reach_eq (t : Nat) : s.reach t = s.elapse (t - s.time) := rfl

@[simp] theorem State.notify_eq (l : LineNo) : s.notify l = s.setLine l (s.line l).noticed := rfl

@[simp] theorem State.tellArbiter_fetchDue : s.tellArbiter.fetchDue = (s.fetchDue || s.reading.isNone) := rfl

@[simp] theorem State.line_tellArbiter (l : LineNo) : s.tellArbiter.line l = s.line l := rfl

@[simp] theorem State.station_tellArbiter (h : Handle) : s.tellArbiter.station h = s.station h := rfl

@[simp] theorem State.queue_tellArbiter (q : QueueNo) : s.tellArbiter.queue q = s.queue q := rfl

@[simp] theorem State.ctx_tellArbiter (id : Nat) : s.tellArbiter.ctx id = s.ctx id := rfl

@[simp] theorem State.station_tellLines (ls : List LineNo) (h : Handle) : (s.tellLines ls).station h = s.station h := rfl

@[simp] theorem State.queue_tellLines (ls : List LineNo) (q : QueueNo) : (s.tellLines ls).queue q = s.queue q := rfl

@[simp] theorem State.ctx_tellLines (ls : List LineNo) (id : Nat) : (s.tellLines ls).ctx id = s.ctx id := rfl

/-- What a notice to the lines listed does to each line. -/
@[simp] theorem State.line_tellLines (ls : List LineNo) (l : LineNo) :
    (s.tellLines ls).line l = if ls.contains l then (s.line l).noticed else s.line l := by
  simp [State.line, State.tellLines]

/-- With no rate installed since, a duration reaches its threshold at the threshold. -/
theorem Line.reaches_of_le (x : Line) {start n : Nat} (h : x.rateSince ≤ start + n * x.char) :
    x.reaches start n = start + n * x.char := Nat.max_eq_left h

/-- A threshold that had passed when the rate in force was installed is reached at the installation. -/
theorem Line.reaches_of_ge (x : Line) {start n : Nat} (h : start + n * x.char ≤ x.rateSince) :
    x.reaches start n = x.rateSince := Nat.max_eq_right h

/-- A guard ends neither before its quiet time nor before its entry. -/
theorem Line.guardMoment_le_iff (x : Line) {t : Nat} :
    x.guardMoment ≤ t ↔ x.quietMoment ≤ t ∧ x.guardSince ≤ t := Nat.max_le

/-- A restart of the quiet time changes nothing else of a line. -/
@[simp] theorem Line.restartQuiet_state (x : Line) (t : Nat) : (x.restartQuiet t).state = x.state := rfl

@[simp] theorem Line.restartQuiet_driverEnable (x : Line) (t : Nat) : (x.restartQuiet t).driverEnable = x.driverEnable := rfl

@[simp] theorem Line.restartQuiet_txd (x : Line) (t : Nat) : (x.restartQuiet t).txd = x.txd := rfl

/-- R84: the quiet time then counts from no moment before `t`, and from none before the one it counted from. -/
theorem Line.restartQuiet_latest (x : Line) {t q : Nat} (h : (x.restartQuiet t).quietSince = some q) :
    t ≤ q ∧ ∀ p, x.quietSince = some p → p ≤ q := by
  cases h
  refine ⟨Nat.le_max_right _ _, fun p hp => ?_⟩
  rw [hp]
  exact Nat.le_max_left _ _

/-- A notice owes a consultation to an IDLE engine and changes nothing else of a line. -/
theorem Line.noticed_eq (x : Line) : x.noticed = { x with consultDue := x.consultDue || x.state == .idle } := by
  unfold Line.noticed
  split
  · next h => rw [show (x.state == EngineState.idle) = true by rw [h]; rfl, Bool.or_true]
  · next h => rw [show (x.state == EngineState.idle) = false by simpa using h, Bool.or_false]

@[simp] theorem Line.noticed_state (x : Line) : x.noticed.state = x.state := by rw [Line.noticed_eq]

@[simp] theorem Line.noticed_driverEnable (x : Line) : x.noticed.driverEnable = x.driverEnable := by
  rw [Line.noticed_eq]

@[simp] theorem Line.noticed_txd (x : Line) : x.noticed.txd = x.txd := by rw [Line.noticed_eq]

@[simp] theorem State.setCause_eq (c : IntCause) :
    s.setCause c = ({ s with intStatus := s.intStatus ||| c.mask } : State).drivePin := rfl

end Sys2Proof.Machine
end

