-- ==== Sys2Proof/Laws/Ends.lean ====
section
/-! SUPPORT. Everything the ends of records, exchanges and broadcasts can move, said once: `State.Ends`. -/

namespace Sys2Proof.Machine

/-- What an end may change of a station: its pending list and its link; a CLOSING entry may become free. -/
def EndsStation (x y : Option Station) : Prop :=
  match x, y with
  | none, none => True
  | some x, some y => y = { x with pending := y.pending, link := y.link }
  | some x, none => x.state = .closing
  | none, some _ => False

/-- What an end may change of a line: its retry list, its broadcast FIFO, whose payload the buffer holds, and, in IDLE,
that a consultation is owed. -/
def EndsLine (x y : Line) : Prop :=
  x.Told y ∧
    y = { x with retryList := y.retryList, fifo := y.fifo, txHolds := y.txHolds, consultDue := y.consultDue }

/-- What the end of a record, exchange or broadcast may change. -/
structure State.Ends (s t : State) : Prop where
  rest : t = { s with pool := t.pool, handed := t.handed, stations := t.stations, lines := t.lines }
  lines : ∀ l, EndsLine (s.line l) (t.line l)
  stations : ∀ h, EndsStation (s.station h) (t.station h)

theorem Line.Told.refl (x : Line) : x.Told x := ⟨id, fun _ => rfl⟩

theorem Line.Told.trans {x y z : Line} (a : x.Told y) (b : y.Told z) (e : y.state = x.state) : x.Told z :=
  ⟨b.1 ∘ a.1, fun h => (b.2 (e ▸ h)).trans (a.2 h)⟩

theorem Line.told_noticed (x : Line) : x.Told x.noticed := by
  rw [Line.noticed_eq]
  exact ⟨fun h => by simp [h], fun h => by simp [h]⟩

theorem EndsLine.refl (x : Line) : EndsLine x x := ⟨.refl x, rfl⟩

/-- The engine state, driver enable and transmit output of a line stay. -/
theorem EndsLine.rest {x y : Line} (h : EndsLine x y) :
    y.state = x.state ∧ y.driverEnable = x.driverEnable ∧ y.txd = x.txd := by
  have := h.2
  rw [this]
  exact ⟨rfl, rfl, rfl⟩

theorem EndsLine.trans {x y z : Line} (a : EndsLine x y) (b : EndsLine y z) : EndsLine x z := by
  refine ⟨a.1.trans b.1 a.rest.1, ?_⟩
  have ha := a.2
  have hb := b.2
  rw [ha] at hb
  exact hb

theorem EndsLine.noticed (x : Line) : EndsLine x x.noticed := ⟨x.told_noticed, by rw [Line.noticed_eq]⟩

theorem EndsStation.refl (x : Option Station) : EndsStation x x := by cases x <;> simp [EndsStation]

theorem EndsStation.trans {x y z : Option Station} (a : EndsStation x y) (b : EndsStation y z) : EndsStation x z := by
  rcases x with _ | x <;> rcases y with _ | y <;> rcases z with _ | z <;> simp only [EndsStation] at a b ⊢
  · exact a
  · rw [a] at b; exact b
  · cases x; cases y; cases z; simp_all

theorem State.Ends.refl (s : State) : s.Ends s := ⟨rfl, fun _ => .refl _, fun _ => EndsStation.refl _⟩

theorem State.Ends.trans {s t u : State} (a : s.Ends t) (b : t.Ends u) : s.Ends u := by
  refine ⟨?_, fun l => (a.lines l).trans (b.lines l), fun h => (a.stations h).trans (b.stations h)⟩
  have hb := b.rest
  rw [a.rest] at hb
  exact hb

/-- A fold of ends is an end. -/
theorem State.Ends.foldl {α : Type} (f : State → α → State) (hf : ∀ (s : State) a, s.Ends (f s a)) (as : List α) (s : State) :
    s.Ends (as.foldl f s) := by
  induction as generalizing s with
  | nil => exact .refl s
  | cons a rest ih => exact (hf s a).trans (ih _)

theorem State.ends_updCtx (s : State) (id : Nat) (f : Context → Context) : s.Ends (s.updCtx id f) :=
  ⟨rfl, fun _ => .refl _, fun _ => EndsStation.refl _⟩

theorem State.ends_updStation (s : State) (h : Handle) (f : Station → Station)
    (hf : ∀ x, f x = { x with pending := (f x).pending, link := (f x).link }) : s.Ends (s.updStation h f) := by
  refine ⟨rfl, fun _ => .refl _, fun k => ?_⟩
  rw [State.updStation_eq, State.station_setStation]
  split
  · next e =>
    subst e
    cases s.station k with
    | none => simp [EndsStation]
    | some x => exact hf x
  · exact EndsStation.refl _

theorem State.ends_updLine (s : State) (l : LineNo) (f : Line → Line)
    (hf : ∀ x, f x = { x with retryList := (f x).retryList, fifo := (f x).fifo, txHolds := (f x).txHolds }) :
    s.Ends (s.updLine l f) := by
  refine ⟨rfl, fun k => ?_, fun _ => EndsStation.refl _⟩
  rw [State.updLine_eq, State.line_setLine]
  split
  · next e =>
    subst e
    have := hf (s.line k)
    refine ⟨⟨fun h => ?_, fun _ => ?_⟩, ?_⟩
    · rw [this]; exact h
    · rw [this]
    · rw [this]
  · exact .refl _

theorem State.ends_notify (s : State) (l : LineNo) : s.Ends (s.notify l) := by
  refine ⟨rfl, fun k => ?_, fun _ => EndsStation.refl _⟩
  rw [State.notify_eq, State.line_setLine]
  split
  · next e => subst e; exact .noticed _
  · exact .refl _

theorem State.ends_hand (s : State) (id : Nat) (st : Status) (d : Detail) (n : Nat) (b : Option (Fin 8))
    (t : Option Nat) : s.Ends (s.hand id st d n b t) := by
  unfold State.hand
  split
  · exact .refl s
  · split
    · exact .refl s
    · exact ⟨rfl, fun _ => .refl _, fun _ => EndsStation.refl _⟩

theorem State.ends_endRecord (s : State) (id : Nat) (st : Status) (d : Detail) : s.Ends (s.endRecord id st d) :=
  s.ends_hand _ _ _ _ _ _

theorem State.ends_endOk (s : State) (id : Nat) : s.Ends (s.endOk id) := s.ends_endRecord _ _ _

theorem State.ends_leavePending (s : State) (c : Context) : s.Ends (s.leavePending c) := by
  unfold State.leavePending
  split
  · exact s.ends_updStation _ _ fun _ => rfl
  · exact .refl s

theorem State.ends_leaveLists (s : State) (c : Context) : s.Ends (s.leaveLists c) := by
  unfold State.leaveLists
  split
  · exact (s.ends_leavePending c).trans (State.ends_updLine _ _ _ fun _ => rfl)
  · exact s.ends_leavePending c

theorem State.ends_linkInDoubt (s : State) (h : Handle) : s.Ends (s.linkInDoubt h) := by
  unfold State.linkInDoubt
  split
  · exact .refl s
  · next st hst =>
    have e : s.Ends (s.setStation h (some { st with link := .uncertain })) := by
      refine ⟨rfl, fun _ => .refl _, fun k => ?_⟩
      rw [State.station_setStation]
      split
      · next e => subst e; rw [hst]; rfl
      · exact EndsStation.refl _
    simp only
    split
    · exact e.trans (State.ends_notify _ _)
    · exact e

theorem State.ends_markUncertain (s : State) (c : Context) (st : Status) : s.Ends (s.markUncertain c st) := by
  unfold State.markUncertain
  split
  · split
    · exact s.ends_linkInDoubt _
    · exact .refl s
  · exact .refl s

theorem State.ends_endOne (s : State) (id : Nat) (st : Status) (d : Detail) (n : Nat) : s.Ends (s.endOne id st d n) := by
  unfold State.endOne
  split
  · exact .refl s
  · split
    · exact .refl s
    · exact ((s.ends_leaveLists _).trans (State.ends_markUncertain _ _ _)).trans (State.ends_hand _ _ _ _ _ _ _)

theorem State.ends_endPlain (s : State) (id : Nat) (st : Status) : s.Ends (s.endPlain id st) := s.ends_endOne _ _ _ _

theorem State.ends_endList (s : State) (h : Handle) (st : Status) : s.Ends (s.endList h st) := by
  unfold State.endList
  split
  · exact .refl s
  · exact .foldl _ (fun s id => s.ends_endPlain id st) _ _

theorem State.ends_free (s : State) (h : Handle) (hc : ∀ x, s.station h = some x → x.state = .closing) :
    s.Ends (s.setStation h none) := by
  refine ⟨rfl, fun _ => .refl _, fun k => ?_⟩
  rw [State.station_setStation]
  split
  · next e =>
    subst e
    cases hx : s.station k with
    | none => simp [EndsStation]
    | some x => exact hc x hx
  · exact EndsStation.refl _

theorem State.ends_tryFree (s : State) (h : Handle) : s.Ends (s.tryFree h) := by
  unfold State.tryFree
  split
  · exact .refl s
  · next st hst =>
    split
    · next hc =>
      have hf := s.ends_free h fun x hx => by rw [hst] at hx; cases hx; exact hc.1
      split
      · exact hf.trans (State.ends_endRecord _ _ _ _)
      · exact hf
    · exact .refl s

theorem State.ends_drainClosing (s : State) (h : Handle) : s.Ends (s.drainClosing h) := by
  unfold State.drainClosing
  split
  · exact .refl s
  · split
    · exact s.ends_endList _ _
    · exact .refl s

theorem State.ends_settleClosing (s : State) (h : Handle) : s.Ends (s.settleClosing h) :=
  (s.ends_drainClosing h).trans (State.ends_tryFree _ h)

theorem State.ends_endExchange (s : State) (id : Nat) (st : Status) (d : Detail) (n : Nat) :
    s.Ends (s.endExchange id st d n) := by
  unfold State.endExchange
  split
  · exact .refl s
  · simp only
    split
    · exact (s.ends_endOne _ _ _ _).trans (State.ends_settleClosing _ _)
    · exact s.ends_endOne _ _ _ _

theorem State.ends_endWith (s : State) (id : Nat) (st : Status) : s.Ends (s.endWith id st) := s.ends_endExchange _ _ _ _

theorem State.ends_endAbort (s : State) (a : Option Nat) (st : Status) : s.Ends (s.endAbort a st) := by
  unfold State.endAbort
  split
  · exact s.ends_endRecord _ _ _
  · exact .refl s

theorem State.ends_endBreak (s : State) (id : Nat) : s.Ends (s.endBreak id) :=
  (s.ends_updCtx _ _).trans (State.ends_endWith _ _ _)

theorem State.ends_endRetries (s : State) (l : LineNo) : s.Ends (s.endRetries l) :=
  .foldl _ (fun s id => s.ends_endBreak id) _ _

theorem State.ends_drainOffline (s : State) (h : Handle) (job : Job) : s.Ends (s.drainOffline h job) := by
  unfold State.drainOffline
  refine State.Ends.trans ?_ (State.ends_endList _ h .stationOffline)
  cases job with
  | command id g o =>
    simp only
    split
    · exact (s.ends_endPlain _ _).trans (State.ends_endAbort _ _ _)
    · exact s.ends_endPlain _ _
  | broadcast id => exact .refl s
  | poll g p => exact .refl s
  | link g => exact .refl s
  | probe g => exact .refl s

theorem State.ends_linkLoop (s : State) (st : Station) (o : AttemptOutcome) : s.Ends (s.linkLoop st o) := by
  unfold State.linkLoop
  split
  · exact .refl s
  · split
    · exact .refl s
    · split
      · exact .refl s
      · exact (s.ends_updCtx _ _).trans (State.ends_endWith _ _ _)

theorem State.ends_awaitRetry (s : State) (l : LineNo) (id : Nat) : s.Ends (s.awaitRetry l id) :=
  (s.ends_updCtx _ _).trans (State.ends_updLine _ _ _ fun _ => rfl)

theorem State.ends_returnToWait (s : State) (l : LineNo) (id : Nat) (origin : Phase) :
    s.Ends (s.returnToWait l id origin) := by
  unfold State.returnToWait
  simp only
  split
  · exact (s.ends_updCtx _ _).trans (State.ends_updLine _ _ _ fun _ => rfl)
  · exact s.ends_updCtx _ _

theorem State.ends_exchangeFailed (s : State) (l : LineNo) (c : Context) (st : Station) :
    s.Ends (s.exchangeFailed l c st) := by
  unfold State.exchangeFailed
  split
  · exact (s.ends_endWith _ _).trans (State.ends_endAbort _ _ _)
  · split
    · split
      · exact s.ends_endWith _ _
      · exact s.ends_awaitRetry _ _
    · exact s.ends_endWith _ _

theorem State.ends_exchangeBusy (s : State) (c : Context) (st : Station) : s.Ends (s.exchangeBusy c st) := by
  unfold State.exchangeBusy
  split
  · exact (s.ends_endWith _ _).trans (State.ends_endAbort _ _ _)
  · split
    · exact s.ends_endWith _ _
    · split
      · exact s.ends_endWith _ _
      · exact s.ends_updCtx _ _

theorem State.ends_cancelAbandoned (s : State) (job : Option Job) : s.Ends (s.cancelAbandoned job) := by
  unfold State.cancelAbandoned
  split
  · split
    · split
      · exact s.ends_endWith _ _
      · exact .refl s
    · exact .refl s
  · exact .refl s

theorem State.ends_beginAttempt (s : State) (job : Job) : s.Ends (s.beginAttempt job) := by
  cases job with
  | command id h o => exact s.ends_updCtx _ _
  | broadcast id => exact s.ends_updCtx _ _
  | poll h p => exact .refl s
  | probe h => exact .refl s
  | link h =>
    simp only [State.beginAttempt]
    split
    · split
      · split
        · exact s.ends_updCtx _ _
        · exact .refl s
      · exact .refl s
    · exact .refl s

theorem State.ends_markUnanswered (s : State) (job : Job) : s.Ends (s.markUnanswered job) := by
  cases job with
  | command id h o => exact s.ends_updCtx _ _
  | broadcast id => exact .refl s
  | poll h p => exact .refl s
  | link h => exact .refl s
  | probe h => exact .refl s

theorem State.ends_fenceCounts (s : State) (id : Nat) : s.Ends (s.fenceCounts id) := by
  unfold State.fenceCounts
  simp only
  split
  · exact (s.ends_updCtx _ _).trans (State.ends_endRecord _ _ _ _)
  · exact s.ends_updCtx _ _

theorem State.ends_freeContext (s : State) (id : Nat) : s.Ends (s.freeContext id) := by
  unfold State.freeContext
  split
  · exact .refl s
  · exact (State.Ends.foldl _ (fun s id => s.ends_fenceCounts id) _ _).trans
      ⟨rfl, fun _ => .refl _, fun _ => EndsStation.refl _⟩

theorem State.ends_abortContext (s : State) (c : Context) (id : Nat) : s.Ends (s.abortContext c id) := by
  unfold State.abortContext
  split
  · exact (s.ends_endWith _ _).trans (State.ends_endOk _ _)
  · exact (s.ends_endWith _ _).trans (State.ends_endOk _ _)
  · exact (s.ends_endWith _ _).trans (State.ends_endOk _ _)
  · exact s.ends_updCtx _ _
  · exact s.ends_updCtx _ _
  · exact .refl s

theorem State.ends_abortRecord (s : State) (q : QueueNo) (t id : Nat) : s.Ends (s.abortRecord q t id) := by
  unfold State.abortRecord
  split
  · exact s.ends_abortContext _ _
  · exact s.ends_endRecord _ _ _

theorem State.ends_fenceRecord (s : State) (id : Nat) : s.Ends (s.fenceRecord id) := by
  unfold State.fenceRecord
  simp only
  split
  · exact (s.ends_updCtx _ _).trans (State.ends_endOk _ _)
  · exact s.ends_updCtx _ _

end Sys2Proof.Machine
end

