-- ==== Sys2Proof/Laws/Memory.lean ====
section
/-! SUPPORT. The memory operations: a read after a write, and the canonical form (entry 11). -/

namespace Sys2Proof.Machine

/-- The canonical form as a proposition. -/
theorem memoryOrdered_iff (m : List Host.Cell) : memoryOrdered m = true ↔ m.Pairwise fun a b => a.1 < b.1 := by
  simp [memoryOrdered]

theorem writeByte_mem_keys (a : Nat) (b : Byte) (m : List Host.Cell) (c : Host.Cell) (h : c ∈ writeByte a b m) :
    c = (a, b) ∨ c ∈ m := by
  induction m with
  | nil => simpa [writeByte] using h
  | cons d rest ih =>
    obtain ⟨k, v⟩ := d
    simp only [writeByte] at h
    split at h
    · simpa using h
    · split at h
      · rcases List.mem_cons.1 h with h | h
        · exact .inl h
        · exact .inr (List.mem_cons_of_mem _ h)
      · rcases List.mem_cons.1 h with h | h
        · exact .inr (h ▸ List.mem_cons_self)
        · rcases ih h with h | h
          · exact .inl h
          · exact .inr (List.mem_cons_of_mem _ h)

/-- A write of one octet keeps the canonical form. -/
theorem memoryOrdered_writeByte (a : Nat) (b : Byte) (m : List Host.Cell) (h : memoryOrdered m = true) :
    memoryOrdered (writeByte a b m) = true := by
  rw [memoryOrdered_iff] at *
  induction m with
  | nil => simp [writeByte]
  | cons d rest ih =>
    obtain ⟨k, v⟩ := d
    simp only [writeByte]
    obtain ⟨hd, hr⟩ := List.pairwise_cons.1 h
    split
    · next lt =>
      refine List.pairwise_cons.2 ⟨fun c hc => ?_, h⟩
      rcases List.mem_cons.1 hc with hc | hc
      · subst hc; exact lt
      · exact Nat.lt_trans lt (hd c hc)
    · split
      · next e => subst e; exact List.pairwise_cons.2 ⟨hd, hr⟩
      · next nlt ne =>
        refine List.pairwise_cons.2 ⟨fun c hc => ?_, ih hr⟩
        rcases writeByte_mem_keys a b rest c hc with hc | hc
        · subst hc; simp only; omega
        · exact hd c hc

/-- A write of several octets keeps the canonical form. -/
theorem memoryOrdered_writeOctets (base : Word) (octets : List Byte) (offsets : List Nat) (m : List Host.Cell)
    (h : memoryOrdered m = true) : memoryOrdered (writeOctets base octets offsets m) = true := by
  unfold writeOctets
  induction offsets generalizing m with
  | nil => exact h
  | cons i rest ih => exact ih _ (memoryOrdered_writeByte _ _ _ h)

/-- A read after a write of one octet. -/
theorem readMem_writeByte (a k : Nat) (b : Byte) (m : List Host.Cell) :
    readMem (writeByte a b m) k = if k = a then some b else readMem m k := by
  induction m with
  | nil =>
    by_cases e : k = a
    · subst e; simp [readMem, writeByte]
    · simp [readMem, writeByte, e, Ne.symm e]
  | cons d rest ih =>
    obtain ⟨j, v⟩ := d
    simp only [readMem] at ih ⊢
    simp only [writeByte]
    by_cases e : k = a
    · subst e
      split
      · simp
      · split
        · simp
        · next ne =>
          have : (j == k) = false := by simp only [beq_eq_false_iff_ne]; exact fun e => ne e.symm
          rw [List.find?_cons_of_neg (by simp [this])]
          simpa using ih
    · have h2 : (a == k) = false := by simp only [beq_eq_false_iff_ne]; exact fun h => e h.symm
      split
      · rw [List.find?_cons_of_neg (by simp [h2])]
      · split
        · next e2 => subst e2; simp [h2]
        · simp only [e, if_false] at ih ⊢
          simp only [List.find?_cons]
          split
          · rfl
          · exact ih

/-- A write of several octets changes no address it does not name. -/
theorem readMem_writeOctets_ne (base : Word) (octets : List Byte) (offsets : List Nat) (m : List Host.Cell) (k : Nat)
    (h : ∀ i ∈ offsets, k ≠ addrPlus base i) : readMem (writeOctets base octets offsets m) k = readMem m k := by
  unfold writeOctets
  induction offsets generalizing m with
  | nil => rfl
  | cons i rest ih =>
    rw [List.foldl_cons, ih _ fun j hj => h j (List.mem_cons_of_mem _ hj), readMem_writeByte,
      if_neg (h i List.mem_cons_self)]

/-- Memory with nothing listed has the canonical form. -/
theorem memoryOrdered_reset : memoryOrdered State.reset.mem = true := by decide

end Sys2Proof.Machine
end

