-- ==== Sys2Proof/Laws/Keeps.lean ====
section
/-! SUPPORT. The shared operations keep the invariants of Safety: one relation, `State.Keeps`, closed under composition,
with one lemma per operation. -/

namespace Sys2Proof.Machine

/-- Each invariant of Safety that holds of `s` holds of `t`. -/
structure State.Keeps (s t : State) : Prop where
  drivers : s.DriversSafe → t.DriversSafe
  pairs : s.PairsDistinct → t.PairsDistinct
  misses : s.TimersMatch → s.MissesCounted → t.MissesCounted
  timers : s.TimersMatch → t.TimersMatch
  pin : s.PinFollows → t.PinFollows
  memory : s.MemoryCanonical → t.MemoryCanonical

theorem State.Keeps.refl (s : State) : s.Keeps s := ⟨id, id, fun _ => id, id, id, id⟩

theorem State.Keeps.trans {s t u : State} (a : s.Keeps t) (b : t.Keeps u) : s.Keeps u :=
  ⟨b.drivers ∘ a.drivers, b.pairs ∘ a.pairs, fun ht hm => b.misses (a.timers ht) (a.misses ht hm), b.timers ∘ a.timers,
    b.pin ∘ a.pin, b.memory ∘ a.memory⟩

theorem State.Keeps.foldl {α : Type} (f : State → α → State) (hf : ∀ (s : State) a, s.Keeps (f s a)) (as : List α)
    (s : State) : s.Keeps (as.foldl f s) := by
  induction as generalizing s with
  | nil => exact .refl s
  | cons a rest ih => exact (hf s a).trans (ih _)

/-- What an entry's change must keep for the station invariants. -/
structure StationKeeps (x y : Station) : Prop where
  line : y.line = x.line
  address : y.address = x.address
  misses : x.timerRule → x.missRule → y.missRule
  timers : x.timerRule → y.timerRule

theorem StationKeeps.refl (x : Station) : StationKeeps x x := ⟨rfl, rfl, fun _ => id, id⟩

theorem StationKeeps.trans {x y z : Station} (a : StationKeeps x y) (b : StationKeeps y z) : StationKeeps x z :=
  ⟨b.line.trans a.line, b.address.trans a.address, fun ht hm => b.misses (a.timers ht) (a.misses ht hm),
    b.timers ∘ a.timers⟩

/-- A change of an entry outside line, address, state, closing from, misses and timers. -/
theorem StationKeeps.plain {x y : Station} (h1 : y.line = x.line) (h2 : y.address = x.address)
    (h3 : y.state = x.state) (h4 : y.closingFrom = x.closingFrom) (h5 : y.missLimit = x.missLimit)
    (h6 : y.missCount = x.missCount) (h7 : y.timer = x.timer) (h8 : y.pollInterval = x.pollInterval)
    (h9 : y.pollDue = x.pollDue) : StationKeeps x y := by
  refine ⟨h1, h2, fun _ h => ?_, fun h => ?_⟩
  · simpa only [Station.missRule, h3, h4, h5, h6] using h
  · simpa only [Station.timerRule, h3, h7, h8, h9] using h

/-- The lines, entries, interrupt unit and memory of `t` are those of `s`, up to changes that keep each rule. -/
theorem State.keeps_of {s t : State} (hl : ∀ l, (s.line l).driverRule → (t.line l).driverRule)
    (hs : ∀ h y, t.station h = some y → ∃ x, s.station h = some x ∧ StationKeeps x y)
    (hp : s.PinFollows → t.PinFollows) (hm : s.MemoryCanonical → t.MemoryCanonical) : s.Keeps t := by
  refine ⟨fun h l => hl l (h l), fun h => ⟨fun k y hy => ?_, fun k j a b ha hb e1 e2 => ?_⟩, fun ht h k y hy => ?_,
    fun h k y hy => ?_, hp, hm⟩
  · obtain ⟨x, hx, e⟩ := hs k y hy
    rw [e.address]; exact h.1 k x hx
  · obtain ⟨x, hx, ex⟩ := hs k a ha
    obtain ⟨y, hy, ey⟩ := hs j b hb
    exact h.2 k j x y hx hy (by rw [← ex.line, ← ey.line, e1]) (by rw [← ex.address, ← ey.address, e2])
  · obtain ⟨x, hx, e⟩ := hs k y hy
    exact e.misses (ht k x hx) (h k x hx)
  · obtain ⟨x, hx, e⟩ := hs k y hy
    exact e.timers (h k x hx)

/-- Nothing that an invariant reads has changed. -/
theorem State.keeps_same {s t : State} (h1 : t.lines = s.lines) (h2 : t.stations = s.stations)
    (h3 : t.intPin = s.intPin) (h4 : t.intStatus = s.intStatus) (h5 : t.intEnable = s.intEnable)
    (h6 : t.mem = s.mem) : s.Keeps t := by
  refine State.keeps_of (fun l => ?_) (fun h y hy => ⟨y, ?_, .refl y⟩) (fun h => ?_) (fun h => ?_)
  · simp only [State.line, h1, imp_self]
  · simpa only [State.station, h2] using hy
  · simpa only [State.PinFollows, h3, h4, h5] using h
  · simpa only [State.MemoryCanonical, h6] using h

theorem State.keeps_setLine (s : State) (l : LineNo) (x : Line) (hx : (s.line l).driverRule → x.driverRule) :
    s.Keeps (s.setLine l x) := by
  refine State.keeps_of (fun k => ?_) (fun h y hy => ⟨y, hy, .refl y⟩) id id
  rw [State.line_setLine]
  split
  · next e => subst e; exact hx
  · exact id

theorem State.keeps_updLine (s : State) (l : LineNo) (f : Line → Line)
    (hf : (s.line l).driverRule → (f (s.line l)).driverRule) : s.Keeps (s.updLine l f) :=
  s.keeps_setLine l _ hf

theorem State.keeps_setStation (s : State) (h : Handle) (y : Option Station)
    (hy : ∀ z, y = some z → ∃ x, s.station h = some x ∧ StationKeeps x z) : s.Keeps (s.setStation h y) := by
  refine State.keeps_of (fun k => id) (fun k z hz => ?_) id id
  rw [State.station_setStation] at hz
  split at hz
  · next e => subst e; exact hy z hz
  · exact ⟨z, hz, .refl z⟩

theorem State.keeps_updStation (s : State) (h : Handle) (f : Station → Station) (hf : ∀ x, StationKeeps x (f x)) :
    s.Keeps (s.updStation h f) := by
  refine s.keeps_setStation h _ fun z hz => ?_
  cases hx : s.station h with
  | none => rw [hx] at hz; simp at hz
  | some x =>
    rw [hx] at hz
    simp only [Option.map_some, Option.some.injEq] at hz
    exact ⟨x, rfl, hz ▸ hf x⟩

theorem State.keeps_ends {s t : State} (e : s.Ends t) : s.Keeps t := by
  have hr := e.rest
  refine State.keeps_of (fun l h => ?_) (fun h y hy => ?_) (fun h => ?_) (fun h => ?_)
  · have := (e.lines l).rest
    simpa only [Line.driverRule, this] using h
  · have := e.stations h
    rw [hy] at this
    cases hx : s.station h with
    | none => rw [hx] at this; exact this.elim
    | some x =>
      rw [hx] at this
      simp only [EndsStation] at this
      refine ⟨x, rfl, ?_⟩
      rw [this]
      exact .plain rfl rfl rfl rfl rfl rfl rfl rfl rfl
  · rw [hr]; exact h
  · rw [hr]; exact h

theorem State.keeps_drivePin (s : State) (t : State) (h1 : t.lines = s.lines) (h2 : t.stations = s.stations)
    (h3 : t.mem = s.mem) : s.Keeps t.drivePin := by
  refine State.keeps_of (fun l => ?_) (fun h y hy => ⟨y, ?_, .refl y⟩) (fun _ => rfl) (fun h => ?_)
  · simp only [State.line, State.drivePin, h1, imp_self]
  · simpa only [State.station, State.drivePin, h2] using hy
  · simpa only [State.MemoryCanonical, State.drivePin, h3] using h

theorem State.keeps_setCause (s : State) (c : IntCause) : s.Keeps (s.setCause c) := State.keeps_drivePin s _ rfl rfl rfl

theorem State.keeps_elapse (s : State) (d : Nat) : s.Keeps (s.elapse d) := State.keeps_same rfl rfl rfl rfl rfl rfl

theorem State.keeps_reach (s : State) (t : Nat) : s.Keeps (s.reach t) := s.keeps_elapse _

theorem State.keeps_tellArbiter (s : State) : s.Keeps s.tellArbiter := State.keeps_same rfl rfl rfl rfl rfl rfl

theorem State.keeps_tellLines (s : State) (ls : List LineNo) : s.Keeps (s.tellLines ls) := by
  refine State.keeps_of (fun l h => ?_) (fun h y hy => ⟨y, hy, .refl y⟩) id id
  rw [State.line_tellLines, Line.noticed_eq]
  split <;> exact h

theorem State.keeps_mem (s t : State) (h1 : t.lines = s.lines) (h2 : t.stations = s.stations) (h3 : t.intPin = s.intPin)
    (h4 : t.intStatus = s.intStatus) (h5 : t.intEnable = s.intEnable) (base : Word) (octets : List Byte)
    (offsets : List Nat) (h6 : t.mem = writeOctets base octets offsets s.mem) : s.Keeps t := by
  refine State.keeps_of (fun l => ?_) (fun h y hy => ⟨y, ?_, .refl y⟩) (fun h => ?_) (fun h => ?_)
  · simp only [State.line, h1, imp_self]
  · simpa only [State.station, h2] using hy
  · simpa only [State.PinFollows, h3, h4, h5] using h
  · rw [State.MemoryCanonical, h6]
    exact memoryOrdered_writeOctets _ _ _ _ h

/-! ## The writers and the end of a step -/

theorem State.keeps_judgeGrant (s : State) : s.Keeps s.judgeGrant := by
  unfold State.judgeGrant
  split
  · exact (s.keeps_tellLines s.refusedLines).trans (State.keeps_same rfl rfl rfl rfl rfl rfl)
  · exact .refl s

theorem State.keeps_takePlace (s : State) : s.Keeps s.takePlace := by
  unfold State.takePlace
  refine State.Keeps.trans ?_ (State.keeps_judgeGrant _)
  exact State.keeps_same rfl rfl rfl rfl rfl rfl

theorem State.keeps_beginEvent (s : State) (octets : List Byte) (a : Option (LineNo × Handle)) :
    s.Keeps (s.beginEvent octets a) := State.keeps_same rfl rfl rfl rfl rfl rfl

theorem State.keeps_takeLineReport (s : State) (l : LineNo) : s.Keeps (s.takeLineReport l) := by
  unfold State.takeLineReport
  refine State.Keeps.trans ?_ (State.keeps_takePlace _)
  refine State.Keeps.trans ?_ (State.keeps_beginEvent _ _ _)
  exact s.keeps_updLine _ _ id

theorem State.keeps_takeQueueReport (s : State) (q : QueueNo) (r : QueueReport) : s.Keeps (s.takeQueueReport q r) := by
  unfold State.takeQueueReport
  refine State.Keeps.trans ?_ (State.keeps_takePlace _)
  refine State.Keeps.trans ?_ (State.keeps_beginEvent _ _ _)
  exact State.keeps_same rfl rfl rfl rfl rfl rfl

theorem State.keeps_takePresenceReport (s : State) (h : Handle) (st : Station) (hst : s.station h = some st) :
    s.Keeps (s.takePresenceReport h st) := by
  unfold State.takePresenceReport
  refine State.Keeps.trans ?_ (State.keeps_takePlace _)
  refine State.Keeps.trans ?_ (State.keeps_beginEvent _ _ _)
  refine s.keeps_setStation _ _ fun z hz => ⟨st, hst, ?_⟩
  cases hz
  exact .plain rfl rfl rfl rfl rfl rfl rfl rfl rfl

theorem State.keeps_takeReport (s : State) : s.Keeps s.takeReport := by
  unfold State.takeReport
  split
  · exact s.keeps_takeLineReport _
  · split
    · split
      · exact s.keeps_takeQueueReport _ _
      · exact .refl s
    · split
      · split
        · next st hst => exact s.keeps_takePresenceReport _ st hst
        · exact .refl s
      · exact .refl s

theorem State.keeps_startEvent (s : State) : s.Keeps s.startEvent := by
  unfold State.startEvent
  split
  · exact .refl s
  · split
    · refine State.Keeps.trans ?_ (State.keeps_beginEvent _ _ _)
      exact State.keeps_same rfl rfl rfl rfl rfl rfl
    · split
      · exact s.keeps_takeReport
      · exact .refl s

theorem State.keeps_startCompletion (s : State) : s.Keeps s.startCompletion := by
  unfold State.startCompletion
  split
  · exact State.keeps_same rfl rfl rfl rfl rfl rfl
  · exact .refl s

theorem State.keeps_checkHalted (s : State) : s.Keeps s.checkHalted := by
  unfold State.checkHalted
  split
  · exact State.keeps_drivePin s _ rfl rfl rfl
  · exact .refl s

theorem State.keeps_finish (s : State) : s.Keeps s.finish := by
  unfold State.finish
  split
  · exact ((s.keeps_startCompletion).trans (State.keeps_startEvent _)).trans (State.keeps_checkHalted _)
  · exact .refl s

theorem State.keeps_completionPosting (s : State) : s.Keeps s.completionPosting := by
  unfold State.completionPosting
  simp only
  split
  · exact State.keeps_drivePin s _ rfl rfl rfl
  · exact State.keeps_same rfl rfl rfl rfl rfl rfl

theorem State.keeps_eventPosting (s : State) : s.Keeps s.eventPosting := by
  unfold State.eventPosting
  simp only
  split
  · exact State.keeps_drivePin s _ rfl rfl rfl
  · exact State.keeps_same rfl rfl rfl rfl rfl rfl

theorem State.keeps_releaseReservation (s : State) : s.Keeps s.releaseReservation := by
  unfold State.releaseReservation
  refine State.Keeps.trans ?_ (State.keeps_judgeGrant _)
  exact State.keeps_same rfl rfl rfl rfl rfl rfl

/-! ## The entry's own operations -/

theorem Station.keeps_break (x : Station) : StationKeeps x x.breakReaches :=
  .plain rfl rfl rfl rfl rfl rfl rfl rfl rfl

theorem Station.keeps_updateBand (x : Station) (t : Option BandTable) (n : Nat) (o : AttemptOutcome) (a : Option Nat) :
    StationKeeps x (x.updateBand t n o a) := by
  unfold Station.updateBand
  split
  · exact .plain rfl rfl rfl rfl rfl rfl rfl rfl rfl
  · split
    · split
      · exact .plain rfl rfl rfl rfl rfl rfl rfl rfl rfl
      · exact .refl x
    · exact .refl x

/-- An entry that leaves the miss count below its limit, in a state that is not OFFLINE or CLOSING. -/
theorem missRule_below {x : Station} (h1 : 1 ≤ x.missLimit) (h2 : x.missCount < x.missLimit) (h3 : x.state ≠ .offline)
    (h4 : x.state ≠ .closing) : x.missRule :=
  ⟨h1, h2.le, by simp only [h3, h4, false_and, or_self, iff_false]; omega⟩

theorem Station.keeps_goOffline (x : Station) (now : Nat) : StationKeeps x (x.goOffline now) := by
  have key : ∀ y : Station, y = (x.goOffline now) → y.line = x.line ∧ y.address = x.address ∧ y.state = .offline ∧
      y.missLimit = x.missLimit ∧ y.missCount = x.missLimit ∧ y.pollDue = none ∧
      y.timer = startTimer .probe x.probeInterval now := by
    intro y hy
    unfold Station.goOffline at hy
    simp only at hy
    split at hy <;> subst hy <;> exact ⟨rfl, rfl, rfl, rfl, rfl, rfl, rfl⟩
  obtain ⟨h1, h2, h3, h4, h5, h6, h7⟩ := key _ rfl
  refine ⟨h1, h2, fun _ h => ⟨by rw [h4]; exact h.1, by rw [h4, h5], by simp [h3, h4, h5]⟩, fun _ => ⟨fun t ht => ?_, fun _ => h6⟩⟩
  rw [h7, startTimer, Option.some.injEq] at ht
  subst ht
  simp [h3]

theorem Station.keeps_miss (x : Station) (now : Nat) (hs : x.state = .new ∨ x.state = .online) :
    StationKeeps x (x.miss now) := by
  unfold Station.miss
  split
  · exact x.keeps_goOffline now
  · refine ⟨rfl, rfl, fun _ h => missRule_below h.1 (by simp only; omega) ?_ ?_, id⟩
    · rcases hs with e | e <;> simp [e]
    · rcases hs with e | e <;> simp [e]

theorem Station.keeps_clearMisses (x y : Station) (h1 : y.line = x.line) (h2 : y.address = x.address)
    (h3 : y.state = x.state) (h4 : x.state = .online ∨ x.state = .new) (h5 : y.missLimit = x.missLimit)
    (h6 : y.missCount = 0) (h7 : y.timer = x.timer) (h8 : y.pollInterval = x.pollInterval)
    (h9 : y.pollDue = x.pollDue) : StationKeeps x y := by
  refine ⟨h1, h2, fun _ h => missRule_below (by rw [h5]; exact h.1) (by rw [h5, h6]; exact h.1) ?_ ?_, fun h => ?_⟩
  · rw [h3]; rcases h4 with e | e <;> simp [e]
  · rw [h3]; rcases h4 with e | e <;> simp [e]
  · simpa only [Station.timerRule, h3, h7, h8, h9] using h

theorem Station.keeps_enterHold (x : Station) (now : Nat) : StationKeeps x (x.enterHold now) := by
  refine ⟨rfl, rfl, fun _ h => missRule_below h.1 h.1 (by simp [Station.enterHold]) (by simp [Station.enterHold]),
    fun _ => ⟨fun t ht => ?_, by simp [Station.enterHold]⟩⟩
  simp only [Station.enterHold, startTimer, Option.some.injEq] at ht
  subst ht
  simp [Station.enterHold]

theorem Station.keeps_afterCommand (x : Station) (o : AttemptOutcome) (now : Nat) (hs : x.state = .online) :
    StationKeeps x (x.afterCommand o now) := by
  have hc : ∀ y : Station, y.line = x.line → y.address = x.address → y.state = x.state → y.missLimit = x.missLimit →
      y.missCount = 0 → y.timer = x.timer → y.pollInterval = x.pollInterval → y.pollDue = x.pollDue →
      StationKeeps x y := fun y a b c d e f g h =>
    x.keeps_clearMisses y a b c (.inl hs) d e f g h
  cases o with
  | nak c r => cases c with
    | check => exact .refl x
    | refused => exact hc _ rfl rfl rfl rfl rfl rfl rfl rfl
    | unsupported => exact hc _ rfl rfl rfl rfl rfl rfl rfl rfl
  | ack => exact hc _ rfl rfl rfl rfl rfl rfl rfl rfl
  | reply b => exact hc _ rfl rfl rfl rfl rfl rfl rfl rfl
  | busy => exact x.keeps_enterHold now
  | attention b => exact hc _ rfl rfl rfl rfl rfl rfl rfl rfl
  | idle => exact hc _ rfl rfl rfl rfl rfl rfl rfl rfl
  | noAnswer => exact x.keeps_miss now (.inr hs)
  | garbled => exact x.keeps_miss now (.inr hs)
  | wrongStation => exact x.keeps_miss now (.inr hs)
  | unexpected => exact x.keeps_miss now (.inr hs)
  | lineBreak => exact .refl x

/-- Poll due cleared, with no other change the rules see. -/
theorem Station.keeps_clearDue (x : Station) : StationKeeps x { x with pollDue := none } := by
  refine ⟨rfl, rfl, fun _ => id, fun h => ⟨fun t ht => ?_, fun _ => rfl⟩⟩
  obtain ⟨a, b, c⟩ := h.1 t ht
  exact ⟨fun k => ⟨(a k).1, (a k).2.1, rfl⟩, b, c⟩

theorem Station.keeps_pollAnswered (z : Station) (o : AttemptOutcome) (now : Nat) (hs : z.state = .online) :
    StationKeeps z (z.pollAnswered o now) := by
  have hc : ∀ y : Station, y.line = z.line → y.address = z.address → y.state = z.state → y.missLimit = z.missLimit →
      y.missCount = 0 → y.timer = z.timer → y.pollInterval = z.pollInterval → y.pollDue = z.pollDue →
      StationKeeps z y := fun y a b c d e f g h =>
    z.keeps_clearMisses y a b c (.inl hs) d e f g h
  cases o with
  | ack => exact hc _ rfl rfl rfl rfl rfl rfl rfl rfl
  | reply b => exact hc _ rfl rfl rfl rfl rfl rfl rfl rfl
  | busy => exact z.keeps_enterHold now
  | nak c r => exact .refl z
  | attention b => exact hc _ rfl rfl rfl rfl rfl rfl rfl rfl
  | idle => exact hc _ rfl rfl rfl rfl rfl rfl rfl rfl
  | noAnswer => exact z.keeps_miss now (.inr hs)
  | garbled => exact z.keeps_miss now (.inr hs)
  | wrongStation => exact z.keeps_miss now (.inr hs)
  | unexpected => exact z.keeps_miss now (.inr hs)
  | lineBreak => exact .refl z

theorem Station.pollAnswered_due (z : Station) (o : AttemptOutcome) (now : Nat) (h : z.pollDue = none) :
    (z.pollAnswered o now).pollDue = none := by
  have hm : (z.miss now).pollDue = none := by
    unfold Station.miss Station.goOffline Station.countChange
    simp only
    split
    · split <;> rfl
    · exact h
  cases o <;> first | exact h | exact hm

/-- A poll timer started in ONLINE with a non-zero interval and poll due clear. -/
theorem Station.keeps_startPoll (x : Station) (now : Nat) (h1 : x.state = .online) (h2 : x.pollInterval ≠ 0)
    (h3 : x.pollDue = none) : StationKeeps x { x with timer := startTimer .poll x.pollInterval now } := by
  refine ⟨rfl, rfl, fun _ => id, fun _ => ⟨fun t ht => ?_, fun _ => h3⟩⟩
  simp only [startTimer, Option.some.injEq] at ht
  subst ht
  simp [h1, h2, h3]

theorem Station.keeps_afterPoll (x : Station) (o : AttemptOutcome) (now : Nat) (hs : x.state = .online) :
    StationKeeps x (x.afterPoll o now) := by
  have h0 : StationKeeps x (x.pollOutcome o now) := x.keeps_clearDue.trans (Station.keeps_pollAnswered _ o now hs)
  have hd : (x.pollOutcome o now).pollDue = none := Station.pollAnswered_due _ o now rfl
  unfold Station.afterPoll
  simp only
  split
  · next h => exact h0.trans (Station.keeps_startPoll _ now h.1 h.2 hd)
  · exact h0

theorem Station.countChange_keeps (x : Station) : StationKeeps x x.countChange :=
  .plain rfl rfl rfl rfl rfl rfl rfl rfl rfl

/-- An entry taken ONLINE with a miss count of 0 and a poll timer under the conditions of R35. -/
theorem Station.keeps_online (x y : Station) (h1 : y.line = x.line) (h2 : y.address = x.address)
    (h3 : y.state = .online) (h4 : y.missLimit = x.missLimit) (h5 : y.missCount = 0)
    (h6 : x.timerRule → ∀ t, y.timer = some t → t.kind = .poll ∧ y.pollInterval ≠ 0 ∧ y.pollDue = none) :
    StationKeeps x y := by
  refine ⟨h1, h2, fun _ h => missRule_below (by rw [h4]; exact h.1) (by rw [h4, h5]; exact h.1) (by simp [h3])
    (by simp [h3]), fun h => ⟨fun t ht => ?_, by simp [h3]⟩⟩
  obtain ⟨a, b, c⟩ := h6 h t ht
  simp [a, b, c, h3]

theorem Station.pollTimer_spec (x : Station) (now : Nat) (t : StationTimer) (h : x.pollTimer now = some t) :
    t.kind = .poll ∧ x.pollInterval ≠ 0 ∧ x.pollDue = none := by
  unfold Station.pollTimer at h
  split at h
  · next hc =>
    simp only [startTimer, Option.some.injEq] at h
    subst h
    exact ⟨rfl, hc⟩
  · cases h

theorem Station.keeps_afterLink (x : Station) (o : AttemptOutcome) (now : Nat)
    (hs : x.state = .new ∨ x.state = .online) : StationKeeps x (x.afterLink o now) := by
  unfold Station.afterLink
  split
  · simp only
    split
    · refine StationKeeps.trans ?_ (Station.countChange_keeps _)
      exact Station.keeps_online _ _ rfl rfl rfl rfl rfl fun _ t ht => x.pollTimer_spec now t ht
    · exact x.keeps_clearMisses _ rfl rfl rfl hs.symm rfl rfl rfl rfl rfl
  · split
    · exact x.keeps_miss now hs
    · exact .refl x

theorem Station.keeps_afterProbe (x : Station) (o : AttemptOutcome) (now : Nat) (hs : x.state = .offline) :
    StationKeeps x (x.afterProbe o now) := by
  unfold Station.afterProbe
  simp only
  split
  · refine StationKeeps.trans ?_ (Station.countChange_keeps _)
    refine Station.keeps_online _ _ rfl rfl rfl rfl rfl fun h t ht => ?_
    simp only at ht ⊢
    split at ht
    · next hi =>
      simp only [startTimer, Option.some.injEq] at ht
      subst ht
      exact ⟨rfl, hi, h.2 hs⟩
    · cases ht
  · refine ⟨rfl, rfl, fun _ => id, fun h => ⟨fun t ht => ?_, h.2⟩⟩
    simp only [startTimer, Option.some.injEq] at ht
    subst ht
    simp [hs]

theorem Station.keeps_afterClosing (x : Station) (job : Job) (o : AttemptOutcome) :
    StationKeeps x (x.afterClosing job o) := by
  unfold Station.afterClosing
  split <;> first | exact .refl x | exact .plain rfl rfl rfl rfl rfl rfl rfl rfl rfl

theorem Station.keeps_applyAp (x : Station) (ap : Bool) (now : Nat) : StationKeeps x (x.applyAp ap now) := by
  unfold Station.applyAp
  split
  · next hc =>
    have hs : x.state ≠ .offline := by
      intro e
      simp [e] at hc
    refine ⟨rfl, rfl, fun _ => id, fun h => ⟨fun t ht => ?_, fun e => absurd e hs⟩⟩
    simp only at ht
    split at ht
    · cases ht
    · next hk =>
      obtain ⟨a, b, c⟩ := h.1 t ht
      refine ⟨fun e => absurd ?_ hk, b, c⟩
      simp [ht, e]
  · exact .refl x

theorem Station.keeps_afterJob (x : Station) (job : Job) (o : AttemptOutcome) (now : Nat) :
    StationKeeps x (x.afterJob job o now) := by
  unfold Station.afterJob
  split
  · next h => exact x.keeps_afterCommand o now h
  · next h => exact x.keeps_afterPoll o now h
  · next h => exact x.keeps_afterLink o now (.inl h)
  · next h => exact x.keeps_afterLink o now (.inr h)
  · next h => exact x.keeps_afterProbe o now h
  · exact .refl x

theorem Station.keeps_applyOutcome (x : Station) (t : Option BandTable) (n : Nat) (job : Job) (o : AttemptOutcome)
    (a : Option Nat) (ap : Bool) (now : Nat) : StationKeeps x (x.applyOutcome t n job o a ap now) := by
  unfold Station.applyOutcome
  split
  · exact x.keeps_afterClosing job o
  · exact ((x.keeps_updateBand t n o a).trans (Station.keeps_afterJob _ job o now)).trans (Station.keeps_applyAp _ ap now)

theorem Station.keeps_deliveryEnds (x : Station) : StationKeeps x x.deliveryEnds :=
  .plain rfl rfl rfl rfl rfl rfl rfl rfl rfl

/-- Entry into CLOSING of an entry that is not CLOSING (R43). -/
theorem Station.keeps_enterClosing (x : Station) (id : Nat) (hs : x.state ≠ .closing) :
    StationKeeps x (x.enterClosing id) := by
  refine ⟨rfl, rfl, fun _ h => ⟨h.1, h.2.1, ?_⟩, fun _ => ⟨fun t ht => by simp [Station.enterClosing] at ht,
    by simp [Station.enterClosing]⟩⟩
  have := h.2.2
  simp only [hs, false_and, or_false] at this
  simpa [Station.enterClosing] using this

theorem Station.keeps_pollExpired (x : Station) (now : Nat) (t : StationTimer) (ht : x.timer = some t)
    (hk : t.kind = .poll) : StationKeeps x (x.pollExpired now) := by
  refine ⟨rfl, rfl, fun _ => id, fun h => ⟨fun t ht => by simp [Station.pollExpired] at ht, fun e => ?_⟩⟩
  have := ((h.1 t ht).1 hk).1
  simp only [Station.pollExpired] at e
  rw [this] at e
  cases e

theorem Station.keeps_holdExpired (x : Station) (now : Nat) (t : StationTimer) (ht : x.timer = some t)
    (hk : t.kind = .hold) : StationKeeps x (x.holdExpired now) := by
  refine ⟨rfl, rfl, fun h hm => missRule_below hm.1 ?_ (by simp [Station.holdExpired]) (by simp [Station.holdExpired]),
    fun _ => ⟨fun u hu => ?_, by simp [Station.holdExpired]⟩⟩
  · have hs := (h.1 t ht).2.1 hk
    have := hm.2.2
    simp only [hs, reduceCtorEq, false_and, or_self, iff_false] at this
    have h2 := hm.2.1
    simp only [Station.holdExpired]
    omega
  · obtain ⟨a, b, c⟩ := x.pollTimer_spec now u hu
    simp [a, b, c, Station.holdExpired]

theorem Station.keeps_probeExpired (x : Station) (now : Nat) : StationKeeps x (x.probeExpired now) :=
  ⟨rfl, rfl, fun _ => id, fun h => ⟨fun t ht => by simp [Station.probeExpired] at ht, h.2⟩⟩

end Sys2Proof.Machine
end

