-- ==== Sys2Proof/Laws/Engine.lean ====
section
/-! SUPPORT. The line engine's operations keep the invariants, and which of them leave every line's engine state and
driver as they are (`State.Rests`). -/

namespace Sys2Proof.Machine

/-- The invariants are kept, and no line's engine state, driver enable or transmit output has changed. -/
structure State.Rests (s t : State) : Prop where
  keeps : s.Keeps t
  state : ∀ l, (t.line l).state = (s.line l).state
  driver : ∀ l, (t.line l).driverEnable = (s.line l).driverEnable
  txd : ∀ l, (t.line l).txd = (s.line l).txd

theorem State.Rests.refl (s : State) : s.Rests s := ⟨.refl s, fun _ => rfl, fun _ => rfl, fun _ => rfl⟩

theorem State.Rests.trans {s t u : State} (a : s.Rests t) (b : t.Rests u) : s.Rests u :=
  ⟨a.keeps.trans b.keeps, fun l => (b.state l).trans (a.state l), fun l => (b.driver l).trans (a.driver l),
    fun l => (b.txd l).trans (a.txd l)⟩

theorem State.Rests.foldl {α : Type} (f : State → α → State) (hf : ∀ (s : State) a, s.Rests (f s a)) (as : List α)
    (s : State) : s.Rests (as.foldl f s) := by
  induction as generalizing s with
  | nil => exact .refl s
  | cons a rest ih => exact (hf s a).trans (ih _)

theorem State.rests_ends {s t : State} (e : s.Ends t) : s.Rests t :=
  ⟨State.keeps_ends e, fun l => (e.lines l).rest.1, fun l => (e.lines l).rest.2.1, fun l => (e.lines l).rest.2.2⟩

theorem State.rests_of_lines {s t : State} (k : s.Keeps t) (h : t.lines = s.lines) : s.Rests t :=
  ⟨k, fun l => by simp only [State.line, h], fun l => by simp only [State.line, h],
    fun l => by simp only [State.line, h]⟩

theorem State.rests_updLine (s : State) (l : LineNo) (f : Line → Line) (h1 : ∀ x, (f x).state = x.state)
    (h2 : ∀ x, (f x).driverEnable = x.driverEnable) (h3 : ∀ x, (f x).txd = x.txd) : s.Rests (s.updLine l f) := by
  refine ⟨s.keeps_updLine l f fun h => ?_, fun k => ?_, fun k => ?_, fun k => ?_⟩
  · simpa only [Line.driverRule, h1, h2, h3] using h
  all_goals
    rw [State.updLine_eq, State.line_setLine]
    split
    · next e => subst e; first | exact h1 _ | exact h2 _ | exact h3 _
    · rfl

theorem State.rests_updCtx (s : State) (id : Nat) (f : Context → Context) : s.Rests (s.updCtx id f) :=
  State.rests_ends (s.ends_updCtx id f)

theorem State.rests_updStation (s : State) (h : Handle) (f : Station → Station) (hf : ∀ x, StationKeeps x (f x)) :
    s.Rests (s.updStation h f) := State.rests_of_lines (s.keeps_updStation h f hf) rfl

theorem State.rests_reach (s : State) (t : Nat) : s.Rests (s.reach t) :=
  State.rests_of_lines (s.keeps_reach t) rfl

theorem State.rests_notify (s : State) (l : LineNo) : s.Rests (s.notify l) := State.rests_ends (s.ends_notify l)

theorem State.rests_tellLines (s : State) (ls : List LineNo) : s.Rests (s.tellLines ls) := by
  refine ⟨s.keeps_tellLines ls, fun l => ?_, fun l => ?_, fun l => ?_⟩ <;>
    rw [State.line_tellLines, Line.noticed_eq] <;> split <;> rfl

theorem State.rests_judgeGrant (s : State) : s.Rests s.judgeGrant := by
  unfold State.judgeGrant
  split
  · exact (s.rests_tellLines s.refusedLines).trans
      (State.rests_of_lines (State.keeps_same rfl rfl rfl rfl rfl rfl) rfl)
  · exact .refl s

/-! ## Leaving an attempt -/

/-- R82: on a state that meets it, the driver of line `l` is released. -/
def State.Released (s : State) (l : LineNo) : Prop := s.DriversSafe → (s.line l).driverEnable = false

theorem State.Rests.released {s t : State} (r : s.Rests t) {l : LineNo} (h : s.Released l) : t.Released l := by
  intro d
  rw [r.driver]
  refine h fun k => ?_
  have := d k
  rwa [Line.driverRule, r.state, r.driver, r.txd] at this

theorem State.released_of {s : State} {l : LineNo} (h1 : (s.line l).state ≠ .transmit)
    (h2 : (s.line l).state ≠ .breakOut) : s.Released l := by
  intro d
  cases h : (s.line l).driverEnable with
  | false => rfl
  | true => exact ((d l).1 h).elim (fun e => (h1 e).elim) fun e => (h2 e).elim

/-- A line whose driver is released may enter any state. -/
theorem State.keeps_released (s : State) (l : LineNo) (f : Line → Line) (h : s.Released l)
    (h2 : ∀ x, (f x).driverEnable = x.driverEnable) (h3 : ∀ x, (f x).txd = x.txd) : s.Keeps (s.updLine l f) := by
  refine ⟨fun d k => ?_, id, fun _ => id, id, id, id⟩
  rw [State.updLine_eq, State.line_setLine]
  split
  · next e =>
    subst e
    refine ⟨fun e => ?_, fun _ => (h3 _).trans ((d _).2 (h d))⟩
    rw [h2, h d] at e
    cases e
  · exact d k

theorem State.rests_endQuiescers (s : State) (l : LineNo) : s.Rests (s.endQuiescers l) := by
  unfold State.endQuiescers
  refine State.Rests.trans ?_ (State.rests_updLine _ _ _ (fun _ => rfl) (fun _ => rfl) fun _ => rfl)
  exact .foldl _ (fun s id => State.rests_ends (s.ends_endRecord _ _ _)) _ _

theorem State.keeps_toGuard (s : State) (l : LineNo) (h : s.Released l) : s.Keeps (s.toGuard l) := by
  unfold State.toGuard
  refine State.Keeps.trans ?_ (State.rests_endQuiescers _ l).keeps
  exact s.keeps_released l _ h (fun _ => rfl) fun _ => rfl

/-! ## Breaks -/

theorem State.station_breakStations (s : State) (l : LineNo) (h : Handle) :
    (s.breakStations l).station h = (s.station h).map fun st => if st.line = l then st.breakReaches else st := by
  simp [State.station, State.breakStations]

theorem State.rests_breakStations (s : State) (l : LineNo) : s.Rests (s.breakStations l) := by
  refine State.rests_of_lines (State.keeps_of (fun _ => id) (fun h y hy => ?_) id id) rfl
  rw [State.station_breakStations] at hy
  cases hx : s.station h with
  | none => rw [hx] at hy; cases hy
  | some x =>
    rw [hx, Option.map_some, Option.some.injEq] at hy
    refine ⟨x, rfl, ?_⟩
    subst hy
    split
    · exact x.keeps_break
    · exact .refl x

theorem State.rests_breakReaches (s : State) (l : LineNo) : s.Rests (s.breakReaches l) :=
  (s.rests_breakStations l).trans (State.rests_ends (State.ends_endRetries _ l))

theorem State.keeps_enterBreakOut (s : State) (l : LineNo) (records : List Nat) (now : Nat) :
    s.Keeps (s.enterBreakOut l records now) := by
  unfold State.enterBreakOut
  refine State.Keeps.trans ?_ (State.rests_breakReaches _ l).keeps
  exact s.keeps_updLine l _ fun _ => ⟨fun _ => .inr rfl, fun e => by cases e⟩

/-! ## Replies -/

theorem Line.replyDelivered_state (x : Line) : x.replyDelivered.state = x.state := by
  unfold Line.replyDelivered Line.releaseBuffer; simp only; split <;> simp [Line.beginBandRead]

theorem Line.replyDelivered_driver (x : Line) : x.replyDelivered.driverEnable = x.driverEnable := by
  unfold Line.replyDelivered Line.releaseBuffer; simp only; split <;> simp [Line.beginBandRead]

theorem Line.replyDelivered_txd (x : Line) : x.replyDelivered.txd = x.txd := by
  unfold Line.replyDelivered Line.releaseBuffer; simp only; split <;> simp [Line.beginBandRead]

theorem State.rests_replyDelivered (s : State) (l : LineNo) : s.Rests (s.updLine l Line.replyDelivered) :=
  s.rests_updLine l _ Line.replyDelivered_state Line.replyDelivered_driver Line.replyDelivered_txd

theorem State.rests_replyWritten (s : State) (l : LineNo) (id : Nat) (octets : List Byte) (r : BusWrite) :
    s.Rests (s.replyWritten l id octets r) := by
  unfold State.replyWritten
  split
  · exact s.rests_replyDelivered l
  · simp only
    refine State.Rests.trans ?_ (State.rests_ends (State.ends_endAbort _ _ _))
    refine State.Rests.trans ?_ (State.rests_ends (State.ends_endExchange _ _ _ _ _))
    refine State.Rests.trans ?_ (State.rests_replyDelivered _ l)
    exact State.rests_of_lines (State.keeps_mem s _ rfl rfl rfl rfl rfl _ _ _ rfl) rfl

theorem State.rests_beginReply (s : State) (l : LineNo) (id : Nat) (octets : List Byte) :
    s.Rests (s.beginReply l id octets) := by
  unfold State.beginReply
  simp only
  have h := s.rests_updLine l (fun x => { x with rxBuffer := some (.reply id octets) }) (fun _ => rfl) (fun _ => rfl)
    fun _ => rfl
  split
  · exact h.trans (State.rests_replyWritten _ l id octets .good)
  · exact h

/-! ## Outcomes -/

theorem State.rests_exchangeActs (s : State) (l : LineNo) (c : Context) (st : Station) (o : AttemptOutcome) :
    s.Rests (s.exchangeActs l c st o) := by
  cases o with
  | ack => exact State.rests_ends ((s.ends_endWith _ _).trans (State.ends_endAbort _ _ _))
  | reply b => exact s.rests_beginReply _ _ _
  | busy => exact State.rests_ends (s.ends_exchangeBusy _ _)
  | nak k r =>
    cases k with
    | check => exact State.rests_ends (s.ends_exchangeFailed _ _ _)
    | refused => exact State.rests_ends ((s.ends_endExchange _ _ _ _).trans (State.ends_endAbort _ _ _))
    | unsupported => exact State.rests_ends ((s.ends_endExchange _ _ _ _).trans (State.ends_endAbort _ _ _))
  | attention b => exact .refl s
  | idle => exact .refl s
  | noAnswer => exact State.rests_ends (s.ends_exchangeFailed _ _ _)
  | garbled => exact State.rests_ends (s.ends_exchangeFailed _ _ _)
  | wrongStation => exact State.rests_ends (s.ends_exchangeFailed _ _ _)
  | unexpected => exact State.rests_ends (s.ends_exchangeFailed _ _ _)
  | lineBreak =>
    simp only [State.exchangeActs]
    split
    · exact State.rests_ends ((s.ends_endWith _ _).trans (State.ends_endAbort _ _ _))
    · exact State.rests_ends (s.ends_endWith _ _)

theorem State.rests_releaseReservation (s : State) : s.Rests s.releaseReservation := by
  unfold State.releaseReservation
  refine State.Rests.trans ?_ (State.rests_judgeGrant _)
  exact State.rests_of_lines (State.keeps_same rfl rfl rfl rfl rfl rfl) rfl

theorem State.rests_pollActs (s : State) (l : LineNo) (h : Handle) (p : Bool) (o : AttemptOutcome) (ap : Bool) :
    s.Rests (s.pollActs l h p o ap) := by
  unfold State.pollActs
  split
  · next octets =>
    refine State.Rests.trans (s.rests_updLine l (fun x => { x with rxBuffer := some (.attention octets) })
      (fun _ => rfl) (fun _ => rfl) fun _ => rfl) ?_
    exact State.rests_of_lines (State.keeps_same rfl rfl rfl rfl rfl rfl) rfl
  · exact s.rests_releaseReservation

theorem State.rests_jobActs (s : State) (l : LineNo) (h : Handle) (job : Job) (a b : Station) (o : AttemptOutcome)
    (ap : Bool) : s.Rests (s.jobActs l h job a b o ap) := by
  cases job with
  | command id g origin =>
    simp only [State.jobActs]
    split
    · exact State.rests_ends (s.ends_drainOffline _ _)
    · split
      · exact s.rests_exchangeActs _ _ _ _
      · exact .refl s
  | broadcast id => exact .refl s
  | poll g p =>
    simp only [State.jobActs]
    refine State.Rests.trans ?_ (State.rests_ends (State.ends_settleClosing _ _))
    refine State.Rests.trans ?_ (State.rests_pollActs _ _ _ _ _ _)
    split
    · exact State.rests_ends (s.ends_drainOffline _ _)
    · exact .refl s
  | link g =>
    simp only [State.jobActs]
    split
    · exact State.rests_ends (s.ends_drainOffline _ _)
    · split
      · exact State.rests_ends (s.ends_linkLoop _ _)
      · exact State.rests_ends (s.ends_settleClosing _)
  | probe g => exact State.rests_ends (s.ends_settleClosing _)

theorem State.rests_noteOutcome (s : State) (job : Job) (o : AttemptOutcome) (t : Option Nat) :
    s.Rests (s.noteContext job o t) := by
  cases job with
  | command id g origin => exact s.rests_updCtx _ _
  | broadcast id => exact .refl s
  | poll g p => exact .refl s
  | link g => exact .refl s
  | probe g => exact .refl s

theorem State.rests_deliver (s : State) (l : LineNo) (job : Job) (o : AttemptOutcome) (ap : Bool) :
    s.Rests (s.deliver l job o ap) := by
  unfold State.deliver
  simp only
  have h0 := s.rests_updLine l (fun x => { x with job := none, turnaround := none, replyTimer := none })
    (fun _ => rfl) (fun _ => rfl) fun _ => rfl
  generalize (if o.isAnswer = true then (s.line l).turnaround else none) = tn
  refine (h0.trans (State.rests_noteOutcome _ job o tn)).trans ?_
  split
  · exact .refl _
  · split
    · exact .refl _
    · next st hst =>
      refine State.Rests.trans ?_ (State.rests_jobActs _ _ _ _ _ _ _ _)
      refine State.rests_of_lines (State.keeps_setStation _ _ _ fun z hz => ⟨st, hst, ?_⟩) rfl
      cases hz
      exact st.keeps_applyOutcome _ _ _ _ _ _ _

theorem State.keeps_endAttempt (s : State) (l : LineNo) (o : AttemptOutcome) (ap : Bool)
    (h : s.Released l) : s.Keeps (s.endAttempt l o ap) := by
  unfold State.endAttempt
  split
  · exact s.keeps_toGuard l h
  · exact (s.rests_deliver l _ o ap).keeps.trans
      (State.keeps_toGuard _ l ((s.rests_deliver l _ o ap).released h))

/-! ## Frames and payload reads -/

theorem State.keeps_beginTransmit (s : State) (l : LineNo) (job : Job) : s.Keeps (s.beginTransmit l job) := by
  unfold State.beginTransmit
  refine (State.keeps_ends (s.ends_beginAttempt job)).trans ?_
  exact State.keeps_updLine _ l _ fun _ => ⟨fun _ => .inl rfl, fun e => by cases e⟩

theorem State.keeps_leaveRead (s : State) (l : LineNo) (h : s.Released l) : s.Keeps (s.leaveRead l) := by
  unfold State.leaveRead
  simp only
  have h0 := s.rests_updLine l (fun x => { x with job := none, abandoned := false }) (fun _ => rfl) (fun _ => rfl)
    fun _ => rfl
  refine h0.keeps.trans ?_
  have hd := h0.released h
  split
  · exact State.keeps_enterBreakOut _ _ _ _
  · refine State.Keeps.trans ?_ (State.rests_endQuiescers _ l).keeps
    exact State.keeps_released _ l _ hd (fun _ => rfl) fun _ => rfl

theorem State.keeps_readGood (s : State) (l : LineNo) (job : Job) (h : s.Released l) :
    s.Keeps (s.readGood l job) := by
  have go : ∀ t : State, s.Rests t → s.Keeps (t.leaveRead l) := fun t r =>
    r.keeps.trans (State.keeps_leaveRead _ l (r.released h))
  cases job with
  | command id g origin =>
    simp only [State.readGood]
    split
    · exact go _ (State.rests_ends ((s.ends_endWith _ _).trans (State.ends_endAbort _ _ _)))
    · split
      · exact go _ (.refl s)
      · split
        · exact go _ (State.rests_ends (s.ends_endWith _ _))
        · split
          · exact go _ (State.rests_ends (s.ends_returnToWait _ _ _))
          · exact s.keeps_beginTransmit _ _
  | broadcast id =>
    simp only [State.readGood]
    split
    · exact go _ (State.rests_ends ((s.ends_endWith _ _).trans (State.ends_endAbort _ _ _)))
    · exact s.keeps_beginTransmit _ _
  | poll g p => exact go _ (.refl s)
  | link g => exact go _ (.refl s)
  | probe g => exact go _ (.refl s)

theorem State.rests_fillBuffer (s : State) (l : LineNo) (job : Job) (octets : List Byte) :
    s.Rests (s.fillBuffer l job octets) := s.rests_updLine l _ (fun _ => rfl) (fun _ => rfl) fun _ => rfl

theorem State.keeps_readFailed (s : State) (l : LineNo) (id : Nat) (h : s.Released l) :
    s.Keeps (s.readFailed l id) := by
  unfold State.readFailed
  simp only
  have h0 : s.Rests ((s.updLine l fun x => { x with txHolds := none }).updCtx id
      fun c => { c with lastFailure := some .payloadRead }) :=
    (s.rests_updLine l (fun x => { x with txHolds := none }) (fun _ => rfl) (fun _ => rfl) fun _ => rfl).trans
      (State.rests_updCtx _ _ _)
  have go : ∀ u : State, State.Ends _ u → s.Keeps (u.leaveRead l) := fun u e =>
    (h0.trans (State.rests_ends e)).keeps.trans (State.keeps_leaveRead u l ((h0.trans (State.rests_ends e)).released h))
  split
  · exact go _ ((State.ends_endWith _ _ _).trans (State.ends_endAbort _ _ _))
  · exact go _ (State.ends_endWith _ _ _)

theorem State.keeps_beginRead (s : State) (l : LineNo) (job : Job) (id : Nat) (h : s.Released l) :
    s.Keeps (s.beginRead l job id) := by
  unfold State.beginRead
  simp only
  have h0 : s.Keeps ((s.updLine l fun x => { x with state := .preparing, job := some job, abandoned := false, txHolds := none }).updCtx
      id fun c => { c with phase := .preparing }) := by
    refine State.Keeps.trans ?_ (State.rests_updCtx _ _ _).keeps
    exact s.keeps_released l _ h (fun _ => rfl) fun _ => rfl
  refine h0.trans ?_
  split
  · refine (State.rests_fillBuffer _ l job []).keeps.trans (State.keeps_readGood _ l job ?_)
    exact (State.rests_fillBuffer _ l job []).released (State.released_of (by simp) (by simp))
  · exact .refl _

theorem State.keeps_startWork (s : State) (l : LineNo) (job : Job) (id : Nat) (h : s.Released l) :
    s.Keeps (s.startWork l job id) := by
  unfold State.startWork
  split
  · exact s.keeps_beginTransmit _ _
  · exact s.keeps_beginRead _ _ _ h

theorem State.rests_abandonRead (s : State) (l : LineNo) : s.Rests (s.abandonRead l) := by
  unfold State.abandonRead
  split
  · exact .refl s
  · next job hj =>
    simp only
    have h0 := s.rests_updLine l (fun x => { x with job := none, abandoned := true, txHolds := none }) (fun _ => rfl)
      (fun _ => rfl) fun _ => rfl
    refine h0.trans ?_
    cases job with
    | command id g origin =>
      simp only
      split
      · exact State.rests_ends ((State.ends_endWith _ _ _).trans (State.ends_endAbort _ _ _))
      · exact State.rests_ends (State.ends_returnToWait _ _ _ _)
    | broadcast id =>
      simp only
      split
      · exact State.rests_ends ((State.ends_endWith _ _ _).trans (State.ends_endAbort _ _ _))
      · exact State.rests_updCtx _ _ _
    | poll g p => exact .refl _
    | link g => exact .refl _
    | probe g => exact .refl _

/-! ## The scheduler's choice -/

theorem State.keeps_act (s : State) (l : LineNo) (choice : Choice) (h : s.Released l) :
    s.Keeps (s.act l choice) := by
  cases choice with
  | reset => exact s.keeps_enterBreakOut _ _ _
  | retry id =>
    simp only [State.act]
    split
    · have r := s.rests_updLine l (fun x => { x with retryList := x.retryList.erase id }) (fun _ => rfl) (fun _ => rfl)
        fun _ => rfl
      exact r.keeps.trans (State.keeps_startWork _ l _ _ (r.released h))
    · exact .refl s
  | link g =>
    simp only [State.act]
    exact (s.rests_updLine l (fun x => { x with linkPtr := g }) (fun _ => rfl) (fun _ => rfl)
      fun _ => rfl).keeps.trans (State.keeps_beginTransmit _ _ _)
  | work k i =>
    simp only [State.act]
    have hm : ∀ (x : Line) (j : Fin 65), (x.movePtr k j).state = x.state ∧
        (x.movePtr k j).driverEnable = x.driverEnable ∧ (x.movePtr k j).txd = x.txd := by
      intro x j
      cases k <;> exact ⟨rfl, rfl, rfl⟩
    have r := s.rests_updLine l (fun x => x.movePtr k ⟨i % 65, Nat.mod_lt _ (by decide)⟩) (fun x => (hm x _).1)
      (fun x => (hm x _).2.1) fun x => (hm x _).2.2
    have hd := r.released h
    refine r.keeps.trans ?_
    split
    · unfold State.startHead
      split
      · exact State.keeps_startWork _ l _ _ hd
      · exact .refl _
    · unfold State.startBroadcast
      split
      · exact State.keeps_startWork _ l _ _ hd
      · exact .refl _
  | poll g =>
    simp only [State.act, State.startPoll]
    split
    · refine State.Keeps.trans ?_ (State.keeps_beginTransmit _ _ _)
      exact State.keeps_same rfl rfl rfl rfl rfl rfl
    · exact .refl s
  | probe g => exact s.keeps_beginTransmit _ _
  | nothing => exact .refl s

theorem State.keeps_consult (s : State) (l : LineNo) (h : s.Released l) : s.Keeps (s.consult l) := by
  unfold State.consult
  simp only
  have r := s.rests_updLine l Line.consulted (fun _ => rfl) (fun _ => rfl) fun _ => rfl
  have hd := r.released h
  refine r.keeps.trans ?_
  split
  · refine State.Keeps.trans ?_ (State.keeps_act _ l _ hd)
    exact State.keeps_same rfl rfl rfl rfl rfl rfl
  · exact State.keeps_act _ l _ hd

end Sys2Proof.Machine
end

