-- ==== Sys2Proof/Laws/Commands.lean ====
section
/-! SUPPORT. What `runCommand` answers, and that the effect of each command keeps the invariants of Safety. -/

namespace Sys2Proof.Machine

/-! ## The frame of a command -/

/-- Everything a command's frame can answer with a next state. -/
theorem runCommand_next {c : Instr} {o : Bool} {e : State → State} {s t : State}
    (h : runCommand c o e s = .next t) : c.wellFormed = true ∧ ((s.live = true ∧ o = true ∧ t = e s) ∨ t = s) := by
  unfold runCommand at h
  split at h
  · next hw =>
    refine ⟨hw, ?_⟩
    simp only [Host.Outcome.next.injEq] at h
    split at h
    · next ho =>
      simp only [Bool.and_eq_true] at ho
      exact .inl ⟨ho.1, ho.2, h.symm⟩
    · exact .inr h.symm
  · cases h

/-- A well-formed command that occurs has its effect. -/
theorem runCommand_occurs {c : Instr} {o : Bool} {e : State → State} {s : State} (h1 : c.wellFormed = true)
    (h2 : s.live = true) (h3 : o = true) : runCommand c o e s = .next (e s) := by
  simp [runCommand, h1, h2, h3]

/-- A command keeps the invariants when its effect does wherever it occurs. -/
theorem keeps_runCommand {c : Instr} {o : Bool} {e : State → State} {s t : State}
    (h : runCommand c o e s = .next t) (k : o = true → s.Keeps (e s)) : s.Keeps t := by
  obtain ⟨-, ⟨-, ho, rfl⟩ | rfl⟩ := runCommand_next h
  · exact k ho
  · exact .refl _

/-! ## Control -/

theorem State.keeps_reject (s : State) : s.Keeps s.reject := s.keeps_setCause _

theorem State.keeps_landCompletion (s : State) : s.Keeps s.landCompletion := by
  unfold State.landCompletion
  split
  · exact .refl s
  · exact State.keeps_mem s _ rfl rfl rfl rfl rfl _ _ _ rfl

theorem State.keeps_landEvent (s : State) : s.Keeps s.landEvent := by
  unfold State.landEvent
  split
  · exact .refl s
  · exact State.keeps_mem s _ rfl rfl rfl rfl rfl _ _ _ rfl

theorem State.keeps_landReply (s : State) (l : LineNo) : s.Keeps (s.landReply l) := by
  unfold State.landReply
  split
  · split
    · exact .refl s
    · exact State.keeps_mem s _ rfl rfl rfl rfl rfl _ _ _ rfl
  · exact .refl s
  · exact .refl s

theorem State.keeps_landReplies (s : State) : s.Keeps s.landReplies :=
  State.Keeps.foldl _ (fun s l => s.keeps_landReply l) _ s

theorem State.keeps_landWrites (s : State) : s.Keeps s.landWrites := by
  unfold State.landWrites
  split
  · exact .refl s
  · exact (s.keeps_landCompletion.trans (State.keeps_landEvent _)).trans (State.keeps_landReplies _)

theorem State.keeps_softReset (s : State) : s.Keeps s.softResetValues := by
  have h := s.keeps_landWrites
  have hl : ∀ l : LineNo, s.softResetValues.line l = Line.reset := by
    intro l; simp [State.line, State.softResetValues, State.reset]
  have hs : ∀ k : Handle, s.softResetValues.station k = none := by
    intro k; simp [State.station, State.softResetValues, State.reset]
  refine State.keeps_of (fun l _ => ?_) (fun k y hy => ?_) (fun _ => ?_) h.memory
  · rw [hl]; exact ⟨fun e => (by cases e), fun _ => rfl⟩
  · rw [hs] at hy; cases hy
  · show false = ((0#5 &&& s.intEnable) != 0)
    simp

theorem State.keeps_hardReset (s : State) : s.Keeps s.hardResetValues := by
  have h := s.keeps_softReset
  refine h.trans (State.keeps_of (fun l => id) (fun k y hy => ⟨y, hy, .refl y⟩) (fun _ => ?_) id)
  show false = ((0#5 &&& 0#5) != 0)
  decide

theorem State.keeps_release (s : State) (cause : CauseCode) : s.Keeps (s.enterFailed cause) := by
  unfold State.enterFailed
  refine State.Keeps.trans ?_ (State.keeps_setCause _ _)
  refine State.keeps_of (fun l _ => ?_) (fun k y hy => ⟨y, hy, .refl y⟩) id id
  have : ({ s with device := .failed, cause := cause, lines := s.lines.map Line.release } : State).line l
      = (s.line l).release := by simp [State.line]
  rw [this]
  exact ⟨fun e => (by cases e), fun _ => rfl⟩

theorem State.keeps_serveReset (s : State) (l : LineNo) : s.Keeps (s.serveReset l) := by
  unfold State.serveReset
  split
  · exact s.keeps_enterBreakOut _ _ _
  · exact .refl s

theorem State.keeps_enterRunning (s : State) : s.Keeps s.enterRunning :=
  (s.keeps_tellLines allLines).trans (State.keeps_same rfl rfl rfl rfl rfl rfl)

theorem State.keeps_resume (s : State) : s.Keeps s.resume := by
  unfold State.resume
  exact s.keeps_enterRunning.trans (State.Keeps.foldl _ (fun s l => s.keeps_serveReset l) _ _)

theorem State.keeps_enableOne (s : State) : s.Keeps s.enableOne := by
  have k : ∀ b, s.Keeps { s with enable := b } := fun b => State.keeps_same rfl rfl rfl rfl rfl rfl
  unfold State.enableOne
  split
  · exact State.keeps_same rfl rfl rfl rfl rfl rfl
  · exact k _
  · exact k _
  · exact (k _).trans ((State.keeps_resume _).trans (State.keeps_finish _))
  · exact (k _).trans ((State.keeps_resume _).trans (State.keeps_finish _))
  · exact s.keeps_reject

theorem State.keeps_enableZero (s : State) : s.Keeps s.enableZero := by
  have k : ∀ b, s.Keeps { s with enable := b } := fun b => State.keeps_same rfl rfl rfl rfl rfl rfl
  unfold State.enableZero
  split
  · exact k _
  · exact k _
  · refine State.Keeps.trans ?_ (State.keeps_finish _)
    exact State.keeps_same rfl rfl rfl rfl rfl rfl
  · exact k _
  · exact k _
  · exact s.keeps_reject

theorem State.keeps_writeSetupAddr (s : State) (v : Word) : s.Keeps (s.writeSetupAddr v) := by
  unfold State.writeSetupAddr
  split
  · exact State.keeps_same rfl rfl rfl rfl rfl rfl
  · exact s.keeps_reject

theorem State.keeps_setupEnds (s : State) (r : BusRead) : s.Keeps (s.setupEnds r) := by
  have k : ∀ c, s.Keeps (s.backToReady c) := fun c => State.keeps_same rfl rfl rfl rfl rfl rfl
  unfold State.setupEnds
  split
  · split
    · exact k _
    · split
      · exact s.keeps_enterRunning.trans (State.keeps_same rfl rfl rfl rfl rfl rfl)
      · exact k _
  · exact k _

theorem State.keeps_holdoff (s : State) (r : Ring) : s.Keeps (s.holdoffExpires r) := by
  unfold State.holdoffExpires
  cases r <;> exact State.keeps_drivePin s _ rfl rfl rfl

/-! ## Queues and rings -/

theorem State.keeps_updQueue (s : State) (q : QueueNo) (f : Queue → Queue) : s.Keeps (s.updQueue q f) :=
  State.keeps_same rfl rfl rfl rfl rfl rfl

theorem State.keeps_postTail (s : State) (v : Word) : s.Keeps (s.postTail v) := by
  unfold State.postTail
  split
  · refine State.Keeps.trans ?_ (State.keeps_finish _)
    unfold State.postedTail
    simp only
    split
    · exact (s.keeps_updQueue _ _).trans (State.keeps_tellArbiter _)
    · exact s.keeps_updQueue _ _
  · exact s.keeps_reject

theorem State.keeps_postRestart (s : State) (v : Word) : s.Keeps (s.postRestart v) := by
  unfold State.postRestart
  split
  · exact (s.keeps_updQueue _ _).trans (State.keeps_tellArbiter _)
  · exact s.keeps_reject

theorem State.keeps_retire (s : State) (v : Word) : s.Keeps (s.retire v) := by
  unfold State.retire
  split
  · split
    · split
      · unfold State.retireCompletion
        split
        · exact .refl s
        · exact State.keeps_same rfl rfl rfl rfl rfl rfl
      · exact s.keeps_reject
    · split
      · unfold State.retireEvent
        split
        · exact .refl s
        · refine State.Keeps.trans ?_ ((State.keeps_judgeGrant _).trans (State.keeps_finish _))
          exact State.keeps_same rfl rfl rfl rfl rfl rfl
      · exact s.keeps_reject
  · exact s.keeps_reject

theorem State.keeps_beginFetch (s : State) : s.Keeps s.beginFetch := by
  unfold State.beginFetch
  split
  · next k q id h1 h2 => cases k <;> exact State.keeps_same rfl rfl rfl rfl rfl rfl
  · exact .refl s

theorem State.keeps_fetchLook (s : State) : s.Keeps s.fetchLook := by
  have h : s.Keeps { s with fetchDue := false } := State.keeps_same rfl rfl rfl rfl rfl rfl
  unfold State.fetchLook
  simp only
  split
  · exact h.trans (State.keeps_beginFetch _)
  · exact h

theorem State.keeps_recordReadFails (s : State) : s.Keeps s.readFails := by
  unfold State.readFails
  split
  · exact .refl s
  · exact State.keeps_same rfl rfl rfl rfl rfl rfl

theorem State.keeps_written (s : State) (base : Word) (octets : List Byte) (offsets : List Nat) :
    s.Keeps { s with mem := writeOctets base octets offsets s.mem } :=
  State.keeps_mem s _ rfl rfl rfl rfl rfl base octets offsets rfl

theorem State.keeps_completionPosted (s : State) : s.Keeps s.completionPosted := by
  unfold State.completionPosted
  split
  · exact .refl s
  · next w _ =>
    refine State.Keeps.trans ?_ (State.keeps_finish _)
    refine State.Keeps.trans ?_ (State.keeps_completionPosting _)
    refine State.Keeps.trans ?_ (State.keeps_tellArbiter _)
    refine State.Keeps.trans ?_ (State.keeps_ends (State.ends_freeContext _ _))
    refine (s.keeps_written w.addr w.octets (wordOffsets completionWords 4)).trans ?_
    exact State.keeps_same rfl rfl rfl rfl rfl rfl

theorem State.keeps_completionFails (s : State) (n : Nat) : s.Keeps (s.completionFails n) := by
  unfold State.completionFails
  split
  · exact .refl s
  · refine State.Keeps.trans ?_ (State.keeps_release _ _)
    refine State.Keeps.trans ?_ ((State.keeps_landEvent _).trans (State.keeps_landReplies _))
    exact State.keeps_mem s _ rfl rfl rfl rfl rfl _ _ _ rfl

theorem State.keeps_eventFails (s : State) (n : Nat) : s.Keeps (s.eventFails n) := by
  unfold State.eventFails
  split
  · exact .refl s
  · refine State.Keeps.trans ?_ (State.keeps_release _ _)
    refine State.Keeps.trans ?_ ((State.keeps_landCompletion _).trans (State.keeps_landReplies _))
    exact State.keeps_mem s _ rfl rfl rfl rfl rfl _ _ _ rfl

theorem State.keeps_attentionWritten (s : State) (a : Option (LineNo × Handle)) : s.Keeps (s.attentionWritten a) := by
  unfold State.attentionWritten
  split
  · exact .refl s
  · refine State.Keeps.trans ?_ (State.keeps_ends (State.ends_settleClosing _ _))
    refine State.Keeps.trans ?_ (State.keeps_updStation _ _ _ fun x => x.keeps_deliveryEnds)
    exact (s.rests_updLine _ Line.releaseBuffer (fun x => by simp [Line.releaseBuffer])
      (fun x => by simp [Line.releaseBuffer]) fun x => by simp [Line.releaseBuffer]).keeps

theorem State.keeps_eventPosted (s : State) : s.Keeps s.eventPosted := by
  unfold State.eventPosted
  split
  · exact .refl s
  · next w _ =>
    refine State.Keeps.trans ?_ (State.keeps_finish _)
    refine State.Keeps.trans ?_ (State.keeps_judgeGrant _)
    refine State.Keeps.trans ?_ (State.keeps_eventPosting _)
    refine State.Keeps.trans ?_ (State.keeps_attentionWritten _ _)
    refine (s.keeps_written w.addr w.octets (wordOffsets eventWords 16)).trans ?_
    exact State.keeps_same rfl rfl rfl rfl rfl rfl

/-! ## Records -/

theorem State.keeps_accept (s : State) (rd : RecordRead) (r : List Byte) : s.Keeps (s.accept rd r) :=
  State.keeps_same rfl rfl rfl rfl rfl rfl

theorem State.station_accept (s : State) (rd : RecordRead) (r : List Byte) (h : Handle) :
    (s.accept rd r).station h = s.station h := rfl

theorem State.keeps_takeRecord (s : State) (r : List Byte) (act : State → Nat → State)
    (h : ∀ (t : State) id, s.verdict r = none → t.stations = s.stations → t.lines = s.lines → t.Keeps (act t id)) :
    s.Keeps (s.takeRecord r act) := by
  unfold State.takeRecord
  split
  · exact .refl s
  · next rd _ =>
    refine State.Keeps.trans (s.keeps_accept rd r) ?_
    have k := h (s.accept rd r) rd.ctx
    split
    · exact (State.keeps_ends (State.ends_endRecord _ _ _ _)).trans (State.keeps_finish _)
    · next hv => exact (k hv rfl rfl).trans (State.keeps_finish _)

/-- A record of a kind that is taken has its fields in range and passes the kind's own checks (R140). -/
theorem State.verdict_taken {s : State} {r : List Byte} {k : RecordKind} (h : s.verdict r = none)
    (hk : kindOfCode (recKind r) = some k) : fieldsInRange k r = true ∧ s.checkKind k r = none := by
  unfold State.verdict at h
  rw [hk] at h
  simp only at h
  split at h
  · cases h
  · split at h
    · cases h
    · next h2 => exact ⟨by simpa using h2, h⟩

theorem recordOf_kind {c : Byte} {r : List Byte} (h : recordOf c r = true) : recKind r = c := by
  simp only [recordOf, Bool.and_eq_true, beq_iff_eq] at h
  simp [recKind, octetAt, List.getD, h.2]

theorem State.checkLine_taken {s : State} {k : RecordKind} {l : LineNo} (h : s.checkLine k l = none) :
    linePermits k (s.line l).state = true := by
  unfold State.checkLine at h
  simp only at h
  split at h
  · cases h
  · split at h
    · assumption
    · cases h

theorem State.keeps_endOk (s : State) (id : Nat) : s.Keeps (s.endOk id) := State.keeps_ends (s.ends_endOk id)

theorem State.keeps_acceptExchange (s : State) (h : Handle) (id : Nat) : s.Keeps (s.acceptExchange h id) := by
  unfold State.acceptExchange
  split
  · exact .refl s
  · next st hst =>
    split
    · exact State.keeps_ends (s.ends_hand _ _ _ _ _ _)
    · refine State.Keeps.trans (s.keeps_setStation _ _ fun z hz => ⟨st, hst, ?_⟩) (State.rests_notify _ _).keeps
      cases hz
      exact .plain rfl rfl rfl rfl rfl rfl rfl rfl rfl

theorem State.pairHolder_none {s : State} {l : LineNo} {a : BitVec 7} (h : s.pairHolder l a = none) (k : Handle)
    (x : Station) (hx : s.station k = some x) : x.line = l → x.address = a → False := by
  intro e1 e2
  unfold State.pairHolder at h
  have := List.find?_eq_none.mp h k (by simp [allHandles])
  simp [hx, e1, e2] at this

/-- R18, R140: a taken ADD_STATION record brings an entry that keeps every invariant. -/
theorem State.keeps_addStation (s : State) (r : List Byte) (h1 : s.checkNew r = none)
    (h2 : fieldsInRange .addStation r = true) :
    s.Keeps (s.addStation r) := by
  refine State.Keeps.trans ?_ (State.rests_notify _ (recStationLine r)).keeps
  have hp : s.pairHolder (recStationLine r) (recAddress r) = none := by
    unfold State.checkNew at h1
    split at h1
    · cases h1
    · simpa using h1
  simp only [fieldsInRange, Bool.and_eq_true, decide_eq_true_eq] at h2
  have ha : 1 ≤ (recAddress r).toNat ∧ (recAddress r).toNat ≤ 126 := by
    simp only [recAddress, BitVec.toNat_ofNat]; omega
  have key : ∀ k y, (s.setStation (recHandle r) (some (newStation r))).station k = some y →
      (k = recHandle r ∧ y = newStation r) ∨ s.station k = some y := by
    intro k y hy
    rw [State.station_setStation] at hy
    split at hy
    · next e => cases hy; exact .inl ⟨e, rfl⟩
    · exact .inr hy
  refine ⟨id, fun h => ⟨fun k y hy => ?_, fun k j a b hx hy e1 e2 => ?_⟩, fun _ h k y hy => ?_, fun h k y hy => ?_, id, id⟩
  · rcases key k y hy with ⟨-, rfl⟩ | hy
    · exact ha
    · exact h.1 k y hy
  · rcases key k a hx with ⟨rfl, rfl⟩ | hx <;> rcases key j b hy with ⟨rfl, rfl⟩ | hy
    · rfl
    · exact (State.pairHolder_none hp j b hy e1.symm e2.symm).elim
    · exact (State.pairHolder_none hp k a hx e1 e2).elim
    · exact h.2 k j a b hx hy e1 e2
  · rcases key k y hy with ⟨-, rfl⟩ | hy
    · simp only [Station.missRule, newStation]
      refine ⟨h2.1.1.1.2.1, Nat.zero_le _, ?_⟩
      have := h2.1.1.1.2.1
      simp; omega
    · exact h k y hy
  · rcases key k y hy with ⟨-, rfl⟩ | hy
    · exact ⟨fun t ht => (by cases ht), fun _ => rfl⟩
    · exact h k y hy

theorem State.keeps_disableLine (s : State) (l : LineNo) : s.Keeps (s.disableLine l) := by
  unfold State.disableLine
  split
  · next h => exact s.keeps_released l _ (State.released_of (by simp [h]) (by simp [h])) (fun _ => rfl) fun _ => rfl
  · exact .refl s

theorem Line.configure_state (x : Line) (id : Nat) : (x.configure id).state = x.state := by
  unfold Line.configure; simp only; split <;> rfl

theorem Line.configure_driver (x : Line) (id : Nat) : (x.configure id).driverEnable = x.driverEnable := by
  unfold Line.configure; simp only; split <;> rfl

theorem Line.configure_txd (x : Line) (id : Nat) : (x.configure id).txd = x.txd := by
  unfold Line.configure; simp only; split <;> rfl

theorem State.keeps_quiesceLine (s : State) (l : LineNo) (id : Nat) : s.Keeps (s.quiesceLine l id) := by
  have h0 := s.rests_updLine l (fun x => { x with quiesce := true }) (fun _ => rfl) (fun _ => rfl) fun _ => rfl
  have hw := h0.trans (State.rests_updLine _ l (fun x => { x with quiescers := x.quiescers ++ [id] }) (fun _ => rfl)
    (fun _ => rfl) fun _ => rfl)
  unfold State.quiesceLine
  simp only
  split
  · next h =>
    refine State.Keeps.trans ?_ (State.keeps_endOk _ _)
    refine h0.keeps.trans (State.keeps_released _ l _ (h0.released ?_) (fun _ => rfl) fun _ => rfl)
    exact State.released_of (by simp [h]) (by simp [h])
  · exact h0.keeps.trans (State.keeps_endOk _ _)
  · exact h0.keeps.trans (State.keeps_endOk _ _)
  · exact hw.keeps
  · exact hw.keeps
  · exact hw.keeps
  · exact hw.keeps
  · exact hw.keeps
  · exact .refl s

theorem State.keeps_resumeLine (s : State) (l : LineNo) (id : Nat) (h : (s.line l).state = .quiesced) :
    s.Keeps ((s.updLine l Line.resume).endOk id) := by
  refine State.Keeps.trans ?_ (State.keeps_endOk _ _)
  exact s.keeps_released l _ (State.released_of (by simp [h]) (by simp [h])) (fun _ => rfl) fun _ => rfl

theorem State.keeps_resetLine (s : State) (l : LineNo) (id : Nat) : s.Keeps (s.resetLine l id) := by
  have hd : s.Keeps (s.updLine l fun x => x.deferReset id) :=
    (s.rests_updLine l (fun x => x.deferReset id) (fun x => by simp [Line.deferReset])
      (fun x => by simp [Line.deferReset]) fun x => by simp [Line.deferReset]).keeps
  have hn : s.Keeps (if s.device = .running then s.enterBreakOut l [id] s.time else s.updLine l fun x => x.deferReset id) := by
    split
    · exact s.keeps_enterBreakOut _ _ _
    · exact hd
  have hb : s.Keeps (s.updLine l fun x => { x with boundResets := x.boundResets ++ [id] }) :=
    (s.rests_updLine l (fun x => { x with boundResets := x.boundResets ++ [id] }) (fun _ => rfl) (fun _ => rfl)
      fun _ => rfl).keeps
  unfold State.resetLine
  simp only
  split
  · exact hn
  · exact hn
  · exact hn
  · exact hb
  · exact hd
  · exact hd
  · exact hd
  · exact hd
  · exact .refl s

/-! ## Lines -/

theorem State.keeps_payloadRead (s : State) (l : LineNo) (octets : List Byte) (h : (s.line l).state = .preparing) :
    s.Keeps (s.payloadRead l octets) := by
  unfold State.payloadRead
  split
  · exact .refl s
  · refine State.Keeps.trans ?_ (State.keeps_finish _)
    have r := s.rests_fillBuffer l ‹_› octets
    exact r.keeps.trans (State.keeps_readGood _ l _ (r.released (State.released_of (by simp [h]) (by simp [h]))))

theorem State.keeps_payloadFails (s : State) (l : LineNo) (h : (s.line l).state = .preparing) :
    s.Keeps (s.payloadFails l) := by
  unfold State.payloadFails
  split
  · exact .refl s
  · exact (s.keeps_readFailed l _ (State.released_of (by simp [h]) (by simp [h]))).trans (State.keeps_finish _)

theorem State.rests_markUnanswered (s : State) (job : Job) : s.Rests (s.markUnanswered job) :=
  State.rests_ends (s.ends_markUnanswered job)

theorem State.keeps_frameSent (s : State) (l : LineNo) (job : Job) (m : Nat) (h : s.Released l) :
    s.Keeps (s.frameSent l job m) := by
  have ha : ∀ (t : State) n, t.Released l → t.Keeps (t.updLine l fun x => x.await n m) := fun t n ht =>
    t.keeps_released l _ ht (fun _ => rfl) fun _ => rfl
  cases job with
  | command id g o =>
    simp only [State.frameSent]
    have r := s.rests_markUnanswered (.command id g o)
    exact r.keeps.trans (ha _ _ (r.released h))
  | broadcast id =>
    simp only [State.frameSent]
    have r := State.rests_ends ((s.ends_endWith id .ok).trans (State.ends_endAbort _ (s.aborter id) .tooLate))
    exact r.keeps.trans (State.keeps_toGuard _ l (r.released h))
  | poll g p => exact ha _ _ h
  | link g => exact ha _ _ h
  | probe g => exact ha _ _ h

theorem State.keeps_releaseDriver (s : State) (l : LineNo) (t : Nat) : s.Keeps (s.updLine l fun x => x.releaseDriver t) :=
  s.keeps_updLine l _ fun _ => ⟨fun e => (by cases e), fun _ => rfl⟩

theorem State.released_releaseDriver (s : State) (l : LineNo) (t : Nat) :
    (s.updLine l fun x => x.releaseDriver t).Released l :=
  fun _ => by simp [Line.releaseDriver]

theorem State.keeps_transmitEnds (s : State) (l : LineNo) : s.Keeps (s.transmitEnds l) := by
  unfold State.transmitEnds
  split
  · exact .refl s
  · simp only
    refine State.Keeps.trans ?_ (State.keeps_finish _)
    refine State.Keeps.trans ?_ (State.keeps_frameSent _ l _ _ (State.released_releaseDriver _ l _))
    exact (s.keeps_reach _).trans (State.keeps_releaseDriver _ l _)

theorem State.keeps_replyWriteEnds (s : State) (l : LineNo) (r : BusWrite) : s.Keeps (s.replyWriteEnds l r) := by
  unfold State.replyWriteEnds
  split
  · exact (State.rests_replyWritten _ _ _ _ _).keeps.trans (State.keeps_finish _)
  · exact .refl s
  · exact .refl s

theorem State.keeps_enableLine (s : State) (l : LineNo) (h : (s.line l).state = .disabled) : s.Keeps (s.enableLine l) := by
  have r := s.rests_updLine l (fun x => x.startReceiver s.time) (fun _ => rfl) (fun _ => rfl) fun _ => rfl
  unfold State.enableLine
  simp only
  split
  · exact r.keeps.trans (State.keeps_enterBreakOut _ _ _ _)
  · refine r.keeps.trans (State.keeps_released _ l _ (r.released ?_) (fun _ => rfl) fun _ => rfl)
    exact State.released_of (by simp [h]) (by simp [h])

theorem State.keeps_installTable (s : State) (l : LineNo) (id : Nat) (b : List Byte) (n : Nat) (rate : Fin 8) :
    s.Keeps (s.installTable l id b n rate) := by
  have r := (s.rests_updLine l (fun x => x.install (bandTableOf b) n rate s.time) (fun _ => rfl) (fun _ => rfl)
    fun _ => rfl).trans (State.rests_ends (State.ends_endOk _ id))
  unfold State.installTable
  simp only
  split
  · next h => exact r.keeps.trans (State.keeps_enableLine _ l ((r.state l).trans h))
  · exact r.keeps.trans (State.rests_updLine _ l Line.dropCharacter (fun _ => rfl) (fun _ => rfl) fun _ => rfl).keeps

theorem State.keeps_tableReadEnds (s : State) (l : LineNo) (r : BusRead) : s.Keeps (s.tableReadEnds l r) := by
  have hf : ∀ id a b, s.Keeps (s.tableFails l id a b) := fun id a b =>
    (s.rests_updLine l (fun x => { x with setLine := none, bandReading := false }) (fun _ => rfl) (fun _ => rfl)
      fun _ => rfl).keeps.trans (State.keeps_ends (State.ends_endRecord _ _ _ _))
  unfold State.tableReadEnds
  split
  · exact .refl s
  · refine State.Keeps.trans ?_ (State.keeps_finish _)
    split
    · exact hf _ _ _
    · split
      · exact s.keeps_installTable _ _ _ _ _
      · exact hf _ _ _

theorem State.keeps_guardEnds (s : State) (l : LineNo) (h : (s.line l).state = .guard) : s.Keeps (s.guardEnds l) := by
  have r := s.rests_reach (s.line l).guardMoment
  unfold State.guardEnds
  simp only
  refine r.keeps.trans (State.Keeps.trans ?_ (State.keeps_finish _))
  split
  · exact State.keeps_enterBreakOut _ _ _ _
  · refine State.keeps_released _ l _ (r.released ?_) (fun _ => rfl) fun _ => rfl
    exact State.released_of (by simp [h]) (by simp [h])

theorem State.keeps_breakSpaceEnds (s : State) (l : LineNo) (t : Nat) (h : (s.line l).state = .breakOut) :
    s.Keeps ((s.reach t).updLine l fun x => { x with txd := .mark }) := by
  have r := s.rests_reach t
  exact r.keeps.trans (State.keeps_updLine _ l _ fun _ => ⟨fun _ => .inr ((r.state l).trans h), fun _ => rfl⟩)

theorem State.keeps_breakReleased (s : State) (l : LineNo) : s.Keeps (s.breakReleased l) := by
  unfold State.breakReleased
  simp only
  have hb : ∀ u : State, u.Rests (u.endBound l) := by
    intro u
    unfold State.endBound
    refine State.Rests.trans ?_ (State.rests_updLine _ l _ (fun _ => rfl) (fun _ => rfl) fun _ => rfl)
    exact .foldl _ (fun s id => State.rests_ends (s.ends_endOk _)) _ _
  refine State.Keeps.trans (s.keeps_reach ((s.line l).breakStart + 24 * (s.line l).breakChar))
    (State.Keeps.trans ?_ (State.keeps_finish _))
  refine (State.keeps_releaseDriver _ l _).trans ((hb _).keeps.trans (State.keeps_toGuard _ l ?_))
  exact (hb _).released (State.released_releaseDriver _ l _)

/-! ## The receiver -/

theorem State.watching_released {s : State} {l : LineNo} (h : s.watching l = true) : s.Released l := by
  simp only [State.watching, Bool.and_eq_true] at h
  refine State.released_of (fun e => ?_) fun e => ?_ <;> rw [e] at h <;> cases h.2

theorem State.keeps_lineUpdate (s : State) (l : LineNo) (t : Nat) (f : Line → Line) (h1 : ∀ x, (f x).state = x.state)
    (h2 : ∀ x, (f x).driverEnable = x.driverEnable) (h3 : ∀ x, (f x).txd = x.txd) :
    s.Rests ((s.reach t).updLine l f) := (s.rests_reach t).trans (State.rests_updLine _ l f h1 h2 h3)

theorem Line.discardGlitch_state (x : Line) (t : Nat) : (x.discardGlitch t).state = x.state := by
  unfold Line.discardGlitch; split <;> simp

theorem Line.discardGlitch_driver (x : Line) (t : Nat) : (x.discardGlitch t).driverEnable = x.driverEnable := by
  unfold Line.discardGlitch; split <;> simp

theorem Line.discardGlitch_txd (x : Line) (t : Nat) : (x.discardGlitch t).txd = x.txd := by
  unfold Line.discardGlitch; split <;> simp

theorem Line.quietAtExpiry_state (x : Line) (t : Nat) : (x.quietAtExpiry t).state = x.state := by
  unfold Line.quietAtExpiry; split <;> rfl

theorem Line.quietAtExpiry_driver (x : Line) (t : Nat) : (x.quietAtExpiry t).driverEnable = x.driverEnable := by
  unfold Line.quietAtExpiry; split <;> rfl

theorem Line.quietAtExpiry_txd (x : Line) (t : Nat) : (x.quietAtExpiry t).txd = x.txd := by
  unfold Line.quietAtExpiry; split <;> rfl

theorem State.keeps_readMark (s : State) (l : LineNo) (h : s.Released l) : s.Keeps (s.readMark l) := by
  unfold State.readMark
  have r := s.rests_reach ((s.line l).markMoment s.time)
  exact r.keeps.trans (State.keeps_released _ l _ (r.released h) (fun _ => rfl) fun _ => rfl)

theorem State.released_readMark (s : State) (l : LineNo) : (s.readMark l).Released l :=
  State.released_of (by simp [State.readMark, Line.fixTurnaround]) (by simp [State.readMark, Line.fixTurnaround])

theorem State.keeps_receiveOctet (s : State) (l : LineNo) (b : Byte) (m f : Bool) (h : s.Released l) :
    s.Keeps (s.receiveOctet l b m f) := by
  unfold State.receiveOctet
  simp only
  split
  · exact .refl s
  · split
    · exact .refl s
    · split
      · exact (s.rests_updLine l (fun x => { x with rxOctets := x.rxOctets ++ [b] }) (fun _ => rfl) (fun _ => rfl)
          fun _ => rfl).keeps
      · exact (s.rests_updLine l (fun x => { x with rxOctets := x.rxOctets ++ [b], rxWrong := true }) (fun _ => rfl)
          (fun _ => rfl) fun _ => rfl).keeps
      · exact s.keeps_endAttempt l _ _ h
      · exact s.keeps_endAttempt l _ _ h

theorem State.keeps_useCharacter (s : State) (l : LineNo) (b : Byte) (m f : Bool) (h : s.Released l) :
    s.Keeps (s.useCharacter l b m f) := by
  have r := s.rests_updLine l Line.countChatter (fun _ => rfl) (fun _ => rfl) fun _ => rfl
  unfold State.useCharacter
  split
  · exact s.keeps_receiveOctet l _ _ _ h
  · exact r.keeps.trans (State.keeps_toGuard _ l (r.released h))
  · exact r.keeps
  · exact r.keeps
  · exact r.keeps
  · exact r.keeps
  · exact .refl s
  · exact .refl s
  · exact .refl s

theorem State.keeps_takeCharacter (s : State) (l : LineNo) (b : Byte) (m : Bool) (p : StopBit) (e : Nat)
    (h : s.Released l) : s.Keeps (s.takeCharacter l b m p e) := by
  have h1 : s.Keeps (s.answerBegins l m) ∧ (s.answerBegins l m).Released l := by
    unfold State.answerBegins
    split
    · exact ⟨s.keeps_readMark l h, s.released_readMark l⟩
    · exact ⟨.refl s, h⟩
  unfold State.takeCharacter
  simp only
  refine State.Keeps.trans ?_ (State.keeps_finish _)
  have r := State.keeps_lineUpdate (s.answerBegins l m) l
    (((s.answerBegins l m).line l).passMoment e p) (fun x => x.endCharacter e (((s.answerBegins l m).line l).passMoment e p)) (fun _ => rfl) (fun _ => rfl)
    fun _ => rfl
  exact h1.1.trans (r.keeps.trans (State.keeps_useCharacter _ l _ _ _ (r.released h1.2)))

theorem State.keeps_gapExpires (s : State) (l : LineNo) (t : Nat) (o : AttemptOutcome) (h : (s.line l).state = .receive) :
    s.Keeps (((s.reach t).endAttempt l o false).finish) := by
  have r := s.rests_reach t
  refine r.keeps.trans (State.Keeps.trans ?_ (State.keeps_finish _))
  exact State.keeps_endAttempt _ l _ _ (r.released (State.released_of (by simp [h]) (by simp [h])))

theorem State.keeps_replyExpires (s : State) (l : LineNo) (h : (s.line l).state = .await) : s.Keeps (s.replyExpires l) := by
  unfold State.replyExpires
  simp only
  have r := s.keeps_lineUpdate l ((s.line l).replyTimer.getD 0) (fun x => x.quietAtExpiry ((s.line l).replyTimer.getD 0))
    (fun x => x.quietAtExpiry_state _) (fun x => x.quietAtExpiry_driver _) fun x => x.quietAtExpiry_txd _
  refine r.keeps.trans (State.Keeps.trans ?_ (State.keeps_finish _))
  exact State.keeps_endAttempt _ l _ _ (r.released (State.released_of (by simp [h]) (by simp [h])))

theorem State.keeps_breakDetected (s : State) (l : LineNo) (h : s.watching l = true) : s.Keeps (s.breakDetected l) := by
  unfold State.breakDetected
  simp only
  have r0 := s.keeps_lineUpdate l ((s.line l).reaches ((s.line l).breakEdge s.time) 2)
    (fun x => x.enterBreak ((s.line l).breakEdge s.time)) (fun _ => rfl) (fun _ => rfl) fun _ => rfl
  have r1 : ∀ u : State, u.Rests (u.breakOnRead l) := by
    intro u
    unfold State.breakOnRead
    split
    · exact u.rests_abandonRead l
    · exact .refl u
  have r2 : ∀ u : State, u.Rests (u.breakOnAttempt l) := by
    intro u
    unfold State.breakOnAttempt
    split
    · split
      · exact u.rests_deliver l _ _ _
      · exact .refl u
    · exact .refl u
  have r3 : ∀ u : State, u.Released l → u.Keeps (u.guardAfterBreak l) := by
    intro u hu
    unfold State.guardAfterBreak
    split
    · exact u.keeps_toGuard l hu
    · exact .refl u
  have r := r0.trans ((r1 _).trans ((State.rests_breakReaches _ l).trans
    ((State.rests_ends (State.ends_cancelAbandoned _ (s.line l).abandonedJob)).trans ((r2 _).trans
      (State.rests_updLine _ l (fun x => { x with breaksSeen := min 255 (x.breaksSeen + 1) }) (fun _ => rfl)
        (fun _ => rfl) fun _ => rfl)))))
  exact r.keeps.trans ((r3 _ (r.released (State.watching_released h))).trans (State.keeps_finish _))

/-! ## Station timers -/

theorem State.timerOf_some {s : State} {h : Handle} {k : TimerKind} (e : (s.timerOf h k).isSome = true) :
    ∃ st t, s.station h = some st ∧ st.timer = some t ∧ t.kind = k := by
  unfold State.timerOf at e
  cases hs : s.station h with
  | none => simp [hs] at e
  | some st =>
    cases ht : st.timer with
    | none => simp [hs, ht] at e
    | some t =>
      refine ⟨st, t, rfl, ht, ?_⟩
      by_contra hk
      simp [hs, ht, hk] at e

theorem State.keeps_timer (s : State) (h : Handle) (k : TimerKind) (f : Station → Nat → Station)
    (e : s.timerRuns h k = true)
    (hf : ∀ (x : Station) t n, x.timer = some t → t.kind = k → StationKeeps x (f x n)) :
    s.Keeps (s.timerExpires h k f) := by
  unfold State.timerExpires
  simp only
  simp only [State.timerRuns, Bool.and_eq_true] at e
  obtain ⟨st, t, hs, ht, hk⟩ := State.timerOf_some e.2
  refine State.Keeps.trans (t := s.reach _) (s.keeps_reach ((s.timerOf h k).getD 0)) ?_
  refine State.keeps_setStation _ h _ fun z hz => ⟨st, hs, ?_⟩
  have : (s.reach ((s.timerOf h k).getD 0)).station h = some st := hs
  rw [this] at hz
  cases hz
  exact hf st t _ ht hk

theorem State.rests_tellStationLine (s : State) (h : Handle) : s.Rests (s.tellStationLine h) := by
  unfold State.tellStationLine
  split
  · exact s.rests_notify _
  · exact .refl s

theorem State.rests_releaseHeld (s : State) (h : Handle) : s.Rests (s.releaseHeld h) := by
  unfold State.releaseHeld
  split
  · exact s.rests_updCtx _ _
  · exact .refl s

/-! ## Time -/

theorem State.keeps_tick (s : State) : s.Keeps s.tick := by
  unfold State.tick
  split
  · exact .refl s
  · exact s.keeps_elapse _

end Sys2Proof.Machine
end

