-- ==== Sys2Proof/Laws/Finish.lean ====
section
/-! SUPPORT. What the end of a step may move (`State.SameButWriters`), and that ends followed by the end of a step move no
more than `State.SameButEnds` allows. -/

namespace Sys2Proof.Machine

/-! ## The two relations -/

theorem State.WritersMoved.refl (s : State) : s.WritersMoved s := ⟨fun _ => rfl, .inl rfl⟩

theorem State.WritersMoved.trans {s t u : State} (a : s.WritersMoved t) (b : t.WritersMoved u) : s.WritersMoved u := by
  refine ⟨fun q => ?_, ?_⟩
  · have hb := b.1 q
    have ha := a.1 q
    simp only [Queue.SameButReport] at ha hb ⊢
    rw [ha] at hb
    exact hb
  · rcases a.2 with ha | ⟨ha, ha'⟩ <;> rcases b.2 with hb | ⟨hb, hb'⟩
    · exact .inl (hb.trans ha)
    · exact .inr ⟨ha ▸ hb, hb'⟩
    · exact .inr ⟨ha, hb.trans ha'⟩
    · exact .inr ⟨ha, hb'⟩

theorem Line.SameButReport.refl (x : Line) : x.SameButReport x := ⟨.refl x, rfl⟩

theorem Line.SameButReport.trans {x y z : Line} (a : x.SameButReport y) (b : y.SameButReport z) : x.SameButReport z := by
  have ha := a.2
  have hb := b.2
  refine ⟨a.1.trans b.1 (by rw [ha]), ?_⟩
  rw [ha] at hb
  exact hb

theorem Line.SameButEnds.refl (x : Line) : x.SameButEnds x := ⟨.refl x, rfl⟩

theorem Line.SameButEnds.trans {x y z : Line} (a : x.SameButEnds y) (b : y.SameButEnds z) : x.SameButEnds z := by
  have ha := a.2
  have hb := b.2
  refine ⟨a.1.trans b.1 (by rw [ha]), ?_⟩
  rw [ha] at hb
  exact hb

theorem SameButEndsStation.refl (x : Option Station) : SameButEndsStation x x := by
  cases x <;> simp [SameButEndsStation]

theorem SameButEndsStation.trans {x y z : Option Station} (a : SameButEndsStation x y) (b : SameButEndsStation y z) :
    SameButEndsStation x z := by
  rcases x with _ | x <;> rcases y with _ | y <;> rcases z with _ | z <;> simp only [SameButEndsStation] at a b ⊢
  · exact a
  · rw [a] at b; exact b
  · rw [a] at b; exact b

theorem State.SameButEnds.refl (s : State) : s.SameButEnds s :=
  ⟨rfl, .refl s, fun _ => .refl _, fun _ => SameButEndsStation.refl _⟩

theorem State.SameButEnds.trans {s t u : State} (a : s.SameButEnds t) (b : t.SameButEnds u) : s.SameButEnds u := by
  refine ⟨?_, a.2.1.trans b.2.1, fun l => (a.2.2.1 l).trans (b.2.2.1 l), fun h => (a.2.2.2 h).trans (b.2.2.2 h)⟩
  have hb := b.1
  rw [a.1] at hb
  exact hb

/-- Ends move no more than `SameButEnds` allows. -/
theorem State.sameButEnds_of_ends {s t : State} (e : s.Ends t) : s.SameButEnds t := by
  have hr := e.rest
  refine ⟨?_, ⟨fun q => ?_, .inl ?_⟩, fun l => ?_, fun h => ?_⟩
  · rw [hr]
  · rw [hr]; rfl
  · rw [hr]
  · have := e.lines l
    refine ⟨this.1, ?_⟩
    rw [this.2]
  · have := e.stations h
    rcases hx : s.station h with _ | x <;> rcases hy : t.station h with _ | y <;> rw [hx, hy] at this
    · trivial
    · exact this
    · exact this
    · simp only [EndsStation, SameButEndsStation] at this ⊢
      rw [this]

/-- A station's entry under the end of a step. -/
def SameButReportStation (x y : Option Station) : Prop :=
  match x, y with
  | some x, some y => x.SameButReport y
  | none, none => True
  | _, _ => False

/-- What `SameButWriters` says, in one shape that composes. -/
theorem State.sameButWriters_iff (s t : State) : s.SameButWriters t ↔
    t = { s with
          device := t.device, intStatus := t.intStatus, intPin := t.intPin, queues := t.queues, stations := t.stations
          lines := t.lines, handed := t.handed, completionWrite := t.completionWrite, attentions := t.attentions
          eventWrite := t.eventWrite, reserved := t.reserved, refusedLines := t.refusedLines } ∧
      s.WritersMoved t ∧ (∀ l, (s.line l).SameButReport (t.line l)) ∧
      ∀ h, SameButReportStation (s.station h) (t.station h) := by
  refine and_congr Iff.rfl (and_congr Iff.rfl (and_congr Iff.rfl (forall_congr' fun h => ?_)))
  unfold SameButReportStation
  rcases s.station h with _ | x <;> rcases t.station h with _ | y <;> rfl

theorem SameButReportStation.refl (x : Option Station) : SameButReportStation x x := by
  cases x <;> simp [SameButReportStation, Station.SameButReport]

theorem SameButReportStation.trans {x y z : Option Station} (a : SameButReportStation x y)
    (b : SameButReportStation y z) : SameButReportStation x z := by
  rcases x with _ | x <;> rcases y with _ | y <;> rcases z with _ | z <;>
    simp only [SameButReportStation, Station.SameButReport] at a b ⊢
  rw [a] at b; exact b

theorem State.SameButWriters.refl (s : State) : s.SameButWriters s :=
  (s.sameButWriters_iff s).2 ⟨rfl, .refl s, fun _ => .refl _, fun _ => SameButReportStation.refl _⟩

theorem State.SameButWriters.trans {s t u : State} (a : s.SameButWriters t) (b : t.SameButWriters u) :
    s.SameButWriters u := by
  rw [State.sameButWriters_iff] at a b ⊢
  refine ⟨?_, a.2.1.trans b.2.1, fun l => (a.2.2.1 l).trans (b.2.2.1 l), fun h => (a.2.2.2 h).trans (b.2.2.2 h)⟩
  have hb := b.1
  rw [a.1] at hb
  exact hb

/-- What the writers may move, ends may move too. -/
theorem State.sameButEnds_of_writers {s t : State} (e : s.SameButWriters t) : s.SameButEnds t := by
  rw [State.sameButWriters_iff] at e
  obtain ⟨h1, h2, h3, h4⟩ := e
  refine ⟨?_, h2, fun l => ?_, fun h => ?_⟩
  · rw [h1]
  · have := h3 l
    refine ⟨this.1, ?_⟩
    rw [this.2]
  · have := h4 h
    rcases hx : s.station h with _ | x <;> rcases hy : t.station h with _ | y <;> rw [hx, hy] at this
    · trivial
    · exact this
    · exact this.elim
    · simp only [SameButReportStation, Station.SameButReport, SameButEndsStation] at this ⊢
      rw [this]

/-! ## The end of a step -/

/-- A change of the writers' own fields alone. -/
theorem State.sameButWriters_plain {s t : State}
    (h : t = { s with
          intStatus := t.intStatus, intPin := t.intPin, handed := t.handed, completionWrite := t.completionWrite
          attentions := t.attentions, eventWrite := t.eventWrite, reserved := t.reserved
          refusedLines := t.refusedLines }) : s.SameButWriters t := by
  refine (s.sameButWriters_iff t).2 ⟨?_, ⟨fun q => ?_, .inl ?_⟩, fun l => ?_, fun k => ?_⟩
  · rw [h]
  · rw [h]; rfl
  · rw [h]
  · rw [h]; exact Line.SameButReport.refl _
  · rw [h]; exact SameButReportStation.refl _

theorem State.writers_startCompletion (s : State) : s.SameButWriters s.startCompletion := by
  unfold State.startCompletion
  split
  · exact State.sameButWriters_plain rfl
  · exact .refl s

theorem State.writers_tellLines (s : State) (ls : List LineNo) : s.SameButWriters (s.tellLines ls) := by
  refine (s.sameButWriters_iff _).2 ⟨rfl, ⟨fun _ => rfl, .inl rfl⟩, fun l => ?_, fun _ => SameButReportStation.refl _⟩
  rw [State.line_tellLines]
  split
  · exact ⟨Line.told_noticed _, by rw [Line.noticed_eq]⟩
  · exact Line.SameButReport.refl _

theorem State.writers_judgeGrant (s : State) : s.SameButWriters s.judgeGrant := by
  unfold State.judgeGrant
  split
  · exact (s.writers_tellLines s.refusedLines).trans (State.sameButWriters_plain rfl)
  · exact .refl s

theorem State.writers_takePlace (s : State) : s.SameButWriters s.takePlace := by
  unfold State.takePlace
  exact State.SameButWriters.trans (State.sameButWriters_plain rfl) (State.writers_judgeGrant _)

theorem State.writers_takeLineReport (s : State) (l : LineNo) : s.SameButWriters (s.takeLineReport l) := by
  unfold State.takeLineReport
  refine State.SameButWriters.trans (State.SameButWriters.trans (t := s.updLine l fun x =>
    { x with breaksSeen := 0, chatter := 0, breakEnded := false, stuckSeen := false }) ?_
    (State.sameButWriters_plain rfl)) (State.writers_takePlace _)
  refine (s.sameButWriters_iff _).2 ⟨rfl, ⟨fun _ => rfl, .inl rfl⟩, fun k => ?_, fun _ => SameButReportStation.refl _⟩
  rw [State.updLine_eq, State.line_setLine]
  split
  · next e => subst e; exact ⟨.refl _, rfl⟩
  · exact Line.SameButReport.refl _

theorem State.writers_takeQueueReport (s : State) (q : QueueNo) (r : QueueReport) :
    s.SameButWriters (s.takeQueueReport q r) := by
  unfold State.takeQueueReport
  refine State.SameButWriters.trans (State.SameButWriters.trans (t := s.updQueue q fun x => { x with report := none })
    ?_ (State.sameButWriters_plain rfl)) (State.writers_takePlace _)
  refine (s.sameButWriters_iff _).2 ⟨rfl, ⟨fun k => ?_, .inl rfl⟩, fun _ => .refl _, fun _ => SameButReportStation.refl _⟩
  by_cases e : k = q
  · subst e; rw [State.queue_updQueue_same]; rfl
  · rw [State.queue_updQueue_ne s e]; rfl

theorem State.writers_takePresenceReport (s : State) (h : Handle) (st : Station) (hst : s.station h = some st) :
    s.SameButWriters (s.takePresenceReport h st) := by
  unfold State.takePresenceReport
  refine State.SameButWriters.trans (State.SameButWriters.trans
    (t := s.setStation h (some { st with lastReported := st.presence, presenceChanges := 0 })) ?_
    (State.sameButWriters_plain rfl)) (State.writers_takePlace _)
  refine (s.sameButWriters_iff _).2 ⟨rfl, ⟨fun _ => rfl, .inl rfl⟩, fun _ => .refl _, fun k => ?_⟩
  rw [State.station_setStation]
  split
  · next e => subst e; rw [hst]; rfl
  · exact SameButReportStation.refl _

theorem State.writers_takeReport (s : State) : s.SameButWriters s.takeReport := by
  unfold State.takeReport
  split
  · exact s.writers_takeLineReport _
  · split
    · split
      · exact s.writers_takeQueueReport _ _
      · exact .refl s
    · split
      · split
        · next st hst => exact s.writers_takePresenceReport _ st hst
        · exact .refl s
      · exact .refl s

theorem State.writers_startEvent (s : State) : s.SameButWriters s.startEvent := by
  unfold State.startEvent
  split
  · exact .refl s
  · split
    · exact State.sameButWriters_plain rfl
    · split
      · exact s.writers_takeReport
      · exact .refl s

theorem State.writers_checkHalted (s : State) : s.SameButWriters s.checkHalted := by
  unfold State.checkHalted
  split
  · next h =>
    exact (s.sameButWriters_iff _).2 ⟨rfl, ⟨fun _ => rfl, .inr ⟨h.1, rfl⟩⟩, fun _ => .refl _,
      fun _ => SameButReportStation.refl _⟩
  · exact .refl s

/-- R144, R149, R158: what ends a step moves the writers, one report's counts, and HALTED. -/
theorem State.writers_finish (s : State) : s.SameButWriters s.finish := by
  unfold State.finish
  split
  · exact (s.writers_startCompletion.trans (State.writers_startEvent _)).trans (State.writers_checkHalted _)
  · exact .refl s

/-- Ends followed by the end of the step. -/
theorem State.sameButEnds_finish {s t : State} (e : s.Ends t) : s.SameButEnds t.finish :=
  (State.sameButEnds_of_ends e).trans (State.sameButEnds_of_writers (State.writers_finish _))

end Sys2Proof.Machine
end

