-- ==== Sys2Proof/Laws/Reports.lean ====
section
/-! SUPPORT. A completion that has been handed stays handed until its entry is written, and its context stays in ENDING:
what `State.Reports` needs of the operations that follow in the same step. -/

namespace Sys2Proof.Machine

/-- The handed list only grows, the write in progress stays, and a context in ENDING stays there. -/
structure State.Tells (s t : State) : Prop where
  handed : ∃ more, t.handed = s.handed ++ more
  write : t.completionWrite = s.completionWrite
  ending : ∀ id, s.phaseOf id = some .ending → t.phaseOf id = some .ending

theorem State.Tells.refl (s : State) : s.Tells s := ⟨⟨[], by simp⟩, rfl, fun _ => id⟩

theorem State.Tells.trans {s t u : State} (a : s.Tells t) (b : t.Tells u) : s.Tells u := by
  obtain ⟨x, hx⟩ := a.handed
  obtain ⟨y, hy⟩ := b.handed
  exact ⟨⟨x ++ y, by rw [hy, hx, List.append_assoc]⟩, b.write.trans a.write, fun id h => b.ending id (a.ending id h)⟩

theorem State.Tells.foldl {α : Type} (f : State → α → State) (hf : ∀ (s : State) a, s.Tells (f s a)) (as : List α)
    (s : State) : s.Tells (as.foldl f s) := by
  induction as generalizing s with
  | nil => exact .refl s
  | cons a rest ih => exact (hf s a).trans (ih _)

/-- Composition that starts from the last operation. -/
theorem State.Tells.after {s t u : State} (b : t.Tells u) (a : s.Tells t) : s.Tells u := a.trans b

/-- Contexts, handed list and write are the same. -/
theorem State.Tells.same {s t : State} (h1 : t.pool = s.pool) (h2 : t.handed = s.handed)
    (h3 : t.completionWrite = s.completionWrite) : s.Tells t :=
  ⟨⟨[], by simp [h2]⟩, h3, fun id h => by simpa only [State.phaseOf, State.ctx, h1] using h⟩

/-! ## Contexts under a change -/

/-- A change of contexts that keeps their names. -/
theorem State.ctx_updCtx (s : State) (id k : Nat) (f : Context → Context) (hf : ∀ c, (f c).id = c.id) :
    (s.updCtx id f).ctx k = (s.ctx k).map fun c => if c.id = id ∧ c.phase ≠ .ending then f c else c := by
  unfold State.ctx State.updCtx
  simp only
  rw [List.find?_map]
  congr 1
  congr 1
  funext c
  simp only [Function.comp_apply]
  split
  · rw [hf]
  · rfl

theorem State.ctx_id {s : State} {id : Nat} {c : Context} (h : s.ctx id = some c) : c.id = id := by
  have := List.find?_some h
  simpa using this

theorem State.tells_updCtx (s : State) (id : Nat) (f : Context → Context) (hf : ∀ c, (f c).id = c.id) :
    s.Tells (s.updCtx id f) := by
  refine ⟨⟨[], by simp⟩, rfl, fun k h => ?_⟩
  unfold State.phaseOf at h ⊢
  rw [s.ctx_updCtx id k f hf]
  rcases hc : s.ctx k with _ | c
  · rw [hc] at h; simp at h
  · rw [hc] at h
    simp only [Option.map_some, Option.some.injEq] at h ⊢
    rw [if_neg (by rw [h]; simp), h]

theorem State.tells_hand (s : State) (id : Nat) (st : Status) (d : Detail) (n : Nat) (b : Option (Fin 8))
    (t : Option Nat) : s.Tells (s.hand id st d n b t) := by
  unfold State.hand
  split
  · exact .refl s
  · split
    · exact .refl s
    · obtain ⟨-, h2, h3⟩ := s.tells_updCtx id (fun c => { c with phase := .ending }) fun _ => rfl
      exact ⟨⟨_, rfl⟩, h2, h3⟩

theorem State.tells_endRecord (s : State) (id : Nat) (st : Status) (d : Detail) : s.Tells (s.endRecord id st d) :=
  s.tells_hand _ _ _ _ _ _

theorem State.tells_endOk (s : State) (id : Nat) : s.Tells (s.endOk id) := s.tells_endRecord _ _ _

theorem State.tells_updLine (s : State) (l : LineNo) (f : Line → Line) : s.Tells (s.updLine l f) := .same rfl rfl rfl

theorem State.tells_updStation (s : State) (h : Handle) (f : Station → Station) : s.Tells (s.updStation h f) :=
  .same rfl rfl rfl

theorem State.tells_leaveLists (s : State) (c : Context) : s.Tells (s.leaveLists c) := by
  unfold State.leaveLists State.leavePending
  split <;> split <;> exact .same rfl rfl rfl

theorem State.tells_linkInDoubt (s : State) (h : Handle) : s.Tells (s.linkInDoubt h) := by
  unfold State.linkInDoubt
  split
  · exact .refl s
  · simp only
    split <;> exact .same rfl rfl rfl

theorem State.tells_markUncertain (s : State) (c : Context) (st : Status) : s.Tells (s.markUncertain c st) := by
  unfold State.markUncertain
  split
  · split
    · exact s.tells_linkInDoubt _
    · exact .refl s
  · exact .refl s

theorem State.tells_endOne (s : State) (id : Nat) (st : Status) (d : Detail) (n : Nat) : s.Tells (s.endOne id st d n) := by
  unfold State.endOne
  split
  · exact .refl s
  · split
    · exact .refl s
    · exact ((s.tells_leaveLists _).trans (State.tells_markUncertain _ _ _)).trans (State.tells_hand _ _ _ _ _ _ _)

theorem State.tells_endPlain (s : State) (id : Nat) (st : Status) : s.Tells (s.endPlain id st) := s.tells_endOne _ _ _ _

theorem State.tells_endList (s : State) (h : Handle) (st : Status) : s.Tells (s.endList h st) := by
  unfold State.endList
  split
  · exact .refl s
  · exact .foldl _ (fun s id => s.tells_endPlain id st) _ _

theorem State.tells_tryFree (s : State) (h : Handle) : s.Tells (s.tryFree h) := by
  unfold State.tryFree
  split
  · exact .refl s
  · split
    · split
      · exact State.Tells.after (State.tells_endRecord _ _ _ _) (.same rfl rfl rfl)
      · exact .same rfl rfl rfl
    · exact .refl s

theorem State.tells_drainClosing (s : State) (h : Handle) : s.Tells (s.drainClosing h) := by
  unfold State.drainClosing
  split
  · exact .refl s
  · split
    · exact s.tells_endList _ _
    · exact .refl s

theorem State.tells_settleClosing (s : State) (h : Handle) : s.Tells (s.settleClosing h) :=
  (s.tells_drainClosing h).trans (State.tells_tryFree _ h)

theorem State.tells_endExchange (s : State) (id : Nat) (st : Status) (d : Detail) (n : Nat) :
    s.Tells (s.endExchange id st d n) := by
  unfold State.endExchange
  split
  · exact .refl s
  · simp only
    split
    · exact (s.tells_endOne _ _ _ _).trans (State.tells_settleClosing _ _)
    · exact s.tells_endOne _ _ _ _

theorem State.tells_endWith (s : State) (id : Nat) (st : Status) : s.Tells (s.endWith id st) :=
  s.tells_endExchange _ _ _ _

theorem State.tells_endAbort (s : State) (a : Option Nat) (st : Status) : s.Tells (s.endAbort a st) := by
  unfold State.endAbort
  split
  · exact s.tells_endRecord _ _ _
  · exact .refl s

theorem State.tells_endBreak (s : State) (id : Nat) : s.Tells (s.endBreak id) :=
  State.Tells.after (State.tells_endWith _ _ _) (s.tells_updCtx _ _ fun _ => rfl)

theorem State.tells_endRetries (s : State) (l : LineNo) : s.Tells (s.endRetries l) :=
  .foldl _ (fun s id => s.tells_endBreak id) _ _

theorem State.tells_breakReaches (s : State) (l : LineNo) : s.Tells (s.breakReaches l) :=
  State.Tells.after (State.tells_endRetries _ l) (.same rfl rfl rfl)

theorem State.tells_enterBreakOut (s : State) (l : LineNo) (records : List Nat) (now : Nat) :
    s.Tells (s.enterBreakOut l records now) :=
  State.Tells.after (State.tells_breakReaches _ l) (.same rfl rfl rfl)

theorem State.tells_endQuiescers (s : State) (l : LineNo) : s.Tells (s.endQuiescers l) :=
  State.Tells.trans (State.Tells.foldl _ (fun s id => s.tells_endRecord id .ok .none) _ _) (.same rfl rfl rfl)

theorem State.tells_toGuard (s : State) (l : LineNo) : s.Tells (s.toGuard l) :=
  State.Tells.after (State.tells_endQuiescers _ l) (.same rfl rfl rfl)

theorem State.tells_leaveRead (s : State) (l : LineNo) : s.Tells (s.leaveRead l) := by
  unfold State.leaveRead
  simp only
  split
  · exact State.Tells.after (State.tells_enterBreakOut _ l [] _) (.same rfl rfl rfl)
  · exact State.Tells.after (State.tells_endQuiescers _ l) (.same rfl rfl rfl)

theorem State.tells_returnToWait (s : State) (l : LineNo) (id : Nat) (origin : Phase) :
    s.Tells (s.returnToWait l id origin) := by
  unfold State.returnToWait
  simp only
  split
  · exact State.Tells.after (State.tells_updLine _ _ _) (s.tells_updCtx _ _ fun _ => rfl)
  · exact s.tells_updCtx _ _ fun _ => rfl

theorem State.tells_drainOffline (s : State) (h : Handle) (job : Job) : s.Tells (s.drainOffline h job) := by
  unfold State.drainOffline
  refine State.Tells.trans ?_ (State.tells_endList _ h .stationOffline)
  cases job with
  | command id g o =>
    simp only
    split
    · exact (s.tells_endPlain _ _).trans (State.tells_endAbort _ _ _)
    · exact s.tells_endPlain _ _
  | broadcast id => exact .refl s
  | poll g p => exact .refl s
  | link g => exact .refl s
  | probe g => exact .refl s

/-! ## Reports -/

/-- The end of `id` is decided: ENDING, and its completion is in the handed list. -/
def State.Handed (s : State) (id : Nat) (status : Status) (detail : Detail) : Prop :=
  s.phaseOf id = some .ending ∧ ∃ e ∈ s.handed, e.ctx = id ∧ e.status = status ∧ e.detail = detail

theorem State.Handed.tells {s t : State} {id : Nat} {st : Status} {d : Detail} (h : s.Handed id st d) (e : s.Tells t) :
    t.Handed id st d := by
  obtain ⟨more, hm⟩ := e.handed
  obtain ⟨x, hx, hr⟩ := h.2
  exact ⟨e.ending id h.1, x, by rw [hm]; exact List.mem_append_left _ hx, hr⟩

/-- R144: a handed completion of a context whose end was open. -/
theorem State.handed_hand (s : State) (id : Nat) (st : Status) (d : Detail) (n : Nat) (b : Option (Fin 8))
    (t : Option Nat) {c : Context} (h : s.ctx id = some c) (hp : c.Live) :
    (s.hand id st d n b t).Handed id st d := by
  unfold State.hand
  rw [h]
  simp only [hp.1, hp.2, or_self, if_false]
  refine ⟨?_, _, List.mem_append_right _ (List.mem_singleton_self _), rfl, rfl, rfl⟩
  show ((s.updCtx id fun c => { c with phase := .ending }).ctx id).map (·.phase) = _
  rw [s.ctx_updCtx id id (fun c => { c with phase := .ending }) fun _ => rfl, h]
  simp [State.ctx_id h, hp.1]

theorem State.handed_endRecord (s : State) (id : Nat) (st : Status) (d : Detail) {c : Context} (h : s.ctx id = some c)
    (hp : c.Live) : (s.endRecord id st d).Handed id st d := s.handed_hand _ _ _ _ _ _ h hp

theorem State.ctx_leaveLists (s : State) (c : Context) (k : Nat) : (s.leaveLists c).ctx k = s.ctx k := by
  unfold State.leaveLists State.leavePending
  split <;> split <;> rfl

theorem State.ctx_markUncertain (s : State) (c : Context) (st : Status) (k : Nat) :
    (s.markUncertain c st).ctx k = s.ctx k := by
  unfold State.markUncertain
  split
  · split
    · unfold State.linkInDoubt
      split
      · rfl
      · simp only
        split <;> rfl
    · rfl
  · rfl

theorem State.handed_endOne (s : State) (id : Nat) (st : Status) (d : Detail) (n : Nat) {c : Context}
    (h : s.ctx id = some c) (hp : c.Live) : (s.endOne id st d n).Handed id st d := by
  unfold State.endOne
  rw [h]
  simp only [hp.1, if_false]
  exact State.handed_hand _ _ _ _ _ _ _ (by rw [State.ctx_markUncertain, State.ctx_leaveLists, h]) hp

theorem State.handed_endExchange (s : State) (id : Nat) (st : Status) (d : Detail) (n : Nat) {c : Context}
    (h : s.ctx id = some c) (hp : c.Live) : (s.endExchange id st d n).Handed id st d := by
  unfold State.endExchange
  rw [h]
  simp only
  split
  · exact (s.handed_endOne id st d n h hp).tells (State.tells_settleClosing _ _)
  · exact s.handed_endOne id st d n h hp

theorem State.handed_endWith (s : State) (id : Nat) (st : Status) {c : Context} (h : s.ctx id = some c)
    (hp : c.Live) : (s.endWith id st).Handed id st c.failureDetail := by
  unfold State.endWith
  rw [h]
  exact s.handed_endExchange _ _ _ _ h hp

theorem State.takePlace_told (s : State) :
    s.takePlace.handed = s.handed ∧ s.takePlace.completionWrite = s.completionWrite := by
  unfold State.takePlace State.judgeGrant
  split <;> exact ⟨rfl, rfl⟩

/-- What was handed is reported when the step has ended. -/
theorem State.Handed.reports {s : State} {id : Nat} {st : Status} {d : Detail} (h : s.Handed id st d) :
    s.finish.Reports id st d := by
  have hpool : ∀ t : State, t.SameButWriters s.finish → s.finish.pool = t.pool := fun t e => by
    have := e.1
    rw [this]
  refine ⟨?_, ?_⟩
  · have := hpool s s.writers_finish
    unfold State.phaseOf State.ctx
    rw [this]
    exact h.1
  · obtain ⟨e, he, h1, h2, h3⟩ := h.2
    have key : s.startCompletion.handed = s.finish.handed ∧ s.startCompletion.completionWrite = s.finish.completionWrite ∨
        s.handed = s.finish.handed := by
      unfold State.finish
      split
      · left
        have a : ∀ t : State, t.startEvent.handed = t.handed ∧ t.startEvent.completionWrite = t.completionWrite := by
          intro t
          unfold State.startEvent
          split
          · exact ⟨rfl, rfl⟩
          · split
            · exact ⟨rfl, rfl⟩
            · split
              · unfold State.takeReport
                split
                · exact ⟨(State.takePlace_told _).1, (State.takePlace_told _).2⟩
                · split
                  · split
                    · exact ⟨(State.takePlace_told _).1, (State.takePlace_told _).2⟩
                    · exact ⟨rfl, rfl⟩
                  · split
                    · split
                      · exact ⟨(State.takePlace_told _).1, (State.takePlace_told _).2⟩
                      · exact ⟨rfl, rfl⟩
                    · exact ⟨rfl, rfl⟩
              · exact ⟨rfl, rfl⟩
        have b : ∀ t : State, t.checkHalted.handed = t.handed ∧ t.checkHalted.completionWrite = t.completionWrite := by
          intro t
          unfold State.checkHalted
          split <;> exact ⟨rfl, rfl⟩
        exact ⟨((b _).1.trans (a _).1).symm, ((b _).2.trans (a _).2).symm⟩
      · exact .inr rfl
    rcases key with ⟨k1, k2⟩ | k
    · rw [← k1, ← k2]
      unfold State.startCompletion
      split
      · next c rest hw hh =>
        rw [hh] at he
        rcases List.mem_cons.1 he with rfl | he
        · exact .inr ⟨_, rfl, h1, by simp [completionOctets, h2], by simp [completionOctets, h3]⟩
        · exact .inl ⟨e, he, h1, h2, h3⟩
      · exact .inl ⟨e, he, h1, h2, h3⟩
    · exact .inl ⟨e, k ▸ he, h1, h2, h3⟩

/-- What was handed before the rest of a step is reported when the step has ended. -/
theorem State.reports_finish {s t : State} {id : Nat} {st : Status} {d : Detail} (h : s.Handed id st d) (e : s.Tells t) :
    t.finish.Reports id st d := (h.tells e).reports

end Sys2Proof.Machine
end

