-- ==== Sys2Proof/Tests/Slice0.lean ====
section
/-! SUPPORT. The model's own tests: the WellFormed smoke, the spec's worked values, one step of each command on small
states, and a witness for each statement that has hypotheses. -/

-- The tests evaluate in the kernel; one after the other keeps the memory of the joined file small.
set_option Elab.async false

namespace Sys2Proof.Tests

open Sys2Proof Sys2Proof.Machine

/-! ## Builders -/

/-- The first `n` octets of these numbers, filled with zeros. -/
def octets (n : Nat) (values : List Nat) : List Byte := ((values.map (BitVec.ofNat 8)) ++ List.replicate n 0).take n

/-- A number as two octets. -/
def two (n : Nat) : List Nat := [n % 256, n / 256]

/-- A number as four octets. -/
def four (n : Nat) : List Nat := two (n % 65536) ++ two (n / 65536)

/-- A setup block: queues 0 (NORMAL) and 1 (URGENT), both rings of 16 entries. -/
def setupBlock : List Byte :=
  octets 64 (four 0x1000 ++ two 16 ++ [0, 0] ++ four 0x2000 ++ two 16 ++ [1, 0] ++ List.replicate 16 0
    ++ four 0x3000 ++ two 16 ++ [2, 0] ++ four 0x4000 ++ two 16 ++ [3, 0] ++ two 50 ++ two 60)

/-- The band table of the example of section 3.6, with the timeouts of a valid block. -/
def bandBlock : List Byte :=
  octets 64 ([200, 400, 800, 1600, 3200, 6400, 12800].flatMap four
    ++ [1000, 1500, 2500, 4000, 7000, 12000, 20000, 40000].flatMap four)

/-- A record of 32 octets: kind, tag, zero, fields. -/
def record (kind tag : Nat) (fields : List Nat) : List Byte := octets 32 ([kind] ++ two tag ++ [0] ++ fields)

/-- ADD_STATION of handle 9: line 1, address 0x28, band 1. -/
def addRecord : List Byte := record 0x10 7 ([9, 1, 0x28, 1, 2, 3, 4, 0] ++ two 100 ++ two 20 ++ two 500)

/-- EXCHANGE for handle 9: two octets out, at most 16 back. -/
def exchangeRecord : List Byte := record 0x01 70 ([9, 2, 16, 0] ++ four 0x800 ++ four 0x901)

/-- A queue in use. -/
def queueIn (cls : QueueClass) : Queue := { Queue.reset with base := 0x1000, size := 16, cls := cls, tail := 2, state := .active }

/-- A part that has been started: queue 0 NORMAL and 1 URGENT hold two records each. -/
def part : State :=
  { State.reset with
    device := .running, enable := true, clock := 50, time := 100000
    queues := #v[queueIn .normal, queueIn .urgent, Queue.reset, Queue.reset]
    completion := { base := 0x3000, size := 16, tail := 0, phase := true, hostHead := 0 }
    event := { base := 0x4000, size := 16, tail := 0, phase := true, hostHead := 0 }
    completionInt := { threshold := 2, holdoff := 50, count := 0, timer := none }
    eventInt := { threshold := 3, holdoff := 60, count := 0, timer := none } }

/-- The part in another device state. -/
def partIn (d : DeviceState) : State := { part with device := d }

/-- A configured line that has been quiet for long and owes its scheduler a consultation. -/
def idleLine : Line :=
  { Line.reset with
    state := .idle, quietSince := some 1000, bandTable := some (bandTableOf bandBlock), rate := some 4, hysteresis := 100
    consultDue := true }

/-- The configured line in another engine state. -/
def lineIn (e : EngineState) : Line := { idleLine with state := e }

/-- An ONLINE station of line 1. -/
def station : Station := { newStation addRecord with state := .online, link := .certain }

/-- An exchange with handle 9 in this phase: no payload, at most 4 octets back. -/
def exchangeIn (id : Nat) (phase : Phase) : Context :=
  { reservedContext id 0 .normal with
    kindCode := 1, kind := some .exchange, tag := 70, body := .exchange 9 0x800 0 0x901 4, attemptsMade := 1, phase := phase }

/-- A broadcast on line 1 in this phase. -/
def broadcastIn (id : Nat) (phase : Phase) : Context :=
  { reservedContext id 0 .normal with
    kindCode := 2, kind := some .broadcast, tag := 71, body := .broadcast 1 0x800 0, phase := phase }

/-- A record of this kind in queue 0 that has been accepted. -/
def recordIn (id : Nat) (kind : RecordKind) (body : Body) : Context :=
  { reservedContext id 0 .normal with kind := some kind, tag := 80 + id, body := body }

/-- The part with this line 1, this station at handle 9 and these contexts. -/
def scene (x : Line) (st : Station) (pool : List Context) : State :=
  { (part.setLine 1 x).setStation 9 (some st) with pool := pool }

/-- The read of the first record of queue 0 into context 0. -/
def theRead : RecordRead := { queue := 0, ctx := 0, addr := 0x1000 }

/-- The scene with a record read of queue 0 in progress, in context 0. -/
def reading (s : State) : State :=
  { s.updQueue 0 (fun q => { q with fetching := true }) with
    reading := some theRead, pool := s.pool ++ [reservedContext 0 0 .normal] }

/-- The state after a command, or the state itself when the command does not complete. -/
def after (c : Instr) (s : State) : State :=
  match exec c s with
  | .next t => t
  | .fault _ => s
  | .refused _ => s

/-! ## WellFormed: a term that each check refuses -/

theorem test_wf_softReset : (Instr.softReset 0).wellFormed = false := by decide
theorem test_wf_enableWritten1 : (Instr.enableWritten1 0).wellFormed = false ∧ (Instr.enableWritten1 3).wellFormed = false := by
  decide
theorem test_wf_enableWritten0 : (Instr.enableWritten0 1).wellFormed = false ∧ (Instr.enableWritten0 2).wellFormed = false := by
  decide
theorem test_wf_postTail : (Instr.postTail 4).wellFormed = false := by decide
theorem test_wf_postRestart : (Instr.postRestart 0).wellFormed = false := by decide
theorem test_wf_registerWriteIgnored : (Instr.registerWriteIgnored 0x04 0).wellFormed = false := by decide
theorem test_wf_setupReadEnd : (Instr.setupReadEnd (.good [])).wellFormed = false := by decide
theorem test_wf_unknownKind :
    (Instr.unknownKind [0x55]).wellFormed = false ∧ (Instr.unknownKind addRecord).wellFormed = false := by decide
theorem test_wf_exchange :
    (Instr.exchange [0x01]).wellFormed = false ∧ (Instr.exchange addRecord).wellFormed = false := by decide
theorem test_wf_broadcast : (Instr.broadcast addRecord).wellFormed = false := by decide
theorem test_wf_addStation : (Instr.addStation exchangeRecord).wellFormed = false := by decide
theorem test_wf_removeStation : (Instr.removeStation addRecord).wellFormed = false := by decide
theorem test_wf_pauseStation : (Instr.pauseStation addRecord).wellFormed = false := by decide
theorem test_wf_resumeStation : (Instr.resumeStation addRecord).wellFormed = false := by decide
theorem test_wf_setLineDisable : (Instr.setLineDisable (record 0x20 1 [1, 1])).wellFormed = false := by decide
theorem test_wf_setLineEnable : (Instr.setLineEnable (record 0x20 1 [1, 0])).wellFormed = false := by decide
theorem test_wf_quiesceLine : (Instr.quiesceLine addRecord).wellFormed = false := by decide
theorem test_wf_resumeLine : (Instr.resumeLine addRecord).wellFormed = false := by decide
theorem test_wf_lineReset : (Instr.lineReset addRecord).wellFormed = false := by decide
theorem test_wf_abort : (Instr.abort addRecord).wellFormed = false := by decide
theorem test_wf_fence : (Instr.fence addRecord).wellFormed = false := by decide
theorem test_wf_bandTableReadEnd : (Instr.bandTableReadEnd 1 (.good [])).wellFormed = false := by decide
theorem test_wf_payloadReadEnd : (Instr.payloadReadEnd 1 (List.replicate 241 0)).wellFormed = false := by decide +kernel
theorem test_wf_replyWriteEnd : (Instr.replyWriteEnd 1 (.error 61)).wellFormed = false := by decide
theorem test_wf_completionWriteError : (Instr.completionWriteError 4).wellFormed = false := by decide
theorem test_wf_eventWriteError : (Instr.eventWriteError 16).wellFormed = false := by decide
theorem test_wf_refused : exec (.postTail 4) part = .refused .illFormed := rfl

/-! ## Values that the spec works out -/

/-- R6: the nine octets 0x31 to 0x39 give 0x29B1. -/
theorem test_crc : crc ((List.range 9).map fun i => BitVec.ofNat 8 (0x31 + i)) = 0x29B1#16 := by decide +kernel

/-- Section 1.8: a COMMAND of two octets to address 21 with cseq 1. -/
theorem test_command_frame :
    (formFrame 21 .command true [0xAA, 0xBB]).take 5 = [0x15, 0x11, 0x02, 0xAA, 0xBB] ∧
      (formFrame 21 .command true [0xAA, 0xBB]).length = 7 := by decide

/-- Section 1.8: REPLY with three octets from address 21. -/
theorem test_reply_frame :
    judgeCharacter .command 21 [] 0x95 true false = .more ∧
      judgeGoodFrame .command 0x19 [1, 2, 3] = .reply [1, 2, 3] := by decide

/-- R1: the bits of the address character 0x15, the start bit first, M and the stop bit last. -/
theorem test_character_bits :
    characterBits 0x15 true = [false, true, false, true, false, true, false, false, false, true, true] := by decide

/-- Section 11.1: IDENT as a whole word. -/
theorem test_ident : part.readRegister 0 = some 0xE9C6D101#32 := by decide

/-- R2: the character time at 115 200 bit/s is 95.49 µs, and seven of them 668.4 µs (section 1.8). -/
theorem test_character_time : idleLine.char * 7 * 10 / 144 = 6684 := by decide

/-- Section 3.6: the band after each decoded answer of the worked sequence, steps 1 to 4, 6 to 9 and 11. -/
theorem test_bands :
    let after := fun b t => bandAfterAnswer (bandTableOf bandBlock) 100 t b
    after 2 350 = 2 ∧ after 2 290 = 1 ∧ after 1 150 = 1 ∧ after 1 90 = 0 ∧ after 1 1300 = 3 ∧ after 3 1200 = 3 ∧
      after 3 640 = 2 ∧ after 2 120 = 1 ∧ after 1 180 = 1 := by decide

/-- Section 3.6: the table passes R48. -/
theorem test_band_block : bandBlockValid bandBlock = true ∧ bandBlockValid (octets 64 []) = false := by decide

/-- R157: the setup block is valid, and one of zeros is not. -/
theorem test_setup_block : setupValid setupBlock = true ∧ setupValid (octets 64 []) = false := by decide

/-- R163: a REFUSED completion whose NAK carried 0x05, and a REFUSED_STATE completion on a DISABLED line. -/
theorem test_completion_codes :
    let c : Completion := {
      ctx := 0, kindCode := 1, tag := 0x1234, queue := 2, status := .refused, detail := .reason 5, replyLength := 0
      band := some 3, turnaround := some 1300 }
    completionOctets c 6 true =
        octets 16 ([0x01, 0x02, 0x05, 0x02, 0x34, 0x12, 0, 0x83] ++ two 1300 ++ [0, 0x80, 6, 0, 0, 0x80]) ∧
      (Status.refusedState.code, (Detail.engine .disabled).code) = (0x08, 0x30) := by decide

/-- No word spells a command. -/
theorem test_decode : decodeTableWord 32 7 = none := rfl

/-! ## One step of the commands -/

theorem test_softReset : (after (.softReset 2) part).device = .ready := by decide +kernel
theorem test_enable_starts : (after (.enableWritten1 1) State.reset).device = .starting := by decide
theorem test_enable_halts : (after (.enableWritten0 0) part).device = .halted := by decide +kernel
theorem test_setup_addr : (after (.setupAddrWrite 0xFFFFFFFF) State.reset).setupAddr = 0xFFFFFFC0#32 := by decide
theorem test_setup_installs :
    let t := after (.setupReadEnd (.good setupBlock)) { partIn .starting with enable := true }
    t.device = .running ∧ (t.queue 1).cls = .urgent ∧ t.eventInt.holdoff = 60 := by decide +kernel
theorem test_post_tail : ((after (.postTail 0x50001) part).queue 1).tail = 5 := by decide +kernel
theorem test_post_bad_tail : ((after (.postTail 0x100001) part).queue 1).stopCause = some .badTail := by decide +kernel
theorem test_retire_rejected : (after (.retire 0x10000) part).intStatus = 0x10#5 := by decide
theorem test_int_status_write : (after (.intStatusWrite 1) { part with intStatus := 0x1F }).intStatus = 0x1E#5 := by decide
theorem test_fetch_urgent_first : (after .fetchChoice { part with fetchDue := true }).reading = some { queue := 1, ctx := 0, addr := 0x1000 } := by
  decide +kernel
theorem test_record_read_error : ((after .recordReadError (reading part)).queue 0).stopCause = some .readError := by
  decide +kernel
theorem test_unknown_kind :
    ((after (.unknownKind (octets 32 [0x55])) (reading part)).completionWrite.map fun w => w.octets.take 3) =
      some [0x55, 0x0E, 0x11] := by decide +kernel
theorem test_exchange_queued :
    ((after (.exchange exchangeRecord) (reading (scene idleLine station []))).station 9).map (·.pending) = some [0] := by
  decide +kernel
theorem test_add_station :
    ((after (.addStation addRecord) (reading part)).station 9).map (fun st => (st.address, st.state, st.band)) =
      some (0x28, .new, 1) := by decide +kernel
theorem test_remove_station : (after (.removeStation (record 0x11 1 [9])) (reading (scene idleLine station []))).station 9 = none := by
  decide +kernel
theorem test_quiesce : ((after (.quiesceLine (record 0x21 1 [1])) (reading (part.setLine 1 idleLine))).line 1).state = .quiesced := by
  decide +kernel
theorem test_line_reset : ((after (.lineReset (record 0x23 1 [1])) (reading (part.setLine 1 idleLine))).line 1).txd = .space := by
  decide +kernel
theorem test_probe_frame :
    ((after (.schedulerChoice 1 0)
      (scene idleLine { station with state := .offline, missCount := 3, link := .uncertain, probeDue := some 9 } [])).line
        1).txFrame = formFrame 0x28 .linkReset false [] := by decide +kernel
theorem test_transmit_end :
    ((after (.transmitEnd 1)
      (scene { lineIn .transmit with job := some (.link 9), driverEnable := true, txStart := 100000 } station [])).line
        1).replyTimer = some (100000 + 1500 * 144) := by decide +kernel
theorem test_reply_timer_expiry :
    ((after (.replyTimerExpiry 1)
      (scene { lineIn .await with job := some (.link 9), replyTimer := some 200000 } { station with state := .new, missLimit := 1 } [])).station
        9).map (fun st => (st.state, st.band)) = some (.offline, 2) := by decide +kernel
theorem test_break_detected :
    ((after (.breakDetected 1) (scene { idleLine with spaceEdge := some 100000 } { station with cseq := true } [])).station
      9).map (·.cseq) = some false := by decide +kernel
theorem test_hold_timer :
    ((after (.holdTimerExpiry 9)
      (scene idleLine { station with state := .hold, timer := some { kind := .hold, expires := 99 } } [])).station 9).map
        (·.state) = some .online := by decide +kernel

/-! ## Witnesses: for each statement with hypotheses, operands and states that meet them -/

theorem witness_FrontCommandRuns : ({ part with pending := [.fetchChoice, .fetchChoice] } : State).pending = .fetchChoice :: [.fetchChoice] :=
  rfl

theorem witness_EmptyQueuePassesTime :
    part.pending = [] ∧ part.resetHeld = false ∧ part.device ≠ .failed ∧ (partIn .failed).device = .failed ∧
      ({ part with resetHeld := true } : State).resetHeld = true := by decide

theorem witness_OnlyIllFormedCommandsStop :
    (Instr.eventWriteError 15).wellFormed = true ∧ (Instr.eventWriteError 16).wellFormed = false := by decide

theorem witness_HeldResetIsInert :
    let s : State := { part with resetHeld := true }
    s.resetHeld = true ∧ s.pending = [] ∧ Instr.fetchChoice ≠ .hardwareReset ∧ Instr.fetchChoice ≠ .resetRelease ∧
      exec .fetchChoice s = .next s := ⟨rfl, rfl, by decide, by decide, rfl⟩

theorem witness_ResetsTakeResetValues :
    (0x2#32).getLsbD 1 = true ∧ (0xFFFFFFFF#32).getLsbD 1 = true ∧ part.resetHeld = false ∧
      (partIn .failed).device = .failed ∧ ¬ part.InFlight 0 := by
  refine ⟨by decide, by decide, rfl, rfl, ?_⟩
  rintro (⟨w, h, -⟩ | ⟨w, h, -⟩ | ⟨l, id, o, c, h, -⟩)
  · cases h
  · cases h
  · revert h
    fin_cases l <;> simp [State.line, part, State.reset, Line.reset]

theorem witness_EnableWrittenOne :
    (0x1#32).getLsbD 1 = false ∧ (0x1#32).getLsbD 0 = true ∧ (partIn .ready).resetHeld = false ∧
      (partIn .ready).device = .ready ∧ (partIn .starting).device = .starting ∧ part.device = .running ∧
      (partIn .failed).device = .failed ∧ (partIn .halting).device = .halting ∧ (partIn .halted).device = .halted ∧
      (((partIn .halted).setLine 1 { idleLine with resetPending := true }).line 1).state = .idle ∧
      (((partIn .halted).setLine 1 { lineIn .quiesced with resetPending := true }).line 1).resetPending = true ∧
      ((partIn .halted).line 0).resetPending = false := by decide +kernel

/-- R158, R94, R41, R67: the line reset that a HALTED line holds pending is served at the return to RUNNING. -/
theorem test_resume_serves_reset :
    let st := { station with pending := [5], cseq := true, link := .uncertain }
    let s := { scene { idleLine with resetPending := true, resetRecords := [6] } st
                 [exchangeIn 5 .waitingRetry, recordIn 6 .lineReset (.line 1)] with device := .halted }
    let t := after (.enableWritten1 1) s
    (((s.line 1).state == .idle || (s.line 1).state == .quiesced) && (s.line 1).resetPending) = true ∧
      ((s.pool.map (·.id)).Nodup ∧ ∀ c ∈ s.pool, c.id < Config.contexts) ∧
      s.retryWaits 1 (exchangeIn 5 .waitingRetry) = true ∧ s.retryWaits 1 (recordIn 6 .lineReset (.line 1)) = false ∧
      (t.line 1).boundResets = [6] ∧ (t.station 9).map (fun x => (x.cseq, x.link, x.pending)) = some (false, .certain, []) ∧
      t.phaseOf 5 = some .ending ∧ (t.completionWrite.map fun w => (w.ctx, w.octets[1]?)) = some (5, some Status.lineBreak.code) := by
  decide +kernel

theorem witness_EnableWrittenZero :
    (0xFFFFFFFC#32).getLsbD 1 = false ∧ (0x0#32).getLsbD 0 = false ∧ part.resetHeld = false ∧ part.device = .running ∧
      (part.reading = none ∧ ∀ l, (part.line l).state.busy = false) ∧
      ¬ ((reading part).reading = none ∧ ∀ l, ((reading part).line l).state.busy = false) ∧
      (partIn .ready).device = .ready ∧ (partIn .starting).device = .starting ∧ (partIn .halting).device = .halting ∧
      (partIn .halted).device = .halted ∧ (partIn .failed).device = .failed := by decide +kernel

theorem witness_SetupAddrHeld :
    State.reset.resetHeld = false ∧ State.reset.device = .ready ∧ part.device ≠ .ready ∧
      exec (.setupAddrWrite 0x40) State.reset = .next { State.reset with setupAddr := 0x40 } ∧
      (0x40 : Word) ≠ State.reset.setupAddr := ⟨rfl, rfl, by decide, rfl, by decide⟩

theorem witness_RegistersAnswer :
    part.resetHeld = false ∧ ((0x00#5 : BitVec 5) = 0x00 ∨ (0x00#5 : BitVec 5) = 0x08) ∧ part.completion.tail < 65536 ∧
      (4095 < 65536 ∧ part.event.tail < 65536) := by decide

theorem witness_SetupReadEnds :
    let s : State := { partIn .starting with enable := true }
    s.resetHeld = false ∧ s.device = .starting ∧ s.enable = true ∧ read64 .error = true ∧
      ({ s with enable := false } : State).enable = false ∧ setupBlock.length = 64 ∧ setupValid setupBlock = true ∧
      (octets 64 []).length = 64 ∧ setupValid (octets 64 []) = false := by decide +kernel

theorem witness_CoalescingAnnounces :
    let c : Coalescing := { threshold := 255, holdoff := 50, count := 254, timer := none }
    let d : Coalescing := { threshold := 255, holdoff := 50, count := 253, timer := some 9 }
    let s : State := { part with completionInt := { d with timer := some 60 }, eventInt := { d with timer := some 0 } }
    (c.count < 255 ∧ c.threshold ≤ 255 ∧ c.threshold ≤ c.count + 1) ∧ (d.holdoff ≠ 0 ∧ d.count + 1 < d.threshold) ∧
      s.resetHeld = false ∧ s.completionInt.timer = some 60 ∧ s.eventInt.timer = some 0 := by decide

theorem witness_PostWritesTaken :
    let s := partIn .halted
    let f := reading part
    let stopped := part.updQueue 1 fun q => { q with state := .stopped, stopCause := some .readError }
    ((0x000F0001#32).getLsbD 2 = false ∧ s.resetHeld = false ∧ (0x000F0001#32).toNat % 4 = (1 : QueueNo).val ∧
        s.device = .halted ∧ (s.queue 1).state = .active ∧ (0x000F0001#32).toNat / 65536 < (s.queue 1).size) ∧
      ((part.queue 1).size ≤ (0x00100001#32).toNat / 65536 ∧ (part.queue 1).fetching = false) ∧
      ((f.queue 0).size ≤ (0x00100000#32).toNat / 65536 ∧ (f.queue 0).fetching = true ∧ (f.queue 0).state = .active) ∧
      ¬ (((partIn .ready).device = .running ∨ (partIn .ready).device = .halting ∨ (partIn .ready).device = .halted) ∧
        ((partIn .ready).queue 1).state = .active) ∧
      ((0x5#32).getLsbD 2 = true ∧ (0x5#32).toNat % 4 = (1 : QueueNo).val ∧ (stopped.queue 1).state = .stopped ∧
        (stopped.queue 1).fetching = false) ∧ (part.queue 1).state ≠ .stopped := by decide +kernel

theorem witness_RetireJudged :
    let s : State := { part with
      completion := { part.completion with tail := 3, hostHead := 15 }, event := { part.event with tail := 3, hostHead := 2 } }
    let fits := fun (r : RingState) (head : Nat) =>
      head < r.size ∧ (head + r.size - r.hostHead) % r.size ≤ (r.tail + r.size - r.hostHead) % r.size
    s.resetHeld = false ∧ s.device = .running ∧ (0x00030000#32).getLsbD 0 = false ∧ (0x00030001#32).getLsbD 0 = true ∧
      (0x00030000#32).toNat / 65536 = 3 ∧
      (fits s.completion 3 ∧ 3 ≠ s.completion.hostHead ∧ fits s.completion 15 ∧ 15 = s.completion.hostHead) ∧
      (fits s.event 3 ∧ 3 ≠ s.event.hostHead ∧ fits s.event 2 ∧ 2 = s.event.hostHead) ∧ ¬ fits s.event 4 ∧
      s.grantable = true ∧ { s with reserved := 14 }.grantable = false ∧ (1 : LineNo) ∈ [(1 : LineNo)] := by
  decide +kernel

theorem witness_FetchArbiterChooses :
    let s := { part with fetchDue := true }
    s.resetHeld = false ∧ s.fetchDue = true ∧ s.device = .running ∧ s.reading = none ∧
      (∃ i, i < 256 ∧ ∀ c ∈ s.pool, c.id ≠ i) ∧ s.completion.posted + s.pool.length + 1 < s.completion.size ∧
      ((s.queue 1).state = .active ∧ (s.queue 1).head ≠ (s.queue 1).tail ∧ (s.queue 1).cls = .urgent) ∧
      (partIn .halting).device ≠ .running ∧ (partIn .failed).device = .failed ∧ part.fetchDue = false :=
  ⟨rfl, rfl, rfl, rfl, ⟨0, by decide, by decide⟩, by decide, by decide, by decide, rfl, rfl⟩

theorem witness_FetchArbiterChooses_normal :
    let s := part.updQueue 1 fun q => { q with head := 2 }
    ((s.queue 0).state = .active ∧ (s.queue 0).head ≠ (s.queue 0).tail ∧ (s.queue 0).cls = .normal) ∧
      ∀ r, ¬ ((s.queue r).state = .active ∧ (s.queue r).head ≠ (s.queue r).tail ∧ (s.queue r).cls = .urgent) := by
  decide +kernel

theorem witness_RecordReadErrorStopsQueue :
    let s := reading part
    let t := s.updQueue 0 fun q => { q with state := .stopped, stopCause := some .badTail }
    s.resetHeld = false ∧ s.device = .running ∧ s.reading = some theRead ∧ (s.queue 0).state ≠ .stopped ∧
      t.reading = some theRead ∧ (t.queue 0).state = .stopped ∧
      (t.queue 0).stopCause.getD .readError = .badTail := by decide +kernel

theorem witness_AcceptedRecordIsHeld :
    let s := reading (scene idleLine station [])
    kindOfCode (recKind exchangeRecord) = some .exchange ∧ s.verdict exchangeRecord = none ∧
      s.verdict addRecord = some (.badStation, .handleInUse) ∧ (1 : QueueNo) ≠ 0 ∧ (s.queue 0).state ≠ .stopped ∧
      ((s.updQueue 0 fun q => { q with state := .stopped }).queue 0).state = .stopped := by decide +kernel

/-- A record of each kind, its handle, queue or line at the top of the range: the fields lie in their ranges. -/
theorem witness_AcceptedRecordIsHeld_fields :
    (∀ p ∈ [(RecordKind.exchange, record 0x01 7 ([63, 240, 240, 0] ++ four 0x12345678 ++ four 0xFFFFFFFF)),
        (.broadcast, record 0x02 7 ([3, 240, 0, 0] ++ four 0x12345678)),
        (.addStation, record 0x10 7 ([63, 3, 126, 7, 7, 15, 255, 0] ++ two 60000 ++ two 60000 ++ two 60000)),
        (.removeStation, record 0x11 7 [63]), (.pauseStation, record 0x12 7 [63]), (.resumeStation, record 0x13 7 [63]),
        (.setLine, record 0x20 7 ([3, 1, 7, 0] ++ two 65535 ++ [0, 0] ++ four 0xFFFFFFFC)),
        (.quiesceLine, record 0x21 7 [3]), (.resumeLine, record 0x22 7 [3]), (.lineReset, record 0x23 7 [3]),
        (.abort, record 0x30 7 ([3, 0] ++ two 65535)), (.fence, record 0x31 7 [])],
      kindOfCode (octetAt p.2 0) = some p.1 ∧ fieldsInRange p.1 p.2 = true ∧ p.2.length = 32) ∧
      (let r := record 0x10 7 [63, 3, 127]
       le8 r 4 < 64 ∧ le8 (record 0x20 7 [3]) 4 < 4 ∧ le8 r 5 < 4 ∧ le8 r 6 < 128 ∧ r[6]? = some 127) := by
  decide +kernel

/-- Section 11.3: what a context keeps of an EXCHANGE and of a SET_LINE record. -/
theorem test_record_fields :
    bodyOf .exchange (record 0x01 7 ([9, 2, 16, 0] ++ four 0x12345678 ++ four 0x9ABCDEF0)) =
        .exchange 9 0x12345678 2 0x9ABCDEF0 16 ∧
      bodyOf .setLine (record 0x20 7 ([3, 1, 5, 0] ++ two 1000 ++ [0, 0] ++ four 0x500)) = .setLine 3 true 5 1000 0x500 := by
  decide +kernel

theorem witness_RecordsChecked :
    let s := scene idleLine station []
    (octets 32 [0x55]).length = 32 ∧ kindOfCode (octetAt (octets 32 [0x55]) 0) = none ∧
      kindOfCode (octetAt addRecord 0) = some .addStation ∧ octetAt (octets 32 [0x31, 0, 0, 1]) 3 ≠ 0 ∧
      (octetAt addRecord 3 = 0 ∧ ∀ i, i < 32 → 4 ≤ i → i ∉ fieldOffsets .addStation → octetAt addRecord i = 0) ∧
      fieldsInRange .addStation addRecord = true ∧ fieldsInRange .abort (octets 32 [0x30, 0, 0, 0, 4]) = false ∧
      (s.station (recHandle addRecord)).isSome = true ∧ part.station (recHandle addRecord) = none ∧
      (let r := record 0x10 7 [8, 1, 0x28]
       s.station (recHandle r) = none ∧ s.station 9 = some station ∧ station.line = recStationLine r ∧
        station.address = recAddress r) := by decide +kernel

theorem witness_RefusedRecordEndsAtOnce :
    let r := record 0x22 1 [1]
    let s := reading (part.setLine 1 idleLine)
    recordCarried (.resumeLine r) = some r ∧ (Instr.resumeLine r).wellFormed = true ∧ s.resetHeld = false ∧
      s.device = .running ∧ s.reading = some theRead ∧
      s.verdict r = some (.refusedState, .engine .idle) ∧ s.ctx 0 = some (reservedContext 0 0 .normal) ∧
      (reservedContext 0 0 .normal).phase ≠ .ending := by decide +kernel

theorem witness_ExchangeAndBroadcastQueued :
    (let s := reading (scene idleLine station [])
     s.Takes (.exchange exchangeRecord) exchangeRecord theRead ∧
       s.station (recHandle exchangeRecord) = some station ∧ station.state ≠ .offline) ∧
    (let st := { station with state := .offline }
     let s := reading (scene idleLine st [])
     s.Takes (.exchange exchangeRecord) exchangeRecord theRead ∧
       s.station (recHandle exchangeRecord) = some st ∧ st.state = .offline) ∧
    (let r := record 0x02 1 ([3, 240, 0, 0] ++ four 7)
     (reading part).Takes (.broadcast r) r theRead) := by
  unfold State.Takes
  decide +kernel

theorem witness_StationTakenIntoUse :
    (reading part).Takes (.addStation addRecord) addRecord theRead := by
  unfold State.Takes
  decide +kernel

/-- R117 on an empty list, with a delivery in progress, with an exchange being sent, and with one that waits while nothing
is in flight. -/
theorem witness_StationRemoved :
    let r := record 0x11 1 [9]
    let take := fun s : State => s.Takes (.removeStation r) r theRead
    let busy := { station with pending := [5] }
    let delivering := { station with attention := some true }
    let s := reading (scene idleLine station [])
    let d := reading (scene idleLine delivering [])
    let a := reading (scene (lineIn .preparing) busy [exchangeIn 5 .preparing])
    let w := reading (scene idleLine busy [exchangeIn 5 .queued])
    let c := exchangeIn 5 .queued
    (take s ∧ s.station 9 = some station ∧ station.pending = [] ∧
        ¬ ((s.line station.line).attempting 9 = true ∨ station.attention ≠ none)) ∧
      (take d ∧ d.station 9 = some delivering ∧ delivering.pending = [] ∧ delivering.attention ≠ none) ∧
      (take a ∧ a.station 9 = some busy ∧ (a.accept theRead r).phaseOf 5 = some .preparing) ∧
      (take w ∧ w.station 9 = some busy ∧ (w.accept theRead r).phaseOf 5 = some .queued ∧
        (w.accept theRead r).ctx 5 = some c ∧ (w.accept theRead r).ContextsDistinct ∧ busy.pending = [5] ∧
        c.phase ≠ .ending ∧ c.exchangeHandle = some (recHandle r) ∧
        ¬ ((w.line busy.line).attempting 9 = true ∨ busy.attention ≠ none) ∧
        w.ctx theRead.ctx = some (reservedContext 0 0 .normal) ∧ (reservedContext 0 0 .normal).phase ≠ .ending) := by
  unfold State.Takes State.ContextsDistinct
  refine ⟨?_, ?_, ?_, ?_⟩ <;> decide +kernel

/-- R43, R45: contexts of the station wait, and an attempt to it, or its delivery, is in flight: the entry stays, and the record waits. -/
theorem witness_StationRemoved_inFlight :
    let r := record 0x11 1 [9]
    let st := fun a : Option Bool => { station with pending := [5], attention := a }
    let s := fun (x : Line) (a : Option Bool) => reading (scene x (st a) [exchangeIn 5 .queued])
    ∀ y ∈ [({ lineIn .await with job := some (.poll 9 true) }, none), (idleLine, some true)],
      let u := (s y.1 y.2).accept theRead r
      let t := after (.removeStation r) (s y.1 y.2)
      (s y.1 y.2).verdict r = none ∧ (s y.1 y.2).station 9 = some (st y.2) ∧ u.phaseOf 5 = some .queued ∧
        ((u.line 1).attempting 9 = true ∨ y.2 ≠ none) ∧ theRead.ctx ∉ (st y.2).pending ∧
        (t.station 9).map (·.state) = some .closing ∧ t.phaseOf 5 = some .ending ∧ t.phaseOf 0 = some .queued := by
  decide +kernel

theorem witness_StationPausedAndResumed :
    let s := fun p => reading (scene idleLine { station with paused := p } [])
    ∀ p ∈ [true, false], (s p).station (recHandle (record 0x12 1 [9])) = some { station with paused := p } ∧
      (s p).Takes (.pauseStation (record 0x12 1 [9])) (record 0x12 1 [9]) theRead ∧
      (s p).Takes (.resumeStation (record 0x13 1 [9])) (record 0x13 1 [9]) theRead := by
  unfold State.Takes
  decide +kernel

theorem witness_SetLineTaken :
    let r := record 0x20 1 [1, 0]
    let e := record 0x20 1 ([1, 1, 7, 0] ++ two 100 ++ [0, 0] ++ four 0x500)
    let rd := theRead
    let s := reading part
    let q := reading (part.setLine 1 (lineIn .quiesced))
    let w := reading (part.setLine 1 { lineIn .quiesced with rxBuffer := some (.reply 3 []) })
    (s.Takes (.setLineDisable r) r rd ∧ (s.line (recLine r)).state = .disabled) ∧
      (q.Takes (.setLineDisable r) r rd ∧ (q.line (recLine r)).state = .quiesced) ∧
      (q.Takes (.setLineEnable e) e rd ∧ (q.line (recLine e)).rxBuffer = none) ∧
      (w.Takes (.setLineEnable e) e rd ∧ (w.line (recLine e)).rxBuffer = some (.reply 3 [])) := by
  unfold State.Takes
  decide +kernel

theorem witness_LineQuiescedAndResumed :
    let r := record 0x21 1 [1]
    let s := fun e => reading (part.setLine 1 (lineIn e))
    let rd := theRead
    (∀ e ∈ [EngineState.idle, .guard, .quiesced, .preparing, .transmit, .await, .receive, .breakOut],
      (s e).Takes (.quiesceLine r) r rd ∧ ((s e).line (recLine r)).state = e) ∧
      (s .quiesced).Takes (.resumeLine (record 0x22 1 [1])) (record 0x22 1 [1]) rd := by
  unfold State.Takes
  decide +kernel

theorem witness_LineResetBound :
    let r := record 0x23 1 [1]
    let s := fun d e => reading { part.setLine 1 (lineIn e) with device := d }
    let rd := theRead
    (∀ e ∈ [EngineState.idle, .guard, .quiesced, .preparing, .transmit, .await, .receive, .breakOut],
      (s .running e).Takes (.lineReset r) r rd ∧ ((s .running e).line (recLine r)).state = e) ∧
      (s .halting .idle).Takes (.lineReset r) r rd := by
  unfold State.Takes
  decide +kernel

/-- R76: targets that wait and that are being sent, one whose end is decided, and none. -/
theorem witness_AbortFindsItsTarget :
    let r := record 0x30 1 ([0, 0] ++ two 70)
    let rd := theRead
    let s := fun p => reading (scene idleLine station [exchangeIn 5 p])
    let named := fun c : Context =>
      (c.kind = some .exchange ∨ c.kind = some .broadcast) ∧ c.queue.val = le8 r 4 ∧ c.tag = le16 r 6
    let eligible := fun c : Context => named c ∧ c.phase ≠ .ending ∧ c.abortRequested = none
    (∀ p ∈ [Phase.queued, .waitingRetry, .held, .preparing, .attempting],
      (s p).Takes (.abort r) r rd ∧
        ((s p).accept rd r).pool = [] ++ exchangeIn 5 p :: ((s p).accept rd r).pool.drop 1 ∧ eligible (exchangeIn 5 p)) ∧
      ((s .ending).Takes (.abort r) r rd ∧ (∀ c ∈ ((s .ending).accept rd r).pool, ¬ eligible c) ∧
        ∃ c ∈ ((s .ending).accept rd r).pool, named c ∧ c.phase = .ending) ∧
      ((reading part).Takes (.abort r) r rd ∧ (∀ c ∈ ((reading part).accept rd r).pool, ¬ eligible c) ∧
        ∀ c ∈ ((reading part).accept rd r).pool, ¬ (named c ∧ c.phase = .ending)) := by
  unfold State.Takes
  dsimp only
  refine ⟨?_, ⟨?_, ?_, exchangeIn 5 .ending, ?_, ?_, ?_⟩, ?_, ?_, ?_⟩ <;> decide +kernel

theorem witness_FenceCountsItsQueue :
    let r := record 0x31 1 []
    let rd := theRead
    let n := fun s : State => s.pool.countP fun d => d.id != 0 && d.queue == (0 : QueueNo)
    let s := reading part
    let t := reading (scene idleLine station [exchangeIn 5 .queued])
    (s.Takes (.fence r) r rd ∧ s.ctx 0 = some (reservedContext 0 0 .normal) ∧ n s = 0) ∧
      (t.Takes (.fence r) r rd ∧ t.ctx 0 = some (reservedContext 0 0 .normal) ∧ n t = 1) ∧
      (reservedContext 0 0 .normal).phase ≠ .ending := by
  unfold State.Takes
  decide +kernel

theorem witness_ExchangeEndDecided :
    let c := exchangeIn 5 .attempting
    let e := exchangeIn 5 .ending
    let r := reservedContext 5 0 .normal
    let m := { c with unanswered := true }
    let st := { station with pending := [5, 6] }
    let s := scene idleLine st [m]
    (s.ctx m.id = some m ∧ m.phase ≠ .ending ∧ m.body ≠ .reserved ∧ m.exchangeHandle = some 9 ∧ s.station 9 = some st ∧
        st.state ≠ .closing ∧ m.unanswered = true ∧ st.link = .certain ∧ st.pending.erase 5 ≠ [] ∧
        (s.line 1).state = .idle ∧ c.unanswered = false) ∧
      ((scene idleLine station [e]).ctx e.id = some e ∧ e.phase = .ending) ∧
      ((scene idleLine station [r]).ctx r.id = some r ∧ r.body = .reserved) := by
  decide +kernel

/-- The end of a band table read on a QUIESCED line, on a DISABLED line while RUNNING, and on one while HALTED. -/
theorem witness_BandTableReadEnds :
    let c := recordIn 3 .setLine (.setLine 1 true 5 100 0x500)
    let s := fun d e =>
      ({ scene { lineIn e with bandReading := true, setLine := some 3 } station [c] with device := d } : State)
    (∀ d ∈ [DeviceState.running, .halted], ∀ e ∈ [EngineState.quiesced, .disabled],
      ((s d e).resetHeld = false ∧ (s d e).device ≠ .failed) ∧ ((s d e).line 1).bandReading = true ∧
        ((s d e).line 1).setLine = some 3 ∧ (s d e).ctx 3 = some c ∧ (s d e).device = d ∧ ((s d e).line 1).state = e) ∧
      c.body = .setLine 1 true 5 100 0x500 ∧ c.phase ≠ .ending ∧ bandBlock.length = 64 ∧
      bandBlockValid bandBlock = true ∧ (octets 64 []).length = 64 ∧ bandBlockValid (octets 64 []) = false := by
  decide +kernel

/-- R122, R123: the read of that line was made at the address of its record, and its end completes the record. -/
theorem test_band_table_read :
    let s := scene { lineIn .disabled with bandReading := true, setLine := some 3 } station
      [recordIn 3 .setLine (.setLine 1 true 5 100 0x500)]
    s.tableReadAt 1 = some 0x500 ∧
      ((after (.bandTableReadEnd 1 (.good bandBlock)) s).completionWrite.map fun w => (w.ctx, w.octets[1]?)) =
        some (3, some 0x00#8) := by decide +kernel

/-! ### The line scheduler and the engine -/

/-- The station with the exchange 5 at the head of its list. -/
def busy : Station := { station with pending := [5] }

/-- The exchange 5 with a payload of two octets. -/
def loaded (phase : Phase) : Context := { exchangeIn 5 phase with body := .exchange 9 0x800 2 0x901 4 }

/-- The broadcast 5 with a payload of two octets. -/
def loadedBroadcast (phase : Phase) : Context := { broadcastIn 5 phase with body := .broadcast 1 0x800 2 }

/-- The steps of the choice, each with its candidate. -/
theorem witness_SchedulerStepsInOrder :
    (scene { idleLine with resetPending := true } station []).choose 1 = .reset ∧
      (scene { idleLine with retryList := [5] } busy [exchangeIn 5 .waitingRetry]).choose 1 = .retry 5 ∧
      (scene idleLine { station with state := .new } []).choose 1 = .link 9 ∧
      (scene idleLine busy [exchangeIn 5 .queued]).choose 1 = .work .normal 9 ∧
      (scene { idleLine with fifo := [5] } station [{ broadcastIn 5 .queued with cls := .urgent }]).choose 1 = .work .urgent 64 ∧
      (scene { idleLine with service := 8 } { busy with pollDue := some 3 } [exchangeIn 5 .queued]).choose 1 = .poll 9 ∧
      (scene { idleLine with service := 7 } { station with state := .offline, probeDue := some 3 } []).choose 1 = .probe 9 ∧
      part.choose 1 = .nothing := by decide +kernel

theorem witness_SchedulerChoiceActs :
    let s := scene idleLine station []
    let x := s.line 1
    let u := (s.reach (s.time + 0)).setLine 1 { x with consultDue := false }
    (s.resetHeld = false ∧ s.device = .running ∧ x.state = .idle ∧ x.quiesce = false ∧ x.condition = .clear ∧
        x.receiving = false ∧ x.rxBuffer = none ∧ x.consultDue = true ∧ x.quietSince = some 1000 ∧
        1000 + 2 * x.char ≤ s.time + 0) ∧
      u.choose 1 = .nothing ∧ ((scene (lineIn .guard) station []).line 1).state ≠ .idle := by decide +kernel

/-- The premises of each choice that sends a frame or begins a payload read: the choice, the station and the context
found, and the payload held, of length 0, or to be read. -/
theorem witness_SchedulerChoiceActs_choices :
    let at0 := fun s : State => (s.reach (s.time + 0)).setLine 1 { s.line 1 with consultDue := false }
    let held := fun x : Line => { x with txHolds := some 5 }
    let retry := { idleLine with retryList := [5] }
    let fifo := { idleLine with fifo := [5] }
    let uncertain := { busy with link := .uncertain }
    let c := exchangeIn 5 .queued
    let b := broadcastIn 5 .queued
    ((at0 (scene { idleLine with resetPending := true } station [])).choose 1 = .reset ∧
      (at0 (scene idleLine { station with pollDue := some 3 } [])).choose 1 = .poll 9 ∧
      (at0 (scene idleLine { station with state := .offline, probeDue := some 3 } [])).choose 1 = .probe 9 ∧
      (at0 (scene idleLine { station with state := .new } [])).choose 1 = .link 9 ∧
      (at0 (scene idleLine uncertain [c])).choose 1 = .link 9 ∧ uncertain.pending = 5 :: []) ∧
    ((∀ x ∈ [retry, held retry], ∀ d ∈ [exchangeIn 5 .waitingRetry, loaded .waitingRetry],
        (at0 (scene x busy [d])).choose 1 = .retry 5 ∧ (scene x busy [d]).ctx 5 = some d ∧ d.exchangeHandle = some 9 ∧
          (scene x busy [d]).station 9 = some busy ∧ d.abortRequested = none ∧ busy.state ≠ .closing) ∧
      (∀ x ∈ [idleLine, held idleLine], ∀ d ∈ [c, loaded .queued],
        (at0 (scene x busy [d])).choose 1 = .work .normal 9 ∧ (9 : Handle).val = 9 ∧ busy.pending.head? = some 5 ∧
          (scene x busy [d]).ctx 5 = some d) ∧
      (∀ x ∈ [fifo, held fifo], ∀ d ∈ [b, loadedBroadcast .queued],
        (at0 (scene x station [d])).choose 1 = .work .normal 64 ∧ x.fifo.head? = some 5 ∧
          (scene x station [d]).ctx 5 = some d)) ∧
    idleLine.txHolds ≠ some 5 ∧ (held idleLine).txHolds = some 5 ∧ c.payloadLength = 0 ∧ (loaded .queued).payloadLength ≠ 0 ∧
      b.payloadLength = 0 ∧ (loadedBroadcast .queued).payloadLength ≠ 0 := by decide +kernel

theorem witness_PausedStationIsNotAddressed :
    let s := scene idleLine { station with pollDue := some 3 } []
    let t := after (.schedulerChoice 1 0) s
    exec (.schedulerChoice 1 0) s = .next t ∧ (s.line 1).state ≠ .transmit ∧ (t.line 1).state = .transmit ∧
      (t.line 1).job = some (.poll 9 false) ∧ (Job.poll 9 false).handle = some 9 ∧
      s.station 9 = some { station with pollDue := some 3 } :=
  ⟨rfl, by decide +kernel, by decide +kernel, by decide +kernel, rfl, by decide +kernel⟩

theorem witness_FrameAddressAndControl : (scene idleLine station []).station 9 = some station := by decide +kernel

/-- Section 1.8 and R86: the frame begins with the driver enabled. -/
theorem test_frame_begins :
    let x := ((scene idleLine station []).startPoll 1 9).line 1
    x.driverEnable = true ∧ x.txFrame = formFrame 0x28 .poll false [] ∧ x.txFrame.length = 5 := by decide +kernel

theorem witness_PayloadReadEndsGood :
    let x := { lineIn .preparing with job := some (.command 5 9 .queued) }
    let c := loaded .preparing
    let s := fun (st : Station) (d : Context) => scene x st [d]
    let b := scene { x with job := some (.broadcast 5) } station [loadedBroadcast .preparing]
    let abort := fun d : Context => { d with abortRequested := some 6 }
    let aborter := recordIn 6 .abort (.abort 0 71)
    let a := scene x busy [abort c, aborter]
    ((s busy c).resetHeld = false ∧ (s busy c).device ≠ .failed) ∧ x.state = .preparing ∧ x.abandoned = false ∧
      [1, 2].length ≤ 240 ∧ (s busy c).ctx 5 = some c ∧ c.payloadLength = [1, 2].length ∧ c.phase = .preparing ∧
      (s busy c).station 9 = some busy ∧ c.exchangeHandle = some 9 ∧ c.abortRequested = none ∧ busy.state ≠ .closing ∧
      busy.paused = false ∧ (s { busy with paused := true } c).station 9 = some { busy with paused := true } ∧
      (s { busy with state := .closing } c).station 9 = some { busy with state := .closing } ∧
      a.ctx 5 = some (abort c) ∧ a.ctx 6 = some aborter ∧ 6 ≠ 5 ∧ (aborter.phase ≠ .ending ∧ aborter.body ≠ .reserved) ∧
      6 ∉ busy.pending ∧ b.ctx 5 = some (loadedBroadcast .preparing) ∧ (loadedBroadcast .preparing).payloadLength = 2 ∧
      (loadedBroadcast .preparing).exchangeHandle = none ∧ (loadedBroadcast .preparing).body ≠ .reserved ∧
      (abort (loadedBroadcast .preparing)).abortRequested = some 6 := by
  decide +kernel

/-- The paused clause from QUEUED and from WAITING_RETRY, with and without a line reset that is pending. -/
theorem witness_PayloadReadEndsGood_paused :
    ∀ origin ∈ [Phase.queued, .waitingRetry], ∀ reset ∈ [true, false],
      let x := { lineIn .preparing with job := some (.command 5 9 origin), resetPending := reset }
      let st := { busy with paused := true }
      let s := scene x st [loaded .preparing]
      (s.line 1).job = some (.command 5 9 origin) ∧ s.station 9 = some st ∧ st.paused = true ∧ st.state ≠ .closing ∧
        st.line = 1 ∧ ((s.line 1).resetPending = reset ∧ s.device = .running) ∧ 5 ∉ (s.line 1).quiescers ∧
        ((s.pool.map (·.id)).Nodup ∧ ∀ c ∈ s.pool, c.id < Config.contexts) ∧
        (after (.payloadReadEnd 1 [1, 2]) s).phaseOf 5 = some (if reset && origin == .waitingRetry then .ending else origin) := by
  decide +kernel

theorem witness_PayloadReadEndsWithoutFrame :
    let x := { lineIn .preparing with job := some (.command 5 9 .queued) }
    let c := loaded .preparing
    let s := scene x busy [c]
    let q := recordIn 6 .quiesceLine (.line 1)
    let a := scene { lineIn .preparing with abandoned := true, quiescers := [6] } station [q]
    (s.resetHeld = false ∧ s.device ≠ .failed) ∧ (s.line 1).state = .preparing ∧ (s.line 1).abandoned = false ∧
      (s.line 1).job = some (.command 5 9 .queued) ∧ (Job.command 5 9 .queued).context = some 5 ∧
      s.ctx 5 = some c ∧ c.phase = .preparing ∧ c.body ≠ .reserved ∧ c.abortRequested = none ∧
      ({ c with abortRequested := some 6 } : Context).abortRequested.isSome = true ∧ (a.line 1).state = .preparing ∧
      (a.line 1).abandoned = true ∧ 6 ∈ (a.line 1).quiescers ∧ a.ctx 6 = some q ∧
      (q.phase ≠ .ending ∧ q.body ≠ .reserved) := by decide +kernel

theorem witness_FrameHasBeenSent :
    let s := scene { lineIn .transmit with job := some (.command 5 9 .queued) } busy [exchangeIn 5 .attempting]
    let p := scene { lineIn .transmit with job := some (.poll 9 true) } station []
    let b := { broadcastIn 5 .attempting with abortRequested := some 6 }
    let d := recordIn 6 .abort (.abort 0 71)
    let t := scene { lineIn .transmit with job := some (.broadcast 5) } station [b, d]
    (s.resetHeld = false ∧ s.device ≠ .failed) ∧ (s.line 1).state = .transmit ∧
      (s.line 1).job = some (.command 5 9 .queued) ∧ (Job.command 5 9 .queued).handle = some 9 ∧
      s.station 9 = some busy ∧ (s.line 1).bandTable = some (bandTableOf bandBlock) ∧
      (p.line 1).job = some (.poll 9 true) ∧ (Job.poll 9 true).handle = some 9 ∧ p.station 9 = some station ∧
      (t.line 1).job = some (.broadcast 5) ∧ t.ctx 5 = some b ∧ (b.phase ≠ .ending ∧ b.body ≠ .reserved) ∧
      b.exchangeHandle = none ∧ b.abortRequested = some 6 ∧ t.ctx 6 = some d ∧
      (d.phase ≠ .ending ∧ d.body ≠ .reserved) ∧ 6 ≠ 5 := by decide +kernel

/-- R2: C of each rate code, in whole µs, and a line at each rate. -/
theorem test_character_times :
    ((List.finRange 8).map fun rate => 11 * Config.bitTicks rate / 144) = [1145, 572, 286, 190, 95, 44, 22, 11] ∧
      ∀ rate, ({ idleLine with rate := some rate } : Line).rate = some rate := by decide +kernel

/-! ### The receiver -/

theorem witness_CharactersBegin :
    let s := scene idleLine station []
    let r := { lineIn .receive with rxOctets := [0xA8], gapSince := 100000 }
    let a := fun d : Nat => { lineIn .await with spaceEdge := some 100000, receiving := true, replyTimer := some d }
    (s.resetHeld = false ∧ s.device ≠ .failed) ∧
      ((s.line 1).state ≠ .disabled ∧ (s.line 1).state ≠ .transmit ∧ (s.line 1).state ≠ .breakOut) ∧
      (s.line 1).receiving = false ∧ (s.line 1).condition = .clear ∧
      ({ lineIn .guard with condition := .recovering } : Line).spaceEdge = none ∧
      (100000 + 41875 - r.bit / 2 ≤ r.gapSince + 3 * r.char ∧ r.rxOctets ≠ []) ∧
      (r.looksSince + r.bit / 2 ≤ 100000 + 41875 ∧
        100000 + 624 < ({ r with looksSince := 100000 } : Line).looksSince + r.bit / 2) ∧
      (lineIn .await).state = .await ∧ (a 111875).condition = .clear ∧ (a 111875).receiving = true ∧
      (100000 + 19 * (a 111875).bit / 2 ≤ 111875 ∧ 111874 < 100000 + 19 * (a 111874).bit / 2) := by decide +kernel

theorem witness_CharactersReceived :
    let x := { lineIn .receive with job := some (.link 9), spaceEdge := some 100000, receiving := true }
    let s := scene x station []
    let frame := [0xA8, 0x08, 0x00] ++ checkOctets [0xA8, 0x08, 0x00]
    let judge := judgeCharacter .linkReset (s.jobAddress (.link 9))
    (s.resetHeld = false ∧ s.device ≠ .failed) ∧ (s.line 1).condition = .clear ∧ (s.line 1).receiving = true ∧
      (s.line 1).spaceEdge = some 100000 ∧ (s.line 1).state = .receive ∧ (s.line 1).job = some (.link 9) ∧
      x.rxWrong = false ∧ ({ x with rxWrong := true } : Line).rxWrong = true ∧
      judge [] 0xA8 true false = .more ∧ judge [] 0xA9 true false = .wrong ∧ judge [0xA8] 0x08 false true = .garbled ∧
      judge (frame.take 4) (octetAt frame 4) false false = .good .ack false ∧
      (∀ e ∈ [EngineState.guard, .preparing, .quiesced, .idle], (lineIn e).state = e ∧ (lineIn e).quiescers = []) := by
  decide +kernel

/-- A framing error that is held just short of 2 C and one held to it, a character after the gap, and an answer whose mark
bit is read in time and too late. -/
theorem witness_CharactersReceived_edges :
    let x := { lineIn .receive with spaceEdge := some 100000, receiving := true, rxOctets := [0xA8] }
    let a := fun d : Nat =>
      { lineIn .await with job := some (.link 9), spaceEdge := some 100000, receiving := true, replyTimer := some d }
    let s := scene (a 111875) station []
    let pass := fun held : Nat => 100000 + 21 * x.bit / 2 + held
    (pass 14374 < 100000 + 2 * x.char ∧ 100000 + 2 * x.char ≤ pass 14375) ∧
      (({ x with gapSince := 58749 } : Line).gapSince + 3 * x.char < 100000 ∧
        ¬ ({ x with gapSince := 58750 } : Line).gapSince + 3 * x.char < 100000) ∧
      ((s.line 1).state = .await ∧ (s.line 1).replyTimer = some 111875 ∧ 100000 + 19 * (s.line 1).bit / 2 ≤ 111875 ∧
        111874 < 100000 + 19 * (s.line 1).bit / 2) ∧
      exec (.markBitRead 1) s = .next (after (.markBitRead 1) s) := by
  refine ⟨?_, ?_, ?_, rfl⟩ <;> decide +kernel

/-- R3, entry 33: a framing error held to 2 C is withdrawn whatever bits were read; one held short of it is passed on. -/
theorem test_framing_error_withdrawn :
    let s := scene { lineIn .guard with spaceEdge := some 100000, receiving := true } station []
    after (.characterReceived 1 0xFF true (.error 14375)) s = s ∧
      ((after (.characterReceived 1 0xFF true (.error 14374)) s).line 1).receiving = false := by decide +kernel

/-- R3, R82: a frame of one C ends at 113750 and the driver is released: a character is confirmed half a bit time later, 625 units,
not sooner, and a good one is passed on at the middle of its stop bit, 10.5 bit times, 13125 units, after its leading edge. -/
theorem test_receiver_takes_up_the_line :
    let s := scene { lineIn .transmit with txStart := 100000, txFrame := [0], driverEnable := true, job := some (.link 9) } station []
    let t := after (.transmitEnd 1) s
    let c := after (.characterBegun 1 625) t
    after (.characterBegun 1 624) t = t ∧ (c.line 1).spaceEdge = some 113750 ∧
      (after (.characterReceived 1 0x55 false .good) c).time = 113750 + 13125 ∧
      ((after (.characterReceived 1 0x55 false .good) c).line 1).quietSince = some (113750 + 13750) := by decide +kernel

/-- R84: a character with a framing error whose space ends with the middle of its stop bit is passed on then; the reply timer
expires, or a glitch ends, before the stop bit does: the quiet time restarts at the latest of them, the stop bit's end. -/
theorem test_quiet_from_the_latest :
    let x := fun e : EngineState => { lineIn e with spaceEdge := some 100000, receiving := true, replyTimer := some 113200, job := some (.link 9) }
    let passed := fun e : EngineState => after (.characterReceived 1 0xFF false (.error 0)) (scene (x e) station [])
    (passed .await).time = 113125 ∧
      ((after (.replyTimerExpiry 1) (passed .await)).line 1).quietSince = some 113750 ∧
      ((after (.glitchDiscarded 1 500) (passed .guard)).line 1).quietSince = some 113750 ∧
      ((after (.glitchDiscarded 1 700) (passed .guard)).line 1).quietSince = some 113825 := by decide +kernel

/-- The line with the last octet of an answer under way, whose control octet and payload these are. -/
def answering (job : Job) (control : Byte) (payload : List Byte) : Line × Byte :=
  let body := 0xA8 :: control :: BitVec.ofNat 8 payload.length :: payload
  let frame := body ++ checkOctets body
  ({ lineIn .receive with
      job := some job, spaceEdge := some 100000, receiving := true, gapSince := 99000
      rxOctets := frame.take (frame.length - 1), turnaround := some 90 }, octetAt frame (frame.length - 1))

/-- Every answer to a COMMAND of an ONLINE and of a CLOSING station. -/
theorem witness_AckCompletesExchange :
    let job := Job.command 5 9 .queued
    let c := { exchangeIn 5 .attempting with abortRequested := some 6 }
    let d := recordIn 6 .abort (.abort 0 70)
    ∀ st ∈ [busy, { busy with state := .closing }],
      ∀ p ∈ [((0x28 : Byte), ([] : List Byte), AttemptOutcome.ack), (0x09, [1, 2], .reply [1, 2]), (0x09, [], .reply []),
          (0x0A, [], .busy), (0x0B, [1], .nak .check 1), (0x0B, [5], .nak .refused 5)],
        let a := answering job p.1 p.2.1
        let s := scene a.1 st [c, d]
        (s.resetHeld = false ∧ s.device ≠ .failed) ∧ (s.line 1).state = .receive ∧ (s.line 1).condition = .clear ∧
          (s.line 1).receiving = true ∧ (s.line 1).spaceEdge = some 100000 ∧
          100000 ≤ (s.line 1).gapSince + 3 * (s.line 1).char ∧ (s.line 1).job = some job ∧ (s.line 1).rxWrong = false ∧
          job.handle = some 9 ∧ s.station 9 = some st ∧
          judgeCharacter job.sentKind st.address (s.line 1).rxOctets a.2 false false = .good p.2.2 (p.1 == 0x28) ∧
          s.ctx 5 = some c ∧ c.phase ≠ .ending ∧ c.body = .exchange 9 0x800 0 0x901 4 ∧ s.ctx 6 = some d ∧
          (d.phase ≠ .ending ∧ d.body ≠ .reserved) ∧ 5 ∉ (s.line 1).quiescers := by
  decide +kernel

/-- The conditions on which BUSY and NAK CHECK go on, at their boundaries, and an exchange that no ABORT waits for. -/
theorem witness_AckCompletesExchange_limits :
    let c := exchangeIn 5 .attempting
    c.abortRequested = none ∧
      ((4 ≠ 0 ∧ 4 ≤ min 255 (({ c with busyCount := 3 } : Context).busyCount + 1)) ∧
        ¬ (4 ≠ 0 ∧ 4 ≤ min 255 (({ c with busyCount := 2 } : Context).busyCount + 1)) ∧ busy.busyLimit = 4) ∧
      (1 + busy.retryLimit ≤ ({ c with attemptsMade := 3 } : Context).attemptsMade ∧
        ({ c with attemptsMade := 2 } : Context).attemptsMade < 1 + busy.retryLimit) ∧
      (min [1, 2].length 4 ≠ 0 ∧ min ([] : List Byte).length 4 = 0) := by decide

/-- The answers to a POLL, to a link-service attempt and to a probe, in the states those attempts are made in. -/
theorem witness_AckCompletesExchange_other :
    ∀ p ∈ [(Job.poll 9 true, StationState.online, (0x2C : Byte), ([7] : List Byte), AttemptOutcome.attention [7]),
        (.poll 9 true, .online, 0x0D, [], .idle), (.poll 9 true, .online, 0x0A, [], .busy),
        (.link 9, .new, 0x08, [], .ack), (.link 9, .online, 0x08, [], .ack), (.probe 9, .offline, 0x08, [], .ack)],
      let st := { station with state := p.2.1 }
      let a := answering p.1 p.2.2.1 p.2.2.2.1
      let s := scene a.1 st []
      (s.line 1).job = some p.1 ∧ p.1.handle = some 9 ∧ s.station 9 = some st ∧ st.state = p.2.1 ∧
        judgeCharacter p.1.sentKind st.address (s.line 1).rxOctets a.2 false false =
          .good p.2.2.2.2 (p.2.2.1 == 0x2C) := by decide +kernel

/-- The station CLOSING, with the exchange 5 in its attempt and 7 waiting. -/
def leaving : Station := { busy with state := .closing, closingFrom := some .online, remover := some 8, pending := [5, 7] }

/-- The contexts of `leaving`: the two exchanges, an ABORT that waits for the first, and the REMOVE_STATION. -/
def leavingPool : List Context :=
  [{ exchangeIn 5 .attempting with abortRequested := some 6 }, recordIn 6 .abort (.abort 0 70), exchangeIn 7 .queued,
    recordIn 8 .removeStation (.station 9)]

/-- The premises of settling, for an attempt of the exchange 5 and for one of none, with and without a delivery. -/
theorem witness_ClosingSettles :
    let s := scene (lineIn .receive) leaving leavingPool
    let c := exchangeIn 7 .queued
    let r := recordIn 8 .removeStation (.station 9)
    leaving.state = .closing ∧ leaving.line = 1 ∧ leaving.pending.Nodup ∧ leaving.attention = none ∧
      (∀ id ∈ leaving.pending, some id ≠ some 5 → id = 7) ∧ s.ctx 7 = some c ∧ c.exchangeHandle = some 9 ∧
      c.phase = .queued ∧ s.ctx 8 = some r ∧ leaving.remover = some 8 ∧ 8 ∉ leaving.pending ∧
      (r.phase ≠ .ending ∧ r.body ≠ .reserved) ∧ leaving.settling = [5, 7, 8] ∧ 6 ∉ leaving.settling ∧
      ({ leaving with pending := [7] } : Station).pending.Nodup := by decide +kernel

/-- The attempts to a CLOSING station that are answered, and every one of them that is not. -/
theorem witness_closing_attempts :
    (∀ p ∈ [(Job.command 5 9 .queued, (0x08 : Byte), ([] : List Byte), AttemptOutcome.ack),
        (.command 5 9 .queued, 0x0A, [], .busy), (.command 5 9 .queued, 0x0B, [1], .nak .check 1),
        (.poll 9 true, 0x0C, [7], .attention [7]), (.poll 9 true, 0x0D, [], .idle), (.link 9, 0x08, [], .ack),
        (.probe 9, 0x08, [], .ack)],
      let a := answering p.1 p.2.1 p.2.2.1
      let s := scene a.1 leaving leavingPool
      (s.line 1).job = some p.1 ∧ p.1.handle = some 9 ∧ s.station 9 = some leaving ∧
        judgeCharacter p.1.sentKind leaving.address (s.line 1).rxOctets a.2 false false = .good p.2.2.2 false) ∧
    ∀ job ∈ [Job.command 5 9 .queued, .poll 9 true, .link 9, .probe 9],
      let s := scene { lineIn .await with job := some job, replyTimer := some 200000 } leaving leavingPool
      (s.resetHeld = false ∧ s.device ≠ .failed) ∧ (s.line 1).job = some job ∧ job.handle = some 9 ∧
        s.station 9 = some leaving ∧ (s.line 1).replyTimer = some 200000 := by decide +kernel

/-- R71, R45: silence in the only attempt left to a CLOSING station ends every exchange of it and frees the entry. -/
theorem test_closing_settles :
    let s := scene { lineIn .await with job := some (.command 5 9 .queued), replyTimer := some 200000 } leaving
      (leavingPool.map fun c => { c with abortRequested := none })
    let t := after (.replyTimerExpiry 1) s
    t.station 9 = none ∧ (t.completionWrite.map (·.ctx)) = some 5 ∧
      t.handed.map (fun e => (e.ctx, e.status)) = [(7, .cancelled), (8, .ok)] := by decide +kernel

/-- R63: the decoded REPLY toggles cseq and is kept in the receive buffer. -/
theorem test_reply_received :
    let a := answering (.command 5 9 .queued) 0x09 [1, 2]
    let t := after (.characterReceived 1 a.2 false .good) (scene a.1 busy [exchangeIn 5 .attempting])
    (t.line 1).rxBuffer = some (.reply 5 [1, 2]) ∧ (t.station 9).map (·.cseq) = some true := by decide +kernel

/-- R34, R64: BUSY holds the station and the exchange. -/
theorem test_busy_received :
    let a := answering (.command 5 9 .queued) 0x0A []
    let t := after (.characterReceived 1 a.2 false .good) (scene a.1 busy [exchangeIn 5 .attempting])
    (t.station 9).map (·.state) = some .hold ∧ t.phaseOf 5 = some .held := by decide +kernel

theorem witness_SilenceStepsTheBand :
    station.state = .online ∧ station.band.val < 7 ∧ ({ station with band := 7 } : Station).band.val = 7 ∧
      ({ station with band := 6 } : Station).band.val < 7 ∧
      ({ station with state := .closing } : Station).state = .closing := by decide

/-- R52 with H = 100: the table rises, and band 3 at the turnarounds B_3 - H, B_3 - H + 1, B_4 and B_4 + 1. -/
theorem witness_SilenceStepsTheBand_boundaries :
    let table := bandTableOf bandBlock
    (∀ i j : Fin 7, i < j → table.bounds[i] < table.bounds[j]) ∧ AttemptOutcome.ack.isAnswer = true ∧
      (700 ≤ table.bounds[3] ∧ 700 + 100 ≤ table.bounds[2]) ∧ table.bounds[2] < 701 + 100 ∧ 1600 ≤ table.bounds[3] ∧
      table.bounds[3] < 1601 ∧
      [700, 701, 1600, 1601].map (fun t => (bandAfterAnswer table 100 t 3).val) = [2, 3, 3, 4] := by decide +kernel

/-- A silent COMMAND, POLL, link attempt and probe, and the gap in an answer to each: their premises, below and at the miss
limit, with attempts left and used up. -/
theorem witness_MissesAreCounted :
    let jobs := [(Job.command 5 9 .queued, StationState.online), (.poll 9 false, .online), (.link 9, .new),
      (.link 9, .online), (.probe 9, .offline)]
    let c := exchangeIn 5 .attempting
    (∀ p ∈ jobs,
      let st := { busy with state := p.2 }
      let a := { lineIn .await with job := some p.1, replyTimer := some 200000 }
      let g := { lineIn .receive with job := some p.1, rxOctets := [0xA8], gapSince := 90000 }
      let s := scene a st [c]
      (s.resetHeld = false ∧ s.device ≠ .failed) ∧ (s.line 1).job = some p.1 ∧ p.1.handle = some 9 ∧
        s.station 9 = some st ∧ st.line = 1 ∧ (s.line 1).state = .await ∧ (s.line 1).replyTimer = some 200000 ∧
        ((scene g st [c]).line 1).state = .receive ∧ g.condition = .clear ∧ g.receiving = false ∧ g.rxOctets ≠ []) ∧
      AttemptOutcome.noAnswer.failure = some .noAnswer ∧
      busy.missCount + 1 < busy.missLimit ∧
      ({ busy with missCount := 2 } : Station).missLimit ≤ ({ busy with missCount := 2 } : Station).missCount + 1 ∧
      c.attemptsMade < 1 + busy.retryLimit ∧ 1 + busy.retryLimit ≤ ({ c with attemptsMade := 3 } : Context).attemptsMade ∧
      (c.linkAttempts < 1 + busy.retryLimit ∧
        1 + busy.retryLimit ≤ ({ c with linkAttempts := 3 } : Context).linkAttempts) ∧
      busy.pending = 5 :: [] ∧ c.phase ≠ .ending ∧ c.exchangeHandle = some 9 ∧ c.abortRequested = none := by
  decide +kernel

/-- A character that garbles an answer, one with a framing error held short of 2 C, and the last octet of an answer that is
not permitted, with its AP bit. -/
theorem witness_MissesAreCounted_characters :
    let x := { lineIn .receive with
      job := some (.command 5 9 .queued), spaceEdge := some 100000, receiving := true, rxOctets := [0xA8], gapSince := 99000 }
    let s := scene x busy [exchangeIn 5 .attempting]
    let a := answering (.command 5 9 .queued) 0x2C [7]
    ((s.line 1).receiving = true ∧ (s.line 1).spaceEdge = some 100000 ∧ (s.line 1).rxWrong = false ∧
        100000 ≤ (s.line 1).gapSince + 3 * (s.line 1).char) ∧
      judgeCharacter .command busy.address x.rxOctets 0x08 true false = .garbled ∧
      judgeCharacter .command busy.address x.rxOctets 0x00 false true = .garbled ∧
      100000 + 21 * x.bit / 2 + 14374 < 100000 + 2 * x.char ∧
      judgeCharacter .command busy.address a.1.rxOctets a.2 false false = .good .unexpected true ∧
      ((scene a.1 busy []).line 1).state = .receive := by decide +kernel

/-- Replies of 0, 4 and 240 octets to a buffer of 4 octets at 0x901: no, two and two transactions. -/
theorem witness_ReplyWriteEnds :
    let c := { exchangeIn 5 .attempting with abortRequested := some 6 }
    let d := recordIn 6 .abort (.abort 0 70)
    let s := fun octets : List Byte => scene { lineIn .idle with rxBuffer := some (.reply 5 octets) } busy [c, d]
    ((s []).resetHeld = false ∧ (s []).device ≠ .failed) ∧
      (∀ o ∈ [octets 0 [], octets 4 [], octets 240 []], ((s o).line 1).rxBuffer = some (.reply 5 o) ∧ o.length ≤ 240 ∧
        (s o).ctx 5 = some c ∧ (s o).ctx 6 = some d ∧ (s o).station 9 = some busy) ∧
      c.phase ≠ .ending ∧ c.body = .exchange 9 0x800 0 0x901 4 ∧ (d.phase ≠ .ending ∧ d.body ≠ .reserved) ∧
      busy.state ≠ .closing ∧ (octets 4 []).length ≤ 4 ∧ 4 < (octets 240 []).length ∧
      ((0x901#32).toNat % 4 + 4 - 1) / 4 + 1 = 2 ∧ (1 ≤ 60 ∧ 1 < 2 ∧ 2 ≤ 2 ∧ 60 ≤ 60) := by decide +kernel

/-- The reply of a CLOSING station's exchange: the premises of settling. -/
theorem witness_ReplyWriteEnds_closing :
    let s := scene { lineIn .idle with rxBuffer := some (.reply 5 [1, 2]) } leaving leavingPool
    s.station 9 = some leaving ∧ leaving.state = .closing ∧ (s.line leaving.line).attempting 9 = false ∧
      (s.ctx 5).map (·.abortRequested) = some (some 6) ∧ 6 ∉ leaving.settling := by decide +kernel

/-- R63: a bus error after the first of two transactions leaves the three octets of the first in memory. -/
theorem test_reply_write_error :
    let s := scene { idleLine with rxBuffer := some (.reply 5 [1, 2, 3, 4]) } busy [exchangeIn 5 .attempting]
    let t := after (.replyWriteEnd 1 (.error 1)) s
    [0x901, 0x902, 0x903, 0x904].map (readMem t.mem) = [some 1, some 2, some 3, none] ∧
      after (.replyWriteEnd 1 (.error 2)) s = s := by decide +kernel

theorem witness_BreakReachesTheLine :
    let line := fun (e : EngineState) (c : Condition) => { lineIn e with
      condition := c, spaceEdge := some 100000, job := some (.command 5 9 .queued) }
    let s := fun (e : EngineState) (c : Condition) (p : Phase) => scene (line e c) busy [exchangeIn 5 p]
    (∀ e ∈ [EngineState.idle, .guard, .quiesced, .preparing, .await, .receive], ∀ c ∈ [Condition.clear, .recovering],
      ∀ p ∈ [Phase.attempting, .preparing, .waitingRetry],
      let t := s e c p
      (t.resetHeld = false ∧ t.device ≠ .failed) ∧
        ((t.line 1).state ≠ .disabled ∧ (t.line 1).state ≠ .transmit ∧ (t.line 1).state ≠ .breakOut) ∧
        (t.line 1).condition = c ∧ (t.line 1).spaceEdge = some 100000 ∧
        ((t.pool.map (·.id)).Nodup ∧ ∀ d ∈ t.pool, d.id < Config.contexts) ∧
        t.ctx 5 = some (exchangeIn 5 p) ∧ t.station 9 = some busy ∧ (t.line 1).abandoned = false) ∧
      (s .idle .clear .waitingRetry).retryWaits 1 (exchangeIn 5 .waitingRetry) = true ∧ busy.line = 1 ∧
      busy.state ≠ .closing ∧ (exchangeIn 5 .attempting).exchangeHandle = some 9 ∧
      (exchangeIn 5 .attempting).abortRequested = none ∧
      (∀ h : Handle, h ≠ 9 → (s .await .clear .attempting).station h = none) := by
  decide +kernel

/-- The attempts that a break ends, the read of an exchange and of a broadcast that it abandons, each with an ABORT and
without, and the same for a CLOSING station. -/
theorem witness_BreakReachesTheLine_ends :
    let line := fun (e : EngineState) (job : Job) => { lineIn e with spaceEdge := some 100000, job := some job, fifo := [5] }
    let abort := recordIn 6 .abort (.abort 0 70)
    let remove := recordIn 8 .removeStation (.station 9)
    let free := fun (e : EngineState) (job : Job) (st : Station) (pool : List Context) =>
      let s := scene (line e job) st pool
      decide ((s.resetHeld = false ∧ s.device ≠ .failed) ∧ (s.line 1).state = e ∧ (s.line 1).abandoned = false ∧
        (s.line 1).spaceEdge = some 100000 ∧ (s.line 1).job = some job ∧ s.station 9 = some st ∧ st.line = 1 ∧
        ((s.pool.map (·.id)).Nodup ∧ ∀ c ∈ s.pool, c.id < Config.contexts) ∧ s.ctx 6 = some abort ∧
        s.retryWaits 1 abort = false ∧ (abort.phase ≠ .ending ∧ abort.body ≠ .reserved))
    (∀ p ∈ [(Job.command 5 9 .queued, StationState.online), (.poll 9 true, .online), (.link 9, .new), (.link 9, .online),
        (.probe 9, .offline)],
      free .await p.1 { busy with state := p.2 } [exchangeIn 5 .attempting, abort] ∧ p.1.handle = some 9) ∧
    (∀ job ∈ [Job.command 5 9 .queued, .poll 9 true, .link 9, .probe 9],
      free .receive job leaving leavingPool ∧ job.handle = some 9) ∧
    (∀ c ∈ [loaded .preparing, { loaded .preparing with abortRequested := some 6 }],
      (∀ st ∈ [busy, leaving], free .preparing (.command 5 9 .waitingRetry) st [c, abort, exchangeIn 7 .queued, remove]) ∧
        c.phase = .preparing ∧ c.exchangeHandle = some 9) ∧
    (∀ c ∈ [loadedBroadcast .preparing, { loadedBroadcast .preparing with abortRequested := some 6 }],
      free .preparing (.broadcast 5) station [c, abort] ∧ c.exchangeHandle = none ∧ c.body ≠ .reserved) ∧
    (scene (line .await (.link 9)) leaving leavingPool).retryWaits 1 remove = false ∧ leaving.remover = some 8 ∧
      6 ∉ leaving.settling ∧ 6 ∉ busy.settling := by decide +kernel

/-- R67: a break ends the exchange of another station of the line that waits for its retry, in every state of the engine. -/
theorem test_break_ends_retries :
    let c := exchangeIn 5 .waitingRetry
    let other := { loaded .preparing with id := 7, body := .exchange 10 0x800 2 0x901 4 }
    let s := fun (e : EngineState) (job : Option Job) =>
      (scene { lineIn e with spaceEdge := some 100000, job := job, retryList := [5] } busy [c, other]).setStation 10
        (some { station with address := 0x29, pending := [7] })
    ∀ y ∈ [(EngineState.preparing, some (Job.command 7 10 .queued)), (.await, some (.probe 10)), (.receive, some (.poll 10 true)),
        (.idle, none), (.guard, none), (.quiesced, none)],
      let t := after (.breakDetected 1) (s y.1 y.2)
      (s y.1 y.2).retryWaits 1 c = true ∧ (y.1 = .preparing → (s y.1 y.2).endedByRead 1 = [7]) ∧
        (t.completionWrite.map fun w => (w.ctx, w.octets[1]?)) = some (5, some Status.lineBreak.code) ∧
        t.phaseOf 5 = some .ending ∧ (y.1 = .preparing → t.phaseOf 7 = some .queued) := by decide +kernel

/-- R32, R31: LINE_BREAK of a POLL and of a probe clears the due flag and starts the timer; the miss count stays. -/
theorem test_break_ends_attempt :
    let s := fun (job : Job) (st : Station) =>
      after (.breakDetected 1) (scene { lineIn .await with spaceEdge := some 100000, job := some job } st [])
    let kept := fun t : State => (t.station 9).map fun x => (x.pollDue, x.probeDue, x.missCount, x.timer.map (·.kind))
    kept (s (.poll 9 true) { station with pollDue := some 3, missCount := 1 }) = some (none, none, 1, some .poll) ∧
      kept (s (.probe 9) { station with state := .offline, probeDue := some 3, missCount := 3 }) =
        some (none, none, 3, some .probe) := by decide +kernel

/-- R118: a break abandons the read of a CLOSING station's exchange: CANCELLED, then the rest of its list and the entry. -/
theorem test_break_settles_closing :
    let s := scene { lineIn .preparing with spaceEdge := some 100000, job := some (.command 5 9 .waitingRetry) } leaving
      [loaded .preparing, exchangeIn 7 .queued, recordIn 8 .removeStation (.station 9)]
    let t := after (.breakDetected 1) s
    (s.line leaving.line).attempting 9 = false ∧ (t.line 1).txHolds = none ∧ t.station 9 = none ∧
      (t.completionWrite.map fun w => (w.ctx, w.octets[1]?)) = some (5, some Status.cancelled.code) ∧
      t.handed.map (fun e => (e.ctx, e.status)) = [(7, .cancelled), (8, .ok)] := by decide +kernel

/-- R43, R45, R71, R78: the payload read of a CLOSING station's exchange ends, good or with a bus error, with an ABORT that waits
and without: the premises of settling, and what each clause says. -/
theorem witness_PayloadReadEnds_closing :
    ∀ abort ∈ [none, some 6], ∀ c ∈ [Instr.payloadReadEnd 1 [1, 2], .payloadReadError 1],
      let own := { loaded .preparing with abortRequested := abort }
      let s := scene { lineIn .preparing with job := some (.command 5 9 .queued) } leaving
        [own, recordIn 6 .abort (.abort 0 70), exchangeIn 7 .queued, recordIn 8 .removeStation (.station 9)]
      let t := after c s
      (s.resetHeld = false ∧ s.device ≠ .failed) ∧ (s.line 1).abandoned = false ∧ s.ctx 5 = some own ∧
        own.phase = .preparing ∧ own.body ≠ .reserved ∧ own.payloadLength = 2 ∧ own.exchangeHandle = some 9 ∧
        s.station 9 = some leaving ∧ leaving.state = .closing ∧ (s.line leaving.line).attempting 9 = false ∧
        6 ∉ leaving.settling ∧ s.ctx 7 = some (exchangeIn 7 .queued) ∧ t.station 9 = none ∧
        (t.completionWrite.map fun w => (w.ctx, w.octets[1]?)) = some (5, some (if abort.isSome then Status.aborted
          else match c with
            | .payloadReadError _ => .hostReadError
            | _ => .cancelled).code) ∧
        t.handed.map (fun e => (e.ctx, e.status)) =
          [(7, .cancelled), (8, .ok)] ++ (if abort.isSome then [(6, Status.ok)] else []) := by decide +kernel

theorem witness_ConditionMoves :
    let x := fun c : Condition => { lineIn .guard with condition := c, quietSince := none }
    let s := fun y : Line => scene y station []
    ((s (x .break)).resetHeld = false ∧ (s (x .break)).device ≠ .failed) ∧
      ((x .break).state ≠ .disabled ∧ (x .break).state ≠ .transmit ∧ (x .break).state ≠ .breakOut) ∧
      (((s { x .break with spaceEdge := some 90000 }).line 1).condition = .break ∧
        ((s { x .break with spaceEdge := some 90000 }).line 1).spaceEdge = some 90000) ∧
      ((s (x .stuck)).line 1).condition = .stuck ∧
      ({ x .recovering with spaceEdge := some 90000 } : Line).spaceEdge.isSome = true ∧
      (((s { x .recovering with markSince := some 90000 }).line 1).condition = .recovering ∧
        (x .recovering).spaceEdge = none ∧
        ((s { x .recovering with markSince := some 90000 }).line 1).markSince = some 90000) := by decide +kernel

/-- R97, R123: a rate of 1 Mbit/s installed during a recovery that began at 9600 bit/s: the recovery, and a guard, end at
the installation. -/
theorem test_faster_rate :
    let x := { lineIn .quiesced with
      rate := some 0, condition := .recovering, markSince := some 1000, bandReading := true, setLine := some 3 }
    let t := after (.bandTableReadEnd 1 (.good bandBlock))
      (scene x station [recordIn 3 .setLine (.setLine 1 true 7 100 0x500)])
    ((t.line 1).rate, (t.line 1).rateSince) = (some 7, 100000) ∧
      ((after (.recoveryEnd 1) t).line 1).quietSince = some 100000 ∧
      (after (.guardEnd 1) (scene { lineIn .guard with rate := some 7, rateSince := 150000 } station [])).time = 150000 := by
  decide +kernel

/-- R88, R94: after a fragment ended by a gap the guard ends as soon as it is entered, 3 C after the last character, and the
break that a pending line reset begins there has its 16 C of space from then on. -/
theorem test_break_after_fragment :
    let x := { lineIn .receive with
      job := some (.link 9), rxOctets := [0xA8], gapSince := 100000, quietSince := some 100000, resetPending := true }
    let g := after (.interCharacterGapExpiry 1) (scene x { station with state := .new } [])
    let b := after (.guardEnd 1) g
    (g.line 1).guardSince = 100000 + 3 * x.char ∧ (b.line 1).breakStart = 100000 + 3 * x.char ∧
      (after (.breakSpaceEnd 1) b).time = 100000 + 19 * x.char := by decide +kernel

theorem witness_GuardEnds :
    let s := scene (lineIn .guard) station []
    (s.resetHeld = false ∧ s.device ≠ .failed) ∧ (s.line 1).state = .guard ∧ (s.line 1).condition = .clear ∧
      (s.line 1).receiving = false ∧ (s.line 1).quietSince = some 1000 ∧ s.device = .running ∧
      ((scene { lineIn .guard with resetPending := true } station []).line 1).resetPending = true ∧
      ({ lineIn .guard with quiesce := true } : Line).quiesce = true ∧
      ¬ ((s.line 1).resetPending = true ∧ s.device = .running) := by decide +kernel

theorem witness_OwnBreakEnds :
    let x := { lineIn .breakOut with
      breakRate := some 0, driverEnable := true, txd := .space, boundResets := [5], quiescers := [6] }
    let a := recordIn 5 .lineReset (.line 1)
    let b := recordIn 6 .quiesceLine (.line 1)
    let s := scene x station [a, b]
    (s.resetHeld = false ∧ s.device ≠ .failed) ∧ (s.line 1).state = .breakOut ∧ (s.line 1).breakRate = some 0 ∧
      (s.line 1).txd = .space ∧ ({ x with txd := .mark } : Line).txd = .mark ∧
      (s.line 1).boundResets ++ (s.line 1).quiescers = [5, 6] ∧ s.ctx 5 = some a ∧ s.ctx 6 = some b ∧
      (a.phase ≠ .ending ∧ a.body ≠ .reserved) ∧ (b.phase ≠ .ending ∧ b.body ≠ .reserved) := by decide +kernel

theorem witness_StationTimersExpire :
    let st := fun (k : TimerKind) (e : StationState) => { busy with state := e, timer := some { kind := k, expires := 900 } }
    let s := fun x : Station => scene idleLine x [exchangeIn 5 .held]
    ((s busy).resetHeld = false ∧ (s busy).device ≠ .failed) ∧
      (s (st .poll .online)).station 9 = some (st .poll .online) ∧ (s (st .hold .hold)).station 9 = some (st .hold .hold) ∧
      (s (st .probe .offline)).station 9 = some (st .probe .offline) ∧ (st .hold .hold).pending = 5 :: [] ∧
      ({ st .hold .hold with pending := [] } : Station).pending = [] := by decide +kernel

/-! ### The writers -/

/-- A completion entry of the exchange 5 under way, with a FENCE that counts it and one that counts two. -/
def writing : State :=
  { part with
    pool := [exchangeIn 5 .ending, { recordIn 6 .fence .fence with fenceCount := 1 }, { recordIn 7 .fence .fence with fenceCount := 2 }]
    completion := { part.completion with tail := 15 }
    completionWrite := some { ctx := 5, addr := 0x30F0, octets := octets 16 [1] } }

theorem witness_CompletionEntryPosted :
    writing.resetHeld = false ∧ writing.device = .running ∧
      writing.completionWrite = some { ctx := 5, addr := 0x30F0, octets := octets 16 [1] } ∧
      (octets 16 [1]).length = 16 ∧ writing.ctx 5 = some (exchangeIn 5 .ending) ∧
      ((writing.pool.map (·.id)).Nodup ∧ ∀ c ∈ writing.pool, c.id < Config.contexts) ∧
      (let f := { recordIn 6 .fence .fence with fenceCount := 1 }
       let g := { recordIn 7 .fence .fence with fenceCount := 2 }
       writing.pool = [] ++ exchangeIn 5 .ending :: [] ++ f :: [g] ∧
         writing.pool = [] ++ exchangeIn 5 .ending :: [f] ++ g :: [] ∧ f.kind = some .fence ∧
         f.queue = (exchangeIn 5 .ending).queue ∧ f.phase = .queued ∧ f.body ≠ .reserved ∧ f.fenceCount = 1 ∧
         1 < g.fenceCount) := by
  decide +kernel

/-- An ATTENTION of the station under way. -/
def reporting : State :=
  { scene { lineIn .guard with rxBuffer := some (.attention [5]) } { station with attention := some true } [] with
    reserved := 1
    eventWrite := some { addr := 0x43C0, octets := octets 64 [1], attention := some (1, 9) } }

theorem witness_EventEntryPosted :
    reporting.resetHeld = false ∧ reporting.device = .running ∧
      reporting.eventWrite = some { addr := 0x43C0, octets := octets 64 [1], attention := some (1, 9) } ∧
      (octets 64 [1]).length = 64 ∧ reporting.station 9 = some { station with attention := some true } := by
  decide +kernel

/-- The delivery of a CLOSING station that ends: the premises of settling. -/
theorem witness_EventEntryPosted_closing :
    let st := { station with state := .closing, remover := some 8, attention := some true }
    let s := { reporting.setStation 9 (some st) with pool := [recordIn 8 .removeStation (.station 9)] }
    s.station 9 = some st ∧ st.state = .closing ∧ (s.line st.line).attempting 9 = false ∧ st.pending.Nodup ∧
      s.ctx 8 = some (recordIn 8 .removeStation (.station 9)) ∧
      (after .eventEntryPosted s).station 9 = none := by decide +kernel

theorem witness_WriteErrorFailsTheDevice :
    writing.resetHeld = false ∧ writing.device = .running ∧ writing.completionWrite.isSome = true ∧ 3 < 4 ∧ 0 < 4 ∧
      writing.eventWrite = none ∧ (∀ l, (writing.line l).rxBuffer = none) ∧
      ({ part with eventWrite := reporting.eventWrite } : State).eventWrite = reporting.eventWrite ∧ 15 < 16 ∧ 0 < 16 ∧
      (octets 64 [1]).length = 64 ∧ part.completionWrite = none ∧ (∀ l, (part.line l).rxBuffer = none) := by
  decide +kernel

theorem witness_WritersFollowTheStep :
    let c : Completion := {
      ctx := 5, kindCode := 1, tag := 65535, queue := 0, status := .ok, detail := .none, replyLength := 240, band := some 7
      turnaround := some 999999 }
    let r : AttentionReport := { line := 1, handle := 9, pseq := true, ap := true, octets := octets 48 [1] }
    let s : State := { part with handed := [c], attentions := [r] }
    let t := part.setLine 1 { idleLine with breakEnded := true }
    let q := part.updQueue 1 fun q => { q with report := some { cause := .badTail, head := 3 } }
    let p := scene idleLine { station with presenceChanges := 255 } []
    let free := fun s : State => s.posting = true ∧ s.eventWrite = none ∧ s.attentions = [] ∧ 0 < s.freePlaces
    (s.posting = true ∧ s.completionWrite = none ∧ s.handed = c :: [] ∧ s.eventWrite = none ∧ s.attentions = r :: []) ∧
      (free t ∧ (t.line 1).reportPending = true ∧ ∀ k, k < 1 → (t.line k).reportPending = false) ∧
      (free q ∧ (∀ l, (q.line l).reportPending = false) ∧ (q.queue 1).report = some { cause := .badTail, head := 3 } ∧
        ∀ k, k < 1 → (q.queue k).report = none) ∧
      (free p ∧ (∀ l, (p.line l).reportPending = false) ∧ (∀ k, (p.queue k).report = none) ∧
        p.station 9 = some { station with presenceChanges := 255 } ∧ ∀ k : Handle, k < 9 → p.station k = none) ∧
      (partIn .ready).posting = false ∧
      ((partIn .halting).posting = true ∧ (partIn .halting).reading = none ∧ ∀ l, ((partIn .halting).line l).state.busy = false) ∧
      (∀ n, c.turnaround = some n → n < 1000000) ∧ (c.tag < 65536 ∧ c.replyLength ≤ 240 ∧ r.octets.length ≤ 48) := by
  refine ⟨?_, ?_, ?_, ?_, ?_, ?_, ?_, ?_⟩ <;> decide +kernel

/-- No write begins: one in progress, nothing handed or pending, no free place; and HALTED is not entered. -/
theorem witness_WritersFollowTheStep_nothing :
    let full := { part with event := { part.event with tail := 15 } }
    let w := { part with eventWrite := some { addr := 0x4000, octets := octets 64 [1], attention := none } }
    let busy := (partIn .halting).setLine 1 (lineIn .await)
    (part.posting = true ∧ part.handed = [] ∧ part.attentions = [] ∧ (∀ l, (part.line l).reportPending = false) ∧
        (∀ q, (part.queue q).report = none) ∧ ∀ h, part.station h = none) ∧
      (full.posting = true ∧ full.freePlaces = 0) ∧ (w.posting = true ∧ w.eventWrite.isSome = true) ∧
      (busy.posting = true ∧ ¬ (∀ l, (busy.line l).state.busy = false)) ∧
      (reading (partIn .halting)).reading ≠ none := by decide +kernel

/-- Section 11.5: the LINE entry of line 1 in STUCK after two breaks, and the PRESENCE entry of a station that left. -/
theorem test_event_entries :
    lineOctets 1 { idleLine with condition := .stuck, breaksSeen := 2, stuckSeen := true, chatter := 7 } true =
        octets 64 [0x03, 0, 0, 0x80, 1, 2, 7, 2, 2] ∧
      presenceOctets 9 { station with state := .offline, presenceChanges := 1, lastReported := .present } false =
        octets 64 [0x02, 0, 0, 0, 9, 0, 1, 1] ∧
      queueStoppedOctets 2 { cause := .readError, head := 0x123 } true =
        octets 64 [0x04, 0, 0, 0x80, 2, 2, 0, 0, 0x23, 0x01] := by decide +kernel

/-! ### The headline rules -/

theorem witness_AnswerFrameDecodes :
    (octets 240 []).length ≤ 240 ∧ (octets 0 []).length ≤ 240 ∧ (scene idleLine station []).station 9 = some station ∧
      answerAddress 0x28 = 0xA8 ∧ (0xA9 : Byte) ≠ answerAddress 0x28 ∧ [(0xA8 : Byte), 0x08].length = 2 ∧
      (240#8).toNat ≤ 240 ∧ 240 < (241#8).toNat ∧
      (let before : List Byte := [0xA8, 0x0B, 1, 5]
       3 ≤ before.length ∧ (before ++ [0]).length < le8 (before ++ [0]) 2 + 5 ∧
        (before ++ checkOctets before).length = le8 (before ++ checkOctets before) 2 + 5) := by decide +kernel

/-- R11, R12: the characters of an answer that end it, or are not interpreted. -/
theorem test_characters_judged :
    let judge := judgeCharacter .command 0x28
    judge [] 0xA8 true true = .garbled ∧ judge [] 0x28 true false = .wrong ∧ judge [0xA8, 0x09] 240 false false = .more ∧
      judge [0xA8, 0x09] 241 false false = .garbled ∧ judge [0xA8, 0x08, 0, 0] 0 false false = .garbled := by decide +kernel

/-- R7, R8, R9: kinds and lengths that are not permitted, and the reason classes. -/
theorem test_answers_judged :
    (judgeGoodFrame .poll 0x0B [1] = .unexpected ∧ judgeGoodFrame .linkReset 0x0A [] = .unexpected ∧
      judgeGoodFrame .command 0x48 [] = .unexpected ∧ judgeGoodFrame .command 0x0B [] = .unexpected ∧
      judgeGoodFrame .poll 0x0C (octets 49 []) = .unexpected ∧ judgeGoodFrame .poll 0x0C (octets 48 []) = .attention (octets 48 [])) ∧
      [0, 1, 2, 3, 4].map (fun n => judgeGoodFrame .command 0x1B [n]) =
        [.nak .refused 0, .nak .check 1, .nak .refused 2, .nak .unsupported 3, .nak .refused 4] := by decide +kernel

/-- The invariants hold of the reset state, and a step is taken from it. -/
theorem witness_invariants :
    State.reset.DriversSafe ∧ State.reset.PinFollows ∧ State.reset.MemoryCanonical ∧ State.reset.ContextsDistinct ∧
      (∀ h, State.reset.station h = none) ∧ step State.reset = .next State.reset.tick := by
  refine ⟨?_, rfl, rfl, ⟨by decide, by decide⟩, by decide +kernel, rfl⟩
  unfold State.DriversSafe Line.driverRule
  decide +kernel

/-- The ring invariants on a part at work: the context of a read, the completion being written, a poll under a
reservation; and a line that holds its band table. -/
theorem witness_ring_invariants :
    let s : State := { reading (scene { lineIn .await with job := some (.poll 9 true) } station [exchangeIn 5 .ending]) with
      completionWrite := some { ctx := 5, addr := 0x3000, octets := octets 16 [1] }, reserved := 1 }
    s.CreditsKept ∧ s.PlacesKept ∧ s.LinesConfigured ∧ s.ContextsDistinct := by
  refine ⟨⟨by decide, ?_, ?_, ?_, ?_⟩, ⟨by decide +kernel, ?_, ?_⟩, ?_, ⟨by decide, by decide⟩⟩
  · intro id h
    have : id = 5 := by simpa [State.completionOrder, reading, scene, part, State.updQueue, State.setStation, State.setLine, State.reset] using h
    subst this
    exact ⟨exchangeIn 5 .ending, by decide +kernel, rfl, rfl, by decide⟩
  · rintro rd h
    cases h
    exact ⟨reservedContext 0 0 .normal, by decide +kernel, rfl, rfl⟩
  · exact fun _ => ⟨⟨by decide, by decide⟩, by decide⟩
  · exact fun h => absurd ⟨by decide, by decide⟩ h
  · exact fun _ => ⟨⟨by decide, by decide⟩, by decide⟩
  · exact fun h => absurd ⟨by decide, by decide⟩ h
  · unfold State.LinesConfigured
    decide +kernel

theorem witness_StationRulesKept :
    let s := scene { idleLine with retryList := [5, 6] } { station with pending := [5, 6] } []
    station.missRule ∧ (station.timer = none ∧ station.state = .online) ∧ 1 ≤ station.address.toNat ∧
      station.address.toNat ≤ 126 ∧ (∀ h, h ≠ 9 → s.station h = none) ∧ (∀ l, (s.line l).retryList.Nodup) ∧
      s.station 9 = some { station with pending := [5, 6] } ∧ [5, 6].Nodup ∧ step s = .next s.tick :=
  ⟨by unfold Station.missRule; decide, by decide, by decide, by decide, by decide +kernel, by decide +kernel,
    by decide +kernel, by decide, rfl⟩

theorem witness_FailedPartIsFrozen :
    (partIn .failed).device = .failed ∧ exec (.enableWritten1 1) (partIn .failed) = .next (partIn .failed).reject ∧
      (∀ v, Instr.enableWritten1 1 ≠ .softReset v) ∧ Instr.enableWritten1 1 ≠ .hardwareReset :=
  ⟨rfl, rfl, fun _ => by simp, by decide⟩

theorem witness_BandTableRulesTheLine :
    let s := scene { lineIn .disabled with bandReading := true, setLine := some 3, bandTable := none } station
      [recordIn 3 .setLine (.setLine 1 true 5 100 0x500)]
    let t := after (.bandTableReadEnd 1 (.good bandBlock)) s
    (s.line 1).state = .disabled ∧ (t.line 1).state = .breakOut ∧ (t.line 1).bandTable ≠ (s.line 1).bandTable := by
  decide +kernel

end Sys2Proof.Tests
end

section
/-! PROOFS. Facts about single operations of the model that the statements of this part share: what a command answers,
setting a line twice, the frames of the part. -/

namespace Sys2Proof.Machine

/-! ## A command that occurs, and one that does not -/

/-- An event that the state rules out changes nothing (entry 1). -/
theorem runCommand_absent {c : Instr} {o : Bool} {e : State → State} {s : State} (h1 : c.wellFormed = true)
    (h2 : o = false) : runCommand c o e s = .next s := by
  simp [runCommand, h1, h2]

theorem State.Operates.live {s : State} (h : s.Operates) : s.live = true := by
  simp [State.live, h.1]

theorem State.Operates.operating {s : State} (h : s.Operates) : s.operating = true := by
  simp [State.operating, h.live, h.2]

theorem State.Operates.watching {s : State} {l : LineNo} (h : s.Operates) (hw : (s.line l).Watches) :
    s.watching l = true := by
  obtain ⟨hd, ht, hb⟩ := hw
  unfold State.watching
  rw [h.operating]
  cases hx : (s.line l).state <;> simp_all

/-! ## What the commands of a line's receiver and of the part's own break are -/

section
variable (s : State) (l : LineNo) (wait : Nat) (octet : Byte) (mark : Bool) (stop : StopBit)

theorem exec_characterBegun : exec (.characterBegun l wait) s = runCommand (.characterBegun l wait)
    (s.watching l && (s.line l).mayBegin && (s.line l).looksAt (s.time + wait) && (s.line l).withinGap (s.begunEdge l wait))
    (fun s => (s.reach (s.time + wait)).updLine l fun x => x.beginCharacter (s.begunEdge l wait)) s := rfl

theorem exec_glitchDiscarded : exec (.glitchDiscarded l wait) s = runCommand (.glitchDiscarded l wait)
    (s.watching l && (s.line l).mayBegin)
    (fun s => (s.reach (s.time + wait)).updLine l fun x => x.discardGlitch (s.time + wait)) s := rfl

theorem exec_markBitRead : exec (.markBitRead l) s = runCommand (.markBitRead l)
    (s.watching l && (s.line l).marksInTime s.time && (s.line l).receiving) (fun s => s.readMark l) s := rfl

theorem exec_characterReceived : exec (.characterReceived l octet mark stop) s =
    runCommand (.characterReceived l octet mark stop) (s.watching l && (s.line l).mayReceive mark stop s.time)
      (fun s => s.takeCharacter l octet mark stop ((s.line l).charEdge s.time)) s := rfl

theorem exec_interCharacterGapExpiry : exec (.interCharacterGapExpiry l) s = runCommand (.interCharacterGapExpiry l)
    (s.operating && (s.line l).gapOpen)
    (fun s => ((s.reach ((s.line l).gapSince + 3 * (s.line l).char)).endAttempt l (s.line l).gapOutcome false).finish)
    s := rfl

theorem exec_replyTimerExpiry : exec (.replyTimerExpiry l) s = runCommand (.replyTimerExpiry l)
    (s.operating && (s.line l).state == .await && (s.line l).replyTimer.isSome) (fun s => s.replyExpires l) s := rfl

theorem exec_breakSpaceEnd : exec (.breakSpaceEnd l) s = runCommand (.breakSpaceEnd l)
    (s.operating && (s.line l).state == .breakOut && (s.line l).txd == .space)
    (fun s => (s.reach ((s.line l).breakStart + 16 * (s.line l).breakChar)).updLine l
      fun x => { x with txd := .mark }) s := rfl

theorem exec_breakRelease : exec (.breakRelease l) s = runCommand (.breakRelease l)
    (s.operating && (s.line l).state == .breakOut && (s.line l).txd == .mark) (fun s => s.breakReleased l) s := rfl

end

/-! ## One line set twice -/

@[simp] theorem State.setLine_setLine (s : State) (l : LineNo) (x y : Line) :
    (s.setLine l x).setLine l y = s.setLine l y := by
  simp [State.setLine]

@[simp] theorem State.setLine_line_self (s : State) (l : LineNo) : s.setLine l (s.line l) = s := by
  have : s.lines.set l (s.line l) = s.lines := Vector.set_getElem_self _
  simp only [State.setLine, this]

/-! ## The frames of the part (R4 to R6) -/

/-- R5: the control octet of each kind, with the sequence bit it carries. -/
theorem controlOctet_eq (k : SentKind) (seq : Bool) : controlOctet k seq =
    match k with
    | .command => if seq then 0x11#8 else 0x01#8
    | .poll => if seq then 0x12#8 else 0x02#8
    | .linkReset => if seq then 0x13#8 else 0x03#8 := by
  cases k <;> cases seq <;> rfl

/-- R4, R5, R6, R86: the frame that an attempt puts on the output, and the driver. -/
theorem State.line_beginTransmit (s : State) (l : LineNo) (job : Job) :
    let x := (s.beginTransmit l job).line l
    x.txFrame = s.jobFrame l job ∧ x.state = .transmit ∧ x.driverEnable = true ∧ x.txd = .frame ∧ x.txStart = s.time := by
  simp [State.beginTransmit, Line.beginFrame]

end Sys2Proof.Machine

open Sys2Proof Sys2Proof.Machine

/-- Settles O36: the frame is the one `formFrame` lays out, for the address, kind and sequence bit that each attempt reads
from its station's entry. -/
theorem frameAddressAndControl : Obligations.FrameAddressAndControl := by
  intro s l sent
  have frame_sent : ∀ (s' : State) (job : Job) (address control : Byte) (payload : List Byte), s'.time = s.time →
      (s'.jobAddress job).setWidth 8 = address → controlOctet job.sentKind (s'.jobSequence job) = control →
      s'.jobPayload l job = payload → sent (s'.beginTransmit l job) address control payload := by
    intro s' job address control payload ht ha hc hp
    obtain ⟨hf, hstate, hdriver, htxd, hstart⟩ := s'.line_beginTransmit l job
    refine ⟨?_, hstate, hdriver, htxd, hstart.trans ht⟩
    rw [hf, State.jobFrame, formFrame, checkOctets, ha, hc, hp]
  refine ⟨fun id h origin st hst => ?_, fun h st hst => ?_, fun h st hst => ⟨?_, ?_⟩, fun id => ?_⟩
  · refine frame_sent s (.command id h origin) _ _ _ rfl (by simp [State.jobAddress, Job.handle, hst]) ?_ rfl
    simp only [controlOctet_eq, Job.sentKind, State.jobSequence, hst, Option.map_some, Option.getD_some]
  · have hstart : s.startPoll l h = (s.grantReservation l).beginTransmit l (.poll h st.pseq) := by
      simp only [State.startPoll, hst]
    have hst' : (s.grantReservation l).station h = some st := hst
    rw [hstart]
    refine frame_sent _ (.poll h st.pseq) _ _ _ rfl (by simp [State.jobAddress, Job.handle, hst'])
      (controlOctet_eq _ _) rfl
  · exact frame_sent s (.link h) _ _ _ rfl (by simp [State.jobAddress, Job.handle, hst]) (controlOctet_eq _ _) rfl
  · exact frame_sent s (.probe h) _ _ _ rfl (by simp [State.jobAddress, Job.handle, hst]) (controlOctet_eq _ _) rfl
  · exact frame_sent s (.broadcast id) _ _ _ rfl rfl (controlOctet_eq _ _) rfl
end

section
/-! PROOFS. The receiver: where characters begin and glitches end, and the first mark bit of an answer (R3, R51, R82, R84,
R87; entries 37, 21 and 1). -/

namespace Sys2Proof.Machine

/-! ## The character under way -/

/-- An announced character has the leading edge it was announced with. -/
theorem Line.charEdge_receiving {x : Line} {e : Nat} (hr : x.receiving = true) (he : x.spaceEdge = some e) (now : Nat) :
    x.charEdge now = e := by
  simp [Line.charEdge, hr, he]

/-- R51: the mark bit of an announced character is sampled 9.5 bit times after its leading edge. -/
theorem Line.markMoment_receiving {x : Line} {e : Nat} (hr : x.receiving = true) (he : x.spaceEdge = some e) (now : Nat) :
    x.markMoment now = e + 19 * x.bit / 2 := by
  rw [Line.markMoment, x.charEdge_receiving hr he]

/-- R87: in AWAIT the mark bit is read in time when it is sampled no later than the reply timer's moment. -/
theorem Line.marksInTime_iff {x : Line} {e deadline : Nat} (hs : x.state = .await) (hc : x.condition = .clear)
    (hr : x.receiving = true) (he : x.spaceEdge = some e) (ht : x.replyTimer = some deadline) (now : Nat) :
    x.marksInTime now = true ↔ e + 19 * x.bit / 2 ≤ deadline := by
  simp [Line.marksInTime, hs, hc, ht, x.markMoment_receiving hr he]

/-- R50, R51, R87: the mark bit read, of an announced character: the line that `fixTurnaround` leaves. -/
theorem State.readMark_eq {s : State} {l : LineNo} {e : Nat} (hr : (s.line l).receiving = true)
    (he : (s.line l).spaceEdge = some e) :
    s.readMark l = (s.reach (e + 19 * (s.line l).bit / 2)).setLine l
      { s.line l with
        state := .receive, replyTimer := none, turnaround := some ((e - (s.line l).sentAt) / 144), rxOctets := []
        rxWrong := false } := by
  rw [State.readMark, (s.line l).markMoment_receiving hr he]
  simp only [State.updLine_eq, State.reach_eq, State.line_elapse, Line.fixTurnaround, (s.line l).charEdge_receiving hr he]
  simp only [← he, ← hr]
  rfl

/-- A line in AWAIT is watched. -/
theorem Line.watches_of_await {x : Line} (h : x.state = .await) : x.Watches := by
  simp [Line.Watches, h]

/-- MARK_BIT_READ, the mark bit sampled no later than the reply timer's moment. -/
theorem exec_markBitRead_in_time {s : State} {l : LineNo} {e deadline : Nat} (ho : s.Operates)
    (hs : (s.line l).state = .await) (hc : (s.line l).condition = .clear) (hr : (s.line l).receiving = true)
    (he : (s.line l).spaceEdge = some e) (ht : (s.line l).replyTimer = some deadline)
    (hm : e + 19 * (s.line l).bit / 2 ≤ deadline) : exec (.markBitRead l) s = .next (s.readMark l) := by
  rw [exec_markBitRead]
  refine runCommand_occurs rfl ho.live ?_
  rw [ho.watching (Line.watches_of_await hs), hr, (Line.marksInTime_iff hs hc hr he ht s.time).2 hm]
  rfl

/-- MARK_BIT_READ after the reply timer's moment: it is not read (entry 21). -/
theorem exec_markBitRead_late {s : State} {l : LineNo} {e deadline : Nat}
    (hs : (s.line l).state = .await) (hc : (s.line l).condition = .clear) (hr : (s.line l).receiving = true)
    (he : (s.line l).spaceEdge = some e) (ht : (s.line l).replyTimer = some deadline)
    (hm : deadline < e + 19 * (s.line l).bit / 2) : exec (.markBitRead l) s = .next s := by
  rw [exec_markBitRead]
  refine runCommand_absent rfl ?_
  have hnot : (s.line l).marksInTime s.time = false := by
    rw [← Bool.not_eq_true, Line.marksInTime_iff hs hc hr he ht]
    omega
  simp [hnot]

/-! ## Transitions -/

/-- R3: where no character is being received and no space is under way, a transition may begin one. -/
theorem Line.mayBegin_of {x : Line} (hr : x.receiving = false)
    (h : x.condition = .clear ∨ (x.condition = .recovering ∧ x.spaceEdge = none)) : x.mayBegin = true := by
  rcases h with h | ⟨h, hn⟩ <;> simp [Line.mayBegin, *]

/-- R11, R12: the gap before a character with this leading edge has not passed 3 C in an answer. -/
theorem Line.withinGap_iff (x : Line) (edge : Nat) :
    x.withinGap edge = true ↔ x.state ≠ .receive ∨ x.rxOctets = [] ∨ edge ≤ x.gapSince + 3 * x.char := by
  simp [Line.withinGap, or_assoc]

end Sys2Proof.Machine

open Sys2Proof Sys2Proof.Machine

/-- Settles O40, by the conditions under which each of the three announcements occurs. -/
theorem charactersBegin : Obligations.CharactersBegin := by
  intro s l wait ho hw x edge
  have hwatch : s.watching l = true := ho.watching hw
  refine ⟨fun hr hcond => ?_, fun e deadline hs hc hr he ht => ⟨fun hm => ?_, exec_markBitRead_late hs hc hr he ht⟩⟩
  · have hbegin : (s.line l).mayBegin = true := Line.mayBegin_of hr hcond
    have glitch : exec (.glitchDiscarded l wait) s =
        .next ((s.reach (s.time + wait)).setLine l ((s.line l).discardGlitch (s.time + wait))) := by
      rw [exec_glitchDiscarded]
      exact runCommand_occurs rfl ho.live (by rw [hwatch, hbegin]; rfl)
    refine ⟨fun hlooks hgap => ?_, fun hblind => ?_, fun hc => ?_, fun hc => ?_⟩
    · rw [exec_characterBegun]
      refine runCommand_occurs rfl ho.live ?_
      have hwithin : (s.line l).withinGap (s.begunEdge l wait) = true := ((s.line l).withinGap_iff _).2 hgap
      have hat : (s.line l).looksAt (s.time + wait) = true := by simpa [Line.looksAt] using hlooks
      simp [hwatch, hbegin, hwithin, hat]
    · rw [exec_characterBegun]
      refine runCommand_absent rfl ?_
      have hnot : (s.line l).looksAt (s.time + wait) = false := by simpa [Line.looksAt] using hblind
      simp [hnot]
    · rw [glitch, Line.discardGlitch, if_pos hc, Line.noticed]
      split <;> rfl
    · rw [glitch, Line.discardGlitch, if_neg (by rw [hc]; decide)]
  · rw [exec_markBitRead_in_time ho hs hc hr he ht hm, State.readMark_eq hr he]
end

section
/-! PROOFS. What a character passed on does, by the state of the engine (R3, R11, R12, R84, R87, R88, R90; entries 37, 21,
33 and 1). -/

namespace Sys2Proof.Machine

/-! ## Which characters are passed on -/

/-- R3, R15, entry 33: what is withdrawn is a framing error still held 2 C after its leading edge. -/
theorem Line.notWithdrawn_iff (x : Line) (e : Nat) (stop : StopBit) :
    x.notWithdrawn e stop = true ↔ ¬ (framingError stop = true ∧ e + 2 * x.char ≤ x.passMoment e stop) := by
  cases stop <;> simp [Line.notWithdrawn, framingError]

/-- R3, R11, R83: an announced character that is not an answer's first, within the gap and not withdrawn, can be passed on. -/
theorem Line.mayReceive_of {x : Line} {mark : Bool} {stop : StopBit} {e : Nat} (hc : x.condition = .clear)
    (hr : x.receiving = true) (he : x.spaceEdge = some e) (hn : ¬ (x.state = .await ∧ mark = true))
    (hg : x.withinGap e = true) (hw : x.notWithdrawn e stop = true) (now : Nat) : x.mayReceive mark stop now = true := by
  have hfirst : (x.state != .await || !mark || x.marksInTime now) = true := by
    cases mark <;> simp_all
  simp [Line.mayReceive, hc, hfirst, x.charEdge_receiving hr he, hg, hw]

/-- A character that comes after the gap, or that is withdrawn, is not passed on. -/
theorem exec_characterReceived_absent {s : State} {l : LineNo} {octet : Byte} {mark : Bool} {stop : StopBit}
    (h : (s.line l).mayReceive mark stop s.time = false) :
    exec (.characterReceived l octet mark stop) s = .next s := by
  rw [exec_characterReceived]
  exact runCommand_absent rfl (by rw [h, Bool.and_false])

/-! ## What it does -/

/-- The state in which a character with this leading edge has just ended (R3, R84). -/
def State.characterEnds (s : State) (l : LineNo) (e : Nat) (stop : StopBit) : State :=
  (s.reach ((s.line l).passMoment e stop)).setLine l ((s.line l).endCharacter e ((s.line l).passMoment e stop))

/-- A character that is not an answer's first ends and is used by the state of the engine. -/
theorem State.takeCharacter_eq {s : State} {l : LineNo} {octet : Byte} {mark : Bool} {stop : StopBit} {e : Nat}
    (hn : ¬ ((s.line l).state = .await ∧ mark = true)) : s.takeCharacter l octet mark stop e =
      ((s.characterEnds l e stop).useCharacter l octet mark (framingError stop)).finish := by
  rw [State.takeCharacter, State.answerBegins, if_neg hn]
  rfl

/-- CHARACTER_RECEIVED for an announced character that is not an answer's first. -/
theorem exec_characterReceived_passed {s : State} {l : LineNo} {octet : Byte} {mark : Bool} {stop : StopBit} {e : Nat}
    (ho : s.Operates) (hw : (s.line l).Watches) (hc : (s.line l).condition = .clear)
    (hr : (s.line l).receiving = true) (he : (s.line l).spaceEdge = some e)
    (hn : ¬ ((s.line l).state = .await ∧ mark = true)) (hg : (s.line l).withinGap e = true)
    (hd : (s.line l).notWithdrawn e stop = true) : exec (.characterReceived l octet mark stop) s =
      .next ((s.characterEnds l e stop).useCharacter l octet mark (framingError stop)).finish := by
  rw [exec_characterReceived, runCommand_occurs rfl ho.live, Line.charEdge_receiving hr he, State.takeCharacter_eq hn]
  rw [ho.watching hw, Line.mayReceive_of hc hr he hn hg hd]
  rfl

section
variable {s : State} {l : LineNo} {octet : Byte} {mark ferr : Bool}

/-- R90: chatter is counted; nothing else of the line moves where the engine is not IDLE. -/
theorem State.useCharacter_chatter
    (h : (s.line l).state = .guard ∨ (s.line l).state = .preparing ∨ (s.line l).state = .quiesced ∨
      (s.line l).state = .await) :
    s.useCharacter l octet mark ferr = s.setLine l (s.line l).countChatter := by
  unfold State.useCharacter
  rcases h with h | h | h | h <;> rw [h] <;> rfl

/-- R90: chatter moves an IDLE engine to GUARD. -/
theorem State.useCharacter_idle (h : (s.line l).state = .idle) :
    s.useCharacter l octet mark ferr = (s.setLine l (s.line l).countChatter).toGuard l := by
  unfold State.useCharacter
  rw [h]
  rfl

/-- R88: a character of an answer is judged. -/
theorem State.useCharacter_receive (h : (s.line l).state = .receive) :
    s.useCharacter l octet mark ferr = s.receiveOctet l octet mark ferr := by
  unfold State.useCharacter
  rw [h]

/-- R89: the engine enters GUARD with no QUIESCE_LINE record waiting. -/
theorem State.toGuard_of_no_quiescers (h : (s.line l).quiescers = []) :
    s.toGuard l = s.setLine l ((s.line l).enterGuard s.time) := by
  simp only [State.toGuard, State.endQuiescers, State.updLine_eq, State.line_setLine_same]
  simp only [Line.enterGuard, h, List.foldl_nil, State.line_setLine_same, State.setLine_setLine]

/-- R12: after a wrong address the rest of the frame is not interpreted. -/
theorem State.receiveOctet_wrong {job : Job} (hj : (s.line l).job = some job) (hw : (s.line l).rxWrong = true) :
    s.receiveOctet l octet mark ferr = s := by
  simp only [State.receiveOctet, hj, hw, if_true]

end

/-- The address an attempt sends to is its entry's, whatever the lines and the clocks do. -/
theorem State.jobAddress_congr {s t : State} (h : t.stations = s.stations) (job : Job) :
    t.jobAddress job = s.jobAddress job := by
  simp only [State.jobAddress, State.station, h]

/-- What ends a character but its moment leaves alone. -/
theorem Line.endCharacter_keeps (x : Line) (e pass : Nat) :
    (x.endCharacter e pass).state = x.state ∧ (x.endCharacter e pass).job = x.job ∧
      (x.endCharacter e pass).rxOctets = x.rxOctets ∧ (x.endCharacter e pass).rxWrong = x.rxWrong ∧
      (x.endCharacter e pass).quiescers = x.quiescers := ⟨rfl, rfl, rfl, rfl, rfl⟩

/-- Entry 21: the first character of an answer whose mark bit was not announced reads it, when it comes in time: it does what
it does after the announcement. -/
theorem exec_characterReceived_first {s : State} {l : LineNo} {octet : Byte} {stop : StopBit} {e deadline : Nat}
    (ho : s.Operates) (hc : (s.line l).condition = .clear) (hr : (s.line l).receiving = true)
    (he : (s.line l).spaceEdge = some e) (hs : (s.line l).state = .await)
    (ht : (s.line l).replyTimer = some deadline) (hm : e + 19 * (s.line l).bit / 2 ≤ deadline)
    (hd : (s.line l).notWithdrawn e stop = true) :
    exec (.characterReceived l octet true stop) s = exec (.characterReceived l octet true stop) (s.readMark l) := by
  have hin := (Line.marksInTime_iff hs hc hr he ht s.time).2 hm
  have hgap : (s.line l).withinGap e = true := by simp [Line.withinGap, hs]
  have hmay : (s.line l).mayReceive true stop s.time = true := by
    simp [Line.mayReceive, hc, hin, Line.charEdge_receiving hr he, hgap, hd]
  have hread := State.readMark_eq hr he
  have hline : (s.readMark l).line l = { s.line l with
      state := .receive, replyTimer := none, turnaround := some ((e - (s.line l).sentAt) / 144), rxOctets := []
      rxWrong := false } := by rw [hread, State.line_setLine_same]
  have hstate : ((s.readMark l).line l).state = .receive := by rw [hline]
  have hoctets : ((s.readMark l).line l).rxOctets = [] := by rw [hline]
  have hr' : ((s.readMark l).line l).receiving = true := by rw [hline]; exact hr
  have he' : ((s.readMark l).line l).spaceEdge = some e := by rw [hline]; exact he
  have hc' : ((s.readMark l).line l).condition = .clear := by rw [hline]; exact hc
  have hd' : ((s.readMark l).line l).notWithdrawn e stop = true := by rw [hline]; exact hd
  have ho' : (s.readMark l).Operates := by rw [hread]; exact ho
  have hn' : ¬ (((s.readMark l).line l).state = .await ∧ true = true) := by simp [hstate]
  have hgap' : ((s.readMark l).line l).withinGap e = true := by simp [Line.withinGap, hoctets]
  have htake : s.takeCharacter l octet true stop e = (s.readMark l).takeCharacter l octet true stop e := by
    rw [State.takeCharacter, State.takeCharacter, State.answerBegins, State.answerBegins, if_neg hn', if_pos ⟨hs, rfl⟩]
  rw [exec_characterReceived_passed ho' (by simp [Line.Watches, hstate]) hc' hr' he' hn' hgap' hd',
    ← State.takeCharacter_eq hn', exec_characterReceived, runCommand_occurs rfl ho.live, Line.charEdge_receiving hr he, htake]
  · rw [ho.watching (Line.watches_of_await hs), hmay]
    rfl

end Sys2Proof.Machine

open Sys2Proof Sys2Proof.Machine

/-- Settles O41, by the state of the engine that the character meets. -/
theorem charactersReceived : Obligations.CharactersReceived := by
  intro s l octet mark stop e ho hc hr he x pass ferr withdrawn late u y z
  have hpass : (s.line l).passMoment e stop = pass := by cases stop <;> rfl
  have hferr : framingError stop = ferr := by cases stop <;> rfl
  have hends : s.characterEnds l e stop = u.setLine l y := by rw [State.characterEnds, hpass]; rfl
  have hgap_iff : x.withinGap e = true ↔ ¬ late := by
    rw [Line.withinGap_iff]
    show _ ↔ ¬ (x.state = .receive ∧ x.rxOctets ≠ [] ∧ x.gapSince + 3 * x.char < e)
    rw [not_and_or, not_and_or, not_not, not_lt]
  have hdrawn_iff : x.notWithdrawn e stop = true ↔ ¬ withdrawn := by
    rw [Line.notWithdrawn_iff, hpass, hferr]
  have hchatter : y.countChatter = z := rfl
  have hguard : z.enterGuard u.time = { z with state := .guard, job := none, abandoned := false, guardSince := u.time } := rfl
  have hzq : z.quiescers = x.quiescers := rfl
  have hlate_receive : late → x.state = .receive := fun h => h.1
  obtain ⟨hystate, hyjob, hyoctets, hywrong, -⟩ := x.endCharacter_keeps e pass
  replace hystate : y.state = x.state := hystate
  replace hyjob : y.job = x.job := hyjob
  replace hyoctets : y.rxOctets = x.rxOctets := hyoctets
  replace hywrong : y.rxWrong = x.rxWrong := hywrong
  have hstations : (u.setLine l y).stations = s.stations := rfl
  have hx : s.line l = x := rfl
  clear_value z y u late withdrawn pass ferr x
  have hyline : (u.setLine l y).line l = y := State.line_setLine_same _ _ _
  rw [hx] at hc hr he
  have passed : ¬ withdrawn → x.Watches → ¬ (x.state = .await ∧ mark = true) → ¬ late →
      exec (.characterReceived l octet mark stop) s = .next ((u.setLine l y).useCharacter l octet mark ferr).finish := by
    intro hd hw hn hlate
    subst hx
    rw [exec_characterReceived_passed ho hw hc hr he hn (hgap_iff.2 hlate) (hdrawn_iff.2 hd), hends, hferr]
  have answer : ¬ withdrawn → x.state = .receive → ¬ late → exec (.characterReceived l octet mark stop) s =
      .next ((u.setLine l y).receiveOctet l octet mark ferr).finish := by
    intro hd hs hlate
    rw [passed hd (by simp [Line.Watches, hs]) (by simp [hs]) hlate,
      State.useCharacter_receive (by rw [hyline, hystate, hs])]
  refine ⟨fun hd => ⟨fun hs => ?_, fun hs hq => ?_, fun job hs hlate hj hwrong => ?_, fun job hs hlate hj hwrong => ?_,
    fun t deadline hs hm ht => ⟨fun hin hread => ?_, fun hafter => ?_⟩⟩, fun h => ?_⟩
  · have hn : ¬ (x.state = .await ∧ mark = true) := by
      rintro ⟨ha, hm⟩
      simp [ha, hm] at hs
    have hlate : ¬ late := fun h => by simp [hlate_receive h] at hs
    have hy_chatter : ((u.setLine l y).line l).state = .guard ∨ ((u.setLine l y).line l).state = .preparing ∨
        ((u.setLine l y).line l).state = .quiesced ∨ ((u.setLine l y).line l).state = .await := by
      rw [hyline, hystate]
      exact hs.imp_right (Or.imp_right (Or.imp_right And.left))
    have hw : x.Watches := by rcases hs with h | h | h | ⟨h, -⟩ <;> simp [Line.Watches, h]
    rw [passed hd hw hn hlate, State.useCharacter_chatter hy_chatter, hyline, State.setLine_setLine,
      hchatter]
  · have hlate : ¬ late := fun h => by simp [hlate_receive h] at hs
    rw [passed hd (by simp [Line.Watches, hs]) (by simp [hs]) hlate, State.useCharacter_idle (by rw [hyline, hystate, hs]),
      hyline, State.setLine_setLine, hchatter, State.toGuard_of_no_quiescers (by rw [State.line_setLine_same, hzq, hq]),
      State.line_setLine_same, State.setLine_setLine, State.setLine_time, hguard]
  · rw [answer hd hs hlate, State.receiveOctet_wrong (by rw [hyline, hyjob, hj]) (by rw [hyline, hywrong, hwrong])]
  · refine ⟨fun hstep => ?_, fun hstep => ?_, fun o ap hstep => ?_, fun hstep => ?_⟩ <;>
      rw [answer hd hs hlate] <;>
      simp only [State.receiveOctet, hyline, hyjob, hj, hyoctets, hywrong, hwrong, State.jobAddress_congr hstations, hstep,
        State.updLine_eq, State.setLine_setLine, Bool.false_eq_true, if_false]
  · subst hx hm
    rw [exec_markBitRead_in_time ho hs hc hr he ht hin] at hread
    obtain rfl : s.readMark l = t := by injection hread
    exact exec_characterReceived_first ho hc hr he hs ht hin (hdrawn_iff.2 hd)
  · refine exec_characterReceived_absent ?_
    have hnot : x.marksInTime s.time = false := by
      rw [← Bool.not_eq_true, Line.marksInTime_iff hs hc hr he ht]
      omega
    simp [hx, Line.mayReceive, hnot, hm, hs]
  · refine exec_characterReceived_absent ?_
    have hno : x.withinGap e = false ∨ x.notWithdrawn e stop = false := by
      rw [← Bool.not_eq_true, ← Bool.not_eq_true, hgap_iff, hdrawn_iff, not_not, not_not]
      exact h.symm
    rcases hno with hno | hno <;> simp [hx, Line.mayReceive, Line.charEdge_receiving hr he, hno]
end

section
/-! PROOFS. Records that end one after the other: their contexts, their completions and the order of these; and the entry
into GUARD with the QUIESCE_LINE records that wait for it (R89, R94, R95, R144). -/

namespace Sys2Proof.Machine

/-! ## A context under the end of another -/

theorem State.ctx_updCtx_ne {s : State} {id k : Nat} {f : Context → Context} (hf : ∀ c, (f c).id = c.id) (h : k ≠ id) :
    (s.updCtx id f).ctx k = s.ctx k := by
  rw [s.ctx_updCtx id k f hf]
  cases hc : s.ctx k with
  | none => rfl
  | some c => simp [State.ctx_id hc, h]

theorem State.ctx_updCtx_same {s : State} {id : Nat} {c : Context} {f : Context → Context} (hf : ∀ c, (f c).id = c.id)
    (hc : s.ctx id = some c) (hp : c.phase ≠ .ending) : (s.updCtx id f).ctx id = some (f c) := by
  rw [s.ctx_updCtx id id f hf, hc]
  simp [State.ctx_id hc, hp]

theorem State.ctx_hand_ne {s : State} {id k : Nat} {st : Status} {d : Detail} {n : Nat} {b : Option (Fin 8)}
    {t : Option Nat} (h : k ≠ id) : (s.hand id st d n b t).ctx k = s.ctx k := by
  unfold State.hand
  split
  · rfl
  · split
    · rfl
    · exact State.ctx_updCtx_ne (f := fun c => { c with phase := .ending }) (fun _ => rfl) h

theorem State.ctx_endRecord_ne {s : State} {id k : Nat} {st : Status} {d : Detail} (h : k ≠ id) :
    (s.endRecord id st d).ctx k = s.ctx k := State.ctx_hand_ne h

theorem State.ctx_endAbort_ne {s : State} {a : Option Nat} {k : Nat} {st : Status} (h : a ≠ some k) :
    (s.endAbort a st).ctx k = s.ctx k := by
  cases a with
  | none => rfl
  | some id => exact State.ctx_endRecord_ne fun e => h (by rw [e])

/-! ## Records that end in the order of a list -/

/-- The records listed end with this status and detail, in the order of the list. -/
def State.endRecords (s : State) (ids : List Nat) (st : Status) (d : Detail) : State :=
  ids.foldl (fun s id => s.endRecord id st d) s

section
variable {s : State} {ids : List Nat} {st : Status} {d : Detail}

theorem State.ends_endRecords : s.Ends (s.endRecords ids st d) := .foldl _ (fun s _ => s.ends_endRecord _ _ _) _ _

theorem State.tells_endRecords : s.Tells (s.endRecords ids st d) := .foldl _ (fun s _ => s.tells_endRecord _ _ _) _ _

theorem State.lines_hand (s : State) (id : Nat) (st : Status) (d : Detail) (n : Nat) (b : Option (Fin 8))
    (t : Option Nat) : (s.hand id st d n b t).lines = s.lines := by
  unfold State.hand
  split
  · rfl
  · split <;> rfl

theorem State.stations_hand (s : State) (id : Nat) (st : Status) (d : Detail) (n : Nat) (b : Option (Fin 8))
    (t : Option Nat) : (s.hand id st d n b t).stations = s.stations := by
  unfold State.hand
  split
  · rfl
  · split <;> rfl

theorem State.line_endRecord (s : State) (id : Nat) (st : Status) (d : Detail) (l : LineNo) :
    (s.endRecord id st d).line l = s.line l := by
  simp only [State.line, State.endRecord, State.lines_hand]

theorem State.station_endRecord (s : State) (id : Nat) (st : Status) (d : Detail) (h : Handle) :
    (s.endRecord id st d).station h = s.station h := by
  simp only [State.station, State.endRecord, State.stations_hand]

theorem State.station_endAbort {s : State} {a : Option Nat} {st : Status} {h : Handle} :
    (s.endAbort a st).station h = s.station h := by
  cases a with
  | none => rfl
  | some id => exact s.station_endRecord id st .none h

theorem State.line_endRecords (s : State) (ids : List Nat) (st : Status) (d : Detail) (l : LineNo) :
    (s.endRecords ids st d).line l = s.line l := by
  induction ids generalizing s with
  | nil => rfl
  | cons id rest ih => exact (ih _).trans (s.line_endRecord id st d l)

theorem State.station_endRecords (s : State) (ids : List Nat) (st : Status) (d : Detail) (h : Handle) :
    (s.endRecords ids st d).station h = s.station h := by
  induction ids generalizing s with
  | nil => rfl
  | cons id rest ih => exact (ih _).trans (s.station_endRecord id st d h)

theorem State.ctx_endRecords_of_not_mem {k : Nat} (h : k ∉ ids) : (s.endRecords ids st d).ctx k = s.ctx k := by
  induction ids generalizing s with
  | nil => rfl
  | cons id rest ih =>
    obtain ⟨hid, hrest⟩ : k ≠ id ∧ k ∉ rest := by simpa using h
    exact (ih hrest).trans (State.ctx_endRecord_ne hid)

/-- R144: every live record of the list is handed with its end. -/
theorem State.handed_endRecords {k : Nat} {c : Context} (h : k ∈ ids) (hc : s.ctx k = some c) (hl : c.Live) :
    (s.endRecords ids st d).Handed k st d := by
  induction ids generalizing s with
  | nil => cases h
  | cons id rest ih =>
    by_cases e : k = id
    · subst e
      exact (s.handed_endRecord k st d hc hl).tells State.tells_endRecords
    · exact ih ((List.mem_cons.1 h).resolve_left e) ((State.ctx_endRecord_ne e).trans hc)

end

/-! ## The order of completions -/

theorem State.completionOrder_endRecord {s : State} {id : Nat} {st : Status} {d : Detail} {c : Context}
    (hc : s.ctx id = some c) (hl : c.Live) :
    (s.endRecord id st d).completionOrder = s.completionOrder ++ [id] := by
  unfold State.endRecord State.hand
  rw [hc]
  simp only [hl.1, hl.2, or_self, if_false]
  simp [State.completionOrder]

/-- R144: different live records that end in the order of a list are posted in that order. -/
theorem State.completionOrder_endRecords {s : State} {ids : List Nat} {st : Status} {d : Detail} (hn : ids.Nodup)
    (hl : ∀ id ∈ ids, ∃ c, s.ctx id = some c ∧ c.Live) :
    (s.endRecords ids st d).completionOrder = s.completionOrder ++ ids := by
  induction ids generalizing s with
  | nil => exact (List.append_nil _).symm
  | cons id rest ih =>
    obtain ⟨hid, hrest⟩ := List.nodup_cons.1 hn
    obtain ⟨c, hc, hlive⟩ := hl id (List.mem_cons_self ..)
    have hl' : ∀ k ∈ rest, ∃ c, (s.endRecord id st d).ctx k = some c ∧ c.Live := fun k hk => by
      have hne : k ≠ id := fun e => hid (e ▸ hk)
      rw [State.ctx_endRecord_ne hne]
      exact hl k (List.mem_cons_of_mem _ hk)
    calc ((s.endRecord id st d).endRecords rest st d).completionOrder
        = (s.endRecord id st d).completionOrder ++ rest := ih hrest hl'
      _ = s.completionOrder ++ id :: rest := by rw [State.completionOrder_endRecord hc hlive, List.append_assoc]; rfl

theorem State.completionOrder_congr {s t : State} (h1 : t.handed = s.handed) (h2 : t.completionWrite = s.completionWrite) :
    t.completionOrder = s.completionOrder := by
  simp only [State.completionOrder, h1, h2]

/-- R149: an event entry begun leaves what the completion writer holds. -/
theorem State.startEvent_told (s : State) :
    s.startEvent.handed = s.handed ∧ s.startEvent.completionWrite = s.completionWrite := by
  have report : s.takeReport.handed = s.handed ∧ s.takeReport.completionWrite = s.completionWrite := by
    unfold State.takeReport
    split
    · exact State.takePlace_told _
    · split
      · split
        · exact State.takePlace_told _
        · exact ⟨rfl, rfl⟩
      · split
        · split
          · exact State.takePlace_told _
          · exact ⟨rfl, rfl⟩
        · exact ⟨rfl, rfl⟩
  unfold State.startEvent
  split
  · exact ⟨rfl, rfl⟩
  · split
    · exact ⟨rfl, rfl⟩
    · split
      · exact report
      · exact ⟨rfl, rfl⟩

/-- R144: the completion that the writer takes up is the head of the list, so that the order stays. -/
theorem State.completionOrder_startCompletion (s : State) : s.startCompletion.completionOrder = s.completionOrder := by
  unfold State.startCompletion
  split
  · next hw hh => simp [State.completionOrder, hw, hh]
  · rfl

theorem State.completionOrder_finish (s : State) : s.finish.completionOrder = s.completionOrder := by
  unfold State.finish
  split
  · have halted : ∀ t : State, t.checkHalted.completionOrder = t.completionOrder := fun t => by
      unfold State.checkHalted
      split <;> rfl
    obtain ⟨hh, hw⟩ := s.startCompletion.startEvent_told
    rw [halted, State.completionOrder_congr hh hw, State.completionOrder_startCompletion]
  · rfl

/-! ## Entering GUARD -/

/-- R89, R95: the entry into GUARD, then the records that wait for it. -/
theorem State.toGuard_eq (s : State) (l : LineNo) : s.toGuard l =
    ((s.setLine l ((s.line l).enterGuard s.time)).endRecords (s.line l).quiescers .ok .none).setLine l
      { (s.line l).enterGuard s.time with quiescers := [] } := by
  have hq : ((s.setLine l ((s.line l).enterGuard s.time)).line l).quiescers = (s.line l).quiescers := by
    rw [State.line_setLine_same]
    rfl
  have hline := (s.setLine l ((s.line l).enterGuard s.time)).line_endRecords (s.line l).quiescers .ok .none l
  rw [State.line_setLine_same] at hline
  simp only [State.toGuard, State.endQuiescers, State.updLine_eq, hq]
  rw [← State.endRecords, hline]

theorem State.ctx_toGuard {s : State} {l : LineNo} {k : Nat} (h : k ∉ (s.line l).quiescers) :
    (s.toGuard l).ctx k = s.ctx k := by
  rw [State.toGuard_eq]
  exact State.ctx_endRecords_of_not_mem h

theorem State.handed_toGuard {s : State} {l : LineNo} {k : Nat} {c : Context} (h : k ∈ (s.line l).quiescers)
    (hc : s.ctx k = some c) (hl : c.Live) : (s.toGuard l).Handed k .ok .none := by
  rw [State.toGuard_eq]
  exact (State.handed_endRecords (s := s.setLine l _) h hc hl).tells (.same rfl rfl rfl)

/-- R95: different live records that wait for GUARD are posted in their order. -/
theorem State.completionOrder_toGuard {s : State} {l : LineNo} (hn : (s.line l).quiescers.Nodup)
    (hl : ∀ id ∈ (s.line l).quiescers, ∃ c, s.ctx id = some c ∧ c.Live) :
    (s.toGuard l).completionOrder = s.completionOrder ++ (s.line l).quiescers := by
  rw [State.toGuard_eq, State.completionOrder_congr (State.setLine_handed ..) (State.setLine_completionWrite ..)]
  exact State.completionOrder_endRecords (s := s.setLine l _) hn hl

/-- A change of one line that does not look at what ends may change carries over to the state after them. -/
theorem Line.SameButEnds.map {x y : Line} (h : x.SameButEnds y) (f : Line → Line) (hs : x.state ≠ .idle)
    (hc : ∀ z, (f z).consultDue = z.consultDue)
    (hf : ∀ (retry fifo : List Nat) (tx : Option Nat) (breaks chatter : Nat) (ended stuck due : Bool),
      f { x with
          retryList := retry, fifo := fifo, txHolds := tx, breaksSeen := breaks, breakEnded := ended
          stuckSeen := stuck, chatter := chatter, consultDue := due } =
        { f x with
          retryList := retry, fifo := fifo, txHolds := tx, breaksSeen := breaks, breakEnded := ended
          stuckSeen := stuck, chatter := chatter, consultDue := due }) : (f x).SameButEnds (f y) := by
  obtain ⟨⟨-, hdue⟩, heq⟩ := h
  have hfdue : (f y).consultDue = (f x).consultDue := by rw [hc, hc, hdue hs]
  refine ⟨⟨fun h => hfdue.trans h, fun _ => hfdue⟩, ?_⟩
  rw [heq, hf]

/-- The same for a whole state. -/
theorem State.SameButEnds.updLine {s t : State} (a : s.SameButEnds t) (l : LineNo) (f : Line → Line)
    (hf : (f (s.line l)).SameButEnds (f (t.line l))) : (s.updLine l f).SameButEnds (t.updLine l f) := by
  obtain ⟨hrest, hwriters, hlines, hstations⟩ := a
  refine ⟨?_, hwriters, fun k => ?_, hstations⟩
  · rw [hrest]
    rfl
  · rw [State.updLine_eq, State.updLine_eq, State.line_setLine, State.line_setLine]
    split
    · exact hf
    · exact hlines k

/-- R89: GUARD entered after ends: the line as it enters it, and nothing else than ends may move. -/
theorem State.SameButEnds.toGuard {s t : State} (a : s.SameButEnds t) {l : LineNo} (hs : (s.line l).state ≠ .idle) :
    (s.setLine l { (s.line l).enterGuard s.time with quiescers := [] }).SameButEnds (t.toGuard l) := by
  have htime : t.time = s.time := by rw [a.1]
  have entered := a.updLine l (fun x => x.enterGuard s.time)
    ((a.2.2.1 l).map (fun x => x.enterGuard s.time) hs (fun _ => rfl) fun _ _ _ _ _ _ _ _ => rfl)
  have ended := entered.trans (State.sameButEnds_of_ends
    (State.ends_endRecords (ids := (t.line l).quiescers) (st := .ok) (d := .none)))
  have left := ended.updLine l (fun x => { x with quiescers := [] }) ((ended.2.2.1 l).map (fun x => { x with quiescers := [] })
    (by rw [State.updLine_eq, State.line_setLine_same]; exact fun h => by cases h) (fun _ => rfl)
    fun _ _ _ _ _ _ _ _ => rfl)
  rw [State.toGuard_eq, htime]
  simpa only [State.updLine_eq, State.line_setLine_same, State.setLine_setLine, State.line_endRecords] using left

/-! ## The release of the part's own break -/

/-- C at the rate with which the break began (R94). -/
theorem Line.breakChar_eq {x : Line} {rate : Fin 8} (h : x.breakRate = some rate) :
    x.breakChar = 11 * Config.bitTicks rate := by
  simp [Line.breakChar, h]

/-- R94: the bound records end, and none is left. -/
theorem State.endBound_eq (s : State) (l : LineNo) : s.endBound l =
    (s.endRecords (s.line l).boundResets .ok .none).updLine l fun x => { x with boundResets := [] } := rfl

/-- R16, R94, R95: the state in which the driver has just been released at `t`, before the records that this ends. -/
def State.driverReleased (s : State) (l : LineNo) (t : Nat) : State := (s.reach t).updLine l fun x => x.releaseDriver t

theorem State.line_driverReleased (s : State) (l : LineNo) (t : Nat) :
    (s.driverReleased l t).line l = (s.line l).releaseDriver t := by
  simp [State.driverReleased]

theorem State.setLine_driverReleased (s : State) (l : LineNo) (t : Nat) (x : Line) :
    (s.driverReleased l t).setLine l x = (s.reach t).setLine l x := by
  rw [State.driverReleased, State.updLine_eq, State.setLine_setLine]

/-- The release of the driver leaves the records of the line. -/
theorem State.boundResets_driverReleased (s : State) (l : LineNo) (t : Nat) :
    ((s.driverReleased l t).line l).boundResets = (s.line l).boundResets := by
  rw [State.line_driverReleased]
  rfl

/-- The end of the bound records leaves those that wait. -/
theorem State.quiescers_endBound (s : State) (l : LineNo) (t : Nat) :
    (((s.driverReleased l t).endBound l).line l).quiescers = (s.line l).quiescers := by
  rw [State.endBound_eq, State.updLine_eq, State.line_setLine_same, State.line_endRecords, State.line_driverReleased]
  rfl

/-- The end of the bound records leaves every other context. -/
theorem State.ctx_endBound {s : State} {l : LineNo} {t id : Nat} (h : id ∉ (s.line l).boundResets) :
    ((s.driverReleased l t).endBound l).ctx id = s.ctx id := by
  rw [State.endBound_eq, State.updLine_eq, State.ctx_setLine,
    State.ctx_endRecords_of_not_mem (by rwa [State.boundResets_driverReleased])]
  rfl

/-- R94, R95: what the release of the break moves. -/
theorem State.sameButEnds_breakReleased {s : State} {l : LineNo} (t : Nat) (hs : (s.line l).state = .breakOut) :
    ((s.reach t).setLine l
      { s.line l with
        driverEnable := false, txd := .mark, txFrame := [], state := .guard, job := none
        quietSince := some (max ((s.line l).quietSince.getD 0) t), looksSince := t
        abandoned := false, guardSince := (s.reach t).time, boundResets := []
        quiescers := [] }).SameButEnds (((s.driverReleased l t).endBound l).toGuard l).finish := by
  have hline := s.line_driverReleased l t
  have hbusy : ((s.driverReleased l t).line l).state ≠ .idle := by
    rw [hline]
    exact fun h => by rw [show ((s.line l).releaseDriver t).state = _ from hs] at h; cases h
  have bound := (State.sameButEnds_of_ends (State.ends_endRecords (s := s.driverReleased l t)
    (ids := ((s.driverReleased l t).line l).boundResets) (st := .ok) (d := .none))).updLine l
    (fun x => { x with boundResets := [] })
    (((State.sameButEnds_of_ends State.ends_endRecords).2.2.1 l).map (fun x => { x with boundResets := [] }) hbusy
      (fun _ => rfl) fun _ _ _ _ _ _ _ _ => rfl)
  rw [← State.endBound_eq] at bound
  have entered := bound.toGuard (l := l) (by rw [State.updLine_eq, State.line_setLine_same]; exact hbusy)
  rw [State.updLine_eq, State.line_setLine_same, State.setLine_setLine, State.setLine_driverReleased, hline] at entered
  exact entered.trans (State.sameButEnds_of_writers (State.writers_finish _))

/-- R94, R95: each live record that was bound to the break, or waited on the line, is handed OK. -/
theorem State.handed_breakReleased {s : State} {l : LineNo} {id : Nat} {c : Context} (t : Nat)
    (h : id ∈ (s.line l).boundResets ++ (s.line l).quiescers) (hc : s.ctx id = some c) (hl : c.Live) :
    (((s.driverReleased l t).endBound l).toGuard l).Handed id .ok .none := by
  by_cases hb : id ∈ (s.line l).boundResets
  · have handed := State.handed_endRecords (s := s.driverReleased l t) (st := .ok) (d := .none)
      (s.boundResets_driverReleased l t ▸ hb) hc hl
    exact (handed.tells (State.tells_updLine _ l _)).tells (State.tells_toGuard _ l)
  · exact State.handed_toGuard (by rw [State.quiescers_endBound]; exact (List.mem_append.1 h).resolve_left hb)
      ((State.ctx_endBound hb).trans hc) hl

/-- Entry 8: the bound records are posted first, then those that waited, each list in its order. -/
theorem State.completionOrder_breakReleased {s : State} {l : LineNo} (t : Nat)
    (hn : ((s.line l).boundResets ++ (s.line l).quiescers).Nodup)
    (hl : ∀ id ∈ (s.line l).boundResets ++ (s.line l).quiescers, ∃ c, s.ctx id = some c ∧ c.Live) :
    (((s.driverReleased l t).endBound l).toGuard l).completionOrder =
      s.completionOrder ++ ((s.line l).boundResets ++ (s.line l).quiescers) := by
  obtain ⟨hnb, hnq, hdisjoint⟩ := List.nodup_append.1 hn
  have hlive : ∀ id ∈ (s.line l).quiescers,
      ∃ c, ((s.driverReleased l t).endBound l).ctx id = some c ∧ c.Live := fun id hid => by
    have hnot : id ∉ (s.line l).boundResets := fun hb => hdisjoint id hb id hid rfl
    rw [State.ctx_endBound hnot]
    exact hl id (List.mem_append_right _ hid)
  have order_bound : ((s.driverReleased l t).endBound l).completionOrder = s.completionOrder ++ (s.line l).boundResets := by
    have order := State.completionOrder_endRecords (s := s.driverReleased l t) (st := .ok) (d := .none) hnb
      fun id hid => hl id (List.mem_append_left _ hid)
    rw [← State.boundResets_driverReleased s l t] at order ⊢
    exact order
  have hq := State.quiescers_endBound s l t
  rw [State.completionOrder_toGuard (by rwa [hq]) (by rwa [hq]), hq, order_bound, List.append_assoc]

end Sys2Proof.Machine

open Sys2Proof Sys2Proof.Machine

/-- Settles O49: the release is the driver's, then the bound records end, then the entry into GUARD ends those that wait. -/
theorem ownBreakEnds : Obligations.OwnBreakEnds := by
  intro s l rate ho hs hrate x c released
  have hchar : (s.line l).breakChar = c := Line.breakChar_eq hrate
  refine ⟨fun htxd => ?_, fun htxd => ?_⟩
  · rw [exec_breakSpaceEnd, runCommand_occurs rfl ho.live (by simp [ho.operating, hs, show (s.line l).txd = .space from htxd]),
      hchar]
    rfl
  · refine ⟨(((s.driverReleased l released).endBound l).toGuard l).finish, ?_,
      State.sameButEnds_breakReleased released hs,
      fun id d hid hd hl => (State.handed_breakReleased released hid hd hl).reports, fun hn hl => ?_⟩
    · rw [exec_breakRelease, runCommand_occurs rfl ho.live
        (by simp [ho.operating, hs, show (s.line l).txd = .mark from htxd]), State.breakReleased, hchar]
      rfl
    · rw [State.completionOrder_finish, State.completionOrder_breakReleased released hn hl]
end

section
/-! PROOFS. The check, the judgement of an answer's characters, and the frames that stations form (R6 to R13, section 11.6). -/

namespace Sys2Proof.Machine

/-! ## The check (R6) -/

/-- R6: an octet more takes the register through its eight bits. -/
theorem crc_append_octet (octets : List Byte) (b : Byte) : crc (octets ++ [b]) =
    crcBit (crcBit (crcBit (crcBit (crcBit (crcBit (crcBit (crcBit (crc octets ^^^ (b.setWidth 16 <<< 8))))))))) := by
  rw [crc, List.foldl_append]
  rfl

/-! ## Good frames (R7 to R9, R13) -/

/-- Bits 7 and 6 of a control octet are clear when its number is below 64. -/
theorem control_reserved_iff (control : Byte) :
    (control.getLsbD 7 || control.getLsbD 6) = true ↔ 64 ≤ control.toNat := by
  revert control
  decide +kernel

/-- R13: the outcome of a good frame, by the kind sent. -/
theorem judgeGoodFrame_eq (sent : SentKind) (control : Byte) (payload : List Byte) :
    judgeGoodFrame sent control payload =
      if 64 ≤ control.toNat then .unexpected else (decodeAnswer sent (control.toNat % 16) payload).getD .unexpected := by
  rw [judgeGoodFrame]
  simp only [control_reserved_iff]

/-- R7, R8, R9: what answers a COMMAND. -/
theorem decodeAnswer_command (code : Nat) (payload : List Byte) :
    (decodeAnswer .command code payload).getD .unexpected =
      if code = 8 ∧ payload.length = 0 then .ack
      else if code = 9 ∧ payload.length ≤ 240 then .reply payload
      else if code = 10 ∧ payload.length = 0 then .busy
      else if code = 11 ∧ payload.length = 1 then .nak (nakClass (octetAt payload 0)) (octetAt payload 0)
      else .unexpected := by
  unfold decodeAnswer
  split <;> simp_all [apply_ite fun o => Option.getD o AttemptOutcome.unexpected]

/-- R7, R8: what answers a POLL. -/
theorem decodeAnswer_poll (code : Nat) (payload : List Byte) :
    (decodeAnswer .poll code payload).getD .unexpected =
      if code = 12 ∧ 1 ≤ payload.length ∧ payload.length ≤ 48 then .attention payload
      else if code = 13 ∧ payload.length = 0 then .idle
      else if code = 10 ∧ payload.length = 0 then .busy
      else .unexpected := by
  unfold decodeAnswer
  split <;> simp_all [apply_ite fun o => Option.getD o AttemptOutcome.unexpected]

/-- R7, R8: what answers a LINK_RESET. -/
theorem decodeAnswer_linkReset (code : Nat) (payload : List Byte) :
    (decodeAnswer .linkReset code payload).getD .unexpected =
      if code = 8 ∧ payload.length = 0 then .ack else .unexpected := by
  unfold decodeAnswer
  split <;> simp_all [apply_ite fun o => Option.getD o AttemptOutcome.unexpected]

/-! ## Characters (R11, R12) -/

section
variable (sent : SentKind) (addr : BitVec 7) (before : List Byte) (octet : Byte) (mark : Bool)

theorem judgeCharacter_framingError : judgeCharacter sent addr before octet mark true = .garbled := rfl

/-- R12: the first octet is the address. -/
theorem judgeCharacter_first : judgeCharacter sent addr [] octet mark false =
    if octet = 0x80#8 ||| addr.setWidth 8 then .more else .wrong := rfl

/-- R11: a later character has mark bit 0. -/
theorem judgeCharacter_marked (h : before ≠ []) : judgeCharacter sent addr before octet true false = .garbled := by
  simp [judgeCharacter, h]

/-- R11: the third octet is the length. -/
theorem judgeCharacter_length (h : before.length = 2) : judgeCharacter sent addr before octet false false =
    if octet.toNat > 240 then .garbled else .more := by
  simp [judgeCharacter, h]

/-- R11, R13: every octet but the length, after the first: the frame goes on until its last octet. -/
theorem judgeCharacter_later (h0 : before ≠ []) (h2 : before.length ≠ 2) :
    judgeCharacter sent addr before octet false false =
      let frame := before ++ [octet]
      let n := le8 frame 2
      if frame.length < n + 5 then .more
      else if frame.drop (n + 3) = checkOctets (frame.take (n + 3)) then
        .good (judgeGoodFrame sent (octetAt frame 1) ((frame.drop 3).take n)) (apBit (octetAt frame 1))
      else .garbled := by
  simp [judgeCharacter, h0, h2]

end

/-- The last two octets of a frame of this length, as a list and one by one. -/
theorem drop_eq_pair_iff {frame : List Byte} {k : Nat} (h : frame.length = k + 2) (a b : Byte) :
    frame.drop k = [a, b] ↔ octetAt frame k = a ∧ octetAt frame (k + 1) = b := by
  have h0 : k < frame.length := by omega
  have h1 : k + 1 < frame.length := by omega
  have hnil : frame.drop (k + 1 + 1) = [] := List.drop_eq_nil_of_le (by omega)
  rw [List.drop_eq_getElem_cons h0, List.drop_eq_getElem_cons h1, hnil]
  simp [octetAt, List.getD_eq_getElem?_getD, h0, h1]

/-- R11, R13: the last octet of a frame whose length octet says so: the check decides. -/
theorem judgeCharacter_last (sent : SentKind) (addr : BitVec 7) (before : List Byte) (octet : Byte)
    (h3 : 3 ≤ before.length) (hlast : (before ++ [octet]).length = le8 (before ++ [octet]) 2 + 5) :
    judgeCharacter sent addr before octet false false =
      let frame := before ++ [octet]
      let n := le8 frame 2
      if octetAt frame (n + 3) = (crc (frame.take (n + 3)) >>> 8).setWidth 8 ∧
          octetAt frame (n + 4) = (crc (frame.take (n + 3))).setWidth 8 then
        .good (judgeGoodFrame sent (octetAt frame 1) ((frame.drop 3).take n)) ((octetAt frame 1).getLsbD 5)
      else .garbled := by
  have h0 : before ≠ [] := fun h => by simp [h] at h3
  rw [judgeCharacter_later sent addr before octet h0 (by omega)]
  simp only [hlast, lt_irrefl, if_false, checkOctets, apBit, drop_eq_pair_iff (k := le8 (before ++ [octet]) 2 + 3) hlast]

/-! ## A frame that a station forms (section 11.6) -/

/-- Section 11.6: address with direction 1, control, length, payload, check. -/
def answerFrame (addr : BitVec 7) (control : Byte) (payload : List Byte) : List Byte :=
  let body := answerAddress addr :: control :: BitVec.ofNat 8 payload.length :: payload
  body ++ checkOctets body

section
variable (addr : BitVec 7) (control : Byte) (payload : List Byte)

theorem answerFrame_length : (answerFrame addr control payload).length = payload.length + 5 := by
  simp [answerFrame, checkOctets]

/-- The octets before the check. -/
theorem take_answerFrame : (answerFrame addr control payload).take (payload.length + 3) =
    answerAddress addr :: control :: BitVec.ofNat 8 payload.length :: payload := by
  rw [answerFrame, List.take_append_of_le_length (by simp), List.take_of_length_le (by simp)]

/-- The check of the octets before it. -/
theorem drop_answerFrame : (answerFrame addr control payload).drop (payload.length + 3) =
    checkOctets ((answerFrame addr control payload).take (payload.length + 3)) := by
  rw [take_answerFrame, answerFrame]
  exact List.drop_left' (by simp)

/-- The payload between the length octet and the check. -/
theorem payload_answerFrame : ((answerFrame addr control payload).drop 3).take payload.length = payload := by
  simp [answerFrame]

/-- The octets before offset `i`, and the octet there, are the octets before `i + 1`. -/
theorem take_append_octetAt {frame : List Byte} {i : Nat} (h : i < frame.length) :
    frame.take i ++ [octetAt frame i] = frame.take (i + 1) := by
  rw [octetAt, List.getD_eq_getElem _ _ h, List.take_append_getElem h]

/-- What has been received of the frame, once its length octet has, says its length. -/
theorem le8_take_answerFrame (hn : payload.length ≤ 240) {k : Nat} (hk : 3 ≤ k) :
    le8 ((answerFrame addr control payload).take k) 2 = payload.length := by
  have hoctet : octetAt ((answerFrame addr control payload).take k) 2 = BitVec.ofNat 8 payload.length := by
    simp [octetAt, List.getD_eq_getElem?_getD, answerFrame, show 2 < k by omega]
  rw [le8, hoctet, BitVec.toNat_ofNat, Nat.mod_eq_of_lt (by omega)]

/-- R11, R12: every character of the frame but the last goes on. -/
theorem judgeCharacter_answerFrame_more (sent : SentKind) (hn : payload.length ≤ 240) {i : Nat}
    (hi : i < payload.length + 4) :
    judgeCharacter sent addr ((answerFrame addr control payload).take i) (octetAt (answerFrame addr control payload) i)
      (i == 0) false = .more := by
  have hlen := answerFrame_length addr control payload
  match i with
  | 0 => exact if_pos rfl
  | 1 => rfl
  | 2 =>
    rw [show ((2 : Nat) == 0) = false from rfl, judgeCharacter_length _ _ _ _ (by simp [hlen])]
    have hoctet : (octetAt (answerFrame addr control payload) 2).toNat = payload.length := by
      show (BitVec.ofNat 8 payload.length).toNat = _
      rw [BitVec.toNat_ofNat, Nat.mod_eq_of_lt (by omega)]
    rw [hoctet, if_neg (by omega)]
  | j + 3 =>
    have hbefore : ((answerFrame addr control payload).take (j + 3)).length = j + 3 := by
      rw [List.length_take, hlen]; omega
    rw [show (j + 3 == 0) = false from rfl,
      judgeCharacter_later _ _ _ _ (fun h => by simp [h] at hbefore) (by omega)]
    simp only [take_append_octetAt (show j + 3 < (answerFrame addr control payload).length by omega)]
    rw [le8_take_answerFrame addr control payload hn (by omega), List.length_take, hlen, if_pos (by omega)]

/-- R11, R13: its last character gives the outcome. -/
theorem judgeCharacter_answerFrame_last (sent : SentKind) (hn : payload.length ≤ 240) :
    judgeCharacter sent addr ((answerFrame addr control payload).take (payload.length + 4))
      (octetAt (answerFrame addr control payload) (payload.length + 4)) false false =
        .good (judgeGoodFrame sent control payload) (control.getLsbD 5) := by
  have hlen := answerFrame_length addr control payload
  have hwhole : (answerFrame addr control payload).take (payload.length + 4) ++
      [octetAt (answerFrame addr control payload) (payload.length + 4)] = answerFrame addr control payload := by
    rw [take_append_octetAt (by omega), List.take_of_length_le (by omega)]
  have hbefore : ((answerFrame addr control payload).take (payload.length + 4)).length = payload.length + 4 := by
    rw [List.length_take, hlen]; omega
  have hle : le8 (answerFrame addr control payload) 2 = payload.length := by
    have := le8_take_answerFrame addr control payload hn (k := payload.length + 5) (by omega)
    rwa [List.take_of_length_le (by omega)] at this
  rw [judgeCharacter_later _ _ _ _ (fun h => by simp [h] at hbefore) (by omega)]
  simp only [hwhole, hle]
  rw [if_neg (by omega), if_pos (drop_answerFrame addr control payload), payload_answerFrame]
  rfl

end

end Sys2Proof.Machine

open Sys2Proof Sys2Proof.Machine

/-- Settles O55, from the model's judgement of each position of an answer. -/
theorem answerFrameDecodes : Obligations.AnswerFrameDecodes := by
  refine ⟨⟨rfl, by decide +kernel, crc_append_octet⟩, fun sent control payload => ?_,
    fun s h st id origin pseq hst => ?_, fun sent addr before octet mark ferr => ?_,
    fun sent addr control payload hn => ⟨fun i hi => judgeCharacter_answerFrame_more addr control payload sent hn hi,
      judgeCharacter_answerFrame_last addr control payload sent hn⟩⟩
  · rw [judgeGoodFrame_eq]
    cases sent
    · rw [decodeAnswer_command]
      rfl
    · rw [decodeAnswer_poll]
    · rw [decodeAnswer_linkReset]
  · simp [State.jobAddress, Job.handle, Job.sentKind, hst]
  · intro step frame n check good
    refine ⟨fun hf => ?_, fun hf hb => ⟨fun ho => ?_, fun ho => ?_⟩, fun hf hb hm => ?_, fun hf hm hb => ?_,
      fun hf hm hb => ⟨fun ho => ?_, fun ho => ?_⟩,
      fun hf hm hb => ⟨fun hmore => ?_, fun hlast => ⟨fun hg => ?_, fun hg => ?_⟩⟩⟩
    · subst hf
      exact judgeCharacter_framingError sent addr before octet mark
    · subst hf hb
      exact (judgeCharacter_first sent addr octet mark).trans (if_pos ho)
    · subst hf hb
      exact (judgeCharacter_first sent addr octet mark).trans (if_neg ho)
    · subst hf hm
      exact judgeCharacter_marked sent addr before octet hb
    · subst hf hm
      refine (judgeCharacter_later sent addr before octet (fun h => by simp [h] at hb) (by omega)).trans (if_pos ?_)
      rw [List.length_append, hb, List.length_singleton]
      omega
    · subst hf hm
      exact (judgeCharacter_length sent addr before octet hb).trans (if_neg (by omega))
    · subst hf hm
      exact (judgeCharacter_length sent addr before octet hb).trans (if_pos ho)
    · subst hf hm
      exact (judgeCharacter_later sent addr before octet (fun h => by simp [h] at hb) (by omega)).trans (if_pos hmore)
    · subst hf hm
      exact (judgeCharacter_last sent addr before octet hb hlast).trans (if_pos hg)
    · subst hf hm
      exact (judgeCharacter_last sent addr before octet hb hlast).trans (if_neg hg)
end

section
/-! PROOFS. What a failure of miss class does to its station's entry (R25 to R28, R31 to R33, R44, R53). -/

namespace Sys2Proof.Machine

section
variable {st : Station} {o : AttemptOutcome} {now : Nat}

/-! ## Outcomes of miss class -/

theorem AttemptOutcome.isMiss_cases (h : o.isMiss = true) :
    o = .noAnswer ∨ o = .garbled ∨ o = .wrongStation ∨ o = .unexpected := by
  cases o <;> simp_all [AttemptOutcome.isMiss]

theorem AttemptOutcome.isAnswer_of_isMiss (h : o.isMiss = true) : o.isAnswer = false := by
  rcases AttemptOutcome.isMiss_cases h with rfl | rfl | rfl | rfl <;> rfl

/-- R53, R29: the entry with its band after a miss, the first step of what a miss does. -/
def Station.bandStep (st : Station) (o : AttemptOutcome) : Station :=
  { st with band := if o = .noAnswer then bandAfterSilence st.band else st.band }

theorem Station.updateBand_miss (h : o.isMiss = true) (table : Option BandTable) (hysteresis : Nat) :
    st.updateBand table hysteresis o none = st.bandStep o := by
  unfold Station.updateBand Station.bandStep
  split
  · rfl
  · rw [AttemptOutcome.isAnswer_of_isMiss h]
    rfl

/-! ## The entry's own part in a miss -/

/-- R25: below the limit a miss is counted. -/
theorem Station.miss_below (h : st.missCount + 1 < st.missLimit) :
    st.miss now = { st with missCount := st.missCount + 1 } := if_neg (by omega)

/-- R27, R28: at the limit the station goes OFFLINE. -/
theorem Station.miss_limit (h : st.missLimit ≤ st.missCount + 1) : st.miss now = { st with
    state := .offline, missCount := st.missLimit, link := .uncertain, pollDue := none
    timer := startTimer .probe st.probeInterval now
    presenceChanges := if st.state = .online then min 255 (st.presenceChanges + 1) else st.presenceChanges } := by
  rw [Station.miss, if_pos h, Station.goOffline]
  split <;> rfl

theorem Station.band_miss (st : Station) (now : Nat) : (st.miss now).band = st.band := by
  rcases lt_or_ge (st.missCount + 1) st.missLimit with h | h
  · rw [Station.miss_below h]
  · rw [Station.miss_limit h]

/-! ## By the kind of attempt -/

theorem Station.afterCommand_miss (h : o.isMiss = true) : st.afterCommand o now = st.miss now := by
  rcases AttemptOutcome.isMiss_cases h with rfl | rfl | rfl | rfl <;> rfl

theorem Station.afterLink_miss (h : o.isMiss = true) : st.afterLink o now = st.miss now := by
  rcases AttemptOutcome.isMiss_cases h with rfl | rfl | rfl | rfl <;> rfl

theorem Station.afterProbe_miss (h : o.isMiss = true) : st.afterProbe o now =
    { st with probeDue := none, timer := startTimer .probe st.probeInterval now } := by
  rcases AttemptOutcome.isMiss_cases h with rfl | rfl | rfl | rfl <;> rfl

theorem Station.pollOutcome_miss (h : o.isMiss = true) :
    st.pollOutcome o now = ({ st with pollDue := none } : Station).miss now := by
  rcases AttemptOutcome.isMiss_cases h with rfl | rfl | rfl | rfl <;> rfl

/-- R32: below the limit the poll timer restarts. -/
theorem Station.afterPoll_below (ho : o.isMiss = true) (hs : st.state = .online)
    (h : st.missCount + 1 < st.missLimit) : st.afterPoll o now = { st with
      missCount := st.missCount + 1, pollDue := none
      timer := if st.pollInterval ≠ 0 then startTimer .poll st.pollInterval now else st.timer } := by
  rw [Station.afterPoll, Station.pollOutcome_miss ho, Station.miss_below (st := { st with pollDue := none }) h]
  by_cases hp : st.pollInterval = 0 <;> simp [hs, hp]

/-- R28, R32: at the limit it does not. -/
theorem Station.afterPoll_limit (ho : o.isMiss = true) (h : st.missLimit ≤ st.missCount + 1) :
    st.afterPoll o now = st.miss now := by
  rw [Station.afterPoll, Station.pollOutcome_miss ho, Station.miss_limit (st := { st with pollDue := none }) h,
    Station.miss_limit h]
  simp

/-! ## AP -/

/-- R33: in a state other than ONLINE and HOLD it changes nothing. -/
theorem Station.applyAp_absent (h1 : st.state ≠ .online) (h2 : st.state ≠ .hold) (ap : Bool) : st.applyAp ap now = st := by
  simp [Station.applyAp, h1, h2]

theorem Station.band_applyAp (st : Station) (ap : Bool) (now : Nat) : (st.applyAp ap now).band = st.band := by
  unfold Station.applyAp
  split <;> rfl

/-! ## The whole entry -/

/-- R44: a miss leaves a CLOSING entry as it was. -/
theorem Station.applyOutcome_closing_miss (h : o.isMiss = true) (hs : st.state = .closing) (table : Option BandTable)
    (hysteresis : Nat) (job : Job) (ap : Bool) : st.applyOutcome table hysteresis job o none ap now = st := by
  rw [Station.applyOutcome, if_pos hs]
  rcases AttemptOutcome.isMiss_cases h with rfl | rfl | rfl | rfl <;> cases job <;> rfl

/-- R29: a miss of a station that is not CLOSING: the band, then the effect of the attempt's kind, then AP. -/
theorem Station.applyOutcome_miss (h : o.isMiss = true) (hs : st.state ≠ .closing) (table : Option BandTable)
    (hysteresis : Nat) (job : Job) (ap : Bool) : st.applyOutcome table hysteresis job o none ap now =
      ((st.bandStep o).afterJob job o now).applyAp ap now := by
  rw [Station.applyOutcome, if_neg hs, Station.updateBand_miss h]

/-- No effect of a miss but R53's reaches the band. -/
theorem Station.band_afterJob_miss (h : o.isMiss = true) (job : Job) : (st.afterJob job o now).band = st.band := by
  unfold Station.afterJob
  split
  · rw [Station.afterCommand_miss h, Station.band_miss]
  · rw [Station.afterPoll, Station.pollOutcome_miss h]
    split
    · exact Station.band_miss _ _
    · exact Station.band_miss _ _
  · rw [Station.afterLink_miss h, Station.band_miss]
  · rw [Station.afterLink_miss h, Station.band_miss]
  · rw [Station.afterProbe_miss h]
  · rfl

end

/-- The attempt is made in this state of its station (R30 to R32, R40). -/
def Job.madeIn (job : Job) (state : StationState) : Prop :=
  match job with
  | .command _ _ _ => state = .online
  | .poll _ _ => state = .online
  | .link _ => state = .new ∨ state = .online
  | .probe _ => state = .offline
  | .broadcast _ => False

/-- R30, R31, R32, R34: a miss at the limit, of an attempt that counts misses, takes the station OFFLINE. -/
theorem Station.afterJob_limit {st : Station} {o : AttemptOutcome} {now : Nat} {job : Job} (h : o.isMiss = true)
    (hm : job.madeIn st.state) (hs : st.state ≠ .offline) (hl : st.missLimit ≤ st.missCount + 1) :
    st.afterJob job o now = st.miss now := by
  cases job with
  | command id h' origin => simp [Station.afterJob, show st.state = .online from hm, Station.afterCommand_miss h]
  | broadcast id => exact hm.elim
  | poll h' p => simp [Station.afterJob, show st.state = .online from hm, Station.afterPoll_limit h hl]
  | link h' =>
    rcases hm with hm | hm <;> simp [Station.afterJob, hm, Station.afterLink_miss h]
  | probe h' => exact (hs hm).elim

/-- Below the limit a miss of an attempt other than a POLL is counted and does nothing else. -/
theorem Station.afterJob_below {st : Station} {o : AttemptOutcome} {now : Nat} {job : Job} (h : o.isMiss = true)
    (hm : job.madeIn st.state) (hs : st.state ≠ .offline) (hl : st.missCount + 1 < st.missLimit)
    (hp : ∀ h' p, job ≠ .poll h' p) : st.afterJob job o now = { st with missCount := st.missCount + 1 } := by
  rw [← Station.miss_below (now := now) hl]
  cases job with
  | command id h' origin => simp [Station.afterJob, show st.state = .online from hm, Station.afterCommand_miss h]
  | broadcast id => exact hm.elim
  | poll h' p => exact (hp h' p rfl).elim
  | link h' =>
    rcases hm with hm | hm <;> simp [Station.afterJob, hm, Station.afterLink_miss h]
  | probe h' => exact (hs hm).elim

/-- An attempt is not made in CLOSING. -/
theorem Job.madeIn_ne_closing {job : Job} {state : StationState} (h : job.madeIn state) : state ≠ .closing := by
  rintro rfl
  cases job <;> simp [Job.madeIn] at h

/-- What AP does to an entry that is NEW, ONLINE or OFFLINE (R33). -/
theorem Station.applyAp_eq {st : Station} {now : Nat} (h : st.state ≠ .hold) (ap : Bool) : st.applyAp ap now =
    if ap = true ∧ st.state = .online then
      { st with
        pollDue := some (st.pollDue.getD now)
        timer := if st.timer.map (·.kind) = some .poll then none else st.timer }
    else st := by
  simp [Station.applyAp, h]

theorem Station.applyAp_keeps (st : Station) (ap : Bool) (now : Nat) :
    (st.applyAp ap now).state = st.state ∧ (st.applyAp ap now).link = st.link ∧
      (st.applyAp ap now).pending = st.pending ∧ (st.applyAp ap now).retryLimit = st.retryLimit := by
  unfold Station.applyAp
  split <;> exact ⟨rfl, rfl, rfl, rfl⟩

/-- A miss changes neither the station's list nor its limits. -/
theorem Station.miss_keeps (st : Station) (now : Nat) :
    (st.miss now).pending = st.pending ∧ (st.miss now).retryLimit = st.retryLimit := by
  rcases lt_or_ge (st.missCount + 1) st.missLimit with h | h
  · rw [Station.miss_below h]
    exact ⟨rfl, rfl⟩
  · rw [Station.miss_limit h]
    exact ⟨rfl, rfl⟩

theorem Station.afterJob_miss_keeps {st : Station} {o : AttemptOutcome} {now : Nat} (h : o.isMiss = true) (job : Job) :
    (st.afterJob job o now).pending = st.pending ∧ (st.afterJob job o now).retryLimit = st.retryLimit := by
  unfold Station.afterJob
  split
  · rw [Station.afterCommand_miss h]
    exact st.miss_keeps now
  · rw [Station.afterPoll, Station.pollOutcome_miss h]
    split
    · exact Station.miss_keeps { st with pollDue := none } now
    · exact Station.miss_keeps { st with pollDue := none } now
  · rw [Station.afterLink_miss h]
    exact st.miss_keeps now
  · rw [Station.afterLink_miss h]
    exact st.miss_keeps now
  · rw [Station.afterProbe_miss h]
    exact ⟨rfl, rfl⟩
  · exact ⟨rfl, rfl⟩

/-- A miss below the limit, or of a probe, leaves the state of the station. -/
theorem Station.state_afterJob_below {st : Station} {o : AttemptOutcome} {now : Nat} {job : Job} (h : o.isMiss = true)
    (hm : job.madeIn st.state) (hl : st.state = .offline ∨ st.missCount + 1 < st.missLimit) :
    (st.afterJob job o now).state = st.state := by
  by_cases hs : st.state = .offline
  · cases job with
    | probe h' =>
      have hjob : st.afterJob (.probe h') o now = st.afterProbe o now := by simp [Station.afterJob, hs]
      rw [hjob, Station.afterProbe_miss h]
    | command id h' origin => cases hs.symm.trans hm
    | poll h' p => cases hs.symm.trans hm
    | link h' => rcases hm with hm | hm <;> cases hs.symm.trans hm
    | broadcast id => exact hm.elim
  · have hbelow := hl.resolve_left hs
    by_cases hp : ∃ h' p, job = .poll h' p
    · obtain ⟨h', p, rfl⟩ := hp
      have honline : st.state = .online := hm
      have hjob : st.afterJob (.poll h' p) o now = st.afterPoll o now := by simp [Station.afterJob, honline]
      rw [hjob, Station.afterPoll_below h honline hbelow]
    · rw [Station.afterJob_below h hm hs hbelow fun h' p e => hp ⟨h', p, e⟩]

/-! ## What the rest of the part sees of the entry after a miss -/

section
variable {st : Station} {o : AttemptOutcome} {now hysteresis : Nat} {job : Job} {table : Option BandTable} {ap : Bool}

theorem Station.applyOutcome_miss_keeps (ho : o.isMiss = true) :
    (st.applyOutcome table hysteresis job o none ap now).pending = st.pending ∧
      (st.applyOutcome table hysteresis job o none ap now).retryLimit = st.retryLimit := by
  by_cases hs : st.state = .closing
  · rw [Station.applyOutcome_closing_miss ho hs]
    exact ⟨rfl, rfl⟩
  · rw [Station.applyOutcome_miss ho hs]
    obtain ⟨-, -, hp, hr⟩ := Station.applyAp_keeps ((st.bandStep o).afterJob job o now) ap now
    obtain ⟨hp', hr'⟩ := Station.afterJob_miss_keeps (now := now) (st := st.bandStep o) ho job
    exact ⟨hp.trans hp', hr.trans hr'⟩

/-- R53: the band after a miss. -/
theorem Station.band_applyOutcome_miss (ho : o.isMiss = true) (hs : st.state ≠ .closing) :
    (st.applyOutcome table hysteresis job o none ap now).band =
      if o = .noAnswer then bandAfterSilence st.band else st.band := by
  rw [Station.applyOutcome_miss ho hs, Station.band_applyAp, Station.band_afterJob_miss ho]
  rfl

/-- The rest of the miss, told from the entry with its new band. -/
theorem Station.applyOutcome_miss_band (ho : o.isMiss = true) (hs : st.state ≠ .closing) :
    st.applyOutcome table hysteresis job o none ap now =
      (({ st with band := (st.applyOutcome table hysteresis job o none ap now).band } : Station).afterJob job o
        now).applyAp ap now := by
  rw [Station.band_applyOutcome_miss ho hs]
  exact Station.applyOutcome_miss ho hs table hysteresis job ap

/-- R27, R28: one more miss takes a station in use to OFFLINE. -/
def Station.atMissLimit (st : Station) : Prop :=
  st.missLimit ≤ st.missCount + 1 ∧ st.state ≠ .offline ∧ st.state ≠ .closing

/-- The entry `after` a miss, as the exchange and the poll see it: its list and limits are those of `st`, a CLOSING entry is
as it was (R44), and at the limit it has gone OFFLINE with its link in doubt (R28). -/
structure Station.Missed (st after : Station) : Prop where
  pending : after.pending = st.pending
  retryLimit : after.retryLimit = st.retryLimit
  closing : st.state = .closing → after = st
  offline : st.atMissLimit → (st.state ≠ .offline ∧ after.state = .offline) ∧ after.link = .uncertain
  stays : ¬ st.atMissLimit → after.state = st.state

/-- R28: at the limit the station is OFFLINE, its link in doubt. -/
theorem Station.applyOutcome_miss_limit (ho : o.isMiss = true) (hm : job.madeIn st.state) (hs : st.state ≠ .offline)
    (hl : st.missLimit ≤ st.missCount + 1) :
    (st.applyOutcome table hysteresis job o none ap now).state = .offline ∧
      (st.applyOutcome table hysteresis job o none ap now).link = .uncertain := by
  obtain ⟨hstate, hlink, -⟩ := Station.applyAp_keeps ((st.bandStep o).miss now) ap now
  rw [Station.applyOutcome_miss ho (Job.madeIn_ne_closing hm), Station.afterJob_limit (st := st.bandStep o) ho hm hs hl,
    hstate, hlink, Station.miss_limit (st := st.bandStep o) hl]
  exact ⟨rfl, rfl⟩

/-- Below the limit, for a probe and in CLOSING the state of the station stays. -/
theorem Station.applyOutcome_miss_below (ho : o.isMiss = true) (hm : st.state = .closing ∨ job.madeIn st.state)
    (hl : ¬ st.atMissLimit) : (st.applyOutcome table hysteresis job o none ap now).state = st.state := by
  rcases hm with hs | hm
  · rw [Station.applyOutcome_closing_miss ho hs]
  · have hs := Job.madeIn_ne_closing hm
    have hl' : st.state = .offline ∨ st.missCount + 1 < st.missLimit := by
      by_cases h : st.state = .offline
      · exact .inl h
      · exact .inr (not_le.1 fun hle => hl ⟨hle, h, hs⟩)
    rw [Station.applyOutcome_miss ho hs, (Station.applyAp_keeps _ ap now).1]
    exact Station.state_afterJob_below (st := st.bandStep o) ho hm hl'

/-- A miss of an attempt in the state it is made in, or in CLOSING. -/
theorem Station.missed_applyOutcome (ho : o.isMiss = true) (hm : st.state = .closing ∨ job.madeIn st.state) :
    st.Missed (st.applyOutcome table hysteresis job o none ap now) where
  pending := (Station.applyOutcome_miss_keeps ho).1
  retryLimit := (Station.applyOutcome_miss_keeps ho).2
  closing hs := Station.applyOutcome_closing_miss ho hs table hysteresis job ap
  offline hl := by
    obtain ⟨hstate, hlink⟩ := Station.applyOutcome_miss_limit (table := table) (hysteresis := hysteresis) (ap := ap)
      (now := now) ho (hm.resolve_left hl.2.2) hl.2.1 hl.1
    exact ⟨⟨hl.2.1, hstate⟩, hlink⟩
  stays hl := Station.applyOutcome_miss_below ho hm hl

end

/-- A CLOSING station is not at the limit. -/
theorem Station.not_atMissLimit_of_closing {st : Station} (h : st.state = .closing) : ¬ st.atMissLimit :=
  fun hl => hl.2.2 h

/-- Below the limit the miss took no station OFFLINE. -/
theorem Station.Missed.not_wentOffline {st after : Station} (m : st.Missed after) (h : ¬ st.atMissLimit) :
    ¬ (st.state ≠ .offline ∧ after.state = .offline) := fun hw => hw.1 ((m.stays h).symm.trans hw.2)

/-- Below the limit what may settle after the miss is what might have settled before it. -/
theorem Station.Missed.settling {st after : Station} (m : st.Missed after) (h : ¬ st.atMissLimit) :
    after.settling = st.settling := by
  by_cases hs : st.state = .closing
  · rw [m.closing hs]
  · rw [Station.settling, Station.settling, m.stays h, if_neg hs, if_neg hs]

end Sys2Proof.Machine
end

section
/-! PROOFS. The ends of exchanges, one and many: the contexts they leave alone, the entry they leave, and what they hand
(R28, R43, R45, R46, R68, R70). -/

namespace Sys2Proof.Machine

/-! ## Contexts -/

section
variable {s : State} {id k : Nat} {st : Status} {d : Detail} {n : Nat}

theorem State.ctx_endOne_ne (h : k ≠ id) : (s.endOne id st d n).ctx k = s.ctx k := by
  unfold State.endOne
  split
  · rfl
  · split
    · rfl
    · exact (State.ctx_hand_ne h).trans ((State.ctx_markUncertain ..).trans (State.ctx_leaveLists ..))

theorem State.ctx_endPlain_ne (h : k ≠ id) : (s.endPlain id st).ctx k = s.ctx k := State.ctx_endOne_ne h

/-- R80: an exchange that ends plainly is handed with its last failure cause. -/
theorem State.handed_endPlain {c : Context} (hc : s.ctx id = some c) (hl : c.Live) :
    (s.endPlain id st).Handed id st c.failureDetail := by
  unfold State.endPlain
  rw [hc]
  exact s.handed_endOne id st _ 0 hc hl

end

/-- An exchange whose end is open is live: its context is reserved for no read. -/
theorem Context.live_of_exchange {c : Context} {h : Handle} (hp : c.phase ≠ .ending) (hh : c.exchangeHandle = some h) :
    c.Live := by
  refine ⟨hp, fun hb => ?_⟩
  rw [Context.exchangeHandle, hb] at hh
  cases hh

/-- The exchanges listed end plainly with this status, in the order of the list. -/
def State.endPlains (s : State) (ids : List Nat) (st : Status) : State := ids.foldl (fun s id => s.endPlain id st) s

/-- R28, R43: the end of a station's list. -/
theorem State.endList_eq {s : State} {h : Handle} {x : Station} (hx : s.station h = some x) (st : Status) :
    s.endList h st = s.endPlains x.pending st := by
  rw [State.endList, hx]
  rfl

section
variable {s : State} {ids : List Nat} {st : Status}

theorem State.ends_endPlains : s.Ends (s.endPlains ids st) := .foldl _ (fun s _ => s.ends_endPlain _ _) _ _

theorem State.tells_endPlains : s.Tells (s.endPlains ids st) := .foldl _ (fun s _ => s.tells_endPlain _ _) _ _

theorem State.ctx_endPlains_of_not_mem {k : Nat} (h : k ∉ ids) : (s.endPlains ids st).ctx k = s.ctx k := by
  induction ids generalizing s with
  | nil => rfl
  | cons id rest ih =>
    obtain ⟨hid, hrest⟩ : k ≠ id ∧ k ∉ rest := by simpa using h
    exact (ih hrest).trans (State.ctx_endPlain_ne hid)

/-- Every live exchange of the list is handed with its own last failure cause. -/
theorem State.handed_endPlains {k : Nat} {c : Context} (h : k ∈ ids) (hc : s.ctx k = some c) (hl : c.Live) :
    (s.endPlains ids st).Handed k st c.failureDetail := by
  induction ids generalizing s with
  | nil => cases h
  | cons id rest ih =>
    by_cases e : k = id
    · subst e
      exact (State.handed_endPlain hc hl).tells State.tells_endPlains
    · exact ih ((List.mem_cons.1 h).resolve_left e) ((State.ctx_endPlain_ne e).trans hc)

end

/-! ## The entry of the station -/

/-- R70: an exchange leaves the list of its station. -/
theorem State.station_leaveLists {s : State} {c : Context} {h : Handle} {x : Station} (hh : c.exchangeHandle = some h)
    (hx : s.station h = some x) :
    (s.leaveLists c).station h = some { x with pending := x.pending.erase c.id } := by
  unfold State.leaveLists State.leavePending
  rw [hh]
  split <;> simp [hx]

/-- An exchange leaves no other station's list. -/
theorem State.station_leaveLists_ne {s : State} {c : Context} {h : Handle} (hh : c.exchangeHandle ≠ some h) :
    (s.leaveLists c).station h = s.station h := by
  have hpending : (s.leavePending c).station h = s.station h := by
    unfold State.leavePending
    split
    · next h' hh' =>
      have hne : h ≠ h' := fun e => hh (by rw [hh', e])
      exact State.station_setStation_ne s hne _
    · rfl
  unfold State.leaveLists
  split
  · exact hpending
  · exact hpending

/-- R68: the uncertainty marking touches the link alone. -/
theorem State.station_markUncertain {s : State} {h : Handle} {x : Station} (c : Context) (st : Status)
    (hx : s.station h = some x) : ∃ link, (s.markUncertain c st).station h = some { x with link := link } := by
  unfold State.markUncertain
  split
  · next h' _ =>
    split
    · unfold State.linkInDoubt
      by_cases e : h = h'
      · subst e
        rw [hx]
        refine ⟨.uncertain, ?_⟩
        simp only
        split <;> simp
      · refine ⟨x.link, ?_⟩
        split
        · exact hx
        · simp only
          split <;> simp [State.station_setStation_ne _ e, hx]
    · exact ⟨x.link, hx⟩
  · exact ⟨x.link, hx⟩

/-- R70: what the end of an open exchange leaves of its station's entry. -/
theorem State.station_endPlain {s : State} {id : Nat} {c : Context} {h : Handle} {x : Station} (st : Status)
    (hc : s.ctx id = some c) (hp : c.phase ≠ .ending) (hh : c.exchangeHandle = some h) (hx : s.station h = some x) :
    ∃ link, (s.endPlain id st).station h = some { x with pending := x.pending.erase id, link := link } := by
  obtain ⟨link, hlink⟩ := State.station_markUncertain c st (State.station_leaveLists hh hx)
  refine ⟨link, ?_⟩
  unfold State.endPlain State.endOne
  rw [hc]
  simp only [hp, if_false]
  rw [State.station, State.stations_hand, ← State.station, hlink, State.ctx_id hc]

/-- The end of an exchange, open or not and of whatever station, takes no other exchange from a list. -/
theorem State.mem_pending_endPlain {s : State} {id j : Nat} {h : Handle} {x : Station} (st : Status)
    (hx : s.station h = some x) (hj : j ∈ x.pending) (hne : j ≠ id) :
    ∃ y, (s.endPlain id st).station h = some y ∧ j ∈ y.pending := by
  unfold State.endPlain State.endOne
  cases hc : s.ctx id with
  | none => exact ⟨x, hx, hj⟩
  | some c =>
    simp only
    split
    · exact ⟨x, hx, hj⟩
    · have hleft : ∃ y, (s.leaveLists c).station h = some y ∧ j ∈ y.pending := by
        by_cases hh : c.exchangeHandle = some h
        · exact ⟨_, State.station_leaveLists hh hx, (List.mem_erase_of_ne (State.ctx_id hc ▸ hne)).2 hj⟩
        · exact ⟨x, (State.station_leaveLists_ne hh).trans hx, hj⟩
      obtain ⟨y, hy, hmem⟩ := hleft
      obtain ⟨link, hlink⟩ := State.station_markUncertain c st hy
      refine ⟨{ y with link := link }, ?_, hmem⟩
      rw [State.station, State.stations_hand]
      exact hlink

/-- R43: with every exchange of a station's list open and its own, the end of the list leaves none. -/
theorem State.station_endPlains {s : State} {ids : List Nat} {h : Handle} {x : Station} (st : Status)
    (hx : s.station h = some x) (hpending : x.pending = ids) (hn : ids.Nodup)
    (hl : ∀ k ∈ ids, ∃ c, s.ctx k = some c ∧ c.phase ≠ .ending ∧ c.exchangeHandle = some h) :
    ∃ link, (s.endPlains ids st).station h = some { x with pending := [], link := link } := by
  induction ids generalizing s x with
  | nil =>
    have hself : ({ x with pending := [], link := x.link } : Station) = x := by rw [← hpending]
    exact ⟨x.link, by rw [hself]; exact hx⟩
  | cons id rest ih =>
    obtain ⟨hid, hrest⟩ := List.nodup_cons.1 hn
    obtain ⟨c, hc, hp, hh⟩ := hl id (List.mem_cons_self ..)
    obtain ⟨link, hlink⟩ := State.station_endPlain st hc hp hh hx
    have hl' : ∀ k ∈ rest, ∃ c, (s.endPlain id st).ctx k = some c ∧ c.phase ≠ .ending ∧
        c.exchangeHandle = some h := by
      intro k hk
      have hne : k ≠ id := fun e => hid (e ▸ hk)
      rw [State.ctx_endPlain_ne hne]
      exact hl k (List.mem_cons_of_mem _ hk)
    obtain ⟨link', hlink'⟩ := ih hlink (by simp [hpending]) hrest hl'
    exact ⟨link', hlink'⟩

/-! ## A CLOSING station settles -/

/-- Ends leave the engines' attempts as they were. -/
theorem State.Ends.attempting {s t : State} (e : s.Ends t) (l : LineNo) (h : Handle) :
    (t.line l).attempting h = (s.line l).attempting h := by
  rw [(e.lines l).2]
  rfl

/-- A station that is not CLOSING has nothing to settle. -/
theorem State.settleClosing_of_not_closing {s : State} {h : Handle} {x : Station} (hx : s.station h = some x)
    (hs : x.state ≠ .closing) : s.settleClosing h = s := by
  have hdrain : s.drainClosing h = s := by simp [State.drainClosing, hx, hs]
  simp [State.settleClosing, hdrain, State.tryFree, hx, hs]

/-- R45: the freeing of an entry ends its REMOVE_STATION record alone. -/
theorem State.ctx_tryFree {s : State} {h : Handle} {x : Station} {k : Nat} (hx : s.station h = some x)
    (hk : x.remover ≠ some k) : (s.tryFree h).ctx k = s.ctx k := by
  unfold State.tryFree
  rw [hx]
  simp only
  split
  · split
    · next r hr => exact State.ctx_endRecord_ne fun e => hk (by rw [hr, e])
    · rfl
  · rfl

/-- R43, R45: settling ends contexts of the station's list and its REMOVE_STATION record alone. -/
theorem State.ctx_settleClosing {s : State} {h : Handle} {x : Station} {k : Nat} (hx : s.station h = some x)
    (hk : k ∉ x.settling) : (s.settleClosing h).ctx k = s.ctx k := by
  by_cases hs : x.state = .closing
  · rw [Station.settling, if_pos hs, List.mem_append, not_or, Option.mem_toList] at hk
    obtain ⟨hpending, hremover⟩ := hk
    have hdrain : (s.drainClosing h).ctx k = s.ctx k := by
      rw [State.drainClosing, hx]
      simp only
      split
      · rw [State.endList_eq hx, State.ctx_endPlains_of_not_mem hpending]
      · rfl
    have hentry := (s.ends_drainClosing h).stations h
    rw [hx] at hentry
    rw [State.settleClosing, ← hdrain]
    cases hy : (s.drainClosing h).station h with
    | none => rw [State.tryFree, hy]
    | some y =>
      rw [hy] at hentry
      refine State.ctx_tryFree hy fun e => hremover ?_
      rw [show y = { x with pending := y.pending, link := y.link } from hentry] at e
      exact e
  · rw [State.settleClosing_of_not_closing hx hs]

/-- The exchange waits in the list of this station: it is in no attempt (R43). -/
def Context.WaitsFor (c : Context) (h : Handle) : Prop :=
  c.exchangeHandle = some h ∧ (c.phase = .queued ∨ c.phase = .waitingRetry ∨ c.phase = .held)

theorem Context.WaitsFor.phase_ne {c : Context} {h : Handle} (w : c.WaitsFor h) :
    c.phase ≠ .ending ∧ c.phase ≠ .preparing ∧ c.phase ≠ .attempting := by
  rcases w.2 with h | h | h <;> simp [h]

/-- R43: with the whole list waiting, the drain ends it. -/
theorem State.drainClosing_eq {s : State} {h : Handle} {x : Station} (hx : s.station h = some x)
    (hs : x.state = .closing) (hw : ∀ k ∈ x.pending, ∃ c, s.ctx k = some c ∧ c.WaitsFor h) :
    s.drainClosing h = s.endPlains x.pending .cancelled := by
  have hnone : (x.pending.any fun id => s.inAttempt id) = false := by
    rw [List.any_eq_false]
    intro k hk
    obtain ⟨c, hc, hwait⟩ := hw k hk
    obtain ⟨-, hprep, hatt⟩ := hwait.phase_ne
    simp [State.inAttempt, State.phaseOf, hc, hprep, hatt]
  rw [State.drainClosing, hx]
  simp only [hs, hnone, and_self, if_true, State.endList_eq hx]

/-- R43, R45: a CLOSING station with its list waiting and no attempt in progress settles: its list ends CANCELLED, and with no
delivery in progress its entry is free and its REMOVE_STATION record ends OK. -/
theorem State.settleClosing_settles {s : State} {h : Handle} {x : Station} (hx : s.station h = some x)
    (hs : x.state = .closing) (hn : x.pending.Nodup) (hw : ∀ k ∈ x.pending, ∃ c, s.ctx k = some c ∧ c.WaitsFor h)
    (ha : (s.line x.line).attempting h = false) :
    (∀ k c, k ∈ x.pending → s.ctx k = some c → (s.settleClosing h).Handed k .cancelled c.failureDetail) ∧
      (x.attention = none → (s.settleClosing h).station h = none ∧
        ∀ r c, x.remover = some r → r ∉ x.pending → s.ctx r = some c → c.Live →
          (s.settleClosing h).Handed r .ok .none) := by
  have hdrain := State.drainClosing_eq hx hs hw
  obtain ⟨link, hlink⟩ := State.station_endPlains .cancelled hx rfl hn fun k hk => by
    obtain ⟨c, hc, hwait⟩ := hw k hk
    exact ⟨c, hc, hwait.phase_ne.1, hwait.1⟩
  have hfree : (((s.endPlains x.pending .cancelled).line x.line).attempting h) = false := by
    rw [State.ends_endPlains.attempting, ha]
  refine ⟨fun k c hk hc => ?_, fun hatt => ?_⟩
  · obtain ⟨c', hc', hwait⟩ := hw k hk
    obtain rfl : c' = c := Option.some.inj (hc'.symm.trans hc)
    rw [State.settleClosing, hdrain]
    exact (State.handed_endPlains hk hc (Context.live_of_exchange hwait.phase_ne.1 hwait.1)).tells (State.tells_tryFree _ h)
  · have hcond : x.state = .closing ∧ ([] : List Nat) = [] ∧
        ((s.endPlains x.pending .cancelled).line x.line).attempting h = false ∧ x.attention = none := ⟨hs, rfl, hfree, hatt⟩
    rw [State.settleClosing, hdrain, State.tryFree, hlink]
    simp only [hcond, and_self, if_true]
    refine ⟨?_, fun r c hr hnot hc hl => ?_⟩
    · split
      · rw [State.station_endRecord, State.station_setStation_same]
      · exact State.station_setStation_same ..
    · rw [hr]
      refine State.handed_endRecord _ r .ok .none ?_ hl
      rw [State.ctx_setStation, State.ctx_endPlains_of_not_mem hnot, hc]

/-! ## An exchange of a station ends -/

/-- R70: the end of an exchange, then the look at its station. -/
theorem State.endWith_eq {s : State} {id : Nat} {c : Context} {h : Handle} (st : Status) (hc : s.ctx id = some c)
    (hh : c.exchangeHandle = some h) : s.endWith id st = (s.endPlain id st).settleClosing h := by
  unfold State.endWith State.endExchange State.endPlain
  rw [hc]
  simp only [hh]

/-- The end of an exchange with what settles after it leaves every other context alone. -/
theorem State.ctx_endWith {s : State} {id k : Nat} {c : Context} {h : Handle} {x : Station} (st : Status)
    (hc : s.ctx id = some c) (hp : c.phase ≠ .ending) (hh : c.exchangeHandle = some h) (hx : s.station h = some x)
    (hk : k ≠ id) (hset : k ∉ x.settling) : (s.endWith id st).ctx k = s.ctx k := by
  obtain ⟨link, hlink⟩ := State.station_endPlain st hc hp hh hx
  rw [State.endWith_eq st hc hh, State.ctx_settleClosing hlink, State.ctx_endPlain_ne hk]
  intro hmem
  apply hset
  simp only [Station.settling] at hmem ⊢
  split at hmem
  · rw [if_pos ‹_›]
    exact (List.mem_append.1 hmem).elim (fun m => List.mem_append_left _ (List.mem_of_mem_erase m))
      (List.mem_append_right _)
  · cases hmem

end Sys2Proof.Machine
end

section
/-! PROOFS. A link in doubt stays in doubt through ends; the end of a step, and what it leaves (R24, R28, R68, R72, R148). -/

namespace Sys2Proof.Machine

/-! ## Links in doubt -/

/-- Every entry still in use keeps a link that was in doubt. -/
def State.KeepsDoubt (s t : State) : Prop :=
  ∀ h y, t.station h = some y → ∃ x, s.station h = some x ∧ (x.link = .uncertain → y.link = .uncertain)

theorem State.KeepsDoubt.refl (s : State) : s.KeepsDoubt s := fun _ y hy => ⟨y, hy, id⟩

theorem State.KeepsDoubt.trans {s t u : State} (a : s.KeepsDoubt t) (b : t.KeepsDoubt u) : s.KeepsDoubt u := by
  intro h z hz
  obtain ⟨y, hy, hyz⟩ := b h z hz
  obtain ⟨x, hx, hxy⟩ := a h y hy
  exact ⟨x, hx, hyz ∘ hxy⟩

theorem State.KeepsDoubt.foldl {α : Type} (f : State → α → State) (hf : ∀ (s : State) a, s.KeepsDoubt (f s a))
    (as : List α) (s : State) : s.KeepsDoubt (as.foldl f s) := by
  induction as generalizing s with
  | nil => exact .refl s
  | cons a rest ih => exact (hf s a).trans (ih _)

/-- Nothing of the station table moves. -/
theorem State.KeepsDoubt.same {s t : State} (h : t.stations = s.stations) : s.KeepsDoubt t := fun k y hy =>
  ⟨y, by rwa [State.station, ← h], id⟩

/-- One entry is replaced by one of the same doubt, or freed. -/
theorem State.keepsDoubt_setStation (s : State) (h : Handle) (y : Option Station)
    (hy : ∀ b, y = some b → ∃ a, s.station h = some a ∧ (a.link = .uncertain → b.link = .uncertain)) :
    s.KeepsDoubt (s.setStation h y) := by
  intro k b hb
  rw [State.station_setStation] at hb
  split at hb
  · next e =>
    subst e
    exact hy b hb
  · exact ⟨b, hb, id⟩

theorem State.keepsDoubt_leaveLists (s : State) (c : Context) : s.KeepsDoubt (s.leaveLists c) := by
  have pending : s.KeepsDoubt (s.leavePending c) := by
    unfold State.leavePending
    split
    · next h _ =>
      refine s.keepsDoubt_setStation h _ fun b hb => ?_
      obtain ⟨a, ha, rfl⟩ := Option.map_eq_some_iff.1 hb
      exact ⟨a, ha, id⟩
    · exact .refl s
  unfold State.leaveLists
  split
  · exact pending.trans (.same rfl)
  · exact pending

theorem State.keepsDoubt_linkInDoubt (s : State) (h : Handle) : s.KeepsDoubt (s.linkInDoubt h) := by
  unfold State.linkInDoubt
  split
  · exact .refl s
  · next x hx =>
    have marked := s.keepsDoubt_setStation h (some { x with link := .uncertain }) fun b hb =>
      ⟨x, hx, fun _ => by cases hb; rfl⟩
    simp only
    split
    · exact marked.trans (.same rfl)
    · exact marked

theorem State.keepsDoubt_markUncertain (s : State) (c : Context) (st : Status) :
    s.KeepsDoubt (s.markUncertain c st) := by
  unfold State.markUncertain
  split
  · split
    · exact s.keepsDoubt_linkInDoubt _
    · exact .refl s
  · exact .refl s

theorem State.keepsDoubt_endRecord (s : State) (id : Nat) (st : Status) (d : Detail) :
    s.KeepsDoubt (s.endRecord id st d) := .same (s.stations_hand ..)

theorem State.keepsDoubt_endAbort (s : State) (a : Option Nat) (st : Status) : s.KeepsDoubt (s.endAbort a st) := by
  cases a with
  | none => exact .refl s
  | some id => exact s.keepsDoubt_endRecord id st .none

theorem State.keepsDoubt_endPlain (s : State) (id : Nat) (st : Status) : s.KeepsDoubt (s.endPlain id st) := by
  unfold State.endPlain State.endOne
  split
  · exact .refl s
  · split
    · exact .refl s
    · exact ((s.keepsDoubt_leaveLists _).trans (State.keepsDoubt_markUncertain _ _ _)).trans (.same (State.stations_hand ..))

theorem State.keepsDoubt_endList (s : State) (h : Handle) (st : Status) : s.KeepsDoubt (s.endList h st) := by
  unfold State.endList
  split
  · exact .refl s
  · exact .foldl _ (fun s id => s.keepsDoubt_endPlain id st) _ _

theorem State.keepsDoubt_tryFree (s : State) (h : Handle) : s.KeepsDoubt (s.tryFree h) := by
  have freed := s.keepsDoubt_setStation h none fun _ hb => by cases hb
  unfold State.tryFree
  split
  · exact .refl s
  · split
    · split
      · exact freed.trans (State.keepsDoubt_endRecord _ _ _ _)
      · exact freed
    · exact .refl s

theorem State.keepsDoubt_settleClosing (s : State) (h : Handle) : s.KeepsDoubt (s.settleClosing h) := by
  refine State.KeepsDoubt.trans ?_ (State.keepsDoubt_tryFree _ h)
  unfold State.drainClosing
  split
  · exact .refl s
  · split
    · exact s.keepsDoubt_endList h _
    · exact .refl s

theorem State.keepsDoubt_drainOffline (s : State) (h : Handle) (job : Job) : s.KeepsDoubt (s.drainOffline h job) := by
  unfold State.drainOffline
  refine State.KeepsDoubt.trans ?_ (State.keepsDoubt_endList _ h _)
  split
  · split
    · exact (s.keepsDoubt_endPlain _ _).trans (State.keepsDoubt_endAbort _ _ _)
    · exact s.keepsDoubt_endPlain _ _
  · exact .refl s

/-- What the writers move of an entry is no link. -/
theorem State.keepsDoubt_of_writers {s t : State} (w : s.SameButWriters t) : s.KeepsDoubt t := by
  intro h y hy
  have hentry := ((s.sameButWriters_iff t).1 w).2.2.2 h
  cases hx : s.station h with
  | none =>
    rw [hx, hy] at hentry
    exact hentry.elim
  | some x =>
    rw [hx, hy] at hentry
    refine ⟨x, rfl, fun hlink => ?_⟩
    rw [show y = { x with lastReported := y.lastReported, presenceChanges := y.presenceChanges } from hentry]
    exact hlink

/-! ## The end of an attempt and of its step -/

theorem State.writers_releaseReservation (s : State) : s.SameButWriters s.releaseReservation :=
  State.SameButWriters.trans (State.sameButWriters_plain rfl) (State.writers_judgeGrant _)

theorem State.tells_releaseReservation (s : State) : s.Tells s.releaseReservation := by
  unfold State.releaseReservation State.judgeGrant
  split <;> exact .same rfl rfl rfl

/-- R72: a release lowers the reserved count by one and begins no write. -/
theorem State.releaseReservation_counts (s : State) :
    s.releaseReservation.reserved = s.reserved - 1 ∧ s.releaseReservation.eventWrite = s.eventWrite := by
  unfold State.releaseReservation State.judgeGrant
  split <;> exact ⟨rfl, rfl⟩

/-- A release touches no entry, no context and no attempt. -/
theorem State.releaseReservation_frame (s : State) (l : LineNo) (h : Handle) :
    s.releaseReservation.station h = s.station h ∧ (∀ k, s.releaseReservation.ctx k = s.ctx k) ∧
      (s.releaseReservation.line l).attempting h = (s.line l).attempting h := by
  refine ⟨?_, fun k => ?_, ?_⟩
  · unfold State.releaseReservation State.judgeGrant
    split <;> rfl
  · unfold State.releaseReservation State.judgeGrant
    split <;> rfl
  · rw [(((State.sameButWriters_iff _ _).1 s.writers_releaseReservation).2.2.1 l).2]
    rfl

/-- The records that wait for GUARD touch no entry. -/
theorem State.station_toGuard (s : State) (l : LineNo) (h : Handle) : (s.toGuard l).station h = s.station h := by
  rw [State.toGuard_eq, State.station_setLine, State.station_endRecords, State.station_setLine]

theorem State.keepsDoubt_toGuard (s : State) (l : LineNo) : s.KeepsDoubt (s.toGuard l) := fun h y hy =>
  ⟨y, (s.station_toGuard l h).symm.trans hy, id⟩

theorem State.toGuard_counts (s : State) (l : LineNo) :
    (s.toGuard l).reserved = s.reserved ∧ (s.toGuard l).eventWrite = s.eventWrite := by
  rw [State.toGuard_eq, State.setLine_reserved, State.setLine_eventWrite, State.ends_endRecords.rest]
  exact ⟨rfl, rfl⟩

theorem State.ctx_finish (s : State) (id : Nat) : s.finish.ctx id = s.ctx id := by
  have hpool := (State.writers_finish s).1
  rw [State.ctx, hpool]
  rfl

theorem State.retryList_finish (s : State) (l : LineNo) : (s.finish.line l).retryList = (s.line l).retryList := by
  rw [(((s.sameButWriters_iff _).1 s.writers_finish).2.2.1 l).2]

/-- A free entry stays free at the end of the step. -/
theorem State.station_finish_none {s : State} {h : Handle} (hn : s.station h = none) : s.finish.station h = none := by
  have hentry := ((s.sameButWriters_iff _).1 s.writers_finish).2.2.2 h
  rw [hn] at hentry
  cases hy : s.finish.station h with
  | none => rfl
  | some y =>
    rw [hy] at hentry
    exact hentry.elim

/-- R148, R149: a report that is taken raises the reserved count, and its entry is being written. -/
theorem State.takePlace_counts (s : State) :
    s.takePlace.reserved = s.reserved + 1 ∧ s.takePlace.eventWrite = s.eventWrite := by
  unfold State.takePlace State.judgeGrant
  split <;> exact ⟨rfl, rfl⟩

/-- Between the two states an event entry may have been begun for a report, which takes a place (R149). -/
def State.MayTakePlace (s t : State) : Prop :=
  t.reserved = s.reserved ∨ (s.eventWrite = none ∧ t.eventWrite.isSome = true ∧ t.reserved = s.reserved + 1)

theorem State.mayTakePlace_takeReport {s : State} (hn : s.eventWrite = none) : s.MayTakePlace s.takeReport := by
  have taken : ∀ t : State, t.reserved = s.reserved → t.eventWrite.isSome = true → s.MayTakePlace t.takePlace := by
    intro t hr hw
    obtain ⟨hr', hw'⟩ := t.takePlace_counts
    exact .inr ⟨hn, hw'.symm ▸ hw, by rw [hr', hr]⟩
  unfold State.takeReport
  split
  · exact taken _ rfl rfl
  · split
    · split
      · exact taken _ rfl rfl
      · exact .inl rfl
    · split
      · split
        · exact taken _ rfl rfl
        · exact .inl rfl
      · exact .inl rfl

/-- R149: the reserved count at the end of a step. -/
theorem State.mayTakePlace_finish (s : State) : s.MayTakePlace s.finish := by
  unfold State.finish
  split
  · have hstart : s.startCompletion.reserved = s.reserved ∧ s.startCompletion.eventWrite = s.eventWrite := by
      unfold State.startCompletion
      split <;> exact ⟨rfl, rfl⟩
    have hhalted : ∀ t : State, t.checkHalted.reserved = t.reserved ∧ t.checkHalted.eventWrite = t.eventWrite := by
      intro t
      unfold State.checkHalted
      split <;> exact ⟨rfl, rfl⟩
    have hevent : s.startCompletion.MayTakePlace s.startCompletion.startEvent := by
      unfold State.startEvent
      split
      · exact .inl rfl
      · next hn =>
        split
        · exact .inl rfl
        · split
          · exact State.mayTakePlace_takeReport hn
          · exact .inl rfl
    simpa only [State.MayTakePlace, hhalted, hstart] using hevent
  · exact .inl rfl

end Sys2Proof.Machine
end

section
/-! PROOFS. The attempt that a miss ends: what the exchange, the link-service loop, the poll and the CLOSING station do with it
(R28, R62, R66, R69, R71, R72, R78, R88). -/

namespace Sys2Proof.Machine

/-! ## The miss applied -/

/-- R62, R80: the marks of a miss on the exchange's context are its last failure cause. -/
theorem Context.noteOutcome_miss {c : Context} {o : AttemptOutcome} {cause : FailureCause} (ho : o.isMiss = true)
    (hc : o.failure = some cause) : c.noteOutcome o none = { c with lastFailure := some cause } := by
  rcases AttemptOutcome.isMiss_cases ho with rfl | rfl | rfl | rfl <;> cases hc <;> rfl

theorem Context.noteOutcome_id (c : Context) (o : AttemptOutcome) (t : Option Nat) : (c.noteOutcome o t).id = c.id := by
  cases o with
  | nak cls reason => cases cls <;> rfl
  | _ => rfl

/-- R88: the state in which a miss has been applied to the entry of its station, now `after`, and noted by its exchange; the
attempt has not acted on it yet. -/
def State.missApplied (s : State) (l : LineNo) (h : Handle) (job : Job) (o : AttemptOutcome) (after : Station) : State :=
  ((s.setLine l { s.line l with job := none, turnaround := none, replyTimer := none }).setStation h
    (some after)).noteContext job o none

/-- Noting an outcome touches contexts alone. -/
theorem State.noteContext_setStation (s : State) (job : Job) (o : AttemptOutcome) (t : Option Nat) (h : Handle)
    (x : Option Station) : (s.noteContext job o t).setStation h x = (s.setStation h x).noteContext job o t := by
  cases job <;> rfl

theorem State.station_noteContext (s : State) (job : Job) (o : AttemptOutcome) (t : Option Nat) (h : Handle) :
    (s.noteContext job o t).station h = s.station h := by
  cases job <;> rfl

theorem State.time_noteContext (s : State) (job : Job) (o : AttemptOutcome) (t : Option Nat) :
    (s.noteContext job o t).time = s.time := by
  cases job <;> rfl

theorem State.ends_noteContext (s : State) (job : Job) (o : AttemptOutcome) (t : Option Nat) :
    s.Ends (s.noteContext job o t) := by
  cases job with
  | command id h origin => exact s.ends_updCtx _ _
  | broadcast id => exact .refl s
  | poll h p => exact .refl s
  | link h => exact .refl s
  | probe h => exact .refl s

/-- R88: a miss ends an attempt: the entry applies it, then the attempt acts on it, then the engine enters GUARD. -/
theorem State.endAttempt_miss {s : State} {l : LineNo} {job : Job} {h : Handle} {st : Station} {o : AttemptOutcome}
    (ho : o.isMiss = true) (hj : (s.line l).job = some job) (hh : job.handle = some h) (hst : s.station h = some st)
    (ap : Bool) :
    let after := st.applyOutcome (s.line l).bandTable (s.line l).hysteresis job o none ap s.time
    s.endAttempt l o ap = ((s.missApplied l h job o after).jobActs l h job st after o ap).toGuard l := by
  intro after
  have hdeliver : s.deliver l job o ap = (s.missApplied l h job o after).jobActs l h job st after o ap := by
    simp only [State.deliver, hh, AttemptOutcome.isAnswer_of_isMiss ho, Bool.false_eq_true, if_false, State.updLine_eq,
      State.station_noteContext, State.station_setLine, hst, State.time_noteContext, State.setLine_time,
      State.noteContext_setStation]
    rfl
  rw [State.endAttempt, hj]
  exact congrArg (State.toGuard · l) hdeliver

section
variable {s : State} {l : LineNo} {h : Handle} {job : Job} {o : AttemptOutcome} {after : Station}

theorem State.station_missApplied : (s.missApplied l h job o after).station h = some after := by
  rw [State.missApplied, State.station_noteContext, State.station_setStation_same]

theorem State.line_missApplied : (s.missApplied l h job o after).line l =
    { s.line l with job := none, turnaround := none, replyTimer := none } := by
  have hline : (s.missApplied l h job o after).line l = ((s.setLine l
      { s.line l with job := none, turnaround := none, replyTimer := none }).setStation h (some after)).line l := by
    cases job <;> rfl
  rw [hline, State.line_setStation, State.line_setLine_same]

theorem State.missApplied_counts : (s.missApplied l h job o after).reserved = s.reserved ∧
    (s.missApplied l h job o after).eventWrite = s.eventWrite := by
  cases job <;> exact ⟨rfl, rfl⟩

/-- The contexts but the attempt's own are as they were. -/
theorem State.ctx_missApplied {k : Nat} (hk : ∀ id h' origin, job = .command id h' origin → k ≠ id) :
    (s.missApplied l h job o after).ctx k = s.ctx k := by
  cases job with
  | command id h' origin => exact State.ctx_updCtx_ne (fun c => c.noteOutcome_id o none) (hk id h' origin rfl)
  | broadcast id => rfl
  | poll h' p => rfl
  | link h' => rfl
  | probe h' => rfl

/-- R62: the exchange of a COMMAND attempt remembers the miss. -/
theorem State.ctx_missApplied_own {s : State} {l : LineNo} {h h' : Handle} {id : Nat} {origin : Phase}
    {o : AttemptOutcome} {after : Station} {c : Context} {cause : FailureCause} (ho : o.isMiss = true)
    (hf : o.failure = some cause) (hc : s.ctx id = some c) (hp : c.phase ≠ .ending) :
    (s.missApplied l h (.command id h' origin) o after).ctx id = some { c with lastFailure := some cause } := by
  rw [← Context.noteOutcome_miss ho hf]
  exact State.ctx_updCtx_same (s := (s.setLine l _).setStation h _) (fun c => c.noteOutcome_id o none) hc hp

end

/-- The ABORT that waits for the exchange is the one that waited before. -/
theorem State.aborter_missApplied {s : State} {l : LineNo} {h h' : Handle} {id j : Nat} {origin : Phase}
    {o : AttemptOutcome} {after : Station} (ho : o.isMiss = true)
    (ha : ∀ c, s.ctx id = some c → c.abortRequested ≠ some j) :
    (s.missApplied l h (.command id h' origin) o after).aborter id ≠ some j := by
  have hctx : (s.missApplied l h (.command id h' origin) o after).ctx id = (s.ctx id).map fun c =>
      if c.id = id ∧ c.phase ≠ .ending then c.noteOutcome o none else c :=
    State.ctx_updCtx _ id id _ fun c => c.noteOutcome_id o none
  rw [State.aborter, hctx]
  cases hc : s.ctx id with
  | none => simp
  | some c =>
    have hnoted : (c.noteOutcome o none).abortRequested = c.abortRequested := by
      rcases AttemptOutcome.isMiss_cases ho with rfl | rfl | rfl | rfl <;> rfl
    simp only [Option.map_some, Option.bind_some]
    split
    · rw [hnoted]
      exact ha c hc
    · exact ha c hc

/-! ## What the attempt does with a miss -/

section
variable {s : State} {l : LineNo} {h : Handle} {st after : Station} {o : AttemptOutcome} {ap : Bool}

/-- R28: a COMMAND or link-service attempt that takes its station OFFLINE drains it. -/
theorem State.jobActs_offline {job : Job} (hw : st.state ≠ .offline ∧ after.state = .offline)
    (hj : (∃ id h' origin, job = .command id h' origin) ∨ ∃ h', job = .link h') :
    s.jobActs l h job st after o ap = s.drainOffline h job := by
  rcases hj with ⟨id, h', origin, rfl⟩ | ⟨h', rfl⟩ <;> exact if_pos hw

/-- R66: a COMMAND attempt whose miss leaves the station where it was. -/
theorem State.jobActs_command {id : Nat} {h' : Handle} {origin : Phase} {c : Context} (ho : o.isMiss = true)
    (hw : ¬ (st.state ≠ .offline ∧ after.state = .offline)) (hc : s.ctx id = some c) :
    s.jobActs l h (.command id h' origin) st after o ap = s.exchangeFailed l c after := by
  have hacts : s.jobActs l h (.command id h' origin) st after o ap = s.exchangeActs l c after o := by
    rw [State.jobActs, if_neg hw, hc]
  rw [hacts]
  rcases AttemptOutcome.isMiss_cases ho with rfl | rfl | rfl | rfl <;> rfl

/-- R72: a POLL gives up its reservation, after the drain of a station that it took OFFLINE. -/
theorem State.jobActs_poll {h' : Handle} {p : Bool} (ho : o.isMiss = true) :
    s.jobActs l h (.poll h' p) st after o ap =
      ((if st.state ≠ .offline ∧ after.state = .offline then s.drainOffline h (.poll h' p)
        else s).releaseReservation).settleClosing h := by
  rcases AttemptOutcome.isMiss_cases ho with rfl | rfl | rfl | rfl <;> rfl

/-- R69: a link-service attempt goes on with its loop while the station is ONLINE. -/
theorem State.jobActs_link {h' : Handle} (ho : o.isMiss = true) (hs : after.state = .online) :
    s.jobActs l h (.link h') st after o ap = s.linkLoop after o := by
  simp [State.jobActs, hs, ho]

/-- R43, R45: in CLOSING every attempt but a COMMAND's leaves the entry to settle, after a POLL's reservation. -/
theorem State.jobActs_closing {job : Job} (ho : o.isMiss = true) (hs : after.state = .closing)
    (hj : ∀ id h' origin, job ≠ .command id h' origin) (hh : job.handle = some h) :
    s.jobActs l h job st after o ap = s.settleClosing h ∨
      s.jobActs l h job st after o ap = s.releaseReservation.settleClosing h := by
  cases job with
  | command id h' origin => exact (hj id h' origin rfl).elim
  | broadcast id => cases hh
  | poll h' p => exact .inr (by rw [State.jobActs_poll ho, hs, if_neg (by simp)])
  | link h' => exact .inl (by simp [State.jobActs, hs])
  | probe h' => exact .inl rfl

/-- Nothing but ends, and what a released reservation tells, follows a miss. -/
theorem State.sameButEnds_jobActs {job : Job} (ho : o.isMiss = true) :
    s.SameButEnds (s.jobActs l h job st after o ap) := by
  have drained := State.sameButEnds_of_ends (s.ends_drainOffline h job)
  cases job with
  | command id h' origin =>
    by_cases hw : st.state ≠ .offline ∧ after.state = .offline
    · rw [State.jobActs_offline hw (.inl ⟨id, h', origin, rfl⟩)]
      exact drained
    · cases hc : s.ctx id with
      | none =>
        rw [State.jobActs, if_neg hw, hc]
        exact .refl s
      | some c =>
        rw [State.jobActs_command ho hw hc]
        exact State.sameButEnds_of_ends (s.ends_exchangeFailed ..)
  | broadcast id => exact .refl s
  | poll h' p =>
    rw [State.jobActs_poll ho]
    have first : s.SameButEnds
        (if st.state ≠ .offline ∧ after.state = .offline then s.drainOffline h (.poll h' p) else s) := by
      split
      · exact drained
      · exact .refl s
    exact (first.trans (State.sameButEnds_of_writers (State.writers_releaseReservation _))).trans
      (State.sameButEnds_of_ends (State.ends_settleClosing _ h))
  | link h' =>
    unfold State.jobActs
    simp only
    split
    · exact drained
    · split
      · exact State.sameButEnds_of_ends (s.ends_linkLoop _ _)
      · exact State.sameButEnds_of_ends (s.ends_settleClosing h)
  | probe h' => exact State.sameButEnds_of_ends (s.ends_settleClosing h)

/-- R24, R28: a station that a miss took OFFLINE with its link in doubt stays in doubt. -/
theorem State.keepsDoubt_jobActs_offline {job : Job} (ho : o.isMiss = true) (hw : st.state ≠ .offline ∧ after.state = .offline)
    (hh : job.handle = some h) : s.KeepsDoubt (s.jobActs l h job st after o ap) := by
  have drained := s.keepsDoubt_drainOffline h job
  cases job with
  | command id h' origin =>
    rw [State.jobActs_offline hw (.inl ⟨id, h', origin, rfl⟩)]
    exact drained
  | broadcast id => cases hh
  | poll h' p =>
    rw [State.jobActs_poll ho, if_pos hw]
    exact (drained.trans (State.keepsDoubt_of_writers (State.writers_releaseReservation _))).trans
      (State.keepsDoubt_settleClosing _ h)
  | link h' =>
    rw [State.jobActs_offline hw (.inr ⟨h', rfl⟩)]
    exact drained
  | probe h' => exact s.keepsDoubt_settleClosing h

/-- What the drain of a station that went OFFLINE has handed stays handed. -/
theorem State.Handed.jobActs_offline {job : Job} {k : Nat} {status : Status} {d : Detail} (ho : o.isMiss = true)
    (hw : st.state ≠ .offline ∧ after.state = .offline) (hh : job.handle = some h) (hp : ∀ h', job ≠ .probe h')
    (handed : (s.drainOffline h job).Handed k status d) : (s.jobActs l h job st after o ap).Handed k status d := by
  cases job with
  | command id h' origin => rwa [State.jobActs_offline hw (.inl ⟨id, h', origin, rfl⟩)]
  | broadcast id => cases hh
  | poll h' p =>
    rw [State.jobActs_poll ho, if_pos hw]
    exact (handed.tells (State.tells_releaseReservation _)).tells (State.tells_settleClosing _ h)
  | link h' => rwa [State.jobActs_offline hw (.inr ⟨h', rfl⟩)]
  | probe h' => exact (hp h' rfl).elim

end

/-! ## The drain of a station that went OFFLINE (R28) -/

/-- Entry 29: the exchange of the COMMAND attempt ends first, with its ABORT, then the others of the list. -/
theorem State.drainOffline_command {s : State} {h h' : Handle} {id : Nat} {origin : Phase} :
    s.drainOffline h (.command id h' origin) =
      ((s.endPlain id (if (s.aborter id).isSome then .aborted else .stationOffline)).endAbort (s.aborter id) .ok).endList h
        .stationOffline := by
  unfold State.drainOffline
  simp only
  cases s.aborter id <;> rfl

/-- The drain for an attempt without an exchange is the end of the list. -/
theorem State.drainOffline_other {s : State} {h : Handle} {job : Job} (hj : ∀ id h' origin, job ≠ .command id h' origin) :
    s.drainOffline h job = s.endList h .stationOffline := by
  cases job with
  | command id h' origin => exact (hj id h' origin rfl).elim
  | _ => rfl

section
variable {s : State} {h h' : Handle} {id : Nat} {origin : Phase} {c : Context}

/-- R28, step 5: the exchange whose attempt it was. -/
theorem State.handed_drainOffline_own (hc : s.ctx id = some c) (hl : c.Live) :
    (s.drainOffline h (.command id h' origin)).Handed id
      (if c.abortRequested.isSome then .aborted else .stationOffline) c.failureDetail := by
  have habort : s.aborter id = c.abortRequested := by rw [State.aborter, hc]; rfl
  rw [State.drainOffline_command, habort]
  exact ((State.handed_endPlain hc hl).tells (State.tells_endAbort _ _ _)).tells (State.tells_endList _ h _)

/-- R78: the ABORT that waited for it. -/
theorem State.handed_drainOffline_abort {a : Nat} {d : Context} (hc : s.ctx id = some c) (ha : c.abortRequested = some a)
    (hd : s.ctx a = some d) (hl : d.Live) (hne : a ≠ id) :
    (s.drainOffline h (.command id h' origin)).Handed a .ok .none := by
  have habort : s.aborter id = some a := by rw [State.aborter, hc]; exact ha
  rw [State.drainOffline_command, habort]
  exact (State.handed_endRecord _ a .ok .none ((State.ctx_endPlain_ne hne).trans hd) hl).tells (State.tells_endList _ h _)

/-- R28, step 6: every other context of the list ends with its own last failure cause. -/
theorem State.handed_drainOffline {x : Station} {job : Job} {j : Nat} {d : Context} (hx : s.station h = some x)
    (hj : j ∈ x.pending) (hd : s.ctx j = some d) (hl : d.Live)
    (hown : ∀ id h' origin, job = .command id h' origin → j ≠ id ∧ s.aborter id ≠ some j) :
    (s.drainOffline h job).Handed j .stationOffline d.failureDetail := by
  by_cases hjob : ∃ id h' origin, job = .command id h' origin
  · obtain ⟨id, h', origin, rfl⟩ := hjob
    obtain ⟨hne, habort⟩ := hown id h' origin rfl
    obtain ⟨y, hy, hmem⟩ := State.mem_pending_endPlain (if (s.aborter id).isSome then .aborted else .stationOffline) hx hj hne
    rw [State.drainOffline_command, State.endList_eq (State.station_endAbort.trans hy)]
    exact State.handed_endPlains hmem ((State.ctx_endAbort_ne habort).trans ((State.ctx_endPlain_ne hne).trans hd)) hl
  · rw [State.drainOffline_other fun id h' origin e => hjob ⟨id, h', origin, e⟩, State.endList_eq hx]
    exact State.handed_endPlains hj hd hl

end

/-! ## The exchange of a COMMAND attempt that failed (R66, R71, R78) -/

/-- The status with which a failed exchange ends where it is not retried. -/
def Context.failedStatus (c : Context) (st : Station) : Status :=
  if c.abortRequested.isSome then .aborted
  else if c.attemptsMade < 1 + st.retryLimit then .cancelled
  else .noReply

section
variable {s : State} {l : LineNo} {h : Handle} {c : Context} {st : Station}

/-- R66: a retry is called for. -/
theorem State.exchangeFailed_retry (ha : c.abortRequested = none) (hn : c.attemptsMade < 1 + st.retryLimit)
    (hs : st.state ≠ .closing) : s.exchangeFailed l c st = s.awaitRetry l c.id := by
  simp [State.exchangeFailed, ha, hn, hs]

/-- R66, R71, R78: an exchange that is aborted, of a CLOSING station, or out of attempts ends, then its ABORT. -/
theorem State.exchangeFailed_ended (hc : s.ctx c.id = some c) (hh : c.exchangeHandle = some h)
    (hend : c.abortRequested ≠ none ∨ st.state = .closing ∨ 1 + st.retryLimit ≤ c.attemptsMade) :
    s.exchangeFailed l c st =
      ((s.endPlain c.id (c.failedStatus st)).settleClosing h).endAbort c.abortRequested .ok := by
  rw [← State.endWith_eq _ hc hh]
  unfold State.exchangeFailed Context.failedStatus
  cases ha : c.abortRequested with
  | some a => rfl
  | none =>
    by_cases hn : c.attemptsMade < 1 + st.retryLimit
    · have hs : st.state = .closing := by
        rcases hend with h | h | h
        · exact (h ha).elim
        · exact h
        · omega
      simp [hn, hs, State.endAbort]
    · simp [hn, State.endAbort]

theorem State.handed_exchangeFailed (hc : s.ctx c.id = some c) (hp : c.phase ≠ .ending) (hh : c.exchangeHandle = some h)
    (hend : c.abortRequested ≠ none ∨ st.state = .closing ∨ 1 + st.retryLimit ≤ c.attemptsMade) :
    (s.exchangeFailed l c st).Handed c.id (c.failedStatus st) c.failureDetail := by
  rw [State.exchangeFailed_ended hc hh hend]
  exact ((State.handed_endPlain hc (Context.live_of_exchange hp hh)).tells (State.tells_settleClosing _ h)).tells
    (State.tells_endAbort _ _ _)

/-- R78: the ABORT that waited, where the settling of a CLOSING station has not ended it. -/
theorem State.handed_exchangeFailed_abort {a : Nat} {d : Context} {x : Station} (hc : s.ctx c.id = some c)
    (hp : c.phase ≠ .ending) (hh : c.exchangeHandle = some h) (hx : s.station h = some x) (ha : c.abortRequested = some a)
    (hd : s.ctx a = some d) (hl : d.Live) (hne : a ≠ c.id) (hset : a ∉ x.settling) :
    (s.exchangeFailed l c st).Handed a .ok .none := by
  rw [State.exchangeFailed_ended hc hh (.inl (by simp [ha])), ha, ← State.endWith_eq _ hc hh]
  exact State.handed_endRecord _ a .ok .none ((State.ctx_endWith _ hc hp hh hx hne hset).trans hd) hl

end

/-! ## A CLOSING station at the end of the step -/

/-- R43, R45: the entry settles from state `v`, in which `own` has left the list, and the rest of the step `w` keeps what it
hands and whether the entry is free. -/
theorem State.closingSettles_finish {s v w : State} {h : Handle} {st : Station} {own : Option Nat} {waiting : List Nat}
    {link : Link} (hentry : v.station h = some { st with pending := waiting, link := link }) (hs : st.state = .closing)
    (hwaiting : st.pending.Nodup → waiting.Nodup ∧ ∀ k, k ∈ waiting ↔ k ∈ st.pending ∧ some k ≠ own)
    (hctx : ∀ k, some k ≠ own → v.ctx k = s.ctx k) (hatt : (v.line st.line).attempting h = false)
    (htells : (v.settleClosing h).Tells w) (hstation : w.station h = (v.settleClosing h).station h) :
    s.ClosingSettles w.finish h st own := by
  intro hn hw
  obtain ⟨hnodup, hmem⟩ := hwaiting hn
  have hwait : ∀ k ∈ waiting, ∃ c, v.ctx k = some c ∧ c.WaitsFor h := fun k hk => by
    obtain ⟨hpending, hne⟩ := (hmem k).1 hk
    rw [hctx k hne]
    exact hw k hpending hne
  obtain ⟨hcancelled, hfreed⟩ := State.settleClosing_settles hentry hs hnodup hwait hatt
  refine ⟨fun k c hk hne hc => ?_, fun hattention => ?_⟩
  · exact ((hcancelled k c ((hmem k).2 ⟨hk, hne⟩) ((hctx k hne).trans hc)).tells htells).reports
  · obtain ⟨hnone, hremoved⟩ := hfreed hattention
    refine ⟨State.station_finish_none (hstation.trans hnone), fun r c hr hnot hne hc hl => ?_⟩
    exact ((hremoved r c hr (fun h => hnot ((hmem r).1 h).1) ((hctx r hne).trans hc) hl).tells htells).reports

end Sys2Proof.Machine
end

section
/-! PROOFS. The whole step of a miss: what it moves, and what it reports (R25 to R28, R66, R69, R71, R72, R78, R88; entries 29
and 18). -/

namespace Sys2Proof.Machine

/-! ## The engine's commands that end an attempt in a miss -/

section
variable {s : State} {l : LineNo}

/-- R87: the reply timer expires in AWAIT. -/
theorem exec_replyTimerExpiry_await {now : Nat} (ho : s.Operates) (hs : (s.line l).state = .await)
    (ht : (s.line l).replyTimer = some now) : exec (.replyTimerExpiry l) s =
      .next (((s.reach now).setLine l ((s.line l).quietAtExpiry now)).endAttempt l .noAnswer false).finish := by
  rw [exec_replyTimerExpiry, runCommand_occurs rfl ho.live (by simp [ho.operating, hs, ht])]
  simp only [State.replyExpires, ht, Option.getD_some, State.updLine_eq]
  rfl

/-- R11, R12: a gap in an answer passes 3 C. -/
theorem exec_interCharacterGapExpiry_open (ho : s.Operates) (hg : (s.line l).gapOpen = true) :
    exec (.interCharacterGapExpiry l) s =
      .next ((s.reach ((s.line l).gapSince + 3 * (s.line l).char)).endAttempt l (s.line l).gapOutcome false).finish := by
  rw [exec_interCharacterGapExpiry, runCommand_occurs rfl ho.live (by rw [ho.operating, hg]; rfl)]

/-- R88: the character that ends an answer, good or garbled. -/
theorem exec_characterReceived_ends {octet : Byte} {mark : Bool} {stop : StopBit} {e : Nat} {job : Job}
    {o : AttemptOutcome} {ap : Bool} (ho : s.Operates) (hc : (s.line l).condition = .clear)
    (hr : (s.line l).receiving = true) (he : (s.line l).spaceEdge = some e) (hs : (s.line l).state = .receive)
    (hg : (s.line l).withinGap e = true) (hd : (s.line l).notWithdrawn e stop = true) (hj : (s.line l).job = some job)
    (hw : (s.line l).rxWrong = false)
    (hjudge : judgeCharacter job.sentKind (s.jobAddress job) (s.line l).rxOctets octet mark (framingError stop) = .good o ap ∨
      (judgeCharacter job.sentKind (s.jobAddress job) (s.line l).rxOctets octet mark (framingError stop) = .garbled ∧
        o = .garbled ∧ ap = false)) :
    exec (.characterReceived l octet mark stop) s = .next ((s.characterEnds l e stop).endAttempt l o ap).finish := by
  have hline : (s.characterEnds l e stop).line l = (s.line l).endCharacter e ((s.line l).passMoment e stop) :=
    State.line_setLine_same _ _ _
  obtain ⟨hstate, hjob, hoctets, hwrong, -⟩ := (s.line l).endCharacter_keeps e ((s.line l).passMoment e stop)
  rw [exec_characterReceived_passed ho (by simp [Line.Watches, hs]) hc hr he (by simp [hs]) hg hd,
    State.useCharacter_receive (by rw [hline, hstate, hs])]
  have haddr : (s.characterEnds l e stop).jobAddress job = s.jobAddress job := State.jobAddress_congr rfl job
  rcases hjudge with hjudge | ⟨hjudge, rfl, rfl⟩ <;>
    simp only [State.receiveOctet, hline, hjob, hj, hwrong, hw, hoctets, haddr, hjudge, Bool.false_eq_true, if_false]

end

/-! ## What the miss moves -/

/-- R88: the miss has been applied, the attempt has acted on it, and the engine has entered GUARD. -/
def State.missEnds (s : State) (l : LineNo) (h : Handle) (job : Job) (st after : Station) (o : AttemptOutcome) (ap : Bool) :
    State := ((s.missApplied l h job o after).jobActs l h job st after o ap).toGuard l

section
variable {s : State} {l : LineNo} {h : Handle} {job : Job} {st after : Station} {o : AttemptOutcome} {ap : Bool}

theorem State.sameButEnds_missEnds (ho : o.isMiss = true) (hs : (s.line l).state ≠ .idle) :
    ((s.setLine l
      { s.line l with
        state := .guard, job := none, abandoned := false, guardSince := s.time, turnaround := none
        replyTimer := none, quiescers := [] }).setStation h (some after)).SameButEnds
      (s.missEnds l h job st after o ap).finish := by
  have noted := State.sameButEnds_of_ends (State.ends_noteContext ((s.setLine l
    { s.line l with job := none, turnaround := none, replyTimer := none }).setStation h (some after)) job o none)
  have acted := noted.trans (State.sameButEnds_jobActs (l := l) (h := h) (st := st) (after := after) (ap := ap) (job := job) ho)
  have left := (acted.toGuard (l := l) (by rw [State.line_setStation, State.line_setLine_same]; exact hs)).trans
    (State.sameButEnds_of_writers (State.writers_finish _))
  have hset : ∀ y z, ((s.setLine l y).setStation h (some after)).setLine l z = (s.setLine l z).setStation h (some after) :=
    fun y z => congrArg (State.setStation · h (some after)) (State.setLine_setLine s l y z)
  rw [hset, State.line_setStation, State.line_setLine_same] at left
  exact left

/-- What the attempt has handed is reported when the step has ended. -/
theorem State.Handed.missEnds {k : Nat} {status : Status} {d : Detail}
    (handed : ((s.missApplied l h job o after).jobActs l h job st after o ap).Handed k status d) :
    (s.missEnds l h job st after o ap).finish.Reports k status d :=
  (handed.tells (State.tells_toGuard _ l)).reports

/-- R28: a station that a miss took OFFLINE keeps its link in doubt. -/
theorem State.link_missEnds (ho : o.isMiss = true) (hw : st.state ≠ .offline ∧ after.state = .offline)
    (hh : job.handle = some h) (hlink : after.link = .uncertain) {y : Station}
    (hy : (s.missEnds l h job st after o ap).finish.station h = some y) : y.link = .uncertain := by
  have kept := ((State.keepsDoubt_jobActs_offline (s := s.missApplied l h job o after) (l := l) (ap := ap) ho hw hh).trans
    (State.keepsDoubt_toGuard _ l)).trans (State.keepsDoubt_of_writers (State.writers_finish _))
  obtain ⟨x, hx, hkept⟩ := kept h y hy
  rw [State.station_missApplied] at hx
  cases hx
  exact hkept hlink

/-- R28, step 6: the contexts of the list but the attempt's own and its ABORT end STATION_OFFLINE. -/
theorem State.reports_offline_missEnds {j : Nat} {d : Context} (ho : o.isMiss = true)
    (hw : st.state ≠ .offline ∧ after.state = .offline) (hh : job.handle = some h) (hp : ∀ h', job ≠ .probe h')
    (hj : j ∈ after.pending) (hd : s.ctx j = some d) (hl : d.Live)
    (hown : ∀ id h' origin, job = .command id h' origin → j ≠ id ∧ ∀ c, s.ctx id = some c → c.abortRequested ≠ some j) :
    (s.missEnds l h job st after o ap).finish.Reports j .stationOffline d.failureDetail := by
  have hd' : (s.missApplied l h job o after).ctx j = some d :=
    (State.ctx_missApplied fun id h' origin e => (hown id h' origin e).1).trans hd
  have hdrain : ((s.missApplied l h job o after).drainOffline h job).Handed j .stationOffline d.failureDetail := by
    refine State.handed_drainOffline State.station_missApplied hj hd' hl fun id h' origin e => ?_
    subst e
    exact ⟨(hown id h' origin rfl).1, State.aborter_missApplied ho (hown id h' origin rfl).2⟩
  exact (State.Handed.jobActs_offline ho hw hh hp hdrain).missEnds

/-- R72: a POLL has given up its place, and a report may have taken one. -/
theorem State.reserved_missEnds_poll {h' : Handle} {p : Bool} (ho : o.isMiss = true) :
    (s.missEnds l h (.poll h' p) st after o ap).finish.reserved = s.reserved - 1 ∨
      (s.eventWrite = none ∧ (s.missEnds l h (.poll h' p) st after o ap).finish.eventWrite.isSome = true ∧
        (s.missEnds l h (.poll h' p) st after o ap).finish.reserved = s.reserved - 1 + 1) := by
  have counts : (s.missEnds l h (.poll h' p) st after o ap).reserved = s.reserved - 1 ∧
      (s.missEnds l h (.poll h' p) st after o ap).eventWrite = s.eventWrite := by
    have hends : ∀ u v : State, u.Ends v → v.reserved = u.reserved ∧ v.eventWrite = u.eventWrite := fun u v e => by
      rw [e.rest]
      exact ⟨rfl, rfl⟩
    obtain ⟨happlied, happlied'⟩ :=
      State.missApplied_counts (s := s) (l := l) (h := h) (job := .poll h' p) (o := o) (after := after)
    rw [State.missEnds, (State.toGuard_counts _ l).1, (State.toGuard_counts _ l).2, State.jobActs_poll ho,
      (hends _ _ (State.ends_settleClosing _ h)).1, (hends _ _ (State.ends_settleClosing _ h)).2,
      (State.releaseReservation_counts _).1, (State.releaseReservation_counts _).2]
    split
    · rw [(hends _ _ (State.ends_drainOffline _ h _)).1, (hends _ _ (State.ends_drainOffline _ h _)).2, happlied, happlied']
      exact ⟨rfl, rfl⟩
    · rw [happlied, happlied']
      exact ⟨rfl, rfl⟩
  have taken := State.mayTakePlace_finish (s.missEnds l h (.poll h' p) st after o ap)
  rwa [State.MayTakePlace, counts.1, counts.2] at taken

/-- R71, R43, R45: an attempt other than a COMMAND's to a CLOSING station: the entry settles. -/
theorem State.closingSettles_missEnds (ho : o.isMiss = true) (hs : after.state = .closing)
    (hj : ∀ id h' origin, job ≠ .command id h' origin) (hh : job.handle = some h) (hl : after.line = l) :
    s.ClosingSettles (s.missEnds l h job st after o ap).finish h after none := by
  have settled : ∀ v : State, v.station h = some after → (∀ k, v.ctx k = s.ctx k) → (v.line l).attempting h = false →
      s.ClosingSettles ((v.settleClosing h).toGuard l).finish h after none := fun v hentry hctx hatt =>
    State.closingSettles_finish (v := v) (waiting := after.pending) (link := after.link) hentry hs
      (fun hn => ⟨hn, fun k => by simp⟩) (fun k _ => hctx k) (by rw [hl]; exact hatt) (State.tells_toGuard _ l)
      (State.station_toGuard _ l h)
  have hentry : (s.missApplied l h job o after).station h = some after := State.station_missApplied
  have hctx : ∀ k, (s.missApplied l h job o after).ctx k = s.ctx k := fun k =>
    State.ctx_missApplied fun id h' origin e => (hj id h' origin e).elim
  have hatt : ((s.missApplied l h job o after).line l).attempting h = false := by
    rw [State.line_missApplied]
    simp [Line.attempting]
  rcases State.jobActs_closing (s := s.missApplied l h job o after) (l := l) (st := st) (ap := ap) ho hs hj hh with e | e
  · rw [State.missEnds, e]
    exact settled _ hentry hctx hatt
  · rw [State.missEnds, e]
    obtain ⟨hstation, hreleased, hattempt⟩ := (s.missApplied l h job o after).releaseReservation_frame l h
    exact settled _ (hstation.trans hentry) (fun k => (hreleased k).trans (hctx k)) (hattempt.trans hatt)

end

/-! ## What the miss of a COMMAND attempt does with its exchange -/

section
variable {s : State} {l : LineNo} {h : Handle} {id : Nat} {origin : Phase} {st after : Station} {o : AttemptOutcome}
  {ap : Bool} {c : Context} {cause : FailureCause}

/-- Entry 29: at the limit the exchange ends STATION_OFFLINE with that cause, or ABORTED. -/
theorem State.reports_command_offline {status : Status} (ho : o.isMiss = true) (hf : o.failure = some cause)
    (hw : st.state ≠ .offline ∧ after.state = .offline) (hc : s.ctx id = some c) (hl : c.Live)
    (hstatus : (if c.abortRequested.isSome then .aborted else .stationOffline) = status) :
    (s.missEnds l h (.command id h origin) st after o ap).finish.Reports id status (.failure cause) := by
  subst hstatus
  refine State.Handed.missEnds ?_
  rw [State.jobActs_offline hw (.inl ⟨id, h, origin, rfl⟩)]
  exact State.handed_drainOffline_own (State.ctx_missApplied_own ho hf hc hl.1) hl

/-- R78: then its ABORT ends. -/
theorem State.reports_command_offline_abort {a : Nat} {d : Context} (ho : o.isMiss = true) (hf : o.failure = some cause)
    (hw : st.state ≠ .offline ∧ after.state = .offline) (hc : s.ctx id = some c) (hp : c.phase ≠ .ending)
    (ha : c.abortRequested = some a) (hd : s.ctx a = some d) (hl : d.Live) (hne : a ≠ id) :
    (s.missEnds l h (.command id h origin) st after o ap).finish.Reports a .ok .none := by
  refine State.Handed.missEnds ?_
  rw [State.jobActs_offline hw (.inl ⟨id, h, origin, rfl⟩)]
  refine State.handed_drainOffline_abort (State.ctx_missApplied_own ho hf hc hp) ha ?_ hl hne
  rw [State.ctx_missApplied fun id' h' origin' e => by cases e; exact hne, hd]

variable (hw : ¬ (st.state ≠ .offline ∧ after.state = .offline))
include hw

/-- R66: the exchange is to be retried. -/
theorem State.missEnds_retry (ho : o.isMiss = true) (hf : o.failure = some cause) (hc : s.ctx id = some c)
    (hp : c.phase ≠ .ending) (ha : c.abortRequested = none) (hn : c.attemptsMade < 1 + after.retryLimit)
    (hs : after.state ≠ .closing) (hq : id ∉ (s.line l).quiescers) :
    (s.missEnds l h (.command id h origin) st after o ap).finish.phaseOf id = some .waitingRetry ∧
      ((s.missEnds l h (.command id h origin) st after o ap).finish.line l).retryList =
        if id ∈ (s.line l).retryList then (s.line l).retryList else (s.line l).retryList ++ [id] := by
  have hown := State.ctx_missApplied_own (l := l) (h := h) (h' := h) (origin := origin) (after := after) ho hf hc hp
  have hacts : (s.missApplied l h (.command id h origin) o after).jobActs l h (.command id h origin) st after o ap =
      (s.missApplied l h (.command id h origin) o after).awaitRetry l id := by
    rw [State.jobActs_command ho hw hown,
      State.exchangeFailed_retry (c := { c with lastFailure := some cause }) ha hn hs, ← State.ctx_id hc]
  have hline : ((s.missApplied l h (.command id h origin) o after).awaitRetry l id).line l =
      { s.line l with
        job := none, turnaround := none, replyTimer := none, retryList := joinTail (s.line l).retryList id } := by
    simp only [State.awaitRetry, State.updLine_eq, State.line_setLine_same, State.line_updCtx, State.line_missApplied]
  rw [State.missEnds, hacts]
  refine ⟨?_, ?_⟩
  · rw [State.phaseOf, State.ctx_finish, State.ctx_toGuard (by rw [hline]; exact hq), State.awaitRetry, State.updLine_eq,
      State.ctx_setLine, State.ctx_updCtx_same (f := fun c => { c with phase := .waitingRetry }) (fun _ => rfl) hown hp]
    rfl
  · rw [State.retryList_finish, State.toGuard_eq, State.line_setLine_same, hline]
    simp [Line.enterGuard, joinTail]

/-- R66, R71, R78: the exchange ends, with the cause of the miss. -/
theorem State.reports_command_ended {status : Status} (ho : o.isMiss = true) (hf : o.failure = some cause) (hc : s.ctx id = some c)
    (hp : c.phase ≠ .ending) (hh : c.exchangeHandle = some h)
    (hend : c.abortRequested ≠ none ∨ after.state = .closing ∨ 1 + after.retryLimit ≤ c.attemptsMade)
    (hstatus : c.failedStatus after = status) :
    (s.missEnds l h (.command id h origin) st after o ap).finish.Reports id status (.failure cause) := by
  subst hstatus
  have hown := State.ctx_missApplied_own (l := l) (h := h) (h' := h) (origin := origin) (after := after) ho hf hc hp
  obtain rfl := State.ctx_id hc
  refine State.Handed.missEnds ?_
  rw [State.jobActs_command ho hw hown]
  exact State.handed_exchangeFailed (c := { c with lastFailure := some cause }) hown hp hh hend

/-- R78: the ABORT that waited ends, where the settling of a CLOSING station has not ended it. -/
theorem State.reports_command_abort {a : Nat} {d : Context} (ho : o.isMiss = true) (hf : o.failure = some cause)
    (hc : s.ctx id = some c) (hp : c.phase ≠ .ending) (hh : c.exchangeHandle = some h) (ha : c.abortRequested = some a)
    (hd : s.ctx a = some d) (hl : d.Live) (hne : a ≠ id) (hset : a ∉ after.settling) :
    (s.missEnds l h (.command id h origin) st after o ap).finish.Reports a .ok .none := by
  have hown := State.ctx_missApplied_own (l := l) (h := h) (h' := h) (origin := origin) (after := after) ho hf hc hp
  have hd' : (s.missApplied l h (.command id h origin) o after).ctx a = some d := by
    rw [State.ctx_missApplied fun id' h' origin' e => by cases e; exact hne, hd]
  obtain rfl := State.ctx_id hc
  refine State.Handed.missEnds ?_
  rw [State.jobActs_command ho hw hown]
  exact State.handed_exchangeFailed_abort (c := { c with lastFailure := some cause }) hown hp hh State.station_missApplied ha
    hd' hl hne hset

/-- R71, R43, R45: where the station is CLOSING the end of its exchange settles the entry. -/
theorem State.closingSettles_command (ho : o.isMiss = true) (hf : o.failure = some cause) (hc : s.ctx id = some c)
    (hp : c.phase ≠ .ending) (hh : c.exchangeHandle = some h) (hs : after.state = .closing) (hl : after.line = l) :
    s.ClosingSettles (s.missEnds l h (.command id h origin) st after o ap).finish h after (some id) := by
  have hown := State.ctx_missApplied_own (l := l) (h := h) (h' := h) (origin := origin) (after := after) ho hf hc hp
  obtain rfl := State.ctx_id hc
  obtain ⟨link, hlink⟩ := State.station_endPlain (c := { c with lastFailure := some cause })
    (({ c with lastFailure := some cause } : Context).failedStatus after) hown hp hh State.station_missApplied
  rw [State.missEnds, State.jobActs_command ho hw hown,
    State.exchangeFailed_ended (c := { c with lastFailure := some cause }) hown hh (.inr (.inl hs))]
  refine State.closingSettles_finish hlink hs (fun hn => ⟨hn.erase _, fun k => ?_⟩) (fun k hk => ?_) ?_
    ((State.tells_endAbort _ _ _).trans (State.tells_toGuard _ l)) ?_
  · rw [hn.mem_erase_iff, ne_eq, ne_eq, Option.some.injEq, and_comm]
  · have hne : k ≠ c.id := fun e => hk (by rw [e])
    rw [State.ctx_endPlain_ne hne, State.ctx_missApplied fun id' h' origin' e => by cases e; exact hne]
  · rw [(State.ends_endPlain _ _ _).attempting, hl, State.line_missApplied]
    simp [Line.attempting]
  · rw [State.station_toGuard, State.station_endAbort]

end

/-! ## The link-service loop (R69) -/

section
variable {s : State} {l : LineNo} {h h' : Handle} {st after : Station} {o : AttemptOutcome} {ap : Bool} {id : Nat}
  {rest : List Nat} {c : Context}

/-- R69: the link attempts of the head exchange are used up. -/
theorem State.reports_linkLoop {cause : FailureCause} (ho : o.isMiss = true) (hf : o.failure = some cause)
    (hs : after.state = .online) (hpending : after.pending = id :: rest) (hc : s.ctx id = some c)
    (hl : c.Live) (hn : 1 + after.retryLimit ≤ c.linkAttempts) :
    (s.missEnds l h (.link h') st after o ap).finish.Reports id .noReply (.failure cause) := by
  have hc' : (s.missApplied l h (.link h') o after).ctx id = some c := hc
  refine State.Handed.missEnds ?_
  rw [State.jobActs_link ho hs, State.linkLoop, hpending]
  simp only [hc', if_neg (not_lt.2 hn), hf]
  exact State.handed_endWith _ id .noReply (c := { c with lastFailure := some cause })
    (State.ctx_updCtx_same (f := fun c => { c with lastFailure := some cause }) (fun _ => rfl) hc' hl.1) hl

/-- R69: the loop goes on, and the head exchange is as it was. -/
theorem State.ctx_linkLoop (ho : o.isMiss = true) (hs : after.state = .online) (hpending : after.pending = id :: rest)
    (hc : s.ctx id = some c) (hn : c.linkAttempts < 1 + after.retryLimit) (hq : id ∉ (s.line l).quiescers) :
    (s.missEnds l h (.link h') st after o ap).finish.ctx id = some c := by
  have hc' : (s.missApplied l h (.link h') o after).ctx id = some c := hc
  have hloop : (s.missApplied l h (.link h') o after).linkLoop after o = s.missApplied l h (.link h') o after := by
    rw [State.linkLoop, hpending]
    simp only [hc', if_pos hn]
  rw [State.ctx_finish, State.missEnds, State.jobActs_link ho hs, hloop,
    State.ctx_toGuard (by rw [State.line_missApplied]; exact hq), hc']

end

end Sys2Proof.Machine
end

section
/-! PROOFS. Misses are counted (O44): the entry, then the step of each of the three commands that end an attempt in a miss. -/

namespace Sys2Proof.Machine

/-- What the rest of a miss reads of the line is as it was before the miss's own moment. -/
def Line.SameAttempt (x y : Line) : Prop :=
  y.state = x.state ∧ y.job = x.job ∧ y.bandTable = x.bandTable ∧ y.hysteresis = x.hysteresis ∧
    y.quiescers = x.quiescers ∧ y.retryList = x.retryList

theorem Line.SameAttempt.refl (x : Line) : x.SameAttempt x := ⟨rfl, rfl, rfl, rfl, rfl, rfl⟩

theorem Line.sameAttempt_endCharacter (x : Line) (e pass : Nat) : x.SameAttempt (x.endCharacter e pass) :=
  ⟨rfl, rfl, rfl, rfl, rfl, rfl⟩

theorem Line.sameAttempt_quietAtExpiry (x : Line) (t : Nat) : x.SameAttempt (x.quietAtExpiry t) := by
  unfold Line.quietAtExpiry
  split <;> exact ⟨rfl, rfl, rfl, rfl, rfl, rfl⟩

/-- R3, R88: the character that ends an answer, dated by the moment at which it is passed on, good or with a framing error that
was held short of 2 C. -/
theorem exec_characterReceived_dated {s : State} {l : LineNo} {octet : Byte} {mark ferr : Bool} {e held now : Nat} {job : Job}
    {addr : BitVec 7} {o : AttemptOutcome} {ap : Bool} (ho : s.Operates) (hs : (s.line l).state = .receive)
    (hc : (s.line l).condition = .clear) (hr : (s.line l).receiving = true) (he : (s.line l).spaceEdge = some e)
    (hg : (s.line l).rxOctets = [] ∨ e ≤ (s.line l).gapSince + 3 * (s.line l).char)
    (hnow : now = if ferr then e + 21 * (s.line l).bit / 2 + held else e + 21 * (s.line l).bit / 2)
    (hshort : ferr = false ∨ now < e + 2 * (s.line l).char) (hj : (s.line l).job = some job)
    (hw : (s.line l).rxWrong = false) (haddr : s.jobAddress job = addr)
    (hjudge : (judgeCharacter job.sentKind addr (s.line l).rxOctets octet mark ferr = .garbled ∧ o = .garbled ∧ ap = false) ∨
      (judgeCharacter job.sentKind addr (s.line l).rxOctets octet mark ferr = .good .unexpected ap ∧ o = .unexpected)) :
    exec (.characterReceived l octet mark (if ferr then .error held else .good)) s =
      .next (((s.reach now).setLine l ((s.line l).endCharacter e now)).endAttempt l o ap).finish := by
  subst haddr
  have hpass : (s.line l).passMoment e (if ferr then .error held else .good) = now := by
    rw [hnow]
    cases ferr <;> rfl
  have hferr : framingError (if ferr then .error held else .good) = ferr := by cases ferr <;> rfl
  have hd : (s.line l).notWithdrawn e (if ferr then .error held else .good) = true := by
    rw [Line.notWithdrawn_iff, hpass, hferr]
    rintro ⟨hf, hlong⟩
    rcases hshort with h | h
    · cases h.symm.trans hf
    · omega
  rw [exec_characterReceived_ends ho hc hr he hs (((s.line l).withinGap_iff e).2 (.inr hg)) hd hj hw (o := o) (ap := ap),
    State.characterEnds, hpass]
  rw [hferr]
  rcases hjudge with hjudge | ⟨hjudge, rfl⟩
  · exact .inr hjudge
  · exact .inl hjudge

/-- The address of an attempt is that of its station's entry (R4). -/
theorem State.jobAddress_eq {s : State} {job : Job} {h : Handle} {st : Station} (hh : job.handle = some h)
    (hst : s.station h = some st) : s.jobAddress job = st.address := by
  simp [State.jobAddress, hh, hst]

/-- R11, R12: a character of the answer has ended and none is being received. -/
theorem Line.gapOpen_of {x : Line} (hs : x.state = .receive) (hc : x.condition = .clear) (hr : x.receiving = false)
    (hoctets : x.rxOctets ≠ []) : x.gapOpen = true := by
  simp [Line.gapOpen, hs, hc, hr, hoctets]

end Sys2Proof.Machine

open Sys2Proof Sys2Proof.Machine

/-- Settles O44: `Station.applyOutcome` of a miss, then `State.missEnds` for each of the three commands. -/
theorem missesAreCounted : Obligations.MissesAreCounted := by
  refine ⟨?_, ?_⟩
  · intro st table hysteresis now job o ap ho z b final probing
    have hz : st.state ≠ .closing → z = (b.afterJob job o now).applyAp ap now := Station.applyOutcome_miss_band ho
    refine ⟨fun hs => Station.applyOutcome_closing_miss ho hs table hysteresis job ap, fun hs => ?_, fun hmatch => ?_,
      fun h hj hs => ?_⟩
    · rw [show z.band = _ from Station.band_applyOutcome_miss ho hs]
      split <;> rfl
    · obtain ⟨hm, hoff, hhold⟩ : job.madeIn st.state ∧ st.state ≠ .offline ∧ st.state ≠ .hold := by
        cases job with
        | command id h origin => exact ⟨hmatch, by simp [show st.state = .online from hmatch]⟩
        | poll h p => exact ⟨hmatch, by simp [show st.state = .online from hmatch]⟩
        | link h => exact ⟨hmatch, by rcases hmatch with hm | hm <;> simp [hm]⟩
        | probe h => exact hmatch.elim
        | broadcast id => exact hmatch.elim
      have hs := Job.madeIn_ne_closing hm
      refine ⟨fun hl => ⟨fun h pseq hj => ?_, fun hp => ?_⟩, fun hl => ?_⟩
      · subst hj
        have honline : b.state = .online := hm
        have hjob : b.afterJob (.poll h pseq) o now = b.afterPoll o now := by simp [Station.afterJob, honline]
        rw [hz hs, hjob, Station.afterPoll_below ho honline hl, Station.applyAp_eq (by exact hhold)]
        rfl
      · rw [hz hs, Station.afterJob_below (st := b) ho hm hoff hl hp, Station.applyAp_eq (by exact hhold)]
      · rw [hz hs, Station.afterJob_limit (st := b) ho hm hoff hl, Station.miss_limit (st := b) hl,
          Station.applyAp_absent (by simp) (by simp)]
        rfl
    · subst hj
      have hoff : b.state = .offline := hs
      have hjob : b.afterJob (.probe h) o now = b.afterProbe o now := by simp [Station.afterJob, hoff]
      rw [hz (by simp [hs]), hjob, Station.afterProbe_miss ho, Station.applyAp_absent (by simp [hoff]) (by simp [hoff])]
      rfl
  · intro s l job h st cmd o cause ap now y x u ho hj hh hst hline hf hcases hmatch after atLimit
    have hmade : st.state = .closing ∨ job.madeIn st.state := hmatch
    obtain ⟨hmiss, hexec, hsame, hbusy⟩ : o.isMiss = true ∧
        exec cmd s = .next ((u.setLine l y).endAttempt l o ap).finish ∧ x.SameAttempt y ∧ x.state ≠ .idle := by
      rcases hcases with ⟨rfl, rfl, rfl, hs, ht, rfl⟩ | ⟨rfl, rfl, rfl, hs, hc, hr, hoctets, rfl, rfl⟩ |
        ⟨octet, mark, ferr, e, held, rfl, hs, hc, hr, he, hw, hgap, rfl, hshort, rfl, hjudge⟩
      · exact ⟨rfl, exec_replyTimerExpiry_await ho hs ht, x.sameAttempt_quietAtExpiry now, by simp [hs]⟩
      · have hself : u.setLine l x = u := State.setLine_line_self u l
        refine ⟨by split <;> rfl, ?_, .refl x, by simp [hs]⟩
        rw [exec_interCharacterGapExpiry_open ho (Line.gapOpen_of hs hc hr hoctets), hself]
        rfl
      · refine ⟨?_, ?_, x.sameAttempt_endCharacter e _, by simp [hs]⟩
        · rcases hjudge with ⟨-, rfl, -⟩ | ⟨-, rfl⟩ <;> rfl
        · exact exec_characterReceived_dated ho hs hc hr he hgap rfl hshort hj hw (State.jobAddress_eq hh hst) hjudge
    obtain ⟨hystate, hyjob, hytable, hyhyst, hyq, hyretry⟩ := hsame
    have hyline : (u.setLine l y).line l = y := State.line_setLine_same _ _ _
    have hends : (u.setLine l y).endAttempt l o ap = (u.setLine l y).missEnds l h job st after o ap := by
      rw [State.endAttempt_miss (s := u.setLine l y) hmiss (by rw [hyline, hyjob, hj]) hh hst, hyline, hytable, hyhyst]
      rfl
    have missed : st.Missed after := Station.missed_applyOutcome hmiss hmade
    have moved := State.sameButEnds_missEnds (s := u.setLine l y) (l := l) (h := h) (job := job) (st := st) (after := after)
      (ap := ap) hmiss (by rw [hyline, hystate]; exact hbusy)
    rw [hyline, State.setLine_setLine] at moved
    refine ⟨_, by rw [hexec, hends], moved,
      fun hat => ⟨fun st' => State.link_missEnds hmiss (missed.offline hat).1 hh (missed.offline hat).2,
        fun j d hjp hd hp hjh hown => ?_⟩,
      fun id origin c hjob hc hp hch => ?_, fun hnot hs => ?_, fun pseq hjob => ?_,
      fun id rest c hjob hs hl hpend hc hp hch => ?_⟩
    · have hnoprobe : ∀ h', job ≠ .probe h' := by
        rintro h' rfl
        exact hat.2.1 (hmade.resolve_left hat.2.2)
      refine State.reports_offline_missEnds hmiss (missed.offline hat).1 hh hnoprobe (by rwa [missed.pending]) hd
        (Context.live_of_exchange hp hjh) fun id h' origin hjob => ?_
      subst hjob
      obtain rfl : h' = h := Option.some.inj hh
      exact hown id origin rfl
    · subst hjob
      have hstay := fun hat => missed.not_wentOffline hat
      have hlive := Context.live_of_exchange hp hch
      refine ⟨fun ha hat => ?_, fun ha hat hs hn hq => ?_, fun ha hs hn => ?_, fun ha hat hn => ?_, fun a ha => ⟨?_, ?_⟩,
        fun hs => ?_⟩
      · exact State.reports_command_offline hmiss hf (missed.offline hat).1 hc hlive (by simp [ha])
      · have hretry := State.missEnds_retry (s := u.setLine l y) (ap := ap) (h := h) (origin := origin) (hstay hat) hmiss hf hc
          hp ha (by rwa [missed.retryLimit]) (by rw [missed.stays hat, hs]; simp) (by rw [hyline, hyq]; exact hq)
        rwa [hyline, hyretry] at hretry
      · exact State.reports_command_ended (hstay (Station.not_atMissLimit_of_closing hs)) hmiss hf hc hp hch
          (.inr (.inl (by rw [missed.closing hs, hs]))) (by simp [Context.failedStatus, ha, missed.retryLimit, hn])
      · exact State.reports_command_ended (hstay hat) hmiss hf hc hp hch (.inr (.inr (by rwa [missed.retryLimit])))
          (by simp [Context.failedStatus, ha, missed.retryLimit, hn])
      · by_cases hat : st.atMissLimit
        · exact State.reports_command_offline hmiss hf (missed.offline hat).1 hc hlive (by simp [ha])
        · exact State.reports_command_ended (hstay hat) hmiss hf hc hp hch (.inl (by simp [ha]))
            (by simp [Context.failedStatus, ha])
      · intro d hd hl hne hset
        by_cases hat : st.atMissLimit
        · exact State.reports_command_offline_abort hmiss hf (missed.offline hat).1 hc hp ha hd hl hne
        · exact State.reports_command_abort (hstay hat) hmiss hf hc hp hch ha hd hl hne (by rwa [missed.settling hat])
      · exact State.closingSettles_command (s := u.setLine l y) (hstay (Station.not_atMissLimit_of_closing hs)) hmiss hf hc hp
          hch (by rw [missed.closing hs, hs]) (by rw [missed.closing hs, hline])
    · have hother : ∀ id h' origin, job ≠ .command id h' origin := by
        rintro id h' origin rfl
        obtain rfl : h' = h := Option.some.inj hh
        exact hnot id origin rfl
      exact State.closingSettles_missEnds (s := u.setLine l y) hmiss (by rw [missed.closing hs, hs]) hother hh
        (by rw [missed.closing hs, hline])
    · subst hjob
      exact State.reserved_missEnds_poll (s := u.setLine l y) hmiss
    · subst hjob
      have hat : ¬ st.atMissLimit := fun hat => not_le.2 hl hat.1
      have hafter : after.state = .online := (missed.stays hat).trans hs
      refine ⟨fun hn => ?_, fun hn hq => ?_⟩
      · exact State.reports_linkLoop hmiss hf hafter (missed.pending.trans hpend) hc (Context.live_of_exchange hp hch)
          (by rwa [missed.retryLimit])
      · exact State.ctx_linkLoop (s := u.setLine l y) hmiss hafter (missed.pending.trans hpend) hc (by rwa [missed.retryLimit])
          (by rw [hyline, hyq]; exact hq)
end

section
/-! PROOFS. Every command keeps the invariants of Safety (R19, R26, R35, R46, R82, R102, R151; entry 11): what the shared
operations keep, put together by the rows of the table. -/

namespace Sys2Proof.Machine

/-! ## Records of a known kind -/

/-- R140: a record of kind `k` that is taken has passed the field ranges and the checks of its kind. -/
theorem State.verdict_of_recordOf {s : State} {code : Byte} {r : List Byte} {k : RecordKind} (hv : s.verdict r = none)
    (hw : recordOf code r = true) (hk : kindOfCode code = some k) : fieldsInRange k r = true ∧ s.checkKind k r = none :=
  State.verdict_taken hv (by rw [recordOf_kind hw, hk])

/-- R140, check 2: the handle of a taken record is in use and not CLOSING. -/
theorem State.checkHandle_taken {s : State} {h : Handle} {x : Station} (hc : s.checkHandle h = none)
    (hx : s.station h = some x) : x.state ≠ .closing := by
  intro hs
  rw [State.checkHandle, hx] at hc
  simp [hs] at hc

/-- R140, checks 3 and 4 read the station table alone. -/
theorem State.checkNew_congr {s u : State} (h : u.stations = s.stations) (r : List Byte) : u.checkNew r = s.checkNew r := by
  have hstation : u.station = s.station := by
    funext k
    rw [State.station, State.station, h]
  simp only [State.checkNew, State.pairHolder, hstation]

/-- The common frame of the record commands keeps the invariants when the record's act does wherever it is taken. -/
theorem keeps_runRecord {c : Instr} {r : List Byte} {act : State → Nat → State} {s t : State}
    (h : runRecord c r act s = .next t)
    (k : ∀ (u : State) id, c.wellFormed = true → s.verdict r = none → u.stations = s.stations → u.lines = s.lines →
      u.Keeps (act u id)) : s.Keeps t :=
  keeps_runCommand h fun _ => s.keeps_takeRecord r act fun u id => k u id (runCommand_next h).1

/-! ## The engine states in which commands occur -/

theorem State.preparing_of_reads {s : State} {l : LineNo} (h : s.reads l = true) : (s.line l).state = .preparing := by
  simp only [State.reads, Bool.and_eq_true, beq_iff_eq] at h
  obtain ⟨⟨-, hs⟩, -⟩ := h
  exact hs

theorem State.idle_of_mayChoose {s : State} {l : LineNo} (h : s.mayChoose l = true) : (s.line l).state = .idle := by
  simp only [State.mayChoose, Bool.and_eq_true, beq_iff_eq] at h
  obtain ⟨⟨⟨⟨⟨⟨⟨hs, -⟩, -⟩, -⟩, -⟩, -⟩, -⟩, -⟩ := h
  exact hs

theorem Line.receive_of_gapOpen {x : Line} (h : x.gapOpen = true) : x.state = .receive := by
  simp only [Line.gapOpen, Bool.and_eq_true, beq_iff_eq] at h
  obtain ⟨⟨⟨hs, -⟩, -⟩, -⟩ := h
  exact hs

theorem Line.guard_of_guardMayEnd {x : Line} (h : x.guardMayEnd = true) : x.state = .guard := by
  simp only [Line.guardMayEnd, Bool.and_eq_true, beq_iff_eq] at h
  obtain ⟨⟨⟨hs, -⟩, -⟩, -⟩ := h
  exact hs

/-! ## The commands -/

/-- What the receiver's commands do to a line and no more keeps the invariants. -/
theorem State.keeps_reachLine (s : State) (l : LineNo) (t : Nat) (f : Line → Line)
    (hf : ∀ x, (f x).state = x.state ∧ (f x).driverEnable = x.driverEnable ∧ (f x).txd = x.txd) :
    s.Keeps ((s.reach t).updLine l f) :=
  (s.keeps_lineUpdate l t f (fun x => (hf x).1) (fun x => (hf x).2.1) fun x => (hf x).2.2).keeps

/-- Every command keeps the driver rule, the pairs, the miss counts, the timers, the interrupt output and the memory's form. -/
theorem exec_keeps {c : Instr} {s t : State} (h : exec c s = .next t) : s.Keeps t := by
  unfold exec at h
  cases c with
  | hardwareReset => cases h; exact s.keeps_hardReset
  | resetRelease => cases h; exact State.keeps_same rfl rfl rfl rfl rfl rfl
  | softReset v => exact keeps_runCommand h fun _ => s.keeps_softReset
  | enableWritten1 v => exact keeps_runCommand h fun _ => s.keeps_enableOne
  | enableWritten0 v => exact keeps_runCommand h fun _ => s.keeps_enableZero
  | setupAddrWrite v => exact keeps_runCommand h fun _ => s.keeps_writeSetupAddr v
  | postTail v => exact keeps_runCommand h fun _ => s.keeps_postTail v
  | postRestart v => exact keeps_runCommand h fun _ => s.keeps_postRestart v
  | retire v => exact keeps_runCommand h fun _ => s.keeps_retire v
  | intStatusWrite v => exact keeps_runCommand h fun _ => s.keeps_drivePin _ rfl rfl rfl
  | intEnableWrite v => exact keeps_runCommand h fun _ => s.keeps_drivePin _ rfl rfl rfl
  | registerWriteIgnored offset v => exact keeps_runCommand h fun _ => s.keeps_reject
  | setupReadEnd result => exact keeps_runCommand h fun _ => s.keeps_setupEnds result
  | fetchChoice => exact keeps_runCommand h fun _ => s.keeps_fetchLook
  | recordReadError => exact keeps_runCommand h fun _ => s.keeps_recordReadFails.trans (State.keeps_finish _)
  | unknownKind r => exact keeps_runRecord h fun u _ _ _ _ _ => .refl u
  | exchange r => exact keeps_runRecord h fun u id _ _ _ _ => u.keeps_acceptExchange (recHandle r) id
  | broadcast r =>
    exact keeps_runRecord h fun u id _ _ _ _ => u.keeps_updLine _ _ fun hx => by
      simpa [Line.driverRule, Line.queueBroadcast] using hx
  | addStation r =>
    refine keeps_runRecord h fun u id hw hv hstations _ => ?_
    obtain ⟨hfields, hnew⟩ := State.verdict_of_recordOf hv hw (k := .addStation) rfl
    exact (u.keeps_addStation r ((State.checkNew_congr hstations r).trans hnew) hfields).trans (State.keeps_endOk _ id)
  | removeStation r =>
    refine keeps_runRecord h fun u id hw hv hstations _ => ?_
    have hcheck := (State.verdict_of_recordOf hv hw (k := .removeStation) rfl).2
    refine State.Keeps.trans (u.keeps_setStation _ _ fun z hz => ?_) (State.keeps_ends (State.ends_settleClosing _ _))
    obtain ⟨x, hx, rfl⟩ := Option.map_eq_some_iff.1 hz
    have hx' : s.station (recHandle r) = some x := by rwa [State.station, ← hstations]
    exact ⟨x, hx, x.keeps_enterClosing id (State.checkHandle_taken hcheck hx')⟩
  | pauseStation r =>
    refine keeps_runRecord h fun u id _ _ _ _ => State.Keeps.trans ?_ (State.keeps_endOk _ id)
    exact u.keeps_updStation _ _ fun x => .plain rfl rfl rfl rfl rfl rfl rfl rfl rfl
  | resumeStation r =>
    refine keeps_runRecord h fun u id _ _ _ _ => State.Keeps.trans ?_ (State.keeps_endOk _ id)
    unfold State.resumeStation
    split
    · exact .refl u
    · next x hx =>
      have cleared : u.Keeps (u.setStation (recHandle r) (some { x with paused := false })) :=
        u.keeps_setStation _ _ fun z hz => ⟨x, hx, by cases hz; exact .plain rfl rfl rfl rfl rfl rfl rfl rfl rfl⟩
      simp only
      split
      · exact cleared.trans (State.rests_notify _ _).keeps
      · exact cleared
  | setLineDisable r =>
    exact keeps_runRecord h fun u id _ _ _ _ => (u.keeps_disableLine _).trans (State.keeps_endOk _ id)
  | setLineEnable r =>
    exact keeps_runRecord h fun u id _ _ _ _ => (u.rests_updLine _ _ (fun x => x.configure_state id)
      (fun x => x.configure_driver id) fun x => x.configure_txd id).keeps
  | quiesceLine r => exact keeps_runRecord h fun u id _ _ _ _ => u.keeps_quiesceLine _ id
  | resumeLine r =>
    refine keeps_runRecord h fun u id hw hv _ hlines => ?_
    have hcheck := (State.verdict_of_recordOf hv hw (k := .resumeLine) rfl).2
    have hpermits := State.checkLine_taken (k := .resumeLine) (l := recLine r) hcheck
    refine u.keeps_resumeLine _ id ?_
    rw [State.line, hlines]
    simpa [linePermits, State.line] using hpermits
  | lineReset r => exact keeps_runRecord h fun u id _ _ _ _ => u.keeps_resetLine _ id
  | abort r => exact keeps_runRecord h fun u id _ _ _ _ => State.keeps_ends (u.ends_abortRecord _ _ id)
  | fence r => exact keeps_runRecord h fun u id _ _ _ _ => State.keeps_ends (u.ends_fenceRecord id)
  | bandTableReadEnd l result => exact keeps_runCommand h fun _ => s.keeps_tableReadEnds l result
  | schedulerChoice l wait =>
    refine keeps_runCommand h fun ho => ?_
    have hidle := State.idle_of_mayChoose ho
    have released : (s.reach (s.time + wait)).Released l := State.released_of (by rw [hidle]; simp) (by rw [hidle]; simp)
    exact ((s.keeps_reach _).trans (State.keeps_consult _ l released)).trans (State.keeps_finish _)
  | payloadReadEnd l octets =>
    exact keeps_runCommand h fun ho =>
      s.keeps_payloadRead l octets (State.preparing_of_reads (Bool.and_eq_true_iff.1 ho).1)
  | payloadReadError l =>
    exact keeps_runCommand h fun ho => s.keeps_payloadFails l (State.preparing_of_reads (Bool.and_eq_true_iff.1 ho).1)
  | abandonedReadEnd l =>
    refine keeps_runCommand h fun ho => ?_
    simp only [Bool.and_eq_true, beq_iff_eq] at ho
    obtain ⟨⟨-, hs⟩, -⟩ := ho
    exact (s.keeps_toGuard l (State.released_of (by simp [hs]) (by simp [hs]))).trans (State.keeps_finish _)
  | transmitEnd l => exact keeps_runCommand h fun _ => s.keeps_transmitEnds l
  | characterReceived l octet mark stop =>
    exact keeps_runCommand h fun ho =>
      s.keeps_takeCharacter l octet mark stop _ (State.watching_released (Bool.and_eq_true_iff.1 ho).1)
  | interCharacterGapExpiry l =>
    exact keeps_runCommand h fun ho => s.keeps_gapExpires l _ _ (Line.receive_of_gapOpen (Bool.and_eq_true_iff.1 ho).2)
  | replyTimerExpiry l =>
    refine keeps_runCommand h fun ho => s.keeps_replyExpires l ?_
    simp only [Bool.and_eq_true, beq_iff_eq] at ho
    obtain ⟨⟨-, hs⟩, -⟩ := ho
    exact hs
  | replyWriteEnd l result => exact keeps_runCommand h fun _ => s.keeps_replyWriteEnds l result
  | breakDetected l =>
    exact keeps_runCommand h fun ho => s.keeps_breakDetected l (Bool.and_eq_true_iff.1 ho).1
  | stuck l =>
    refine keeps_runCommand h fun _ => State.Keeps.trans ?_ (State.keeps_finish _)
    exact s.keeps_reachLine l _ _ fun _ => ⟨rfl, rfl, rfl⟩
  | lineReturnToMark l wait => exact keeps_runCommand h fun _ => s.keeps_reachLine l _ _ fun _ => ⟨rfl, rfl, rfl⟩
  | recoveryEnd l =>
    refine keeps_runCommand h fun _ => State.Keeps.trans ?_ (State.keeps_finish _)
    exact s.keeps_reachLine l _ _ fun _ => ⟨rfl, rfl, rfl⟩
  | guardEnd l =>
    exact keeps_runCommand h fun ho => s.keeps_guardEnds l (Line.guard_of_guardMayEnd (Bool.and_eq_true_iff.1 ho).2)
  | breakSpaceEnd l =>
    refine keeps_runCommand h fun ho => s.keeps_breakSpaceEnds l _ ?_
    simp only [Bool.and_eq_true, beq_iff_eq] at ho
    obtain ⟨⟨-, hs⟩, -⟩ := ho
    exact hs
  | breakRelease l => exact keeps_runCommand h fun _ => s.keeps_breakReleased l
  | pollTimerExpiry k =>
    exact keeps_runCommand h fun ho => (s.keeps_timer k .poll _ ho fun x t n => x.keeps_pollExpired n t).trans
      (State.rests_tellStationLine _ k).keeps
  | holdTimerExpiry k =>
    exact keeps_runCommand h fun ho => ((s.keeps_timer k .hold _ ho fun x t n => x.keeps_holdExpired n t).trans
      (State.rests_releaseHeld _ k).keeps).trans (State.rests_tellStationLine _ k).keeps
  | probeTimerExpiry k =>
    exact keeps_runCommand h fun ho => (s.keeps_timer k .probe _ ho fun x _ n _ _ => x.keeps_probeExpired n).trans
      (State.rests_tellStationLine _ k).keeps
  | completionEntryPosted => exact keeps_runCommand h fun _ => s.keeps_completionPosted
  | completionWriteError done => exact keeps_runCommand h fun _ => s.keeps_completionFails done
  | eventEntryPosted => exact keeps_runCommand h fun _ => s.keeps_eventPosted
  | eventWriteError done => exact keeps_runCommand h fun _ => s.keeps_eventFails done
  | holdoffTimerExpiry ring => exact keeps_runCommand h fun _ => s.keeps_holdoff ring
  | characterBegun l wait => exact keeps_runCommand h fun _ => s.keeps_reachLine l _ _ fun _ => ⟨rfl, rfl, rfl⟩
  | glitchDiscarded l wait =>
    exact keeps_runCommand h fun _ => s.keeps_reachLine l _ _ fun x =>
      ⟨x.discardGlitch_state _, x.discardGlitch_driver _, x.discardGlitch_txd _⟩
  | markBitRead l =>
    refine keeps_runCommand h fun ho => s.keeps_readMark l (State.watching_released ?_)
    simp only [Bool.and_eq_true] at ho
    obtain ⟨⟨hw, -⟩, -⟩ := ho
    exact hw

/-- Every step keeps them too; on an empty queue only time passes. -/
theorem step_keeps {s t : State} (h : step s = .next t) : s.Keeps t := by
  unfold step at h
  split at h
  · cases h
    exact s.keeps_tick
  · next c rest _ =>
    have fetched : s.Keeps { s with pending := rest } := State.keeps_same rfl rfl rfl rfl rfl rfl
    exact fetched.trans (exec_keeps h)

end Sys2Proof.Machine
end

section
/-! PROOFS. Pending lists and retry lists hold no context twice (R46, R102): what each shared operation does to them. A context
joins a pending list or the tail of a retry list only where it is absent, rejoins a retry list after it has left it, and
every other operation takes contexts out or leaves the lists. -/

namespace Sys2Proof.Machine

/-! ## The relation and the single updates -/

/-- Lists without duplicates stay so. -/
structure State.KeepsLists (s t : State) : Prop where
  distinct : s.ListsDistinct → t.ListsDistinct

theorem State.KeepsLists.refl (s : State) : s.KeepsLists s := ⟨id⟩

theorem State.KeepsLists.trans {s t u : State} (a : s.KeepsLists t) (b : t.KeepsLists u) : s.KeepsLists u :=
  ⟨b.distinct ∘ a.distinct⟩

/-- Composition that starts from the last operation. -/
theorem State.KeepsLists.after {s t u : State} (b : t.KeepsLists u) (a : s.KeepsLists t) : s.KeepsLists u := a.trans b

theorem State.KeepsLists.foldl {α : Type} (f : State → α → State) (hf : ∀ (s : State) a, s.KeepsLists (f s a))
    (as : List α) (s : State) : s.KeepsLists (as.foldl f s) := by
  induction as generalizing s with
  | nil => exact .refl s
  | cons a rest ih => exact (hf s a).trans (ih _)

/-- Each entry in use is new with a list of its own or comes from one whose list was as good, and so does each line. -/
theorem State.keepsLists_of {s t : State}
    (hs : ∀ h y, t.station h = some y → y.pending.Nodup ∨ ∃ x, s.station h = some x ∧ (x.pending.Nodup → y.pending.Nodup))
    (hl : ∀ l, (s.line l).retryList.Nodup → (t.line l).retryList.Nodup) : s.KeepsLists t := by
  refine ⟨fun ⟨hpending, hretry⟩ => ⟨fun h y hy => ?_, fun l => hl l (hretry l)⟩⟩
  rcases hs h y hy with hn | ⟨x, hx, hxy⟩
  · exact hn
  · exact hxy (hpending h x hx)

/-- Entries and lines are the same. -/
theorem State.KeepsLists.same {s t : State} (h1 : t.stations = s.stations) (h2 : t.lines = s.lines) : s.KeepsLists t :=
  State.keepsLists_of (fun h y hy => .inr ⟨y, by rwa [State.station, ← h1], id⟩) fun l => by
    simp only [State.line, h2, imp_self]

theorem State.keepsLists_setStation (s : State) (h : Handle) (y : Option Station)
    (hy : ∀ z, y = some z → z.pending.Nodup ∨ ∃ x, s.station h = some x ∧ (x.pending.Nodup → z.pending.Nodup)) :
    s.KeepsLists (s.setStation h y) := by
  refine State.keepsLists_of (fun k z hz => ?_) fun _ => id
  rw [State.station_setStation] at hz
  split at hz
  · next e =>
    subst e
    exact hy z hz
  · exact .inr ⟨z, hz, id⟩

theorem State.keepsLists_updStation (s : State) (h : Handle) (f : Station → Station)
    (hf : ∀ x, x.pending.Nodup → (f x).pending.Nodup) : s.KeepsLists (s.updStation h f) := by
  refine s.keepsLists_setStation h _ fun z hz => ?_
  obtain ⟨x, hx, rfl⟩ := Option.map_eq_some_iff.1 hz
  exact .inr ⟨x, hx, hf x⟩

theorem State.keepsLists_updRetries (s : State) (l : LineNo) (f : Line → Line)
    (hf : ∀ x, x.retryList.Nodup → (f x).retryList.Nodup) : s.KeepsLists (s.updLine l f) := by
  refine State.keepsLists_of (fun h y hy => .inr ⟨y, hy, id⟩) fun k => ?_
  rw [State.updLine_eq, State.line_setLine]
  split
  · next e =>
    subst e
    exact hf _
  · exact id

theorem State.keepsLists_updLine (s : State) (l : LineNo) (f : Line → Line)
    (hf : ∀ x, (f x).retryList = x.retryList) : s.KeepsLists (s.updLine l f) :=
  s.keepsLists_updRetries l f fun x => by rw [hf]; exact id

theorem State.keepsLists_updCtx (s : State) (id : Nat) (f : Context → Context) : s.KeepsLists (s.updCtx id f) :=
  .same rfl rfl

theorem State.keepsLists_reach (s : State) (t : Nat) : s.KeepsLists (s.reach t) := .same rfl rfl

/-- A change of a line that leaves its retry list, dated by a moment. -/
theorem State.keepsLists_reachLine (s : State) (l : LineNo) (t : Nat) (f : Line → Line)
    (hf : ∀ x, (f x).retryList = x.retryList) : s.KeepsLists ((s.reach t).updLine l f) :=
  (s.keepsLists_reach t).trans (State.keepsLists_updLine _ l f hf)

theorem Line.retryList_noticed (x : Line) : x.noticed.retryList = x.retryList := by
  rw [Line.noticed_eq]

theorem State.keepsLists_notify (s : State) (l : LineNo) : s.KeepsLists (s.notify l) :=
  s.keepsLists_updLine l _ Line.retryList_noticed

/-- What the writers move is no list of contexts that wait. -/
theorem State.keepsLists_of_writers {s t : State} (w : s.SameButWriters t) : s.KeepsLists t := by
  obtain ⟨-, -, hlines, hstations⟩ := (s.sameButWriters_iff t).1 w
  refine State.keepsLists_of (fun h y hy => .inr ?_) fun l => ?_
  · have hentry := hstations h
    cases hx : s.station h with
    | none =>
      rw [hx, hy] at hentry
      exact hentry.elim
    | some x =>
      rw [hx, hy] at hentry
      refine ⟨x, rfl, ?_⟩
      rw [show y = { x with lastReported := y.lastReported, presenceChanges := y.presenceChanges } from hentry]
      exact id
  · rw [(hlines l).2]
    exact id

theorem State.keepsLists_finish (s : State) : s.KeepsLists s.finish := State.keepsLists_of_writers s.writers_finish

theorem State.keepsLists_judgeGrant (s : State) : s.KeepsLists s.judgeGrant :=
  State.keepsLists_of_writers s.writers_judgeGrant

/-- R46, R102: a context joins the tail of a list only where it is not in it. -/
theorem nodup_joinTail {ids : List Nat} (id : Nat) (h : ids.Nodup) : (joinTail ids id).Nodup := by
  unfold joinTail
  split
  · exact h
  · next hnot => simpa using h.concat (by simpa using hnot)

/-- R102: a context that rejoins a list at its head has left it before. -/
theorem nodup_rejoin {ids : List Nat} (id : Nat) (h : ids.Nodup) : (id :: ids.erase id).Nodup :=
  List.nodup_cons.2 ⟨h.not_mem_erase, h.erase id⟩

/-! ## Ends (chapter 4) -/

theorem State.keepsLists_hand (s : State) (id : Nat) (st : Status) (d : Detail) (n : Nat) (b : Option (Fin 8))
    (t : Option Nat) : s.KeepsLists (s.hand id st d n b t) := .same (s.stations_hand ..) (s.lines_hand ..)

theorem State.keepsLists_endRecord (s : State) (id : Nat) (st : Status) (d : Detail) :
    s.KeepsLists (s.endRecord id st d) := s.keepsLists_hand ..

theorem State.keepsLists_endOk (s : State) (id : Nat) : s.KeepsLists (s.endOk id) := s.keepsLists_endRecord ..

theorem State.keepsLists_endAbort (s : State) (a : Option Nat) (st : Status) : s.KeepsLists (s.endAbort a st) := by
  cases a with
  | none => exact .refl s
  | some id => exact s.keepsLists_endRecord id st .none

theorem State.keepsLists_leavePending (s : State) (c : Context) : s.KeepsLists (s.leavePending c) := by
  unfold State.leavePending
  split
  · exact s.keepsLists_updStation _ _ fun x hx => hx.erase c.id
  · exact .refl s

theorem State.keepsLists_leaveLists (s : State) (c : Context) : s.KeepsLists (s.leaveLists c) := by
  unfold State.leaveLists
  split
  · exact (s.keepsLists_leavePending c).trans (State.keepsLists_updRetries _ _ _ fun x hx => hx.erase c.id)
  · exact s.keepsLists_leavePending c

theorem State.keepsLists_linkInDoubt (s : State) (h : Handle) : s.KeepsLists (s.linkInDoubt h) := by
  unfold State.linkInDoubt
  split
  · exact .refl s
  · next x hx =>
    have marked : s.KeepsLists (s.setStation h (some { x with link := .uncertain })) :=
      s.keepsLists_setStation h _ fun z hz => .inr ⟨x, hx, by cases hz; exact id⟩
    simp only
    split
    · exact marked.trans (State.keepsLists_notify _ _)
    · exact marked

theorem State.keepsLists_markUncertain (s : State) (c : Context) (st : Status) :
    s.KeepsLists (s.markUncertain c st) := by
  unfold State.markUncertain
  split
  · split
    · exact s.keepsLists_linkInDoubt _
    · exact .refl s
  · exact .refl s

theorem State.keepsLists_endOne (s : State) (id : Nat) (st : Status) (d : Detail) (n : Nat) :
    s.KeepsLists (s.endOne id st d n) := by
  unfold State.endOne
  split
  · exact .refl s
  · split
    · exact .refl s
    · exact ((s.keepsLists_leaveLists _).trans (State.keepsLists_markUncertain _ _ _)).trans (State.keepsLists_hand ..)

theorem State.keepsLists_endPlain (s : State) (id : Nat) (st : Status) : s.KeepsLists (s.endPlain id st) :=
  s.keepsLists_endOne ..

theorem State.keepsLists_endList (s : State) (h : Handle) (st : Status) : s.KeepsLists (s.endList h st) := by
  unfold State.endList
  split
  · exact .refl s
  · exact .foldl _ (fun s id => s.keepsLists_endPlain id st) _ _

theorem State.keepsLists_tryFree (s : State) (h : Handle) : s.KeepsLists (s.tryFree h) := by
  have freed : s.KeepsLists (s.setStation h none) := s.keepsLists_setStation h none fun _ hz => by cases hz
  unfold State.tryFree
  split
  · exact .refl s
  · split
    · split
      · exact freed.trans (State.keepsLists_endRecord ..)
      · exact freed
    · exact .refl s

theorem State.keepsLists_settleClosing (s : State) (h : Handle) : s.KeepsLists (s.settleClosing h) := by
  refine State.KeepsLists.after (State.keepsLists_tryFree _ h) ?_
  unfold State.drainClosing
  split
  · exact .refl s
  · split
    · exact s.keepsLists_endList h _
    · exact .refl s

theorem State.keepsLists_endExchange (s : State) (id : Nat) (st : Status) (d : Detail) (n : Nat) :
    s.KeepsLists (s.endExchange id st d n) := by
  unfold State.endExchange
  split
  · exact .refl s
  · simp only
    split
    · exact (s.keepsLists_endOne ..).trans (State.keepsLists_settleClosing _ _)
    · exact s.keepsLists_endOne ..

theorem State.keepsLists_endWith (s : State) (id : Nat) (st : Status) : s.KeepsLists (s.endWith id st) :=
  s.keepsLists_endExchange ..

/-- R77, R78: the end of an exchange or broadcast, then that of the ABORT that waited for it. -/
theorem State.keepsLists_endAborted (s : State) (id : Nat) (st : Status) (a : Option Nat) (st' : Status) :
    s.KeepsLists ((s.endWith id st).endAbort a st') := (s.keepsLists_endWith id st).trans (State.keepsLists_endAbort _ a st')

theorem State.keepsLists_endRetries (s : State) (l : LineNo) : s.KeepsLists (s.endRetries l) :=
  .foldl _ (fun s id => (s.keepsLists_updCtx id _).trans (State.keepsLists_endWith _ id _)) _ _

theorem State.keepsLists_drainOffline (s : State) (h : Handle) (job : Job) : s.KeepsLists (s.drainOffline h job) := by
  unfold State.drainOffline
  refine State.KeepsLists.after (State.keepsLists_endList _ h _) ?_
  split
  · split
    · exact (s.keepsLists_endPlain _ _).trans (State.keepsLists_endAbort _ _ _)
    · exact s.keepsLists_endPlain _ _
  · exact .refl s

theorem State.keepsLists_linkLoop (s : State) (st : Station) (o : AttemptOutcome) : s.KeepsLists (s.linkLoop st o) := by
  unfold State.linkLoop
  split
  · exact .refl s
  · split
    · exact .refl s
    · split
      · exact .refl s
      · exact (s.keepsLists_updCtx _ _).trans (State.keepsLists_endWith _ _ _)

/-- R102: a retry joins the tail of its line's list. -/
theorem State.keepsLists_awaitRetry (s : State) (l : LineNo) (id : Nat) : s.KeepsLists (s.awaitRetry l id) :=
  (s.keepsLists_updCtx id _).trans (State.keepsLists_updRetries _ l _ fun _ hx => nodup_joinTail id hx)

/-- R59, R60, R102: a retry whose read came to nothing rejoins at the head. -/
theorem State.keepsLists_returnToWait (s : State) (l : LineNo) (id : Nat) (origin : Phase) :
    s.KeepsLists (s.returnToWait l id origin) := by
  unfold State.returnToWait
  simp only
  split
  · exact (s.keepsLists_updCtx id _).trans (State.keepsLists_updRetries _ l _ fun _ hx => nodup_rejoin id hx)
  · exact s.keepsLists_updCtx id _

/-! ## Outcomes of attempts (sections 4.4, 4.5) -/

theorem State.keepsLists_exchangeFailed (s : State) (l : LineNo) (c : Context) (st : Station) :
    s.KeepsLists (s.exchangeFailed l c st) := by
  unfold State.exchangeFailed
  split
  · exact s.keepsLists_endAborted ..
  · split
    · split
      · exact s.keepsLists_endWith ..
      · exact s.keepsLists_awaitRetry ..
    · exact s.keepsLists_endWith ..

theorem State.keepsLists_exchangeBusy (s : State) (c : Context) (st : Station) : s.KeepsLists (s.exchangeBusy c st) := by
  unfold State.exchangeBusy
  split
  · exact s.keepsLists_endAborted ..
  · split
    · exact s.keepsLists_endWith ..
    · split
      · exact s.keepsLists_endWith ..
      · exact s.keepsLists_updCtx ..

theorem Line.retryList_replyDelivered (x : Line) : x.replyDelivered.retryList = x.retryList := by
  unfold Line.replyDelivered Line.releaseBuffer
  simp only
  split <;> exact x.retryList_noticed

theorem State.keepsLists_replyWritten (s : State) (l : LineNo) (id : Nat) (octets : List Byte) (r : BusWrite) :
    s.KeepsLists (s.replyWritten l id octets r) := by
  have delivered : ∀ u : State, u.KeepsLists (u.updLine l Line.replyDelivered) := fun u =>
    u.keepsLists_updLine l _ Line.retryList_replyDelivered
  unfold State.replyWritten
  split
  · exact delivered s
  · refine State.KeepsLists.after (State.keepsLists_endAbort _ _ _) (State.KeepsLists.after (State.keepsLists_endExchange ..)
      (State.KeepsLists.after (delivered _) (.same rfl rfl)))

theorem State.keepsLists_exchangeActs (s : State) (l : LineNo) (c : Context) (st : Station) (o : AttemptOutcome) :
    s.KeepsLists (s.exchangeActs l c st o) := by
  have refused : ∀ reason, s.KeepsLists
      ((s.endExchange c.id .refused (.reason reason) 0).endAbort c.abortRequested .tooLate) := fun reason =>
    (s.keepsLists_endExchange ..).trans (State.keepsLists_endAbort _ _ _)
  cases o with
  | ack => exact s.keepsLists_endAborted ..
  | reply octets =>
    have filled : s.KeepsLists (s.updLine l fun x => { x with rxBuffer := some (.reply c.id octets) }) :=
      s.keepsLists_updLine l _ fun _ => rfl
    simp only [State.exchangeActs, State.beginReply]
    split
    · exact filled.trans (State.keepsLists_replyWritten ..)
    · exact filled
  | busy => exact s.keepsLists_exchangeBusy c st
  | nak cls reason =>
    cases cls with
    | check => exact s.keepsLists_exchangeFailed l c st
    | refused => exact refused reason
    | unsupported => exact refused reason
  | attention octets => exact .refl s
  | idle => exact .refl s
  | noAnswer => exact s.keepsLists_exchangeFailed l c st
  | garbled => exact s.keepsLists_exchangeFailed l c st
  | wrongStation => exact s.keepsLists_exchangeFailed l c st
  | unexpected => exact s.keepsLists_exchangeFailed l c st
  | lineBreak =>
    simp only [State.exchangeActs]
    split
    · exact s.keepsLists_endAborted ..
    · exact s.keepsLists_endWith ..

theorem State.keepsLists_pollActs (s : State) (l : LineNo) (h : Handle) (p : Bool) (o : AttemptOutcome) (ap : Bool) :
    s.KeepsLists (s.pollActs l h p o ap) := by
  unfold State.pollActs
  split
  · next octets =>
    exact State.KeepsLists.trans (s.keepsLists_updLine l (fun x => { x with rxBuffer := some (.attention octets) })
      fun _ => rfl) (.same rfl rfl)
  · exact State.keepsLists_of_writers s.writers_releaseReservation

theorem State.keepsLists_jobActs (s : State) (l : LineNo) (h : Handle) (job : Job) (st after : Station)
    (o : AttemptOutcome) (ap : Bool) : s.KeepsLists (s.jobActs l h job st after o ap) := by
  cases job with
  | command id h' origin =>
    simp only [State.jobActs]
    split
    · exact s.keepsLists_drainOffline ..
    · split
      · exact s.keepsLists_exchangeActs ..
      · exact .refl s
  | broadcast id => exact .refl s
  | poll h' p =>
    refine State.KeepsLists.after (State.keepsLists_settleClosing _ h)
      (State.KeepsLists.after (State.keepsLists_pollActs ..) ?_)
    split
    · exact s.keepsLists_drainOffline ..
    · exact .refl s
  | link h' =>
    simp only [State.jobActs]
    split
    · exact s.keepsLists_drainOffline ..
    · split
      · exact s.keepsLists_linkLoop ..
      · exact s.keepsLists_settleClosing h
  | probe h' => exact s.keepsLists_settleClosing h

/-! ## The entry's list in an attempt (R29) -/

theorem Station.pending_miss (x : Station) (now : Nat) : (x.miss now).pending = x.pending := (x.miss_keeps now).1

theorem Station.pending_afterCommand (x : Station) (o : AttemptOutcome) (now : Nat) :
    (x.afterCommand o now).pending = x.pending := by
  cases o with
  | nak cls reason => cases cls <;> rfl
  | noAnswer => exact x.pending_miss now
  | garbled => exact x.pending_miss now
  | wrongStation => exact x.pending_miss now
  | unexpected => exact x.pending_miss now
  | _ => rfl

theorem Station.pending_afterPoll (x : Station) (o : AttemptOutcome) (now : Nat) :
    (x.afterPoll o now).pending = x.pending := by
  have outcome : (x.pollOutcome o now).pending = x.pending := by
    cases o with
    | noAnswer => exact Station.pending_miss _ now
    | garbled => exact Station.pending_miss _ now
    | wrongStation => exact Station.pending_miss _ now
    | unexpected => exact Station.pending_miss _ now
    | _ => rfl
  rw [← outcome, Station.afterPoll]
  split <;> rfl

theorem Station.pending_afterLink (x : Station) (o : AttemptOutcome) (now : Nat) :
    (x.afterLink o now).pending = x.pending := by
  unfold Station.afterLink
  split
  · simp only
    split <;> rfl
  · split
    · exact x.pending_miss now
    · rfl

theorem Station.pending_afterProbe (x : Station) (o : AttemptOutcome) (now : Nat) :
    (x.afterProbe o now).pending = x.pending := by
  unfold Station.afterProbe
  simp only
  split <;> rfl

theorem Station.pending_afterJob (x : Station) (job : Job) (o : AttemptOutcome) (now : Nat) :
    (x.afterJob job o now).pending = x.pending := by
  unfold Station.afterJob
  split
  · exact x.pending_afterCommand o now
  · exact x.pending_afterPoll o now
  · exact x.pending_afterLink o now
  · exact x.pending_afterLink o now
  · exact x.pending_afterProbe o now
  · rfl

theorem Station.pending_applyAp (x : Station) (ap : Bool) (now : Nat) : (x.applyAp ap now).pending = x.pending := by
  unfold Station.applyAp
  split <;> rfl

/-- The entry's list is the exchanges' own: no outcome of an attempt touches it. -/
theorem Station.pending_applyOutcome (x : Station) (table : Option BandTable) (hysteresis : Nat) (job : Job)
    (o : AttemptOutcome) (turnaround : Option Nat) (ap : Bool) (now : Nat) :
    (x.applyOutcome table hysteresis job o turnaround ap now).pending = x.pending := by
  unfold Station.applyOutcome
  split
  · unfold Station.afterClosing
    split <;> rfl
  · have band : (x.updateBand table hysteresis o turnaround).pending = x.pending := by
      unfold Station.updateBand
      repeat' split
      all_goals rfl
    rw [Station.pending_applyAp, Station.pending_afterJob, band]

/-! ## The engine (chapters 5, 6) -/

theorem State.keepsLists_endQuiescers (s : State) (l : LineNo) : s.KeepsLists (s.endQuiescers l) :=
  (State.KeepsLists.foldl _ (fun s id => s.keepsLists_endRecord id .ok .none) _ _).trans
    (State.keepsLists_updLine _ l _ fun _ => rfl)

theorem State.keepsLists_toGuard (s : State) (l : LineNo) : s.KeepsLists (s.toGuard l) :=
  State.KeepsLists.after (State.keepsLists_endQuiescers _ l) (s.keepsLists_updLine l _ fun _ => rfl)

theorem State.keepsLists_deliver (s : State) (l : LineNo) (job : Job) (o : AttemptOutcome) (ap : Bool) :
    s.KeepsLists (s.deliver l job o ap) := by
  have noted : ∀ (u : State) t, u.KeepsLists (u.noteContext job o t) := fun u t => by
    cases job <;> exact .same rfl rfl
  have taken := (s.keepsLists_updLine l (fun x => { x with job := none, turnaround := none, replyTimer := none })
    fun _ => rfl).trans (noted _ (if o.isAnswer then (s.line l).turnaround else none))
  unfold State.deliver
  simp only
  split
  · exact taken
  · split
    · exact taken
    · next st hst =>
      refine (taken.trans (State.keepsLists_setStation _ _ _ fun z hz => .inr ⟨st, hst, ?_⟩)).trans
        (State.keepsLists_jobActs ..)
      cases hz
      rw [Station.pending_applyOutcome]
      exact id

theorem State.keepsLists_endAttempt (s : State) (l : LineNo) (o : AttemptOutcome) (ap : Bool) :
    s.KeepsLists (s.endAttempt l o ap) := by
  unfold State.endAttempt
  split
  · exact s.keepsLists_toGuard l
  · exact (s.keepsLists_deliver ..).trans (State.keepsLists_toGuard _ l)

/-- R41: a break touches no list. -/
theorem State.keepsLists_breakReaches (s : State) (l : LineNo) : s.KeepsLists (s.breakReaches l) := by
  have marked : s.KeepsLists (s.breakStations l) := State.keepsLists_of (fun h y hy => by
    rw [State.station_breakStations] at hy
    obtain ⟨x, hx, rfl⟩ := Option.map_eq_some_iff.1 hy
    refine .inr ⟨x, hx, ?_⟩
    split <;> exact id) fun _ => id
  exact marked.trans (State.keepsLists_endRetries _ l)

theorem State.keepsLists_enterBreakOut (s : State) (l : LineNo) (records : List Nat) (now : Nat) :
    s.KeepsLists (s.enterBreakOut l records now) :=
  State.KeepsLists.after (State.keepsLists_breakReaches _ l) (s.keepsLists_updLine l _ fun _ => rfl)

theorem State.keepsLists_beginTransmit (s : State) (l : LineNo) (job : Job) : s.KeepsLists (s.beginTransmit l job) := by
  have begun : s.KeepsLists (s.beginAttempt job) := by
    unfold State.beginAttempt
    repeat' split
    all_goals exact .same rfl rfl
  exact begun.trans (State.keepsLists_updLine _ l _ fun _ => rfl)

theorem State.keepsLists_leaveRead (s : State) (l : LineNo) : s.KeepsLists (s.leaveRead l) := by
  have left := s.keepsLists_updLine l (fun x => { x with job := none, abandoned := false }) fun _ => rfl
  unfold State.leaveRead
  simp only
  split
  · exact left.trans (State.keepsLists_enterBreakOut ..)
  · exact (left.trans (State.keepsLists_updLine _ l Line.rest fun _ => rfl)).trans (State.keepsLists_endQuiescers _ l)

theorem State.keepsLists_readGood (s : State) (l : LineNo) (job : Job) : s.KeepsLists (s.readGood l job) := by
  cases job with
  | command id h origin =>
    simp only [State.readGood]
    split
    · exact (s.keepsLists_endAborted ..).trans (State.keepsLists_leaveRead _ l)
    · split
      · exact s.keepsLists_leaveRead l
      · split
        · exact (s.keepsLists_endWith ..).trans (State.keepsLists_leaveRead _ l)
        · split
          · exact (s.keepsLists_returnToWait ..).trans (State.keepsLists_leaveRead _ l)
          · exact s.keepsLists_beginTransmit ..
  | broadcast id =>
    simp only [State.readGood]
    split
    · exact (s.keepsLists_endAborted ..).trans (State.keepsLists_leaveRead _ l)
    · exact s.keepsLists_beginTransmit ..
  | poll h p => exact s.keepsLists_leaveRead l
  | link h => exact s.keepsLists_leaveRead l
  | probe h => exact s.keepsLists_leaveRead l

theorem State.keepsLists_fillBuffer (s : State) (l : LineNo) (job : Job) (octets : List Byte) :
    s.KeepsLists (s.fillBuffer l job octets) := s.keepsLists_updLine l _ fun _ => rfl

theorem State.keepsLists_readFailed (s : State) (l : LineNo) (id : Nat) : s.KeepsLists (s.readFailed l id) := by
  have failed := (s.keepsLists_updLine l (fun x => { x with txHolds := none }) fun _ => rfl).trans
    (State.keepsLists_updCtx _ id fun c => { c with lastFailure := some .payloadRead })
  unfold State.readFailed
  refine State.KeepsLists.after (State.keepsLists_leaveRead _ l) (failed.trans ?_)
  split
  · exact State.keepsLists_endAborted ..
  · exact State.keepsLists_endWith ..

theorem State.keepsLists_startWork (s : State) (l : LineNo) (job : Job) (id : Nat) :
    s.KeepsLists (s.startWork l job id) := by
  have begun := (s.keepsLists_updLine l
    (fun x => { x with state := .preparing, job := some job, abandoned := false, txHolds := none }) fun _ => rfl).trans
    (State.keepsLists_updCtx _ id fun c => { c with phase := .preparing })
  unfold State.startWork
  split
  · exact s.keepsLists_beginTransmit ..
  · unfold State.beginRead
    simp only
    split
    · exact (begun.trans (State.keepsLists_fillBuffer ..)).trans (State.keepsLists_readGood ..)
    · exact begun

theorem State.keepsLists_abandonRead (s : State) (l : LineNo) : s.KeepsLists (s.abandonRead l) := by
  have abandoned := s.keepsLists_updLine l (fun x => { x with job := none, abandoned := true, txHolds := none })
    fun _ => rfl
  unfold State.abandonRead
  split
  · exact .refl s
  · simp only
    split
    · split
      · exact abandoned.trans (State.keepsLists_endAborted ..)
      · exact abandoned.trans (State.keepsLists_returnToWait ..)
    · split
      · exact abandoned.trans (State.keepsLists_endAborted ..)
      · exact abandoned.trans (State.keepsLists_updCtx ..)
    all_goals exact abandoned

theorem State.keepsLists_cancelAbandoned (s : State) (job : Option Job) : s.KeepsLists (s.cancelAbandoned job) := by
  unfold State.cancelAbandoned
  split
  · split
    · split
      · exact s.keepsLists_endWith ..
      · exact .refl s
    · exact .refl s
  · exact .refl s

theorem State.keepsLists_act (s : State) (l : LineNo) (choice : Choice) : s.KeepsLists (s.act l choice) := by
  cases choice with
  | reset => exact s.keepsLists_enterBreakOut ..
  | retry id =>
    simp only [State.act]
    split
    · exact (s.keepsLists_updRetries l _ fun x hx => hx.erase id).trans (State.keepsLists_startWork ..)
    · exact .refl s
  | link h => exact State.KeepsLists.after (State.keepsLists_beginTransmit ..) (s.keepsLists_updLine l _ fun _ => rfl)
  | work k i =>
    have moved : s.KeepsLists (s.updLine l fun x => x.movePtr k ⟨i % 65, Nat.mod_lt _ (by decide)⟩) :=
      s.keepsLists_updLine l _ fun x => by cases k <;> rfl
    simp only [State.act]
    refine moved.trans ?_
    split
    · unfold State.startHead
      split
      · exact State.keepsLists_startWork ..
      · exact .refl _
    · unfold State.startBroadcast
      split
      · exact State.keepsLists_startWork ..
      · exact .refl _
  | poll h =>
    simp only [State.act, State.startPoll]
    split
    · exact State.KeepsLists.after (State.keepsLists_beginTransmit ..) (.same rfl rfl)
    · exact .refl s
  | probe h => exact s.keepsLists_beginTransmit ..
  | nothing => exact .refl s

theorem State.keepsLists_consult (s : State) (l : LineNo) : s.KeepsLists (s.consult l) := by
  have consulted := s.keepsLists_updLine l Line.consulted fun _ => rfl
  refine State.KeepsLists.after (State.keepsLists_act ..) (consulted.trans ?_)
  split
  · exact .same rfl rfl
  · exact .refl _

end Sys2Proof.Machine
end

section
/-! PROOFS. The lists under each command (R46, R102), and the station rules under each step (O57). -/

namespace Sys2Proof.Machine

/-! ## The part as a whole -/

/-- A rejected write and a cause that is set touch no list. -/
theorem State.keepsLists_reject (s : State) : s.KeepsLists s.reject := .same rfl rfl

/-- R160: after a reset no entry is in use and no retry waits. -/
theorem State.keepsLists_softReset (s : State) : s.KeepsLists s.softResetValues := by
  refine State.keepsLists_of (fun h y hy => ?_) fun l _ => ?_
  · have hnone : s.softResetValues.station h = none := by simp [State.station, State.softResetValues, State.reset]
    rw [hnone] at hy
    cases hy
  · have hline : s.softResetValues.line l = Line.reset := by simp [State.line, State.softResetValues, State.reset]
    rw [hline]
    exact List.nodup_nil

theorem State.keepsLists_landReplies (s : State) : s.KeepsLists s.landReplies := by
  refine State.KeepsLists.foldl _ (fun u l => ?_) _ _
  unfold State.landReply
  split
  · split <;> exact .same rfl rfl
  · exact .refl u
  · exact .refl u

theorem State.keepsLists_landCompletion (s : State) : s.KeepsLists s.landCompletion := by
  unfold State.landCompletion
  split <;> exact .same rfl rfl

theorem State.keepsLists_landEvent (s : State) : s.KeepsLists s.landEvent := by
  unfold State.landEvent
  split <;> exact .same rfl rfl

/-- R99: the release of the lines leaves their retry lists. -/
theorem State.keepsLists_enterFailed (s : State) (cause : CauseCode) : s.KeepsLists (s.enterFailed cause) := by
  refine State.keepsLists_of (fun h y hy => .inr ⟨y, hy, id⟩) fun l hl => ?_
  have hline : (s.enterFailed cause).line l = (s.line l).release := by simp [State.enterFailed, State.line, State.drivePin]
  rw [hline]
  exact hl

theorem State.keepsLists_enterRunning (s : State) : s.KeepsLists s.enterRunning :=
  (State.keepsLists_of_writers (s.writers_tellLines allLines)).trans (.same rfl rfl)

theorem State.keepsLists_resume (s : State) : s.KeepsLists s.resume := by
  refine s.keepsLists_enterRunning.trans (State.KeepsLists.foldl _ (fun u l => ?_) _ _)
  unfold State.serveReset
  split
  · exact u.keepsLists_enterBreakOut ..
  · exact .refl u

theorem State.keepsLists_enableOne (s : State) : s.KeepsLists s.enableOne := by
  have resumed : s.KeepsLists ({ s with enable := true } : State).resume.finish :=
    State.KeepsLists.after (State.keepsLists_finish _) (State.KeepsLists.after (State.keepsLists_resume _) (.same rfl rfl))
  unfold State.enableOne
  split
  · exact .same rfl rfl
  · exact .same rfl rfl
  · exact .same rfl rfl
  · exact resumed
  · exact resumed
  · exact s.keepsLists_reject

theorem State.keepsLists_enableZero (s : State) : s.KeepsLists s.enableZero := by
  unfold State.enableZero
  split
  · exact .same rfl rfl
  · exact .same rfl rfl
  · exact State.KeepsLists.after (State.keepsLists_finish _) (.same rfl rfl)
  · exact .same rfl rfl
  · exact .same rfl rfl
  · exact s.keepsLists_reject

theorem State.keepsLists_setupEnds (s : State) (r : BusRead) : s.KeepsLists (s.setupEnds r) := by
  unfold State.setupEnds
  split
  · split
    · exact .same rfl rfl
    · split
      · exact s.keepsLists_enterRunning.trans (.same rfl rfl)
      · exact .same rfl rfl
  · exact .same rfl rfl

/-! ## Queues and rings -/

theorem State.keepsLists_postTail (s : State) (v : Word) : s.KeepsLists (s.postTail v) := by
  unfold State.postTail
  split
  · refine State.KeepsLists.after (State.keepsLists_finish _) ?_
    unfold State.postedTail
    simp only
    split <;> exact .same rfl rfl
  · exact s.keepsLists_reject

theorem State.keepsLists_retire (s : State) (v : Word) : s.KeepsLists (s.retire v) := by
  have completion : ∀ n, s.KeepsLists (s.retireCompletion n) := fun n => by
    unfold State.retireCompletion
    split <;> exact .same rfl rfl
  have event : ∀ n, s.KeepsLists (s.retireEvent n) := fun n => by
    unfold State.retireEvent
    split
    · exact .refl s
    · exact State.KeepsLists.after (State.keepsLists_finish _)
        (State.KeepsLists.after (State.keepsLists_judgeGrant _) (.same rfl rfl))
  unfold State.retire
  split
  · split
    · split
      · exact completion _
      · exact s.keepsLists_reject
    · split
      · exact event _
      · exact s.keepsLists_reject
  · exact s.keepsLists_reject

theorem State.keepsLists_fetchLook (s : State) : s.KeepsLists s.fetchLook := by
  unfold State.fetchLook State.beginFetch
  simp only
  split
  · split
    · next k q id hq hid => cases k <;> exact .same rfl rfl
    · exact .same rfl rfl
  · exact .same rfl rfl

theorem State.keepsLists_readFails (s : State) : s.KeepsLists s.readFails := by
  unfold State.readFails
  split <;> exact .same rfl rfl

theorem State.keepsLists_freeContext (s : State) (id : Nat) : s.KeepsLists (s.freeContext id) := by
  have counted : ∀ (u : State) k, u.KeepsLists (u.fenceCounts k) := fun u k => by
    unfold State.fenceCounts
    simp only
    split
    · exact (u.keepsLists_updCtx k _).trans (State.keepsLists_endRecord ..)
    · exact u.keepsLists_updCtx k _
  unfold State.freeContext
  split
  · exact .refl s
  · exact (State.KeepsLists.foldl _ counted _ _).trans (.same rfl rfl)

theorem State.keepsLists_completionPosted (s : State) : s.KeepsLists s.completionPosted := by
  have posting : ∀ u : State, u.KeepsLists u.completionPosting := fun u => by
    unfold State.completionPosting
    simp only
    split <;> exact .same rfl rfl
  unfold State.completionPosted
  split
  · exact .refl s
  · refine State.KeepsLists.after (State.keepsLists_finish _) (State.KeepsLists.after (posting _) ?_)
    refine State.KeepsLists.after (t := State.freeContext _ _) (.same rfl rfl) ?_
    exact State.KeepsLists.after (State.keepsLists_freeContext _ _) (.same rfl rfl)

theorem State.keepsLists_completionFails (s : State) (n : Nat) : s.KeepsLists (s.completionFails n) := by
  unfold State.completionFails
  split
  · exact .refl s
  · exact State.KeepsLists.after (State.keepsLists_enterFailed _ _) (State.KeepsLists.after (State.keepsLists_landReplies _)
      (State.KeepsLists.after (State.keepsLists_landEvent _) (.same rfl rfl)))

theorem State.keepsLists_attentionWritten (s : State) (a : Option (LineNo × Handle)) :
    s.KeepsLists (s.attentionWritten a) := by
  unfold State.attentionWritten
  split
  · exact .refl s
  · refine State.KeepsLists.after (State.keepsLists_settleClosing _ _)
      (State.KeepsLists.after (State.keepsLists_updStation _ _ _ fun _ => id) ?_)
    exact s.keepsLists_updLine _ _ Line.retryList_noticed

theorem State.keepsLists_eventPosted (s : State) : s.KeepsLists s.eventPosted := by
  have posting : ∀ u : State, u.KeepsLists u.eventPosting := fun u => by
    unfold State.eventPosting
    simp only
    split <;> exact .same rfl rfl
  unfold State.eventPosted
  split
  · exact .refl s
  · exact State.KeepsLists.after (State.keepsLists_finish _) (State.KeepsLists.after (State.keepsLists_judgeGrant _)
      (State.KeepsLists.after (posting _) (State.KeepsLists.after (State.keepsLists_attentionWritten _ _) (.same rfl rfl))))

theorem State.keepsLists_eventFails (s : State) (n : Nat) : s.KeepsLists (s.eventFails n) := by
  unfold State.eventFails
  split
  · exact .refl s
  · exact State.KeepsLists.after (State.keepsLists_enterFailed _ _) (State.KeepsLists.after (State.keepsLists_landReplies _)
      (State.KeepsLists.after (State.keepsLists_landCompletion _) (.same rfl rfl)))

/-! ## Records -/

/-- R139: accepting a record and ending it at once, or at the end of its act, leaves the lists to the act. -/
theorem State.keepsLists_takeRecord (s : State) (r : List Byte) (act : State → Nat → State)
    (h : ∀ (u : State) id, u.KeepsLists (act u id)) : s.KeepsLists (s.takeRecord r act) := by
  unfold State.takeRecord
  split
  · exact .refl s
  · next rd _ =>
    have accepted : s.KeepsLists (s.accept rd r) := .same rfl rfl
    split
    · exact (accepted.trans (State.keepsLists_endRecord ..)).trans (State.keepsLists_finish _)
    · exact (accepted.trans (h _ _)).trans (State.keepsLists_finish _)

/-- R46: an exchange joins its station's list. -/
theorem State.keepsLists_acceptExchange (s : State) (h : Handle) (id : Nat) :
    s.KeepsLists (s.acceptExchange h id) := by
  unfold State.acceptExchange
  split
  · exact .refl s
  · next x hx =>
    split
    · exact s.keepsLists_hand ..
    · refine (s.keepsLists_setStation h _ fun z hz => .inr ⟨x, hx, ?_⟩).trans (State.keepsLists_notify _ _)
      cases hz
      exact nodup_joinTail id

/-- R18: a new entry's list is empty. -/
theorem State.keepsLists_addStation (s : State) (r : List Byte) : s.KeepsLists (s.addStation r) := by
  refine (s.keepsLists_setStation (recHandle r) _ fun z hz => .inl ?_).trans (State.keepsLists_notify _ _)
  cases hz
  exact List.nodup_nil

theorem State.keepsLists_resumeStation (s : State) (h : Handle) : s.KeepsLists (s.resumeStation h) := by
  unfold State.resumeStation
  split
  · exact .refl s
  · next x hx =>
    have cleared : s.KeepsLists (s.setStation h (some { x with paused := false })) :=
      s.keepsLists_setStation h _ fun z hz => .inr ⟨x, hx, by cases hz; exact id⟩
    simp only
    split
    · exact cleared.trans (State.keepsLists_notify _ _)
    · exact cleared

theorem State.keepsLists_quiesceLine (s : State) (l : LineNo) (id : Nat) : s.KeepsLists (s.quiesceLine l id) := by
  have asked : s.KeepsLists (s.updLine l fun x => { x with quiesce := true }) := s.keepsLists_updLine l _ fun _ => rfl
  have waits := asked.trans (State.keepsLists_updLine _ l (fun x => { x with quiescers := x.quiescers ++ [id] })
    fun _ => rfl)
  unfold State.quiesceLine
  simp only
  split
  · exact State.KeepsLists.after (State.keepsLists_endOk _ id) (asked.trans (State.keepsLists_updLine _ l _ fun _ => rfl))
  · exact asked.trans (State.keepsLists_endOk _ id)
  · exact asked.trans (State.keepsLists_endOk _ id)
  · exact waits
  · exact waits
  · exact waits
  · exact waits
  · exact waits
  · exact .refl s

theorem State.keepsLists_resetLine (s : State) (l : LineNo) (id : Nat) : s.KeepsLists (s.resetLine l id) := by
  have deferred : s.KeepsLists (s.updLine l fun x => x.deferReset id) :=
    s.keepsLists_updLine l _ Line.retryList_noticed
  have now : s.KeepsLists
      (if s.device = .running then s.enterBreakOut l [id] s.time else s.updLine l fun x => x.deferReset id) := by
    split
    · exact s.keepsLists_enterBreakOut ..
    · exact deferred
  unfold State.resetLine
  simp only
  split
  · exact now
  · exact now
  · exact now
  · exact s.keepsLists_updLine l _ fun _ => rfl
  · exact deferred
  · exact deferred
  · exact deferred
  · exact deferred
  · exact .refl s

theorem State.keepsLists_abortRecord (s : State) (q : QueueNo) (t id : Nat) : s.KeepsLists (s.abortRecord q t id) := by
  unfold State.abortRecord
  split
  · next c _ =>
    have ended : s.KeepsLists ((s.endWith c.id .aborted).endOk id) :=
      (s.keepsLists_endWith ..).trans (State.keepsLists_endOk _ id)
    unfold State.abortContext
    split
    · exact ended
    · exact ended
    · exact ended
    · exact s.keepsLists_updCtx ..
    · exact s.keepsLists_updCtx ..
    · exact .refl s
  · exact s.keepsLists_endRecord ..

theorem State.keepsLists_fenceRecord (s : State) (id : Nat) : s.KeepsLists (s.fenceRecord id) := by
  unfold State.fenceRecord
  simp only
  split
  · exact (s.keepsLists_updCtx id _).trans (State.keepsLists_endOk _ id)
  · exact s.keepsLists_updCtx id _

/-! ## Lines -/

theorem State.keepsLists_frameSent (s : State) (l : LineNo) (job : Job) (t : Nat) :
    s.KeepsLists (s.frameSent l job t) := by
  have awaits : ∀ (u : State) n, u.KeepsLists (u.updLine l fun x => x.await n t) := fun u n =>
    u.keepsLists_updLine l _ fun _ => rfl
  cases job with
  | command id h origin => exact State.KeepsLists.after (awaits _ _) (s.keepsLists_updCtx ..)
  | broadcast id => exact (s.keepsLists_endAborted ..).trans (State.keepsLists_toGuard _ l)
  | poll h p => exact awaits _ _
  | link h => exact awaits _ _
  | probe h => exact awaits _ _

theorem State.keepsLists_installTable (s : State) (l : LineNo) (id : Nat) (b : List Byte) (n : Nat) (rate : Fin 8) :
    s.KeepsLists (s.installTable l id b n rate) := by
  have enabled : ∀ u : State, u.KeepsLists (u.enableLine l) := fun u => by
    have started := u.keepsLists_updLine l (fun x => x.startReceiver u.time) fun _ => rfl
    unfold State.enableLine
    simp only
    split
    · exact started.trans (State.keepsLists_enterBreakOut ..)
    · exact started.trans (State.keepsLists_updLine _ l _ fun _ => rfl)
  have installed : s.KeepsLists ((s.updLine l fun x => x.install (bandTableOf b) n rate s.time).endOk id) :=
    State.KeepsLists.after (State.keepsLists_endOk _ id) (s.keepsLists_updLine l _ fun _ => rfl)
  unfold State.installTable
  simp only
  split
  · exact installed.trans (enabled _)
  · exact installed.trans (State.keepsLists_updLine _ l Line.dropCharacter fun _ => rfl)

theorem State.keepsLists_tableReadEnds (s : State) (l : LineNo) (r : BusRead) : s.KeepsLists (s.tableReadEnds l r) := by
  have failed : ∀ id status detail, s.KeepsLists (s.tableFails l id status detail) := fun id status detail =>
    State.KeepsLists.after (State.keepsLists_endRecord ..) (s.keepsLists_updLine l _ fun _ => rfl)
  unfold State.tableReadEnds
  split
  · exact .refl s
  · refine State.KeepsLists.after (State.keepsLists_finish _) ?_
    split
    · exact failed ..
    · split
      · exact s.keepsLists_installTable ..
      · exact failed ..

theorem State.keepsLists_guardEnds (s : State) (l : LineNo) : s.KeepsLists (s.guardEnds l) := by
  unfold State.guardEnds
  refine State.KeepsLists.after (State.keepsLists_finish _) ((s.keepsLists_reach (s.line l).guardMoment).trans ?_)
  split
  · exact State.keepsLists_enterBreakOut ..
  · exact State.keepsLists_updLine _ l Line.rest fun _ => rfl

theorem State.keepsLists_breakReleased (s : State) (l : LineNo) : s.KeepsLists (s.breakReleased l) := by
  have bound : ∀ u : State, u.KeepsLists (u.endBound l) := fun u =>
    (State.KeepsLists.foldl _ (fun u id => u.keepsLists_endOk id) _ _).trans (State.keepsLists_updLine _ l _ fun _ => rfl)
  exact State.KeepsLists.after (State.keepsLists_finish _) (State.KeepsLists.after (State.keepsLists_toGuard _ l)
    (State.KeepsLists.after (bound _) (s.keepsLists_reachLine l _ _ fun _ => rfl)))

/-! ## The receiver -/

theorem Line.retryList_discardGlitch (x : Line) (t : Nat) : (x.discardGlitch t).retryList = x.retryList := by
  unfold Line.discardGlitch
  split
  · exact x.retryList_noticed
  · rfl

theorem Line.retryList_quietAtExpiry (x : Line) (t : Nat) : (x.quietAtExpiry t).retryList = x.retryList := by
  unfold Line.quietAtExpiry
  split <;> rfl

theorem State.keepsLists_readMark (s : State) (l : LineNo) : s.KeepsLists (s.readMark l) :=
  s.keepsLists_reachLine l _ _ fun _ => rfl

theorem State.keepsLists_useCharacter (s : State) (l : LineNo) (octet : Byte) (mark ferr : Bool) :
    s.KeepsLists (s.useCharacter l octet mark ferr) := by
  have chatter : s.KeepsLists (s.updLine l Line.countChatter) := s.keepsLists_updLine l _ fun _ => rfl
  have received : s.KeepsLists (s.receiveOctet l octet mark ferr) := by
    unfold State.receiveOctet
    simp only
    split
    · exact .refl s
    · split
      · exact .refl s
      · split
        · exact s.keepsLists_updLine l _ fun _ => rfl
        · exact s.keepsLists_updLine l _ fun _ => rfl
        · exact s.keepsLists_endAttempt ..
        · exact s.keepsLists_endAttempt ..
  unfold State.useCharacter
  split
  · exact received
  · exact chatter.trans (State.keepsLists_toGuard _ l)
  · exact chatter
  · exact chatter
  · exact chatter
  · exact chatter
  · exact .refl s
  · exact .refl s
  · exact .refl s

theorem State.keepsLists_takeCharacter (s : State) (l : LineNo) (octet : Byte) (mark : Bool) (stop : StopBit) (e : Nat) :
    s.KeepsLists (s.takeCharacter l octet mark stop e) := by
  have begins : s.KeepsLists (s.answerBegins l mark) := by
    unfold State.answerBegins
    split
    · exact s.keepsLists_readMark l
    · exact .refl s
  exact State.KeepsLists.after (State.keepsLists_finish _) (State.KeepsLists.after (State.keepsLists_useCharacter ..)
    (begins.trans (State.keepsLists_reachLine _ l _ _ fun _ => rfl)))

theorem State.keepsLists_breakDetected (s : State) (l : LineNo) : s.KeepsLists (s.breakDetected l) := by
  have read : ∀ u : State, u.KeepsLists (u.breakOnRead l) := fun u => by
    unfold State.breakOnRead
    split
    · exact u.keepsLists_abandonRead l
    · exact .refl u
  have attempt : ∀ u : State, u.KeepsLists (u.breakOnAttempt l) := fun u => by
    unfold State.breakOnAttempt
    split
    · split
      · exact u.keepsLists_deliver ..
      · exact .refl u
    · exact .refl u
  have guarded : ∀ u : State, u.KeepsLists (u.guardAfterBreak l) := fun u => by
    unfold State.guardAfterBreak
    split
    · exact u.keepsLists_toGuard l
    · exact .refl u
  have applied : ∀ u : State, u.KeepsLists
      ((((u.breakOnRead l).breakReaches l).cancelAbandoned (s.line l).abandonedJob).breakOnAttempt l) := fun u =>
    (((read u).trans (State.keepsLists_breakReaches _ l)).trans (State.keepsLists_cancelAbandoned _ _)).trans (attempt _)
  unfold State.breakDetected
  refine State.KeepsLists.after (State.keepsLists_finish _) (State.KeepsLists.after (guarded _)
    (State.KeepsLists.after (State.keepsLists_updLine _ l _ fun _ => rfl) (State.KeepsLists.after (applied _) ?_)))
  exact s.keepsLists_reachLine l _ _ fun _ => rfl

/-! ## Station timers -/

/-- An expiry touches no list, whatever it does to the rest of the entry, and neither does the notice of it. -/
theorem State.keepsLists_timerExpires (s : State) (h : Handle) (k : TimerKind) (f : Station → Nat → Station)
    (hf : ∀ x t, (f x t).pending = x.pending) : s.KeepsLists (s.timerExpires h k f) :=
  (s.keepsLists_reach _).trans (State.keepsLists_updStation _ h _ fun x => by rw [hf]; exact id)

theorem State.keepsLists_tellStationLine (s : State) (h : Handle) : s.KeepsLists (s.tellStationLine h) := by
  unfold State.tellStationLine
  split
  · exact s.keepsLists_notify _
  · exact .refl s

theorem State.keepsLists_releaseHeld (s : State) (h : Handle) : s.KeepsLists (s.releaseHeld h) := by
  unfold State.releaseHeld
  split
  · exact s.keepsLists_updCtx ..
  · exact .refl s

/-! ## The commands -/

/-- A command keeps the lists when its effect does. -/
theorem keepsLists_runCommand {c : Instr} {o : Bool} {e : State → State} {s t : State}
    (h : runCommand c o e s = .next t) (k : s.KeepsLists (e s)) : s.KeepsLists t := by
  obtain ⟨-, ⟨-, -, rfl⟩ | rfl⟩ := runCommand_next h
  · exact k
  · exact .refl _

theorem keepsLists_runRecord {c : Instr} {r : List Byte} {act : State → Nat → State} {s t : State}
    (h : runRecord c r act s = .next t) (k : ∀ (u : State) id, u.KeepsLists (act u id)) : s.KeepsLists t :=
  keepsLists_runCommand h (s.keepsLists_takeRecord r act k)

/-- R46, R102: every command keeps the pending lists and the retry lists without duplicates. -/
theorem exec_keepsLists {c : Instr} {s t : State} (h : exec c s = .next t) : s.KeepsLists t := by
  unfold exec at h
  cases c with
  | hardwareReset => cases h; exact s.keepsLists_softReset.trans (.same rfl rfl)
  | resetRelease => cases h; exact .same rfl rfl
  | softReset v => exact keepsLists_runCommand h s.keepsLists_softReset
  | enableWritten1 v => exact keepsLists_runCommand h s.keepsLists_enableOne
  | enableWritten0 v => exact keepsLists_runCommand h s.keepsLists_enableZero
  | setupAddrWrite v =>
    refine keepsLists_runCommand h ?_
    unfold State.writeSetupAddr
    split
    · exact .same rfl rfl
    · exact s.keepsLists_reject
  | postTail v => exact keepsLists_runCommand h (s.keepsLists_postTail v)
  | postRestart v =>
    refine keepsLists_runCommand h ?_
    unfold State.postRestart
    split
    · exact .same rfl rfl
    · exact s.keepsLists_reject
  | retire v => exact keepsLists_runCommand h (s.keepsLists_retire v)
  | intStatusWrite v => exact keepsLists_runCommand h (.same rfl rfl)
  | intEnableWrite v => exact keepsLists_runCommand h (.same rfl rfl)
  | registerWriteIgnored offset v => exact keepsLists_runCommand h s.keepsLists_reject
  | setupReadEnd result => exact keepsLists_runCommand h (s.keepsLists_setupEnds result)
  | fetchChoice => exact keepsLists_runCommand h s.keepsLists_fetchLook
  | recordReadError => exact keepsLists_runCommand h (s.keepsLists_readFails.trans (State.keepsLists_finish _))
  | unknownKind r => exact keepsLists_runRecord h fun u _ => .refl u
  | exchange r => exact keepsLists_runRecord h fun u id => u.keepsLists_acceptExchange (recHandle r) id
  | broadcast r =>
    exact keepsLists_runRecord h fun u id => u.keepsLists_updLine _ _ Line.retryList_noticed
  | addStation r =>
    exact keepsLists_runRecord h fun u id => (u.keepsLists_addStation r).trans (State.keepsLists_endOk _ id)
  | removeStation r =>
    exact keepsLists_runRecord h fun u id => State.KeepsLists.after (State.keepsLists_settleClosing _ _)
      (u.keepsLists_updStation _ _ fun _ hx => hx)
  | pauseStation r =>
    exact keepsLists_runRecord h fun u id => State.KeepsLists.after (State.keepsLists_endOk _ id)
      (u.keepsLists_updStation _ _ fun _ hx => hx)
  | resumeStation r =>
    exact keepsLists_runRecord h fun u id => (u.keepsLists_resumeStation _).trans (State.keepsLists_endOk _ id)
  | setLineDisable r =>
    refine keepsLists_runRecord h fun u id => State.KeepsLists.after (State.keepsLists_endOk _ id) ?_
    unfold State.disableLine
    split
    · exact u.keepsLists_updLine _ _ fun _ => rfl
    · exact .refl u
  | setLineEnable r =>
    refine keepsLists_runRecord h fun u id => u.keepsLists_updLine _ _ fun x => ?_
    unfold Line.configure
    simp only
    split <;> rfl
  | quiesceLine r => exact keepsLists_runRecord h fun u id => u.keepsLists_quiesceLine _ id
  | resumeLine r =>
    exact keepsLists_runRecord h fun u id => State.KeepsLists.after (State.keepsLists_endOk _ id)
      (u.keepsLists_updLine _ _ fun _ => rfl)
  | lineReset r => exact keepsLists_runRecord h fun u id => u.keepsLists_resetLine _ id
  | abort r => exact keepsLists_runRecord h fun u id => u.keepsLists_abortRecord _ _ id
  | fence r => exact keepsLists_runRecord h fun u id => u.keepsLists_fenceRecord id
  | bandTableReadEnd l result => exact keepsLists_runCommand h (s.keepsLists_tableReadEnds l result)
  | schedulerChoice l wait =>
    exact keepsLists_runCommand h (State.KeepsLists.after (State.keepsLists_finish _)
      ((s.keepsLists_reach _).trans (State.keepsLists_consult _ l)))
  | payloadReadEnd l octets =>
    refine keepsLists_runCommand h ?_
    unfold State.payloadRead
    split
    · exact .refl s
    · exact ((s.keepsLists_fillBuffer ..).trans (State.keepsLists_readGood ..)).trans (State.keepsLists_finish _)
  | payloadReadError l =>
    refine keepsLists_runCommand h ?_
    unfold State.payloadFails
    split
    · exact .refl s
    · exact (s.keepsLists_readFailed ..).trans (State.keepsLists_finish _)
  | abandonedReadEnd l => exact keepsLists_runCommand h ((s.keepsLists_toGuard l).trans (State.keepsLists_finish _))
  | transmitEnd l =>
    refine keepsLists_runCommand h ?_
    unfold State.transmitEnds
    split
    · exact .refl s
    · exact State.KeepsLists.after (State.keepsLists_finish _) (State.KeepsLists.after (State.keepsLists_frameSent ..)
        (s.keepsLists_reachLine l _ _ fun _ => rfl))
  | characterReceived l octet mark stop => exact keepsLists_runCommand h (s.keepsLists_takeCharacter ..)
  | interCharacterGapExpiry l =>
    exact keepsLists_runCommand h (State.KeepsLists.after (State.keepsLists_finish _)
      ((s.keepsLists_reach _).trans (State.keepsLists_endAttempt ..)))
  | replyTimerExpiry l =>
    exact keepsLists_runCommand h (State.KeepsLists.after (State.keepsLists_finish _)
      (State.KeepsLists.after (State.keepsLists_endAttempt ..)
        (s.keepsLists_reachLine l _ _ fun x => x.retryList_quietAtExpiry _)))
  | replyWriteEnd l result =>
    refine keepsLists_runCommand h ?_
    unfold State.replyWriteEnds
    split
    · exact (s.keepsLists_replyWritten ..).trans (State.keepsLists_finish _)
    · exact .refl s
    · exact .refl s
  | breakDetected l => exact keepsLists_runCommand h (s.keepsLists_breakDetected l)
  | stuck l =>
    exact keepsLists_runCommand h (State.KeepsLists.after (State.keepsLists_finish _)
      (s.keepsLists_reachLine l _ _ fun _ => rfl))
  | lineReturnToMark l wait => exact keepsLists_runCommand h (s.keepsLists_reachLine l _ _ fun _ => rfl)
  | recoveryEnd l =>
    exact keepsLists_runCommand h (State.KeepsLists.after (State.keepsLists_finish _)
      (s.keepsLists_reachLine l _ _ fun _ => rfl))
  | guardEnd l => exact keepsLists_runCommand h (s.keepsLists_guardEnds l)
  | breakSpaceEnd l => exact keepsLists_runCommand h (s.keepsLists_reachLine l _ _ fun _ => rfl)
  | breakRelease l => exact keepsLists_runCommand h (s.keepsLists_breakReleased l)
  | pollTimerExpiry k =>
    exact keepsLists_runCommand h ((s.keepsLists_timerExpires k .poll Station.pollExpired fun _ _ => rfl).trans
      (State.keepsLists_tellStationLine _ k))
  | holdTimerExpiry k =>
    exact keepsLists_runCommand h (((s.keepsLists_timerExpires k .hold Station.holdExpired fun _ _ => rfl).trans
      (State.keepsLists_releaseHeld _ k)).trans (State.keepsLists_tellStationLine _ k))
  | probeTimerExpiry k =>
    exact keepsLists_runCommand h ((s.keepsLists_timerExpires k .probe Station.probeExpired fun _ _ => rfl).trans
      (State.keepsLists_tellStationLine _ k))
  | completionEntryPosted => exact keepsLists_runCommand h s.keepsLists_completionPosted
  | completionWriteError done => exact keepsLists_runCommand h (s.keepsLists_completionFails done)
  | eventEntryPosted => exact keepsLists_runCommand h s.keepsLists_eventPosted
  | eventWriteError done => exact keepsLists_runCommand h (s.keepsLists_eventFails done)
  | holdoffTimerExpiry ring =>
    refine keepsLists_runCommand h ?_
    unfold State.holdoffExpires
    cases ring <;> exact .same rfl rfl
  | characterBegun l wait => exact keepsLists_runCommand h (s.keepsLists_reachLine l _ _ fun _ => rfl)
  | glitchDiscarded l wait =>
    exact keepsLists_runCommand h (s.keepsLists_reachLine l _ _ fun x => x.retryList_discardGlitch _)
  | markBitRead l => exact keepsLists_runCommand h (s.keepsLists_readMark l)

theorem step_keepsLists {s t : State} (h : step s = .next t) : s.KeepsLists t := by
  unfold step at h
  split at h
  · cases h
    unfold State.tick
    split <;> exact .same rfl rfl
  · next c rest _ =>
    have fetched : s.KeepsLists { s with pending := rest } := .same rfl rfl
    exact fetched.trans (exec_keepsLists h)

end Sys2Proof.Machine

open Sys2Proof Sys2Proof.Machine

/-- Settles O57, by what every command keeps: the station rules (`step_keeps`) and the lists (`step_keepsLists`). -/
theorem stationRulesKept : Obligations.StationRulesKept := by
  intro s t h
  have kept := step_keeps h
  exact ⟨kept.pairs, kept.timers, kept.misses, (step_keepsLists h).distinct⟩
end

section
/-! PROOFS. The part at reset, and the passing of time on an empty queue (R17, R47, R56, R81, R102, R129, R143, R147, R151,
R155; entries 3 and 4). -/

namespace Sys2Proof.Machine

/-! ## Time -/

/-- R99, R159: in FAILED time passes on the clock of the holdoff timers alone. -/
theorem State.elapse_failed {s : State} (h : s.device = .failed) (d : Nat) :
    s.elapse d = { s with clock := s.clock + d } := by
  simp [State.elapse, h]

theorem State.elapse_running {s : State} (h : s.device ≠ .failed) (d : Nat) :
    s.elapse d = { s with clock := s.clock + d, time := s.time + d } := by
  simp [State.elapse, h]

theorem step_of_empty {s : State} (h : s.pending = []) : step s = .next s.tick := by
  rw [step, h]

/-- R161: no time is counted while a reset is held. -/
theorem State.tick_held {s : State} (h : s.resetHeld = true) : s.tick = s := if_pos h

theorem State.tick_live {s : State} (h : s.resetHeld = false) : s.tick = s.elapse Config.ticksPerMicrosecond := by
  simp [State.tick, h]

/-! ## Reset -/

theorem State.queue_reset (q : QueueNo) : State.reset.queue q = Queue.reset := by simp [State.queue, State.reset]

theorem State.line_reset (l : LineNo) : State.reset.line l = Line.reset := by simp [State.line, State.reset]

theorem State.station_reset (h : Handle) : State.reset.station h = none := by simp [State.station, State.reset]

/-- No entry is in use at reset, so that every rule of entries holds. -/
theorem State.reset_stations {P : Handle → Station → Prop} (h : Handle) (st : Station)
    (hst : State.reset.station h = some st) : P h st := by
  rw [State.station_reset] at hst
  cases hst

theorem Line.driverRule_reset : Line.reset.driverRule := ⟨fun h => (by cases h), fun _ => rfl⟩

/-- R17, R82, R102, R151: the rules of lines, entries and the interrupt output at reset. -/
theorem State.rules_reset : State.reset.DriversSafe ∧ State.reset.MemoryCanonical ∧ State.reset.PinFollows ∧
    State.reset.PairsDistinct ∧ State.reset.TimersMatch ∧ State.reset.MissesCounted ∧ State.reset.ContextsDistinct := by
  refine ⟨fun l => ?_, memoryOrdered_reset, rfl, ⟨State.reset_stations, fun h k a b ha => ?_⟩, State.reset_stations,
    State.reset_stations, List.nodup_nil, fun c hc => (by cases hc)⟩
  · rw [State.line_reset]
    exact Line.driverRule_reset
  · exact State.reset_stations (P := fun _ _ => _) h a ha

theorem State.not_installed_reset : ¬ State.reset.Installed := fun h => h.1 rfl

/-- R135, R143: no completion is held, and the pool is empty. -/
theorem State.creditsKept_reset : State.reset.CreditsKept := by
  refine ⟨List.nodup_nil, fun id hid => ?_, fun rd hrd => ?_, fun h => (State.not_installed_reset h).elim,
    fun _ => ⟨rfl, rfl, rfl⟩⟩
  · cases hid
  · cases hrd

/-- R147: no place of the event ring is held. -/
theorem State.placesKept_reset : State.reset.PlacesKept :=
  ⟨by decide, fun h => (State.not_installed_reset h).elim, fun _ => ⟨rfl, rfl, rfl⟩⟩

/-- R46, R47, R102: the rest of the invariants at reset. -/
theorem State.lines_reset : State.reset.LinesConfigured ∧ State.reset.ListsDistinct := by
  refine ⟨fun l h => ?_, State.reset_stations, fun l => ?_⟩
  · rw [State.line_reset] at h
    exact (h rfl).elim
  · rw [State.line_reset]
    exact List.nodup_nil

end Sys2Proof.Machine

open Sys2Proof Sys2Proof.Machine

/-- Settles O2, by the three states of the part that the tick tells apart. -/
theorem emptyQueuePassesTime : Obligations.EmptyQueuePassesTime := by
  intro s hp
  rw [step_of_empty hp]
  refine ⟨fun hr => ?_, fun hr hf => ?_, fun hr hf => ?_⟩
  · rw [State.tick_held hr]
  · rw [State.tick_live hr, State.elapse_failed hf, Config.ticksPerMicrosecond]
  · rw [State.tick_live hr, State.elapse_running hf, Config.ticksPerMicrosecond]

/-- Settles O5, block by block; the invariants by what is not in use at reset. -/
theorem resetValues : Obligations.ResetValues := by
  refine ⟨⟨rfl, rfl, rfl, rfl⟩, ⟨rfl, rfl, rfl⟩, ⟨rfl, rfl, rfl, rfl⟩, fun q => ?_, ⟨rfl, rfl, rfl, rfl⟩,
    State.station_reset, fun l => ?_, ⟨rfl, rfl, rfl, rfl, rfl⟩, ⟨rfl, rfl, rfl, rfl, rfl, rfl, rfl⟩, State.rules_reset,
    State.lines_reset.1, State.lines_reset.2, State.creditsKept_reset, State.placesKept_reset⟩
  · rw [State.queue_reset]
    exact ⟨rfl, rfl, rfl, rfl, rfl, rfl⟩
  · rw [State.line_reset]
    exact ⟨rfl, rfl, rfl, rfl, rfl, rfl, rfl, rfl, rfl, rfl, rfl, rfl, rfl, rfl, rfl, rfl, rfl, rfl, rfl, rfl, rfl, rfl, rfl⟩
end

section
/-! PROOFS. Records that are taken, and the timers of a station (R35, R37 to R40, R46, R74, R113, R141; entry 24). -/

namespace Sys2Proof.Machine

/-! ## A record that is taken -/

/-- R139, R140: a record command that is taken accepts its record, acts, and ends its step. -/
theorem runRecord_taken {c : Instr} {s : State} {r : List Byte} {rd : RecordRead} (h : s.Takes c r rd)
    (act : State → Nat → State) : runRecord c r act s = .next (act (s.accept rd r) rd.ctx).finish := by
  obtain ⟨hreset, hdevice, hreading, -, hwell, hverdict⟩ := h
  have hlive : s.live = true := by simp [State.live, hreset]
  have hread : s.readInProgress = true := by
    rcases hdevice with hd | hd <;> simp [State.readInProgress, hd, hreading]
  rw [runRecord, runCommand_occurs hwell hlive hread, State.takeRecord, hreading]
  simp only [hverdict]

theorem exec_exchange (r : List Byte) (s : State) :
    exec (.exchange r) s = runRecord (.exchange r) r (fun s id => s.acceptExchange (recHandle r) id) s := rfl

theorem exec_broadcast (r : List Byte) (s : State) : exec (.broadcast r) s =
    runRecord (.broadcast r) r (fun s id => s.updLine (recLine r) fun x => x.queueBroadcast id) s := rfl

/-- R46, R102: joining the tail of a list without duplicates. -/
theorem joinTail_eq (ids : List Nat) (id : Nat) : joinTail ids id = if id ∈ ids then ids else ids ++ [id] := by
  simp [joinTail]

/-- R46, R141: what an accepted exchange of a station in use does. -/
theorem State.acceptExchange_eq {s : State} {h : Handle} {st : Station} (hst : s.station h = some st) (id : Nat) :
    s.acceptExchange h id =
      if st.state = .offline then s.hand id .stationOffline .none 0 (some st.band) none
      else (s.setStation h (some { st with pending := joinTail st.pending id })).notify st.line := by
  rw [State.acceptExchange, hst]

/-- R74, R113: the broadcast in the FIFO, and the notice. -/
theorem Line.queueBroadcast_eq (x : Line) (id : Nat) : x.queueBroadcast id =
    { x with fifo := x.fifo ++ [id], consultDue := if x.state = .idle then true else x.consultDue } := by
  unfold Line.queueBroadcast Line.noticed
  split <;> rfl

/-! ## Station timers -/

section
variable (s : State) (h : Handle)

theorem exec_pollTimerExpiry : exec (.pollTimerExpiry h) s = runCommand (.pollTimerExpiry h) (s.timerRuns h .poll)
    (fun s => (s.timerExpires h .poll Station.pollExpired).tellStationLine h) s := rfl

theorem exec_holdTimerExpiry : exec (.holdTimerExpiry h) s = runCommand (.holdTimerExpiry h) (s.timerRuns h .hold)
    (fun s => ((s.timerExpires h .hold Station.holdExpired).releaseHeld h).tellStationLine h) s := rfl

theorem exec_probeTimerExpiry : exec (.probeTimerExpiry h) s = runCommand (.probeTimerExpiry h) (s.timerRuns h .probe)
    (fun s => (s.timerExpires h .probe Station.probeExpired).tellStationLine h) s := rfl

end

section
variable {s : State} {h : Handle} {st : Station} {k : TimerKind} {e : Nat}

theorem State.timerOf_eq (hst : s.station h = some st) (ht : st.timer = some { kind := k, expires := e }) :
    s.timerOf h k = some e := by
  simp [State.timerOf, hst, ht]

/-- R35: a running timer of an operating part can expire. -/
theorem State.timerRuns_of (ho : s.Operates) (hst : s.station h = some st)
    (ht : st.timer = some { kind := k, expires := e }) : s.timerRuns h k = true := by
  simp [State.timerRuns, ho.operating, State.timerOf_eq hst ht]

/-- R37 to R39: the timer expires at its own moment, and the entry changes by it. -/
theorem State.timerExpires_eq (hst : s.station h = some st) (ht : st.timer = some { kind := k, expires := e })
    (f : Station → Nat → Station) : s.timerExpires h k f = (s.reach e).setStation h (some (f st e)) := by
  have hreach : (s.reach e).station h = some st := hst
  rw [State.timerExpires, State.timerOf_eq hst ht]
  simp only [Option.getD_some, State.updStation_eq, hreach, Option.map_some]

theorem State.tellStationLine_eq (hst : s.station h = some st) : s.tellStationLine h = s.notify st.line := by
  rw [State.tellStationLine, hst]

end

end Sys2Proof.Machine

open Sys2Proof Sys2Proof.Machine

/-- Settles O21: `runRecord_taken`, then what the act of each of the two kinds does. -/
theorem exchangeAndBroadcastQueued : Obligations.ExchangeAndBroadcastQueued := by
  refine ⟨fun s l => rfl, fun s r rd => ⟨fun st ht hst => ?_, fun ht => ?_⟩⟩
  · have hst' : (s.accept rd r).station (recHandle r) = some st := hst
    rw [exec_exchange, runRecord_taken ht, State.acceptExchange_eq hst', joinTail_eq]
    exact ⟨fun hs => by rw [if_neg hs], fun hs => by rw [if_pos hs]⟩
  · have hline : (s.accept rd r).line (recLine r) = s.line (recLine r) := rfl
    rw [exec_broadcast, runRecord_taken ht, State.updLine_eq, hline, Line.queueBroadcast_eq]

/-- Settles O50: `State.timerExpires_eq` for each kind, then the exchange in HELD (R38) and the notice. -/
theorem stationTimersExpire : Obligations.StationTimersExpire := by
  intro s h st e ho hst u
  have told : ∀ (v : State) (x : Station), (v.setStation h (some x)).tellStationLine h =
      (v.setStation h (some x)).notify x.line := fun v x => State.tellStationLine_eq (State.station_setStation_same ..)
  refine ⟨fun ht => ?_, fun ht => ?_, fun ht => ⟨fun hp => ?_, fun id rest hp => ?_⟩⟩
  · rw [exec_pollTimerExpiry, runCommand_occurs rfl ho.live (State.timerRuns_of ho hst ht), State.timerExpires_eq hst ht,
      told]
    rfl
  · rw [exec_probeTimerExpiry, runCommand_occurs rfl ho.live (State.timerRuns_of ho hst ht), State.timerExpires_eq hst ht,
      told]
    rfl
  · have held : (u.setStation h (some (st.holdExpired e))).releaseHeld h = u.setStation h (some (st.holdExpired e)) := by
      simp [State.releaseHeld, Station.holdExpired, hp]
    rw [exec_holdTimerExpiry, runCommand_occurs rfl ho.live (State.timerRuns_of ho hst ht), State.timerExpires_eq hst ht,
      held, told]
    rfl
  · have held : (u.setStation h (some (st.holdExpired e))).releaseHeld h =
        (u.setStation h (some (st.holdExpired e))).updCtx id fun c =>
          { c with phase := if c.phase = .held then .queued else c.phase } := by
      simp [State.releaseHeld, Station.holdExpired, hp]
    have hentry : ((u.setStation h (some (st.holdExpired e))).updCtx id fun c =>
        { c with phase := if c.phase = .held then .queued else c.phase }).station h = some (st.holdExpired e) :=
      State.station_setStation_same ..
    rw [exec_holdTimerExpiry, runCommand_occurs rfl ho.live (State.timerRuns_of ho hst ht), State.timerExpires_eq hst ht,
      held, State.tellStationLine_eq hentry]
    rfl
end

section
/-! PROOFS. Which commands begin an attempt, and to which stations (R42): only the scheduler's choice and the end of a payload
read bring a line to TRANSMIT, and neither chooses or keeps an attempt to a station that is paused. -/

namespace Sys2Proof.Machine

/-! ## Operations that bring no line to TRANSMIT -/

/-- A line in TRANSMIT after the operation was in TRANSMIT before it. -/
structure State.StartsNone (s t : State) : Prop where
  state : ∀ l, (t.line l).state = .transmit → (s.line l).state = .transmit

theorem State.StartsNone.refl (s : State) : s.StartsNone s := ⟨fun _ => id⟩

theorem State.StartsNone.trans {s t u : State} (a : s.StartsNone t) (b : t.StartsNone u) : s.StartsNone u :=
  ⟨fun l h => a.state l (b.state l h)⟩

/-- Composition that starts from the last operation. -/
theorem State.StartsNone.after {s t u : State} (b : t.StartsNone u) (a : s.StartsNone t) : s.StartsNone u := a.trans b

theorem State.StartsNone.foldl {α : Type} (f : State → α → State) (hf : ∀ (s : State) a, s.StartsNone (f s a))
    (as : List α) (s : State) : s.StartsNone (as.foldl f s) := by
  induction as generalizing s with
  | nil => exact .refl s
  | cons a rest ih => exact (hf s a).trans (ih _)

theorem State.StartsNone.same {s t : State} (h : t.lines = s.lines) : s.StartsNone t :=
  ⟨fun l => by simp only [State.line, h, imp_self]⟩

theorem State.Rests.startsNone {s t : State} (r : s.Rests t) : s.StartsNone t := ⟨fun l h => (r.state l).symm.trans h⟩

theorem State.Ends.startsNone {s t : State} (e : s.Ends t) : s.StartsNone t := (State.rests_ends e).startsNone

/-- What the writers move of a line is not the engine. -/
theorem State.line_of_writers {s t : State} (w : s.SameButWriters t) (l : LineNo) :
    (t.line l).state = (s.line l).state ∧ (t.line l).job = (s.line l).job := by
  obtain ⟨-, -, hlines, -⟩ := (s.sameButWriters_iff t).1 w
  rw [(hlines l).2]
  exact ⟨rfl, rfl⟩

theorem State.startsNone_finish (s : State) : s.StartsNone s.finish :=
  ⟨fun l h => (State.line_of_writers s.writers_finish l).1.symm.trans h⟩

theorem State.startsNone_judgeGrant (s : State) : s.StartsNone s.judgeGrant := s.rests_judgeGrant.startsNone

theorem State.startsNone_updLine (s : State) (l : LineNo) (f : Line → Line)
    (hf : ∀ x, (f x).state = .transmit → x.state = .transmit) : s.StartsNone (s.updLine l f) := by
  refine ⟨fun k hk => ?_⟩
  rw [State.updLine_eq, State.line_setLine] at hk
  split at hk
  · next e =>
    subst e
    exact hf _ hk
  · exact hk

/-- A change of a line that leaves its engine, dated by a moment. -/
theorem State.startsNone_reachLine (s : State) (l : LineNo) (t : Nat) (f : Line → Line)
    (hf : ∀ x, (f x).state = .transmit → x.state = .transmit) : s.StartsNone ((s.reach t).updLine l f) :=
  (s.rests_reach t).startsNone.trans (State.startsNone_updLine _ l f hf)

/-- R89: GUARD is not TRANSMIT. -/
theorem State.startsNone_toGuard (s : State) (l : LineNo) : s.StartsNone (s.toGuard l) :=
  State.StartsNone.after (State.rests_endQuiescers _ l).startsNone (s.startsNone_updLine l _ fun _ h => by cases h)

theorem State.startsNone_endAttempt (s : State) (l : LineNo) (o : AttemptOutcome) (ap : Bool) :
    s.StartsNone (s.endAttempt l o ap) := by
  unfold State.endAttempt
  split
  · exact s.startsNone_toGuard l
  · exact (s.rests_deliver l _ o ap).startsNone.trans (State.startsNone_toGuard _ l)

theorem State.startsNone_enterBreakOut (s : State) (l : LineNo) (records : List Nat) (now : Nat) :
    s.StartsNone (s.enterBreakOut l records now) :=
  State.StartsNone.after (State.rests_breakReaches _ l).startsNone (s.startsNone_updLine l _ fun _ h => by cases h)

theorem Line.state_rest (x : Line) : x.rest.state ≠ .transmit := by
  unfold Line.rest
  cases x.quiesce <;> simp

/-- R85: a read that sends nothing leaves PREPARING for BREAK_OUT, QUIESCED or IDLE. -/
theorem State.startsNone_leaveRead (s : State) (l : LineNo) : s.StartsNone (s.leaveRead l) := by
  have left := s.startsNone_updLine l (fun x => { x with job := none, abandoned := false }) fun _ => id
  unfold State.leaveRead
  simp only
  split
  · exact left.trans (State.startsNone_enterBreakOut ..)
  · exact (left.trans (State.startsNone_updLine _ l Line.rest fun x h => (x.state_rest h).elim)).trans
      (State.rests_endQuiescers _ l).startsNone

theorem State.startsNone_readFailed (s : State) (l : LineNo) (id : Nat) : s.StartsNone (s.readFailed l id) := by
  have failed := (s.startsNone_updLine l (fun x => { x with txHolds := none }) fun _ hx => hx).trans
    (State.rests_updCtx _ id fun c => { c with lastFailure := some .payloadRead }).startsNone
  unfold State.readFailed
  refine State.StartsNone.after (State.startsNone_leaveRead _ l) (failed.trans ?_)
  split
  · exact ((State.ends_endWith ..).trans (State.ends_endAbort ..)).startsNone
  · exact (State.ends_endWith ..).startsNone

/-! ## Attempts to stations that are not paused -/

/-- An attempt that the operation begins is addressed to no station whose paused flag was set before it (R42). -/
structure State.StartsUnpaused (s t : State) : Prop where
  unpaused : ∀ l job h st, (s.line l).state ≠ .transmit → (t.line l).state = .transmit → (t.line l).job = some job →
    job.handle = some h → s.station h = some st → st.paused = false

theorem State.StartsNone.unpaused {s t : State} (n : s.StartsNone t) : s.StartsUnpaused t :=
  ⟨fun l _ _ _ hs ht => (hs (n.state l ht)).elim⟩

/-- What comes before the start begins nothing and leaves the entries. -/
theorem State.StartsUnpaused.before {s t u : State} (b : t.StartsUnpaused u) (n : s.StartsNone t)
    (h : t.stations = s.stations) : s.StartsUnpaused u :=
  ⟨fun l job k st hs hu hj hk hst => b.unpaused l job k st (fun ht => hs (n.state l ht)) hu hj hk (by
    rwa [State.station, h])⟩

/-- The end of the step leaves the engines and what they carry out. -/
theorem State.StartsUnpaused.finish {s t : State} (a : s.StartsUnpaused t) : s.StartsUnpaused t.finish := by
  refine ⟨fun l job k st hs ht hj => ?_⟩
  obtain ⟨hstate, hjob⟩ := State.line_of_writers t.writers_finish l
  exact a.unpaused l job k st hs (hstate.symm.trans ht) (hjob.symm.trans hj)

theorem State.line_beginAttempt (s : State) (job : Job) (l : LineNo) : (s.beginAttempt job).line l = s.line l := by
  unfold State.beginAttempt
  repeat' split
  all_goals rfl

/-- R61, R86: a frame that is begun addresses the station of its attempt, on its line. -/
theorem State.startsUnpaused_beginTransmit {s : State} {l : LineNo} {job : Job}
    (hp : ∀ h st, job.handle = some h → s.station h = some st → st.paused = false) :
    s.StartsUnpaused (s.beginTransmit l job) := by
  refine ⟨fun k job' h st hs ht hj hh hst => ?_⟩
  rw [State.beginTransmit, State.updLine_eq, State.line_setLine] at ht hj
  split at ht
  · next e =>
    subst e
    rw [if_pos rfl] at hj
    obtain rfl : job = job' := Option.some.inj hj
    exact hp h st hh hst
  · rw [State.line_beginAttempt] at ht
    exact (hs ht).elim

/-- R59: a payload read that has ended good begins no COMMAND to a paused station: its exchange waits again. -/
theorem State.startsUnpaused_readGood (s : State) (l : LineNo) (job : Job) : s.StartsUnpaused (s.readGood l job) := by
  have left : ∀ u : State, s.Ends u → s.StartsUnpaused (u.leaveRead l) := fun u e =>
    (e.startsNone.trans (State.startsNone_leaveRead u l)).unpaused
  cases job with
  | command id h origin =>
    simp only [State.readGood]
    split
    · exact left _ ((s.ends_endWith ..).trans (State.ends_endAbort ..))
    · split
      · exact left _ (.refl s)
      · next x hx =>
        split
        · exact left _ (s.ends_endWith ..)
        · split
          · exact left _ (s.ends_returnToWait ..)
          · next hpaused =>
            refine State.startsUnpaused_beginTransmit fun k st hk hst => ?_
            obtain rfl : h = k := Option.some.inj hk
            obtain rfl : x = st := Option.some.inj (hx.symm.trans hst)
            simpa using hpaused
  | broadcast id =>
    simp only [State.readGood]
    split
    · exact left _ ((s.ends_endWith ..).trans (State.ends_endAbort ..))
    · exact State.startsUnpaused_beginTransmit fun _ _ hk => by cases hk
  | poll h p => exact left _ (.refl s)
  | link h => exact left _ (.refl s)
  | probe h => exact left _ (.refl s)

/-- R58, R85: the attempt that the scheduler chose starts, at once or with its payload read. -/
theorem State.startsUnpaused_startWork {s : State} {l : LineNo} {job : Job} {id : Nat}
    (hp : ∀ h st, job.handle = some h → s.station h = some st → st.paused = false) :
    s.StartsUnpaused (s.startWork l job id) := by
  have begun := (s.startsNone_updLine l
    (fun x => { x with state := .preparing, job := some job, abandoned := false, txHolds := none })
    fun _ h => by cases h).trans (State.rests_updCtx _ id fun c => { c with phase := .preparing }).startsNone
  unfold State.startWork
  split
  · exact State.startsUnpaused_beginTransmit hp
  · unfold State.beginRead
    simp only
    split
    · exact (State.startsUnpaused_readGood ..).before (begun.trans (State.rests_fillBuffer ..).startsNone) rfl
    · exact begun.unpaused

/-! ## What the scheduler chooses (R103 to R112) -/

/-- The station of `h` is in use and not paused. -/
def State.Unpaused (s : State) (h : Handle) : Prop := ∃ st, s.station h = some st ∧ st.paused = false

theorem State.Unpaused.paused {s : State} {h : Handle} {st : Station} (u : s.Unpaused h) (hst : s.station h = some st) :
    st.paused = false := by
  obtain ⟨x, hx, hp⟩ := u
  obtain rfl : x = st := Option.some.inj (hx.symm.trans hst)
  exact hp

theorem State.unpaused_of_stationOn {s : State} {l : LineNo} {h : Handle} {st : Station}
    (hst : s.stationOn l h = some st) (hp : st.paused = false) : s.Unpaused h := by
  refine ⟨st, ?_, hp⟩
  unfold State.stationOn at hst
  split at hst
  · next x hx =>
    split at hst
    · rwa [hst] at hx
    · cases hst
  · cases hst

/-- R110 to R112: the station with the oldest stamp has one. -/
theorem State.oldest_due {s : State} {l : LineNo} {due : Station → Option Nat} {h : Handle} (ho : s.oldest l due = some h) :
    ∃ st, s.stationOn l h = some st ∧ (due st).isSome = true := by
  have key : ∀ (hs : List Handle) (best : Option (Handle × Nat)),
      (∀ p, best = some p → ∃ st, s.stationOn l p.1 = some st ∧ (due st).isSome = true) →
      ∀ p, hs.foldl (fun best h => olderOffer best h ((s.stationOn l h).bind due)) best = some p →
        ∃ st, s.stationOn l p.1 = some st ∧ (due st).isSome = true := by
    intro hs
    induction hs with
    | nil => exact fun best hb => hb
    | cons k rest ih =>
      intro best hb
      refine ih _ fun p hp => ?_
      have offered : ∀ t, (s.stationOn l k).bind due = some t → ∃ st, s.stationOn l k = some st ∧ (due st).isSome = true := by
        intro t ht
        obtain ⟨st, hst, hdue⟩ := Option.bind_eq_some_iff.1 ht
        exact ⟨st, hst, by rw [hdue]; rfl⟩
      change olderOffer best k ((s.stationOn l k).bind due) = some p at hp
      unfold olderOffer at hp
      split at hp
      · exact hb p hp
      · next t ht =>
        cases hp
        exact offered t ht
      · next t k' t' ht =>
        split at hp
        · cases hp
          exact offered t ht
        · exact hb p hp
  obtain ⟨p, hp, rfl⟩ := Option.map_eq_some_iff.1 ho
  exact key allHandles none (fun p hp => by cases hp) p hp

theorem Station.pollStamp_unpaused {st : Station} (h : st.pollStamp.isSome = true) : st.paused = false := by
  unfold Station.pollStamp at h
  split at h
  · next ho =>
    simp only [Station.offersPoll, Bool.and_eq_true, Bool.not_eq_true'] at ho
    obtain ⟨⟨⟨-, hp⟩, -⟩, -⟩ := ho
    exact hp
  · cases h

theorem Station.probeStamp_unpaused {st : Station} (h : st.probeStamp.isSome = true) : st.paused = false := by
  unfold Station.probeStamp at h
  split at h
  · next ho =>
    simp only [Station.offersProbe, Bool.and_eq_true, Bool.not_eq_true'] at ho
    obtain ⟨⟨-, hp⟩, -⟩ := ho
    exact hp
  · cases h

/-- A station whose stamp is compared is not paused (R40). -/
theorem State.oldest_unpaused {s : State} {l : LineNo} {due : Station → Option Nat} {h : Handle}
    (hdue : ∀ st, (due st).isSome = true → st.paused = false) (ho : s.oldest l due = some h) : s.Unpaused h := by
  obtain ⟨st, hst, hs⟩ := State.oldest_due ho
  exact State.unpaused_of_stationOn hst (hdue st hs)

/-- R110: at step 5 the handle is of a poll or a probe that is offered. -/
theorem State.starvedChoice_unpaused {s : State} {l : LineNo} {h : Handle} (hc : s.starvedChoice l = some h) :
    s.Unpaused h := by
  refine State.oldest_unpaused (fun st hs => ?_) hc
  split at hs
  · cases hp : st.pollStamp with
    | none =>
      rw [hp] at hs
      exact Station.probeStamp_unpaused hs
    | some t => exact Station.pollStamp_unpaused (by rw [hp]; rfl)
  · exact Station.probeStamp_unpaused hs

/-- R105: the exchange chosen for a retry is of a station that is not paused. -/
theorem State.retryChoice_unpaused {s : State} {l : LineNo} {id : Nat} {h : Handle} (hc : s.retryChoice l = some id)
    (hh : (s.ctx id).bind Context.exchangeHandle = some h) : s.Unpaused h := by
  have found := List.find?_some hc
  rw [hh] at found
  simp only at found
  split at found
  · next st hst => exact ⟨st, hst, by simpa using found⟩
  · cases found

/-- The candidate that a cyclic choice finds is ready. -/
theorem firstAfter_ready {n p i : Nat} {ready : Nat → Bool} (h : firstAfter n p ready = some i) : ready i = true :=
  List.find?_some h

/-- R106: the station chosen for link service is not paused. -/
theorem State.linkChoice_unpaused {s : State} {l : LineNo} {i : Nat} (hc : s.linkChoice l = some i) :
    s.Unpaused ⟨i % 64, Nat.mod_lt _ (by decide)⟩ := by
  have ready := firstAfter_ready hc
  split at ready
  · next hi =>
    split at ready
    · next st hst =>
      have hmod : (⟨i % 64, Nat.mod_lt _ (by decide)⟩ : Handle) = ⟨i, hi⟩ := Fin.ext (Nat.mod_eq_of_lt hi)
      rw [hmod]
      simp only [Station.needsLink, Bool.and_eq_true, Bool.not_eq_true'] at ready
      exact State.unpaused_of_stationOn hst ready.1
    · cases ready
  · cases ready

/-- R107: the station chosen in a class is not paused. -/
theorem State.classChoice_unpaused {s : State} {l : LineNo} {k : QueueClass} {i : Nat} (hc : s.classChoice l k = some i)
    (hi : i < 64) : s.Unpaused ⟨i, hi⟩ := by
  have ready := firstAfter_ready hc
  rw [State.candidateReady, dif_pos hi] at ready
  split at ready
  · next st hst =>
    simp only [State.stationReady, Bool.and_eq_true, Bool.not_eq_true'] at ready
    obtain ⟨⟨-, hp⟩, -⟩ := ready
    exact State.unpaused_of_stationOn hst hp
  · cases ready

/-- R42: the choice names no station that is paused. -/
def State.ChoosesUnpaused (s : State) : Choice → Prop
  | .reset => True
  | .retry id => ∀ h, (s.ctx id).bind Context.exchangeHandle = some h → s.Unpaused h
  | .link h => s.Unpaused h
  | .work _ i => ∀ hi : i < 64, s.Unpaused ⟨i, hi⟩
  | .poll h => s.Unpaused h
  | .probe h => s.Unpaused h
  | .nothing => True

theorem State.lateChoice_unpaused (s : State) (l : LineNo) : s.ChoosesUnpaused (s.lateChoice l) := by
  unfold State.lateChoice
  split
  · next i hi => exact fun h => State.classChoice_unpaused hi h
  · split
    · next h hp =>
      split at hp
      · exact State.oldest_unpaused (fun _ => Station.pollStamp_unpaused) hp
      · cases hp
    · split
      · next h hp => exact State.oldest_unpaused (fun _ => Station.probeStamp_unpaused) hp
      · trivial

/-- R103: every step of the choice passes over paused stations. -/
theorem State.choose_unpaused (s : State) (l : LineNo) : s.ChoosesUnpaused (s.choose l) := by
  unfold State.choose
  split
  · trivial
  · split
    · next id hid => exact fun h hh => State.retryChoice_unpaused hid hh
    · split
      · next i hi => exact State.linkChoice_unpaused hi
      · split
        · next i hi => exact fun h => State.classChoice_unpaused hi h
        · split
          · next h hh =>
            have hu : s.Unpaused h := by
              split at hh
              · exact State.starvedChoice_unpaused hh
              · cases hh
            unfold State.pollOrProbe
            split
            · split <;> exact hu
            · trivial
          · exact s.lateChoice_unpaused l

/-- R85, R103: acting on such a choice begins no attempt to a paused station. -/
theorem State.startsUnpaused_act {s : State} {l : LineNo} {choice : Choice} (hc : s.ChoosesUnpaused choice) :
    s.StartsUnpaused (s.act l choice) := by
  have named : ∀ (u : State) (job : Job) (h : Handle), u.stations = s.stations → s.Unpaused h → job.handle = some h →
      ∀ k st, job.handle = some k → u.station k = some st → st.paused = false := by
    intro u job h hu hn hh k st hk hst
    obtain rfl : h = k := Option.some.inj (hh.symm.trans hk)
    exact hn.paused (by rwa [State.station, ← hu])
  cases choice with
  | reset => exact (s.startsNone_enterBreakOut ..).unpaused
  | retry id =>
    simp only [State.act]
    split
    · next h hh =>
      refine State.StartsUnpaused.before ?_
        (s.startsNone_updLine l (fun x => { x with retryList := x.retryList.erase id }) fun _ hx => hx) rfl
      exact State.startsUnpaused_startWork (named _ (.command id h .waitingRetry) h rfl (hc h hh) rfl)
    · exact (State.StartsNone.refl s).unpaused
  | link h =>
    refine State.StartsUnpaused.before ?_ (s.startsNone_updLine l (fun x => { x with linkPtr := h }) fun _ hx => hx) rfl
    exact State.startsUnpaused_beginTransmit (named _ (.link h) h rfl hc rfl)
  | work k i =>
    have moved : s.StartsNone (s.updLine l fun x => x.movePtr k ⟨i % 65, Nat.mod_lt _ (by decide)⟩) :=
      s.startsNone_updLine l _ fun x => by cases k <;> exact id
    simp only [State.act]
    refine State.StartsUnpaused.before ?_ moved rfl
    split
    · next hi =>
      unfold State.startHead
      split
      · exact State.startsUnpaused_startWork (named _ _ ⟨i, hi⟩ rfl (hc hi) rfl)
      · exact (State.StartsNone.refl _).unpaused
    · unfold State.startBroadcast
      split
      · exact State.startsUnpaused_startWork fun _ _ hk => by cases hk
      · exact (State.StartsNone.refl _).unpaused
  | poll h =>
    simp only [State.act, State.startPoll]
    split
    · next st _ =>
      refine State.StartsUnpaused.before (t := s.grantReservation l) ?_ (.same rfl) rfl
      exact State.startsUnpaused_beginTransmit (named _ (.poll h st.pseq) h rfl hc rfl)
    · exact (State.StartsNone.refl s).unpaused
  | probe h => exact State.startsUnpaused_beginTransmit (named _ _ h rfl hc rfl)
  | nothing => exact (State.StartsNone.refl s).unpaused

/-- The record of a refused request leaves what the choice names as it was. -/
theorem State.ChoosesUnpaused.congr {s t : State} {choice : Choice} (h1 : t.stations = s.stations) (h2 : t.pool = s.pool)
    (hc : s.ChoosesUnpaused choice) : t.ChoosesUnpaused choice := by
  have same : ∀ {h}, s.Unpaused h → t.Unpaused h := fun ⟨st, hst, hp⟩ => ⟨st, by rwa [State.station, h1], hp⟩
  cases choice with
  | reset => trivial
  | retry id => exact fun h hh => same (hc h (by rwa [State.ctx, ← h2]))
  | link h => exact same hc
  | work k i => exact fun hi => same (hc hi)
  | poll h => exact same hc
  | probe h => exact same hc
  | nothing => trivial

/-- R103: one consultation. -/
theorem State.startsUnpaused_consult (s : State) (l : LineNo) : s.StartsUnpaused (s.consult l) := by
  have consulted := s.startsNone_updLine l Line.consulted fun _ => id
  have chosen := (s.updLine l Line.consulted).choose_unpaused l
  unfold State.consult
  simp only
  split
  · refine State.StartsUnpaused.before (t := (s.updLine l Line.consulted).recordRefusal l) ?_ (consulted.trans (.same rfl)) rfl
    exact State.startsUnpaused_act (chosen.congr rfl rfl)
  · exact (State.startsUnpaused_act chosen).before consulted rfl

end Sys2Proof.Machine
end

section
/-! PROOFS. The attempts each command begins (R42): every command but the scheduler's choice and the good end of a payload
read leaves the lines out of TRANSMIT that were not in it, and those two begin no attempt to a paused station (O35). -/

namespace Sys2Proof.Machine

/-! ## The part as a whole -/

theorem State.startsNone_of_writers {s t : State} (w : s.SameButWriters t) : s.StartsNone t :=
  ⟨fun l h => (State.line_of_writers w l).1.symm.trans h⟩

/-- A change of the lines that brings none of them to TRANSMIT. -/
theorem State.startsNone_of {s t : State} (h : ∀ l, (t.line l).state = (s.line l).state ∨ (t.line l).state ≠ .transmit) :
    s.StartsNone t := by
  refine ⟨fun l ht => ?_⟩
  obtain he | hne := h l
  · exact he ▸ ht
  · exact (hne ht).elim

theorem State.startsNone_reject (s : State) : s.StartsNone s.reject := .same rfl

/-- R160: a reset disables every line. -/
theorem State.startsNone_softReset (s : State) : s.StartsNone s.softResetValues := by
  refine State.startsNone_of fun l => .inr ?_
  have hline : s.softResetValues.line l = Line.reset := by simp [State.line, State.softResetValues, State.reset]
  rw [hline]
  simp [Line.reset]

theorem State.startsNone_landReplies (s : State) : s.StartsNone s.landReplies := by
  refine State.StartsNone.foldl _ (fun u l => ?_) _ _
  unfold State.landReply
  split
  · split <;> exact .same rfl
  · exact .refl u
  · exact .refl u

theorem State.startsNone_landCompletion (s : State) : s.StartsNone s.landCompletion := by
  unfold State.landCompletion
  split <;> exact .same rfl

theorem State.startsNone_landEvent (s : State) : s.StartsNone s.landEvent := by
  unfold State.landEvent
  split <;> exact .same rfl

/-- R99: the release of the lines leaves the engine states. -/
theorem State.startsNone_enterFailed (s : State) (cause : CauseCode) : s.StartsNone (s.enterFailed cause) := by
  refine State.startsNone_of fun l => .inl ?_
  have hline : (s.enterFailed cause).line l = (s.line l).release := by simp [State.enterFailed, State.line, State.drivePin]
  rw [hline]
  rfl

theorem State.startsNone_enterRunning (s : State) : s.StartsNone s.enterRunning :=
  (State.startsNone_of_writers (s.writers_tellLines allLines)).trans (.same rfl)

theorem State.startsNone_resume (s : State) : s.StartsNone s.resume := by
  refine s.startsNone_enterRunning.trans (State.StartsNone.foldl _ (fun u l => ?_) _ _)
  unfold State.serveReset
  split
  · exact u.startsNone_enterBreakOut ..
  · exact .refl u

theorem State.startsNone_enableOne (s : State) : s.StartsNone s.enableOne := by
  have resumed : s.StartsNone ({ s with enable := true } : State).resume.finish :=
    State.StartsNone.after (State.startsNone_finish _) (State.StartsNone.after (State.startsNone_resume _) (.same rfl))
  unfold State.enableOne
  split
  · exact .same rfl
  · exact .same rfl
  · exact .same rfl
  · exact resumed
  · exact resumed
  · exact s.startsNone_reject

theorem State.startsNone_enableZero (s : State) : s.StartsNone s.enableZero := by
  unfold State.enableZero
  split
  · exact .same rfl
  · exact .same rfl
  · exact State.StartsNone.after (State.startsNone_finish _) (.same rfl)
  · exact .same rfl
  · exact .same rfl
  · exact s.startsNone_reject

theorem State.startsNone_setupEnds (s : State) (r : BusRead) : s.StartsNone (s.setupEnds r) := by
  unfold State.setupEnds
  split
  · split
    · exact .same rfl
    · split
      · exact s.startsNone_enterRunning.trans (.same rfl)
      · exact .same rfl
  · exact .same rfl

/-! ## Queues and rings -/

theorem State.startsNone_postTail (s : State) (v : Word) : s.StartsNone (s.postTail v) := by
  unfold State.postTail
  split
  · refine State.StartsNone.after (State.startsNone_finish _) ?_
    unfold State.postedTail
    simp only
    split <;> exact .same rfl
  · exact s.startsNone_reject

theorem State.startsNone_retire (s : State) (v : Word) : s.StartsNone (s.retire v) := by
  have completion : ∀ n, s.StartsNone (s.retireCompletion n) := fun n => by
    unfold State.retireCompletion
    split <;> exact .same rfl
  have event : ∀ n, s.StartsNone (s.retireEvent n) := fun n => by
    unfold State.retireEvent
    split
    · exact .refl s
    · exact State.StartsNone.after (State.startsNone_finish _)
        (State.StartsNone.after (State.startsNone_judgeGrant _) (.same rfl))
  unfold State.retire
  split
  · split
    · split
      · exact completion _
      · exact s.startsNone_reject
    · split
      · exact event _
      · exact s.startsNone_reject
  · exact s.startsNone_reject

theorem State.startsNone_fetchLook (s : State) : s.StartsNone s.fetchLook := by
  unfold State.fetchLook State.beginFetch
  simp only
  split
  · split
    · next k q id hq hid => cases k <;> exact .same rfl
    · exact .same rfl
  · exact .same rfl

theorem State.startsNone_readFails (s : State) : s.StartsNone s.readFails := by
  unfold State.readFails
  split <;> exact .same rfl

theorem State.startsNone_completionPosted (s : State) : s.StartsNone s.completionPosted := by
  have posting : ∀ u : State, u.StartsNone u.completionPosting := fun u => by
    unfold State.completionPosting
    simp only
    split <;> exact .same rfl
  unfold State.completionPosted
  split
  · exact .refl s
  · refine State.StartsNone.after (State.startsNone_finish _) (State.StartsNone.after (posting _) ?_)
    refine State.StartsNone.after (t := State.freeContext _ _) (.same rfl) ?_
    exact State.StartsNone.after (State.ends_freeContext _ _).startsNone (.same rfl)

theorem State.startsNone_completionFails (s : State) (n : Nat) : s.StartsNone (s.completionFails n) := by
  unfold State.completionFails
  split
  · exact .refl s
  · exact State.StartsNone.after (State.startsNone_enterFailed _ _) (State.StartsNone.after (State.startsNone_landReplies _)
      (State.StartsNone.after (State.startsNone_landEvent _) (.same rfl)))

theorem State.startsNone_attentionWritten (s : State) (a : Option (LineNo × Handle)) :
    s.StartsNone (s.attentionWritten a) := by
  unfold State.attentionWritten
  split
  · exact .refl s
  · next l h =>
    refine State.StartsNone.after (State.ends_settleClosing _ _).startsNone
      (State.StartsNone.after (t := s.updLine l Line.releaseBuffer) (.same rfl) ?_)
    exact s.startsNone_updLine l _ fun x => (x.noticed_state.symm.trans ·)

theorem State.startsNone_eventPosted (s : State) : s.StartsNone s.eventPosted := by
  have posting : ∀ u : State, u.StartsNone u.eventPosting := fun u => by
    unfold State.eventPosting
    simp only
    split <;> exact .same rfl
  unfold State.eventPosted
  split
  · exact .refl s
  · exact State.StartsNone.after (State.startsNone_finish _) (State.StartsNone.after (State.startsNone_judgeGrant _)
      (State.StartsNone.after (posting _) (State.StartsNone.after (State.startsNone_attentionWritten _ _) (.same rfl))))

theorem State.startsNone_eventFails (s : State) (n : Nat) : s.StartsNone (s.eventFails n) := by
  unfold State.eventFails
  split
  · exact .refl s
  · exact State.StartsNone.after (State.startsNone_enterFailed _ _) (State.StartsNone.after (State.startsNone_landReplies _)
      (State.StartsNone.after (State.startsNone_landCompletion _) (.same rfl)))

/-! ## Records -/

/-- R139: accepting a record and ending it leave the engines to the act. -/
theorem State.startsNone_takeRecord (s : State) (r : List Byte) (act : State → Nat → State)
    (h : ∀ (u : State) id, u.StartsNone (act u id)) : s.StartsNone (s.takeRecord r act) := by
  unfold State.takeRecord
  split
  · exact .refl s
  · next rd _ =>
    have accepted : s.StartsNone (s.accept rd r) := .same rfl
    split
    · exact (accepted.trans (State.ends_endRecord ..).startsNone).trans (State.startsNone_finish _)
    · exact (accepted.trans (h _ _)).trans (State.startsNone_finish _)

theorem State.startsNone_notify (s : State) (l : LineNo) : s.StartsNone (s.notify l) := (s.rests_notify l).startsNone

/-- A record that ends OK starts nothing by its end. -/
theorem State.startsNone_endOk (s : State) (id : Nat) : s.StartsNone (s.endOk id) := (s.ends_endOk id).startsNone

theorem State.startsNone_acceptExchange (s : State) (h : Handle) (id : Nat) : s.StartsNone (s.acceptExchange h id) := by
  unfold State.acceptExchange
  split
  · exact .refl s
  · split
    · exact (s.ends_hand ..).startsNone
    · exact State.StartsNone.after (State.startsNone_notify _ _) (.same rfl)

theorem State.startsNone_resumeStation (s : State) (h : Handle) : s.StartsNone (s.resumeStation h) := by
  unfold State.resumeStation
  split
  · exact .refl s
  · simp only
    split
    · exact State.StartsNone.after (State.startsNone_notify _ _) (.same rfl)
    · exact .same rfl

theorem State.startsNone_quiesceLine (s : State) (l : LineNo) (id : Nat) : s.StartsNone (s.quiesceLine l id) := by
  have asked : s.StartsNone (s.updLine l fun x => { x with quiesce := true }) := s.startsNone_updLine l _ fun _ hx => hx
  have waits := asked.trans (State.startsNone_updLine _ l (fun x => { x with quiescers := x.quiescers ++ [id] })
    fun _ hx => hx)
  unfold State.quiesceLine
  simp only
  split
  · exact State.StartsNone.after (State.startsNone_endOk _ id)
      (asked.trans (State.startsNone_updLine _ l _ fun _ h => by cases h))
  · exact asked.trans (State.startsNone_endOk _ id)
  · exact asked.trans (State.startsNone_endOk _ id)
  · exact waits
  · exact waits
  · exact waits
  · exact waits
  · exact waits
  · exact .refl s

theorem State.startsNone_resetLine (s : State) (l : LineNo) (id : Nat) : s.StartsNone (s.resetLine l id) := by
  have deferred : s.StartsNone (s.updLine l fun x => x.deferReset id) :=
    s.startsNone_updLine l _ fun x => (x.noticed_state.symm.trans ·)
  have now : s.StartsNone
      (if s.device = .running then s.enterBreakOut l [id] s.time else s.updLine l fun x => x.deferReset id) := by
    split
    · exact s.startsNone_enterBreakOut ..
    · exact deferred
  unfold State.resetLine
  simp only
  split
  · exact now
  · exact now
  · exact now
  · exact s.startsNone_updLine l _ fun _ hx => hx
  · exact deferred
  · exact deferred
  · exact deferred
  · exact deferred
  · exact .refl s

theorem State.startsNone_disableLine (s : State) (l : LineNo) : s.StartsNone (s.disableLine l) := by
  unfold State.disableLine
  split
  · exact s.startsNone_updLine l _ fun _ h => by cases h
  · exact .refl s

theorem Line.state_configure (x : Line) (id : Nat) : (x.configure id).state = x.state := by
  unfold Line.configure
  simp only
  split <;> rfl

/-! ## Lines -/

/-- R62, R74: a frame that is sent leaves TRANSMIT. -/
theorem State.startsNone_frameSent (s : State) (l : LineNo) (job : Job) (t : Nat) :
    s.StartsNone (s.frameSent l job t) := by
  have awaits : ∀ (u : State) n, u.StartsNone (u.updLine l fun x => x.await n t) := fun u n =>
    u.startsNone_updLine l _ fun _ h => by cases h
  cases job with
  | command id h origin => exact State.StartsNone.after (awaits _ _) (State.rests_updCtx ..).startsNone
  | broadcast id =>
    exact State.StartsNone.after (State.startsNone_toGuard _ l)
      ((s.ends_endWith ..).trans (State.ends_endAbort ..)).startsNone
  | poll h p => exact awaits _ _
  | link h => exact awaits _ _
  | probe h => exact awaits _ _

theorem State.startsNone_installTable (s : State) (l : LineNo) (id : Nat) (b : List Byte) (n : Nat) (rate : Fin 8) :
    s.StartsNone (s.installTable l id b n rate) := by
  have enabled : ∀ u : State, u.StartsNone (u.enableLine l) := fun u => by
    have started := u.startsNone_updLine l (fun x => x.startReceiver u.time) fun _ hx => hx
    unfold State.enableLine
    simp only
    split
    · exact started.trans (State.startsNone_enterBreakOut ..)
    · exact started.trans (State.startsNone_updLine _ l _ fun _ h => by cases h)
  have installed : s.StartsNone ((s.updLine l fun x => x.install (bandTableOf b) n rate s.time).endOk id) :=
    State.StartsNone.after (State.startsNone_endOk _ id) (s.startsNone_updLine l _ fun _ hx => hx)
  unfold State.installTable
  simp only
  split
  · exact installed.trans (enabled _)
  · exact installed.trans (State.startsNone_updLine _ l Line.dropCharacter fun _ hx => hx)

theorem State.startsNone_tableReadEnds (s : State) (l : LineNo) (r : BusRead) : s.StartsNone (s.tableReadEnds l r) := by
  have failed : ∀ id status detail, s.StartsNone (s.tableFails l id status detail) := fun id status detail =>
    State.StartsNone.after (State.ends_endRecord ..).startsNone (s.startsNone_updLine l _ fun _ hx => hx)
  unfold State.tableReadEnds
  split
  · exact .refl s
  · refine State.StartsNone.after (State.startsNone_finish _) ?_
    split
    · exact failed ..
    · split
      · exact s.startsNone_installTable ..
      · exact failed ..

theorem State.startsNone_payloadFails (s : State) (l : LineNo) : s.StartsNone (s.payloadFails l) := by
  unfold State.payloadFails
  split
  · exact .refl s
  · exact (s.startsNone_readFailed ..).trans (State.startsNone_finish _)

theorem State.startsNone_transmitEnds (s : State) (l : LineNo) : s.StartsNone (s.transmitEnds l) := by
  unfold State.transmitEnds
  split
  · exact .refl s
  · exact State.StartsNone.after (State.startsNone_finish _) (State.StartsNone.after (State.startsNone_frameSent ..)
      (s.startsNone_reachLine l _ _ fun _ hx => hx))

theorem State.startsNone_replyWriteEnds (s : State) (l : LineNo) (r : BusWrite) :
    s.StartsNone (s.replyWriteEnds l r) := by
  unfold State.replyWriteEnds
  split
  · exact (s.rests_replyWritten ..).startsNone.trans (State.startsNone_finish _)
  · exact .refl s
  · exact .refl s

theorem State.startsNone_guardEnds (s : State) (l : LineNo) : s.StartsNone (s.guardEnds l) := by
  unfold State.guardEnds
  refine State.StartsNone.after (State.startsNone_finish _)
    ((s.rests_reach (s.line l).guardMoment).startsNone.trans ?_)
  split
  · exact State.startsNone_enterBreakOut ..
  · exact State.startsNone_updLine _ l Line.rest fun x h => (x.state_rest h).elim

theorem State.startsNone_breakReleased (s : State) (l : LineNo) : s.StartsNone (s.breakReleased l) := by
  have bound : ∀ u : State, u.StartsNone (u.endBound l) := fun u =>
    (State.StartsNone.foldl _ (fun u id => u.startsNone_endOk id) _ _).trans
      (State.startsNone_updLine _ l _ fun _ hx => hx)
  exact State.StartsNone.after (State.startsNone_finish _) (State.StartsNone.after (State.startsNone_toGuard _ l)
    (State.StartsNone.after (bound _) (s.startsNone_reachLine l _ _ fun _ hx => hx)))

/-! ## The receiver -/

theorem Line.state_discardGlitch (x : Line) (t : Nat) : (x.discardGlitch t).state = x.state := by
  unfold Line.discardGlitch
  split
  · exact x.noticed_state
  · rfl

theorem Line.state_quietAtExpiry (x : Line) (t : Nat) : (x.quietAtExpiry t).state = x.state := by
  unfold Line.quietAtExpiry
  split <;> rfl

/-- R51: the mark bit brings the engine to RECEIVE. -/
theorem State.startsNone_readMark (s : State) (l : LineNo) : s.StartsNone (s.readMark l) :=
  s.startsNone_reachLine l _ _ fun _ h => by cases h

theorem State.startsNone_useCharacter (s : State) (l : LineNo) (octet : Byte) (mark ferr : Bool) :
    s.StartsNone (s.useCharacter l octet mark ferr) := by
  have chatter : s.StartsNone (s.updLine l Line.countChatter) := s.startsNone_updLine l _ fun _ hx => hx
  have received : s.StartsNone (s.receiveOctet l octet mark ferr) := by
    unfold State.receiveOctet
    simp only
    split
    · exact .refl s
    · split
      · exact .refl s
      · split
        · exact s.startsNone_updLine l _ fun _ hx => hx
        · exact s.startsNone_updLine l _ fun _ hx => hx
        · exact s.startsNone_endAttempt ..
        · exact s.startsNone_endAttempt ..
  unfold State.useCharacter
  split
  · exact received
  · exact chatter.trans (State.startsNone_toGuard _ l)
  · exact chatter
  · exact chatter
  · exact chatter
  · exact chatter
  · exact .refl s
  · exact .refl s
  · exact .refl s

theorem State.startsNone_takeCharacter (s : State) (l : LineNo) (octet : Byte) (mark : Bool) (stop : StopBit) (e : Nat) :
    s.StartsNone (s.takeCharacter l octet mark stop e) := by
  have begins : s.StartsNone (s.answerBegins l mark) := by
    unfold State.answerBegins
    split
    · exact s.startsNone_readMark l
    · exact .refl s
  exact State.StartsNone.after (State.startsNone_finish _) (State.StartsNone.after (State.startsNone_useCharacter ..)
    (begins.trans (State.startsNone_reachLine _ l _ _ fun _ hx => hx)))

theorem State.startsNone_breakDetected (s : State) (l : LineNo) : s.StartsNone (s.breakDetected l) := by
  have read : ∀ u : State, u.StartsNone (u.breakOnRead l) := fun u => by
    unfold State.breakOnRead
    split
    · exact (u.rests_abandonRead l).startsNone
    · exact .refl u
  have attempt : ∀ u : State, u.StartsNone (u.breakOnAttempt l) := fun u => by
    unfold State.breakOnAttempt
    split
    · split
      · exact (u.rests_deliver ..).startsNone
      · exact .refl u
    · exact .refl u
  have guarded : ∀ u : State, u.StartsNone (u.guardAfterBreak l) := fun u => by
    unfold State.guardAfterBreak
    split
    · exact u.startsNone_toGuard l
    · exact .refl u
  have applied : ∀ u : State, u.StartsNone
      ((((u.breakOnRead l).breakReaches l).cancelAbandoned (s.line l).abandonedJob).breakOnAttempt l) := fun u =>
    (((read u).trans (State.rests_breakReaches _ l).startsNone).trans (State.ends_cancelAbandoned _ _).startsNone).trans
      (attempt _)
  unfold State.breakDetected
  refine State.StartsNone.after (State.startsNone_finish _) (State.StartsNone.after (guarded _)
    (State.StartsNone.after (State.startsNone_updLine _ l _ fun _ hx => hx) (State.StartsNone.after (applied _) ?_)))
  exact s.startsNone_reachLine l _ _ fun _ hx => hx

/-! ## Station timers -/

theorem State.startsNone_timerExpires (s : State) (h : Handle) (k : TimerKind) (f : Station → Nat → Station) :
    s.StartsNone (s.timerExpires h k f) :=
  .same rfl

theorem State.startsNone_tellStationLine (s : State) (h : Handle) : s.StartsNone (s.tellStationLine h) :=
  (s.rests_tellStationLine h).startsNone

/-! ## The commands -/

/-- A command starts nothing when its effect does not. -/
theorem startsUnpaused_runCommand {c : Instr} {o : Bool} {e : State → State} {s t : State}
    (h : runCommand c o e s = .next t) (k : s.StartsUnpaused (e s)) : s.StartsUnpaused t := by
  obtain ⟨-, ⟨-, -, rfl⟩ | rfl⟩ := runCommand_next h
  · exact k
  · exact (State.StartsNone.refl _).unpaused

theorem startsUnpaused_of_none {c : Instr} {o : Bool} {e : State → State} {s t : State}
    (h : runCommand c o e s = .next t) (k : s.StartsNone (e s)) : s.StartsUnpaused t :=
  startsUnpaused_runCommand h k.unpaused

theorem startsUnpaused_runRecord {c : Instr} {r : List Byte} {act : State → Nat → State} {s t : State}
    (h : runRecord c r act s = .next t) (k : ∀ (u : State) id, u.StartsNone (act u id)) : s.StartsUnpaused t :=
  startsUnpaused_of_none h (s.startsNone_takeRecord r act k)

/-- R59: a payload that has been read is sent to no paused station. -/
theorem State.startsUnpaused_payloadRead (s : State) (l : LineNo) (octets : List Byte) :
    s.StartsUnpaused (s.payloadRead l octets) := by
  unfold State.payloadRead
  split
  · exact (State.StartsNone.refl s).unpaused
  · exact State.StartsUnpaused.finish
      ((State.startsUnpaused_readGood ..).before (State.rests_fillBuffer ..).startsNone rfl)

/-- R42: no command begins an attempt to a station whose paused flag is set. -/
theorem exec_startsUnpaused {c : Instr} {s t : State} (h : exec c s = .next t) : s.StartsUnpaused t := by
  unfold exec at h
  cases c with
  | hardwareReset => cases h; exact State.StartsNone.unpaused (s.startsNone_softReset.trans (.same (t := s.hardResetValues) rfl))
  | resetRelease => cases h; exact State.StartsNone.unpaused (.same rfl)
  | softReset v => exact startsUnpaused_of_none h s.startsNone_softReset
  | enableWritten1 v => exact startsUnpaused_of_none h s.startsNone_enableOne
  | enableWritten0 v => exact startsUnpaused_of_none h s.startsNone_enableZero
  | setupAddrWrite v =>
    refine startsUnpaused_of_none h ?_
    unfold State.writeSetupAddr
    split
    · exact .same rfl
    · exact s.startsNone_reject
  | postTail v => exact startsUnpaused_of_none h (s.startsNone_postTail v)
  | postRestart v =>
    refine startsUnpaused_of_none h ?_
    unfold State.postRestart
    split
    · exact .same rfl
    · exact s.startsNone_reject
  | retire v => exact startsUnpaused_of_none h (s.startsNone_retire v)
  | intStatusWrite v => exact startsUnpaused_of_none h (.same rfl)
  | intEnableWrite v => exact startsUnpaused_of_none h (.same rfl)
  | registerWriteIgnored offset v => exact startsUnpaused_of_none h s.startsNone_reject
  | setupReadEnd result => exact startsUnpaused_of_none h (s.startsNone_setupEnds result)
  | fetchChoice => exact startsUnpaused_of_none h s.startsNone_fetchLook
  | recordReadError => exact startsUnpaused_of_none h (s.startsNone_readFails.trans (State.startsNone_finish _))
  | unknownKind r => exact startsUnpaused_runRecord h fun u _ => .refl u
  | exchange r => exact startsUnpaused_runRecord h fun u id => u.startsNone_acceptExchange (recHandle r) id
  | broadcast r =>
    exact startsUnpaused_runRecord h fun u id => u.startsNone_updLine _ _ fun x => (x.noticed_state.symm.trans ·)
  | addStation r =>
    exact startsUnpaused_runRecord h fun u id => State.StartsNone.after (State.startsNone_endOk _ id)
      (State.StartsNone.after (State.startsNone_notify _ _) (.same rfl))
  | removeStation r =>
    exact startsUnpaused_runRecord h fun u id => State.StartsNone.after (State.ends_settleClosing _ _).startsNone (.same rfl)
  | pauseStation r =>
    exact startsUnpaused_runRecord h fun u id => State.StartsNone.after (State.startsNone_endOk _ id) (.same rfl)
  | resumeStation r =>
    exact startsUnpaused_runRecord h fun u id => (u.startsNone_resumeStation _).trans (State.startsNone_endOk _ id)
  | setLineDisable r =>
    exact startsUnpaused_runRecord h fun u id => (u.startsNone_disableLine _).trans (State.startsNone_endOk _ id)
  | setLineEnable r =>
    exact startsUnpaused_runRecord h fun u id => u.startsNone_updLine _ _ fun x => ((x.state_configure id).symm.trans ·)
  | quiesceLine r => exact startsUnpaused_runRecord h fun u id => u.startsNone_quiesceLine _ id
  | resumeLine r =>
    exact startsUnpaused_runRecord h fun u id => State.StartsNone.after (State.startsNone_endOk _ id)
      (u.startsNone_updLine _ _ fun _ h => by cases h)
  | lineReset r => exact startsUnpaused_runRecord h fun u id => u.startsNone_resetLine _ id
  | abort r => exact startsUnpaused_runRecord h fun u id => (u.ends_abortRecord _ _ id).startsNone
  | fence r => exact startsUnpaused_runRecord h fun u id => (u.ends_fenceRecord id).startsNone
  | bandTableReadEnd l result => exact startsUnpaused_of_none h (s.startsNone_tableReadEnds l result)
  | schedulerChoice l wait =>
    exact startsUnpaused_runCommand h (State.StartsUnpaused.finish
      ((State.startsUnpaused_consult _ l).before (s.rests_reach _).startsNone rfl))
  | payloadReadEnd l octets => exact startsUnpaused_runCommand h (s.startsUnpaused_payloadRead l octets)
  | payloadReadError l => exact startsUnpaused_of_none h (s.startsNone_payloadFails l)
  | abandonedReadEnd l => exact startsUnpaused_of_none h ((s.startsNone_toGuard l).trans (State.startsNone_finish _))
  | transmitEnd l => exact startsUnpaused_of_none h (s.startsNone_transmitEnds l)
  | characterReceived l octet mark stop => exact startsUnpaused_of_none h (s.startsNone_takeCharacter ..)
  | interCharacterGapExpiry l =>
    exact startsUnpaused_of_none h (State.StartsNone.after (State.startsNone_finish _)
      ((s.rests_reach _).startsNone.trans (State.startsNone_endAttempt ..)))
  | replyTimerExpiry l =>
    exact startsUnpaused_of_none h (State.StartsNone.after (State.startsNone_finish _)
      (State.StartsNone.after (State.startsNone_endAttempt ..)
        (s.startsNone_reachLine l _ _ fun x => ((x.state_quietAtExpiry _).symm.trans ·))))
  | replyWriteEnd l result => exact startsUnpaused_of_none h (s.startsNone_replyWriteEnds l result)
  | breakDetected l => exact startsUnpaused_of_none h (s.startsNone_breakDetected l)
  | stuck l =>
    exact startsUnpaused_of_none h (State.StartsNone.after (State.startsNone_finish _)
      (s.startsNone_reachLine l _ _ fun _ hx => hx))
  | lineReturnToMark l wait => exact startsUnpaused_of_none h (s.startsNone_reachLine l _ _ fun _ hx => hx)
  | recoveryEnd l =>
    exact startsUnpaused_of_none h (State.StartsNone.after (State.startsNone_finish _)
      (s.startsNone_reachLine l _ _ fun _ hx => hx))
  | guardEnd l => exact startsUnpaused_of_none h (s.startsNone_guardEnds l)
  | breakSpaceEnd l => exact startsUnpaused_of_none h (s.startsNone_reachLine l _ _ fun _ hx => hx)
  | breakRelease l => exact startsUnpaused_of_none h (s.startsNone_breakReleased l)
  | pollTimerExpiry k =>
    exact startsUnpaused_of_none h ((s.startsNone_timerExpires k .poll _).trans (State.startsNone_tellStationLine _ k))
  | holdTimerExpiry k =>
    exact startsUnpaused_of_none h (((s.startsNone_timerExpires k .hold _).trans
      (State.rests_releaseHeld _ k).startsNone).trans (State.startsNone_tellStationLine _ k))
  | probeTimerExpiry k =>
    exact startsUnpaused_of_none h ((s.startsNone_timerExpires k .probe _).trans (State.startsNone_tellStationLine _ k))
  | completionEntryPosted => exact startsUnpaused_of_none h s.startsNone_completionPosted
  | completionWriteError done => exact startsUnpaused_of_none h (s.startsNone_completionFails done)
  | eventEntryPosted => exact startsUnpaused_of_none h s.startsNone_eventPosted
  | eventWriteError done => exact startsUnpaused_of_none h (s.startsNone_eventFails done)
  | holdoffTimerExpiry ring =>
    refine startsUnpaused_of_none h ?_
    unfold State.holdoffExpires
    cases ring <;> exact .same rfl
  | characterBegun l wait => exact startsUnpaused_of_none h (s.startsNone_reachLine l _ _ fun _ hx => hx)
  | glitchDiscarded l wait =>
    exact startsUnpaused_of_none h (s.startsNone_reachLine l _ _ fun x => ((x.state_discardGlitch _).symm.trans ·))
  | markBitRead l => exact startsUnpaused_of_none h (s.startsNone_readMark l)

end Sys2Proof.Machine

open Sys2Proof Sys2Proof.Machine

/-- Settles O35, by what every command leaves out of TRANSMIT and what the two that begin attempts choose. -/
theorem pausedStationIsNotAddressed : Obligations.PausedStationIsNotAddressed :=
  fun _ _ _ l job h st he hs ht hj hh hst => (exec_startsUnpaused he).unpaused l job h st hs ht hj hh hst
end

section
/-! PROOFS. What a decoded answer does to its station's entry (R20, R22 to R25, R29 to R34, R44). -/

namespace Sys2Proof.Machine

section
variable {st : Station} {o : AttemptOutcome} {now hysteresis : Nat} {job : Job} {table : Option BandTable} {ap : Bool}
  {turnaround : Option Nat}

/-! ## The band and AP, the first and the last step -/

/-- R52: every decoded answer moves the band alike. -/
theorem Station.updateBand_answer (ho : o.isAnswer = true) :
    st.updateBand table hysteresis o turnaround = st.updateBand table hysteresis .ack turnaround := by
  have hn : o ≠ .noAnswer := by
    rintro rfl
    cases ho
  have hack : AttemptOutcome.ack.isAnswer = true := rfl
  have hne : AttemptOutcome.ack ≠ .noAnswer := by simp
  unfold Station.updateBand
  rw [if_neg hn, if_pos ho, if_neg hne, if_pos hack]

/-- R29: the first step moves the band alone. -/
theorem Station.updateBand_eq (st : Station) (table : Option BandTable) (hysteresis : Nat) (o : AttemptOutcome)
    (turnaround : Option Nat) : ∃ band, st.updateBand table hysteresis o turnaround = { st with band := band } := by
  unfold Station.updateBand
  split
  · exact ⟨_, rfl⟩
  · split
    · split
      · exact ⟨_, rfl⟩
      · exact ⟨st.band, rfl⟩
    · exact ⟨st.band, rfl⟩

/-- R33: what AP does to an entry that is ONLINE or HOLD. -/
theorem Station.applyAp_present (h : st.state = .online ∨ st.state = .hold) : st.applyAp ap now =
    if ap = true then
      { st with
        pollDue := some (st.pollDue.getD now)
        timer := if st.timer.map (·.kind) = some .poll then none else st.timer }
    else st := by
  rcases h with h | h <;> simp [Station.applyAp, h]

/-- R29: an answer to an attempt made in its state: the band, the effect `z` of the attempt's kind, then AP. -/
theorem Station.applyOutcome_answer {z : Station} (ho : o.isAnswer = true) (hs : st.state ≠ .closing)
    (hz : (st.updateBand table hysteresis .ack turnaround).afterJob job o now = z)
    (hp : z.state = .online ∨ z.state = .hold) : st.applyOutcome table hysteresis job o turnaround ap now =
      if ap = true then
        { z with
          pollDue := some (z.pollDue.getD now)
          timer := if z.timer.map (·.kind) = some .poll then none else z.timer }
      else z := by
  rw [Station.applyOutcome, if_neg hs, Station.updateBand_answer ho, hz, Station.applyAp_present hp]

/-- R44: a CLOSING entry is under its own rule. -/
theorem Station.applyOutcome_closing (hs : st.state = .closing) :
    st.applyOutcome table hysteresis job o turnaround ap now = st.afterClosing job o := if_pos hs

/-! ## What the rest of the part sees of the entry -/

/-- An answer keeps the list, the remover and the limits of the entry; it brings no entry into CLOSING or out of it, and none
to OFFLINE. -/
structure Station.Answered (st after : Station) : Prop where
  line : after.line = st.line
  pending : after.pending = st.pending
  remover : after.remover = st.remover
  retryLimit : after.retryLimit = st.retryLimit
  busyLimit : after.busyLimit = st.busyLimit
  state : after.state = st.state ∨ (st.state ≠ .closing ∧ (after.state = .online ∨ after.state = .hold))

theorem Station.Answered.refl (st : Station) : st.Answered st := ⟨rfl, rfl, rfl, rfl, rfl, .inl rfl⟩

theorem Station.Answered.trans {x y z : Station} (a : x.Answered y) (b : y.Answered z) : x.Answered z where
  line := b.line.trans a.line
  pending := b.pending.trans a.pending
  remover := b.remover.trans a.remover
  retryLimit := b.retryLimit.trans a.retryLimit
  busyLimit := b.busyLimit.trans a.busyLimit
  state := by
    rcases b.state with hb | ⟨-, hb⟩
    · rw [hb]
      exact a.state
    · rcases a.state with ha | ⟨ha, -⟩
      · by_cases hc : x.state = .closing
        · rcases b.state with hb' | ⟨hb', -⟩
          · exact .inl (hb'.trans ha)
          · exact (hb' (ha.trans hc)).elim
        · exact .inr ⟨hc, hb⟩
      · exact .inr ⟨ha, hb⟩

theorem Station.Answered.closing_iff {st after : Station} (a : st.Answered after) :
    after.state = .closing ↔ st.state = .closing := by
  rcases a.state with h | ⟨hne, h | h⟩ <;> simp_all

/-- R25, R28: an answer takes no station OFFLINE. -/
theorem Station.Answered.not_wentOffline {st after : Station} (a : st.Answered after) :
    ¬ (st.state ≠ .offline ∧ after.state = .offline) := by
  rcases a.state with h | ⟨-, h | h⟩ <;> simp_all

/-- What may settle after an answer is what might have settled before it. -/
theorem Station.Answered.settling {st after : Station} (a : st.Answered after) : after.settling = st.settling := by
  simp only [Station.settling, a.closing_iff, a.pending, a.remover]

theorem Station.answered_updateBand (st : Station) (table : Option BandTable) (hysteresis : Nat) (o : AttemptOutcome)
    (turnaround : Option Nat) : st.Answered (st.updateBand table hysteresis o turnaround) := by
  obtain ⟨band, h⟩ := st.updateBand_eq table hysteresis o turnaround
  rw [h]
  exact ⟨rfl, rfl, rfl, rfl, rfl, .inl rfl⟩

theorem Station.answered_applyAp (st : Station) (ap : Bool) (now : Nat) : st.Answered (st.applyAp ap now) := by
  unfold Station.applyAp
  split <;> exact ⟨rfl, rfl, rfl, rfl, rfl, .inl rfl⟩

theorem Station.answered_afterClosing (st : Station) (job : Job) (o : AttemptOutcome) :
    st.Answered (st.afterClosing job o) := by
  unfold Station.afterClosing
  split <;> exact ⟨rfl, rfl, rfl, rfl, rfl, .inl rfl⟩

theorem Station.answered_enterHold (hs : st.state ≠ .closing) : st.Answered (st.enterHold now) :=
  ⟨rfl, rfl, rfl, rfl, rfl, .inr ⟨hs, .inr rfl⟩⟩

theorem Station.answered_afterCommand (ho : o.isAnswer = true) (hs : st.state ≠ .closing) :
    st.Answered (st.afterCommand o now) := by
  cases o with
  | busy => exact Station.answered_enterHold hs
  | nak cls reason => cases cls <;> exact ⟨rfl, rfl, rfl, rfl, rfl, .inl rfl⟩
  | ack => exact ⟨rfl, rfl, rfl, rfl, rfl, .inl rfl⟩
  | reply octets => exact ⟨rfl, rfl, rfl, rfl, rfl, .inl rfl⟩
  | attention octets => exact ⟨rfl, rfl, rfl, rfl, rfl, .inl rfl⟩
  | idle => exact ⟨rfl, rfl, rfl, rfl, rfl, .inl rfl⟩
  | noAnswer | garbled | wrongStation | unexpected | lineBreak => cases ho

theorem Station.answered_afterPoll (ho : o.isAnswer = true) (hs : st.state ≠ .closing) :
    st.Answered (st.afterPoll o now) := by
  have outcome : st.Answered (st.pollOutcome o now) := by
    cases o with
    | busy => exact ⟨rfl, rfl, rfl, rfl, rfl, .inr ⟨hs, .inr rfl⟩⟩
    | noAnswer | garbled | wrongStation | unexpected | lineBreak => cases ho
    | _ => exact ⟨rfl, rfl, rfl, rfl, rfl, .inl rfl⟩
  unfold Station.afterPoll
  simp only
  split
  · exact outcome.trans ⟨rfl, rfl, rfl, rfl, rfl, .inl rfl⟩
  · exact outcome

theorem Station.answered_afterLink (ho : o.isAnswer = true) (hs : st.state ≠ .closing) :
    st.Answered (st.afterLink o now) := by
  have hm : o.isMiss = false := by cases o <;> simp_all [AttemptOutcome.isAnswer, AttemptOutcome.isMiss]
  unfold Station.afterLink
  simp only [hm, Bool.false_eq_true, if_false]
  split
  · split
    · exact ⟨rfl, rfl, rfl, rfl, rfl, .inr ⟨hs, .inl rfl⟩⟩
    · exact ⟨rfl, rfl, rfl, rfl, rfl, .inl rfl⟩
  · exact .refl st

theorem Station.answered_afterProbe (hs : st.state ≠ .closing) : st.Answered (st.afterProbe o now) := by
  unfold Station.afterProbe
  simp only
  split
  · exact ⟨rfl, rfl, rfl, rfl, rfl, .inr ⟨hs, .inl rfl⟩⟩
  · exact ⟨rfl, rfl, rfl, rfl, rfl, .inl rfl⟩

theorem Station.answered_afterJob (ho : o.isAnswer = true) (hs : st.state ≠ .closing) :
    st.Answered (st.afterJob job o now) := by
  unfold Station.afterJob
  split
  · exact Station.answered_afterCommand ho hs
  · exact Station.answered_afterPoll ho hs
  · exact Station.answered_afterLink ho hs
  · exact Station.answered_afterLink ho hs
  · exact Station.answered_afterProbe hs
  · exact .refl st

/-- An answer to an attempt of any kind, in any state of the station. -/
theorem Station.answered_applyOutcome (ho : o.isAnswer = true) :
    st.Answered (st.applyOutcome table hysteresis job o turnaround ap now) := by
  by_cases hs : st.state = .closing
  · rw [Station.applyOutcome_closing hs]
    exact st.answered_afterClosing job o
  · have banded := st.answered_updateBand table hysteresis o turnaround
    rw [Station.applyOutcome, if_neg hs]
    exact (banded.trans (Station.answered_afterJob ho (mt banded.closing_iff.1 hs))).trans (Station.answered_applyAp _ ap now)

end

/-! ## The entry after each answer -/

section
variable {st : Station} {table : Option BandTable} {hysteresis now id : Nat} {h : Handle} {origin : Phase} {pseq : Bool}
  {turnaround : Option Nat}

/-- The entry with the band of the answer is in the state it was in. -/
theorem Station.state_updateBand (st : Station) (table : Option BandTable) (hysteresis : Nat) (o : AttemptOutcome)
    (turnaround : Option Nat) : (st.updateBand table hysteresis o turnaround).state = st.state := by
  obtain ⟨band, h⟩ := st.updateBand_eq table hysteresis o turnaround
  rw [h]

theorem Station.afterJob_command (hs : st.state = .online) (o : AttemptOutcome) :
    st.afterJob (.command id h origin) o now = st.afterCommand o now := by
  simp [Station.afterJob, hs]

theorem Station.afterJob_poll (hs : st.state = .online) (o : AttemptOutcome) :
    st.afterJob (.poll h pseq) o now = st.afterPoll o now := by
  simp [Station.afterJob, hs]

theorem Station.afterJob_link (hs : st.state = .new ∨ st.state = .online) (o : AttemptOutcome) :
    st.afterJob (.link h) o now = st.afterLink o now := by
  rcases hs with hs | hs <;> simp [Station.afterJob, hs]

theorem Station.afterJob_probe (hs : st.state = .offline) (o : AttemptOutcome) :
    st.afterJob (.probe h) o now = st.afterProbe o now := by
  simp [Station.afterJob, hs]

/-- R22, R24: a NAK that is no CHECK answers for the link. -/
theorem Station.afterCommand_nak {cls : NakClass} (hcls : cls ≠ .check) (reason : Byte) :
    st.afterCommand (.nak cls reason) now = { st with missCount := 0, link := .certain } := by
  cases cls with
  | check => exact (hcls rfl).elim
  | refused => rfl
  | unsupported => rfl

/-- R44: so it does in CLOSING. -/
theorem Station.afterClosing_nak {cls : NakClass} (hcls : cls ≠ .check) (reason : Byte) :
    st.afterClosing (.command id h origin) (.nak cls reason) = { st with link := .certain } := by
  cases cls with
  | check => exact (hcls rfl).elim
  | refused => rfl
  | unsupported => rfl

/-- R32: the answer to a POLL that reports an ATTENTION; the poll timer restarts. -/
theorem Station.afterPoll_attention (hs : st.state = .online) (octets : List Byte) :
    st.afterPoll (.attention octets) now = { st with
      missCount := 0, pollDue := none, attention := some true
      timer := if st.pollInterval ≠ 0 then startTimer .poll st.pollInterval now else st.timer } := by
  by_cases hp : st.pollInterval = 0 <;> simp [Station.afterPoll, Station.pollOutcome, Station.pollAnswered, hs, hp]

/-- R32: the answer to a POLL that reports nothing. -/
theorem Station.afterPoll_idle (hs : st.state = .online) : st.afterPoll .idle now = { st with
    missCount := 0, pollDue := none
    timer := if st.pollInterval ≠ 0 then startTimer .poll st.pollInterval now else st.timer } := by
  by_cases hp : st.pollInterval = 0 <;> simp [Station.afterPoll, Station.pollOutcome, Station.pollAnswered, hs, hp]

/-- R32, R34: a BUSY takes the station to HOLD, where no poll timer runs. -/
theorem Station.afterPoll_busy : st.afterPoll .busy now =
    { st with missCount := 0, pollDue := none, state := .hold, timer := startTimer .hold st.holdTime now } := by
  simp [Station.afterPoll, Station.pollOutcome, Station.pollAnswered, Station.enterHold]

/-- R30: link service of a station that is not NEW. -/
theorem Station.afterLink_online (hs : st.state = .online) :
    st.afterLink .ack now = { st.linkAcknowledged with missCount := 0 } := by
  simp [Station.afterLink, hs]

/-- R20, R30: link service brings a NEW station ONLINE. -/
theorem Station.afterLink_new (hs : st.state = .new) : st.afterLink .ack now = { st.linkAcknowledged with
    missCount := 0, state := .online, timer := st.pollTimer now
    presenceChanges := min 255 (st.presenceChanges + 1) } := by
  simp [Station.afterLink, hs, Station.linkAcknowledged, Station.countChange]

/-- R20, R31: a probe that is answered brings an OFFLINE station ONLINE. -/
theorem Station.afterProbe_ack : st.afterProbe .ack now = { st.linkAcknowledged with
    missCount := 0, state := .online, probeDue := none
    timer := if st.pollInterval ≠ 0 then startTimer .poll st.pollInterval now else none
    presenceChanges := min 255 (st.presenceChanges + 1) } := by
  simp [Station.afterProbe, Station.linkAcknowledged, Station.countChange]

/-- R20, R24: an acknowledged COMMAND leaves the link CERTAIN, in ONLINE and in CLOSING. -/
theorem Station.link_applyOutcome_ack (hs : st.state = .online) (ap : Bool) :
    (st.applyOutcome table hysteresis (.command id h origin) .ack turnaround ap now).link = .certain := by
  rw [Station.applyOutcome, if_neg (by simp [hs]),
    Station.afterJob_command ((st.state_updateBand table hysteresis .ack turnaround).trans hs),
    (Station.applyAp_keeps _ ap now).2.1]
  rfl

end

end Sys2Proof.Machine
end

section
/-! PROOFS. The end that an answered attempt brings to its exchange, and what its completion carries (R62 to R65, R68, R70,
R78); with them what the end of a step does with a completion that has been handed (R144). -/

namespace Sys2Proof.Machine

/-! ## Completions with their reply length -/

/-- `State.Handed` with the reply length that the completion carries (R63). -/
def State.HandedReply (s : State) (id : Nat) (status : Status) (detail : Detail) (n : Nat) : Prop :=
  s.phaseOf id = some .ending ∧
    ∃ e ∈ s.handed, e.ctx = id ∧ e.status = status ∧ e.detail = detail ∧ e.replyLength = n

section
variable {s t : State} {id n : Nat} {st : Status} {d : Detail}

theorem State.HandedReply.handed (h : s.HandedReply id st d n) : s.Handed id st d := by
  obtain ⟨hphase, e, he, hctx, hst, hd, -⟩ := h
  exact ⟨hphase, e, he, hctx, hst, hd⟩

theorem State.HandedReply.tells (h : s.HandedReply id st d n) (e : s.Tells t) : t.HandedReply id st d n := by
  obtain ⟨more, hmore⟩ := e.handed
  obtain ⟨hphase, x, hx, hr⟩ := h
  exact ⟨e.ending id hphase, x, by rw [hmore]; exact List.mem_append_left _ hx, hr⟩

theorem State.handedReply_hand {c : Context} (b : Option (Fin 8)) (t : Option Nat) (hc : s.ctx id = some c)
    (hl : c.Live) : (s.hand id st d n b t).HandedReply id st d n := by
  obtain ⟨hphase, -⟩ := s.handed_hand id st d n b t hc hl
  refine ⟨hphase, ?_⟩
  unfold State.hand
  rw [hc]
  simp only [hl.1, hl.2, or_self, if_false]
  exact ⟨_, List.mem_append_right _ (List.mem_singleton_self _), rfl, rfl, rfl, rfl⟩

theorem State.handedReply_endOne {c : Context} (hc : s.ctx id = some c) (hl : c.Live) :
    (s.endOne id st d n).HandedReply id st d n := by
  unfold State.endOne
  rw [hc]
  simp only [hl.1, if_false]
  exact State.handedReply_hand _ _ (by rw [State.ctx_markUncertain, State.ctx_leaveLists, hc]) hl

/-- R144: a completion that was handed waits at the end of the step, or is being written. -/
theorem State.completion_finish {e : Completion} (he : e ∈ s.handed) :
    e ∈ s.finish.handed ∨ ∃ w head phase, s.finish.completionWrite = some w ∧ w.ctx = e.ctx ∧
      w.octets = completionOctets e head phase := by
  have started : e ∈ s.startCompletion.handed ∨ ∃ w head phase, s.startCompletion.completionWrite = some w ∧
      w.ctx = e.ctx ∧ w.octets = completionOctets e head phase := by
    unfold State.startCompletion
    split
    · next c rest hw hh =>
      rw [hh] at he
      rcases List.mem_cons.1 he with rfl | he
      · exact .inr ⟨_, _, _, rfl, rfl, rfl⟩
      · exact .inl he
    · exact .inl he
  have halted : ∀ u : State, u.checkHalted.handed = u.handed ∧ u.checkHalted.completionWrite = u.completionWrite := fun u => by
    unfold State.checkHalted
    split <;> exact ⟨rfl, rfl⟩
  unfold State.finish
  split
  · rwa [(halted _).1, (halted _).2, (State.startEvent_told _).1, (State.startEvent_told _).2]
  · exact .inl he

/-- What was handed is reported with its reply length when the step has ended. -/
theorem State.HandedReply.reports (h : s.HandedReply id st d n) : s.finish.ReportsReply id st d n := by
  obtain ⟨hphase, e, he, hctx, hst, hd, hn⟩ := h
  refine ⟨by rwa [State.phaseOf, State.ctx_finish], ?_⟩
  rcases State.completion_finish he with hin | ⟨w, head, phase, hw, hwctx, hoctets⟩
  · exact .inl ⟨e, hin, hctx, hst, hd, hn⟩
  · refine .inr ⟨w, hw, hwctx.trans hctx, ?_⟩
    rw [hoctets, ← hst, ← hd, ← hn]
    exact ⟨rfl, rfl, rfl⟩

end

/-! ## The end of one exchange -/

section
variable {s : State} {id : Nat} {st : Status} {d : Detail} {n : Nat} {c : Context} {h : Handle} {x : Station}

/-- R70, R68: what the end of an open exchange leaves of its station's entry; the link comes into doubt only where the
exchange was unanswered. -/
theorem State.station_endOne (hc : s.ctx id = some c) (hp : c.phase ≠ .ending) (hh : c.exchangeHandle = some h)
    (hx : s.station h = some x) : ∃ link, (s.endOne id st d n).station h =
      some { x with pending := x.pending.erase id, link := link } ∧ (c.unanswered = false → link = x.link) := by
  have hleft := State.station_leaveLists hh hx
  unfold State.endOne
  rw [hc]
  simp only [hp, if_false]
  rw [State.station, State.stations_hand, ← State.station, ← State.ctx_id hc]
  by_cases hu : c.unanswered = false
  · have hmark : (s.leaveLists c).markUncertain c st = s.leaveLists c := by simp [State.markUncertain, hh, hu]
    exact ⟨x.link, by rw [hmark, hleft], fun _ => rfl⟩
  · obtain ⟨link, hlink⟩ := State.station_markUncertain c st hleft
    exact ⟨link, hlink, fun h => (hu h).elim⟩

/-- R62, R70, R71, R78: the end of the exchange `id` of station `h`, the look at a CLOSING station, then the end of the ABORT
that waited for it. -/
def State.endsExchange (s : State) (id : Nat) (h : Handle) (st : Status) (d : Detail) (n : Nat) (a : Option Nat)
    (st' : Status) : State := ((s.endOne id st d n).settleClosing h).endAbort a st'

variable {a : Option Nat} {st' : Status}

theorem State.endExchange_endAbort (hc : s.ctx id = some c) (hh : c.exchangeHandle = some h) :
    (s.endExchange id st d n).endAbort a st' = s.endsExchange id h st d n a st' := by
  unfold State.endExchange State.endsExchange
  rw [hc]
  simp only [hh]

/-- R80: an exchange that ends plainly carries its last failure cause. -/
theorem State.endWith_endAbort (hc : s.ctx id = some c) (hh : c.exchangeHandle = some h) :
    (s.endWith id st).endAbort a st' = s.endsExchange id h st c.failureDetail 0 a st' := by
  rw [← State.endExchange_endAbort hc hh, State.endWith, hc]
  rfl

theorem State.ends_endsExchange : s.Ends (s.endsExchange id h st d n a st') :=
  ((s.ends_endOne ..).trans (State.ends_settleClosing _ h)).trans (State.ends_endAbort _ a st')

theorem State.handed_endsExchange (hc : s.ctx id = some c) (hl : c.Live) :
    (s.endsExchange id h st d n a st').HandedReply id st d n :=
  ((State.handedReply_endOne hc hl).tells (State.tells_settleClosing _ h)).tells (State.tells_endAbort _ a st')

/-- R78: the ABORT that waited, where the settling of a CLOSING station has not ended it. -/
theorem State.handed_endsExchange_abort {k : Nat} {e : Context} (hc : s.ctx id = some c) (hp : c.phase ≠ .ending)
    (hh : c.exchangeHandle = some h) (hx : s.station h = some x) (he : s.ctx k = some e) (hl : e.Live) (hne : k ≠ id)
    (hset : k ∉ x.settling) : (s.endsExchange id h st d n (some k) st').Handed k st' .none := by
  obtain ⟨link, hlink, -⟩ := State.station_endOne (st := st) (d := d) (n := n) hc hp hh hx
  refine State.handed_endRecord _ k st' .none ?_ hl
  rw [State.ctx_settleClosing hlink, State.ctx_endOne_ne hne, he]
  intro hmem
  apply hset
  simp only [Station.settling] at hmem ⊢
  split at hmem
  · rw [if_pos ‹_›]
    exact (List.mem_append.1 hmem).elim (fun m => List.mem_append_left _ (List.mem_of_mem_erase m))
      (List.mem_append_right _)
  · cases hmem

/-- R70: the entry of a station that is not CLOSING, after the end of an exchange of it that was answered. -/
theorem State.station_endsExchange (hc : s.ctx id = some c) (hp : c.phase ≠ .ending) (hh : c.exchangeHandle = some h)
    (hx : s.station h = some x) (hs : x.state ≠ .closing) (hu : c.unanswered = false) :
    (s.endsExchange id h st d n a st').station h = some { x with pending := x.pending.erase id } := by
  obtain ⟨link, hlink, hsame⟩ := State.station_endOne (st := st) (d := d) (n := n) hc hp hh hx
  rw [State.endsExchange, State.station_endAbort, State.settleClosing_of_not_closing hlink (by exact hs), hlink, hsame hu]

/-- R71, R43, R45: the end of the exchange of an attempt settles its CLOSING station: from the state `u` before the attempt's
end, whose contexts but that one are those of `s`, to the end of the step. -/
theorem State.closingSettles_endsExchange {u : State} {l : LineNo} (hc : s.ctx id = some c) (hp : c.phase ≠ .ending)
    (hh : c.exchangeHandle = some h) (hx : s.station h = some x) (hs : x.state = .closing)
    (hctx : ∀ k, k ≠ id → s.ctx k = u.ctx k) (hatt : (s.line x.line).attempting h = false) :
    u.ClosingSettles ((s.endsExchange id h st d n a st').toGuard l).finish h x (some id) := by
  obtain ⟨link, hlink, -⟩ := State.station_endOne (st := st) (d := d) (n := n) hc hp hh hx
  refine State.closingSettles_finish hlink hs (fun hn => ⟨hn.erase _, fun k => ?_⟩) (fun k hk => ?_) ?_
    ((State.tells_endAbort _ a st').trans (State.tells_toGuard _ l)) ?_
  · rw [hn.mem_erase_iff, ne_eq, ne_eq, Option.some.injEq, and_comm]
  · have hne : k ≠ id := fun e => hk (by rw [e])
    rw [State.ctx_endOne_ne hne, hctx k hne]
  · rw [(State.ends_endOne ..).attempting, hatt]
  · rw [State.station_toGuard, State.endsExchange, State.station_endAbort]

end

end Sys2Proof.Machine
end

section
/-! PROOFS. The attempt that an outcome ends (R88): the outcome is applied to the entry and noted by the exchange, the
attempt acts on it, and the engine enters GUARD. What the exchange of a COMMAND attempt does with each answer (R62 to R66,
R68, R70, R71, R78). -/

namespace Sys2Proof.Machine

/-! ## The outcome applied -/

/-- R52, R55: the turnaround counts for an answer alone. -/
theorem Context.noteOutcome_turnaround (c : Context) (o : AttemptOutcome) (t : Option Nat) :
    c.noteOutcome o (if o.isAnswer then t else none) = c.noteOutcome o t := by
  cases o with
  | nak cls reason => cases cls <;> rfl
  | _ => rfl

theorem State.noteContext_turnaround (s : State) (job : Job) (o : AttemptOutcome) (t : Option Nat) :
    s.noteContext job o (if o.isAnswer then t else none) = s.noteContext job o t := by
  cases job with
  | command id h origin => simp only [State.noteContext, Context.noteOutcome_turnaround]
  | _ => rfl

theorem Station.applyOutcome_turnaround (st : Station) (table : Option BandTable) (hysteresis : Nat) (job : Job)
    (o : AttemptOutcome) (t : Option Nat) (ap : Bool) (now : Nat) :
    st.applyOutcome table hysteresis job o (if o.isAnswer then t else none) ap now =
      st.applyOutcome table hysteresis job o t ap now := by
  have band : st.updateBand table hysteresis o (if o.isAnswer then t else none) = st.updateBand table hysteresis o t := by
    unfold Station.updateBand
    cases ho : o.isAnswer <;> simp
  rw [Station.applyOutcome, band]
  rfl

/-- An outcome leaves the name, the record and the waiting ABORT of the exchange, and does not decide its end. -/
theorem Context.noteOutcome_keeps (c : Context) (o : AttemptOutcome) (t : Option Nat) :
    (c.noteOutcome o t).id = c.id ∧ (c.noteOutcome o t).phase = c.phase ∧ (c.noteOutcome o t).body = c.body ∧
      (c.noteOutcome o t).abortRequested = c.abortRequested := by
  cases o with
  | nak cls reason => cases cls <;> exact ⟨rfl, rfl, rfl, rfl⟩
  | _ => exact ⟨rfl, rfl, rfl, rfl⟩

/-- R88: the line whose attempt has its outcome. -/
def Line.outcomeFixed (x : Line) : Line := { x with job := none, turnaround := none, replyTimer := none }

/-- R88: the state in which an outcome has been applied to the entry of its station, now `after`, and noted by its exchange; the
attempt has not acted on it yet. -/
def State.outcomeApplied (s : State) (l : LineNo) (h : Handle) (job : Job) (o : AttemptOutcome) (after : Station) : State :=
  ((s.setLine l (s.line l).outcomeFixed).setStation h (some after)).noteContext job o (s.line l).turnaround

/-- R88: the outcome has been applied, the attempt has acted on it, and the engine has entered GUARD. -/
def State.outcomeEnds (s : State) (l : LineNo) (h : Handle) (job : Job) (st after : Station) (o : AttemptOutcome)
    (ap : Bool) : State := ((s.outcomeApplied l h job o after).jobActs l h job st after o ap).toGuard l

/-- R88: an outcome ends an attempt. -/
theorem State.endAttempt_outcome {s : State} {l : LineNo} {job : Job} {h : Handle} {st : Station} (o : AttemptOutcome)
    (hj : (s.line l).job = some job) (hh : job.handle = some h) (hst : s.station h = some st) (ap : Bool) :
    s.endAttempt l o ap = s.outcomeEnds l h job st
      (st.applyOutcome (s.line l).bandTable (s.line l).hysteresis job o (s.line l).turnaround ap s.time) o ap := by
  have hdeliver : s.deliver l job o ap = (s.outcomeApplied l h job o (st.applyOutcome (s.line l).bandTable
      (s.line l).hysteresis job o (s.line l).turnaround ap s.time)).jobActs l h job st
        (st.applyOutcome (s.line l).bandTable (s.line l).hysteresis job o (s.line l).turnaround ap s.time) o ap := by
    simp only [State.deliver, hh, State.noteContext_turnaround, Station.applyOutcome_turnaround, State.updLine_eq,
      State.station_noteContext, State.station_setLine, hst, State.time_noteContext, State.setLine_time,
      State.noteContext_setStation]
    rfl
  rw [State.endAttempt, hj]
  exact congrArg (State.toGuard · l) hdeliver

section
variable {s : State} {l : LineNo} {h : Handle} {job : Job} {o : AttemptOutcome} {after : Station}

/-- What R88 applies of a miss is what O44 says of it. -/
theorem State.outcomeApplied_miss (ho : o.isMiss = true) :
    s.outcomeApplied l h job o after = s.missApplied l h job o after := by
  rw [State.outcomeApplied, ← State.noteContext_turnaround, AttemptOutcome.isAnswer_of_isMiss ho]
  rfl

theorem State.station_outcomeApplied : (s.outcomeApplied l h job o after).station h = some after := by
  rw [State.outcomeApplied, State.station_noteContext, State.station_setStation_same]

theorem State.line_noteContext (s : State) (job : Job) (o : AttemptOutcome) (t : Option Nat) (l : LineNo) :
    (s.noteContext job o t).line l = s.line l := by
  cases job <;> rfl

theorem State.line_outcomeApplied : (s.outcomeApplied l h job o after).line l = (s.line l).outcomeFixed := by
  rw [State.outcomeApplied, State.line_noteContext, State.line_setStation, State.line_setLine_same]

/-- The contexts but the attempt's own are as they were. -/
theorem State.ctx_outcomeApplied {k : Nat} (hk : ∀ id h' origin, job = .command id h' origin → k ≠ id) :
    (s.outcomeApplied l h job o after).ctx k = s.ctx k := by
  cases job with
  | command id h' origin =>
    exact State.ctx_updCtx_ne (fun c => (c.noteOutcome_keeps o (s.line l).turnaround).1) (hk id h' origin rfl)
  | broadcast id => rfl
  | poll h' p => rfl
  | link h' => rfl
  | probe h' => rfl

/-- R62, R64, R68: the exchange of a COMMAND attempt has noted the outcome. -/
theorem State.ctx_outcomeApplied_own {id : Nat} {h' : Handle} {origin : Phase} {c : Context} (hc : s.ctx id = some c)
    (hp : c.phase ≠ .ending) : (s.outcomeApplied l h (.command id h' origin) o after).ctx id =
      some (c.noteOutcome o (s.line l).turnaround) :=
  State.ctx_updCtx_same (s := (s.setLine l _).setStation h _)
    (fun c => (c.noteOutcome_keeps o (s.line l).turnaround).1) hc hp

theorem State.outcomeApplied_counts : (s.outcomeApplied l h job o after).reserved = s.reserved ∧
    (s.outcomeApplied l h job o after).eventWrite = s.eventWrite := by
  cases job <;> exact ⟨rfl, rfl⟩

/-- A line whose attempt has its outcome has no attempt in progress (R14). -/
theorem Line.attempting_of_no_job {x : Line} (hj : x.job = none) (h : Handle) : x.attempting h = false := by
  simp [Line.attempting, hj]

/-! ## What the end of an attempt moves -/

/-- R89: ends after which the engine enters GUARD, told from the line `z` as they leave it. -/
theorem State.sameButEnds_guarded {v : State} {z : Line} (hz : z.state ≠ .idle)
    (a : ((s.setLine l z).setStation h (some after)).SameButEnds v) :
    ((s.setLine l { z.enterGuard s.time with quiescers := [] }).setStation h (some after)).SameButEnds
      (v.toGuard l).finish := by
  have left := (a.toGuard (l := l) (by rw [State.line_setStation, State.line_setLine_same]; exact hz)).trans
    (State.sameButEnds_of_writers (State.writers_finish _))
  have hset : ∀ y z, ((s.setLine l y).setStation h (some after)).setLine l z = (s.setLine l z).setStation h (some after) :=
    fun y z => congrArg (State.setStation · h (some after)) (State.setLine_setLine s l y z)
  rw [hset, State.line_setStation, State.line_setLine_same] at left
  exact left

/-- The outcome as it is applied moves no more than ends do, from the line and the entry that it leaves. -/
theorem State.sameButEnds_outcomeApplied : ((s.setLine l (s.line l).outcomeFixed).setStation h (some after)).SameButEnds
    (s.outcomeApplied l h job o after) := State.sameButEnds_of_ends (State.ends_noteContext ..)

/-- The same with a change of the line that follows. -/
theorem State.sameButEnds_outcomeApplied_updLine (f : Line → Line) :
    ((s.setLine l (f (s.line l).outcomeFixed)).setStation h (some after)).SameButEnds
      ((s.outcomeApplied l h job o after).updLine l f) := by
  have hline : (s.outcomeApplied l h job o after).updLine l f =
      ((s.setLine l (f (s.line l).outcomeFixed)).setStation h (some after)).noteContext job o (s.line l).turnaround := by
    rw [State.updLine_eq, State.line_outcomeApplied, ← State.setLine_setLine s l (s.line l).outcomeFixed]
    cases job <;> rfl
  rw [hline]
  exact State.sameButEnds_of_ends (State.ends_noteContext ..)

/-- Records that wait for GUARD are told by the line before ends as by the line after them. -/
theorem State.SameButEnds.quiescers {s t : State} (a : s.SameButEnds t) (l : LineNo) :
    (t.line l).quiescers = (s.line l).quiescers := by
  rw [(a.2.2.1 l).2]

end

/-! ## What the exchange does with each answer -/

/-- The status with which an exchange that was answered BUSY ends where it is not held (R64, R71, R78). -/
def Context.busyStatus (c : Context) (st : Station) : Status :=
  if c.abortRequested.isSome then .aborted
  else if st.busyLimit ≠ 0 ∧ st.busyLimit ≤ c.busyCount then .stationBusy
  else .cancelled

/-- The handle of an exchange, told from its record. -/
theorem Context.exchangeHandle_of_body {c : Context} {h : Handle} {pa : Word} {len : Nat} {base : Word} {cap : Nat}
    (hb : c.body = .exchange h pa len base cap) : c.exchangeHandle = some h := by
  rw [Context.exchangeHandle, hb]

section
variable {s : State} {l : LineNo} {h : Handle} {id : Nat} {c : Context} {st : Station}

theorem State.exchangeActs_ack (hc : s.ctx id = some c) (hh : c.exchangeHandle = some h) :
    s.exchangeActs l c st .ack = s.endsExchange id h .ok c.failureDetail 0 c.abortRequested .tooLate := by
  obtain rfl := State.ctx_id hc
  exact State.endWith_endAbort hc hh

theorem State.exchangeActs_nak {cls : NakClass} {reason : Byte} (hc : s.ctx id = some c) (hh : c.exchangeHandle = some h)
    (hcls : cls ≠ .check) : s.exchangeActs l c st (.nak cls reason) =
      s.endsExchange id h .refused (.reason reason) 0 c.abortRequested .tooLate := by
  obtain rfl := State.ctx_id hc
  cases cls with
  | check => exact (hcls rfl).elim
  | refused => exact State.endExchange_endAbort hc hh
  | unsupported => exact State.endExchange_endAbort hc hh

/-- R64, R71, R78: a BUSY ends an exchange that is aborted, at its busy limit, or of a CLOSING station. -/
theorem State.exchangeActs_busy_ends (hc : s.ctx id = some c) (hh : c.exchangeHandle = some h)
    (hend : c.abortRequested ≠ none ∨ (st.busyLimit ≠ 0 ∧ st.busyLimit ≤ c.busyCount) ∨ st.state = .closing) :
    s.exchangeActs l c st .busy =
      s.endsExchange id h (c.busyStatus st) c.failureDetail 0 c.abortRequested .ok := by
  obtain rfl := State.ctx_id hc
  rw [← State.endWith_endAbort hc hh]
  unfold State.exchangeActs State.exchangeBusy Context.busyStatus
  cases ha : c.abortRequested with
  | some a => rfl
  | none =>
    by_cases hl : st.busyLimit ≠ 0 ∧ st.busyLimit ≤ c.busyCount
    · simp [hl, State.endAbort]
    · have hs : st.state = .closing := (hend.resolve_left (not_not.2 ha)).resolve_left hl
      simp only [if_neg hl, if_pos hs, Option.isSome_none, Bool.false_eq_true, if_false, State.endAbort]

/-- R64: otherwise the exchange is held. -/
theorem State.exchangeActs_busy_held (hid : c.id = id) (ha : c.abortRequested = none)
    (hl : ¬ (st.busyLimit ≠ 0 ∧ st.busyLimit ≤ c.busyCount)) (hs : st.state ≠ .closing) :
    s.exchangeActs l c st .busy = s.updCtx id fun c => { c with phase := .held } := by
  simp only [State.exchangeActs, State.exchangeBusy, ha, if_neg hl, if_neg hs, hid]

/-- R65, R66, R71, R78: a NAK CHECK ends an exchange that is aborted, of a CLOSING station, or out of attempts. -/
theorem State.exchangeActs_check_ends {reason : Byte} (hc : s.ctx id = some c) (hh : c.exchangeHandle = some h)
    (hend : c.abortRequested ≠ none ∨ st.state = .closing ∨ 1 + st.retryLimit ≤ c.attemptsMade) :
    s.exchangeActs l c st (.nak .check reason) =
      s.endsExchange id h (c.failedStatus st) c.failureDetail 0 c.abortRequested .ok := by
  obtain rfl := State.ctx_id hc
  rw [State.exchangeActs, State.exchangeFailed_ended hc hh hend, State.endsExchange, State.endPlain, hc]
  rfl

/-- R63: a reply with octets to write is put in the receive buffer, and its write is under way. -/
theorem State.exchangeActs_reply {pa : Word} {len : Nat} {base : Word} {cap : Nat} {octets : List Byte}
    (hc : s.ctx id = some c) (hb : c.body = .exchange h pa len base cap) (hn : min octets.length cap ≠ 0) :
    s.exchangeActs l c st (.reply octets) = s.updLine l fun x => { x with rxBuffer := some (.reply id octets) } := by
  obtain rfl := State.ctx_id hc
  have hc' : (s.updLine l fun x => { x with rxBuffer := some (.reply c.id octets) }).ctx c.id = some c := hc
  simp only [State.exchangeActs, State.beginReply, hc', Option.map_some, Context.replyBuffer, hb, Option.some.injEq, hn,
    if_false]

/-- R63, R122: the line after the end of a reply's write. -/
theorem Line.replyDelivered_eq {x : Line} (hs : x.state ≠ .idle) : x.replyDelivered =
    if x.setLine.isSome = true ∧ x.bandReading = false then
      { x with rxBuffer := none, bandReading := true, txHolds := none }
    else { x with rxBuffer := none } := by
  have hnoticed : x.noticed = x := if_neg hs
  simp only [Line.replyDelivered, Line.releaseBuffer, hnoticed, Bool.and_eq_true, Bool.not_eq_true', Line.beginBandRead]

/-- The line after a reply without octets to write (entry 15). -/
def Line.emptyReply (x : Line) (id : Nat) (octets : List Byte) : Line :=
  ({ x with rxBuffer := some (.reply id octets) } : Line).replyDelivered

/-- The delivery of a reply leaves the engine and its attempt. -/
theorem Line.replyDelivered_keeps (x : Line) : x.replyDelivered.state = x.state ∧ x.replyDelivered.job = x.job := by
  have hnoticed : x.noticed.state = x.state ∧ x.noticed.job = x.job := by
    rw [Line.noticed_eq]
    exact ⟨rfl, rfl⟩
  unfold Line.replyDelivered
  simp only
  split <;> exact hnoticed

theorem Line.state_emptyReply (x : Line) (id : Nat) (octets : List Byte) : (x.emptyReply id octets).state = x.state :=
  (Line.replyDelivered_keeps _).1

theorem Line.job_emptyReply (x : Line) (id : Nat) (octets : List Byte) : (x.emptyReply id octets).job = x.job :=
  (Line.replyDelivered_keeps _).2

theorem Line.emptyReply_eq {x : Line} (hs : x.state ≠ .idle) (id : Nat) (octets : List Byte) : x.emptyReply id octets =
    if x.setLine.isSome = true ∧ x.bandReading = false then
      { x with rxBuffer := none, bandReading := true, txHolds := none }
    else { x with rxBuffer := none } := Line.replyDelivered_eq (x := { x with rxBuffer := some (.reply id octets) }) hs

/-- R63, entry 15: a reply without octets to write ends the exchange at once. -/
theorem State.exchangeActs_reply_empty {pa : Word} {len : Nat} {base : Word} {cap : Nat} {octets : List Byte}
    (hc : s.ctx id = some c) (hb : c.body = .exchange h pa len base cap) (hn : min octets.length cap = 0) :
    s.exchangeActs l c st (.reply octets) = (s.updLine l fun x => x.emptyReply id octets).endsExchange id h
      (if octets.length ≤ cap then .ok else .overrun) c.failureDetail 0 c.abortRequested .tooLate := by
  obtain rfl := State.ctx_id hc
  have hh : c.exchangeHandle = some h := Context.exchangeHandle_of_body hb
  have hc' : (s.updLine l fun x => { x with rxBuffer := some (.reply c.id octets) }).ctx c.id = some c := hc
  have hend : replyEnd .good octets.length cap = (if octets.length ≤ cap then Status.ok else .overrun, 0) := by
    unfold replyEnd
    by_cases hle : octets.length ≤ cap
    · simp only [if_pos hle]
      rw [min_eq_left hle] at hn
      rw [hn]
    · simp only [if_neg hle]
      rw [min_eq_right (by omega)] at hn
      rw [hn]
  have hline : (s.updLine l fun x => { x with rxBuffer := some (.reply c.id octets) }).updLine l Line.replyDelivered =
      s.updLine l fun x => x.emptyReply c.id octets := by
    simp only [State.updLine_eq, State.line_setLine_same, State.setLine_setLine, Line.emptyReply]
  have hwrites : ∀ base n, transactionOffsets base 0 n = [] := fun _ _ => rfl
  simp only [State.exchangeActs, State.beginReply, hc', Option.map_some, Context.replyBuffer, hb, hn, if_true,
    State.replyWritten, hwrites, hend]
  rw [← State.endExchange_endAbort (s := s.updLine l fun x => x.emptyReply c.id octets) hc hh, ← hline]
  rfl

/-- An answer without a reply moves no more than ends do. -/
theorem State.ends_exchangeActs {o : AttemptOutcome} (ho : ∀ octets, o ≠ .reply octets) :
    s.Ends (s.exchangeActs l c st o) := by
  have failed := s.ends_exchangeFailed l c st
  cases o with
  | ack => exact (s.ends_endWith ..).trans (State.ends_endAbort ..)
  | reply octets => exact (ho octets rfl).elim
  | busy => exact s.ends_exchangeBusy c st
  | nak cls reason =>
    cases cls with
    | check => exact failed
    | refused => exact (s.ends_endExchange ..).trans (State.ends_endAbort ..)
    | unsupported => exact (s.ends_endExchange ..).trans (State.ends_endAbort ..)
  | attention octets => exact .refl s
  | idle => exact .refl s
  | noAnswer => exact failed
  | garbled => exact failed
  | wrongStation => exact failed
  | unexpected => exact failed
  | lineBreak =>
    simp only [State.exchangeActs]
    split
    · exact (s.ends_endWith ..).trans (State.ends_endAbort ..)
    · exact s.ends_endWith ..

end

end Sys2Proof.Machine
end

section
/-! PROOFS. The whole step of the last octet of an answer to a COMMAND: what it moves, and what it reports (R62 to R66, R68,
R70, R71, R78). -/

namespace Sys2Proof.Machine

/-- From `s` to the end of the step `t` the exchange `id` of the station `after` has ended with this status and detail and no
reply octets, the ABORT that waited for it with `st'`, and a CLOSING entry has settled. -/
structure State.Concludes (s t : State) (l : LineNo) (h : Handle) (id : Nat) (after : Station) (abort : Option Nat)
    (status : Status) (detail : Detail) (st' : Status) : Prop where
  reply : t.ReportsReply id status detail 0
  reports : t.Reports id status detail
  aborts : ∀ a d, abort = some a → s.ctx a = some d → d.Live → a ≠ id → a ∉ after.settling → t.Reports a st' .none
  settles : after.state = .closing → after.line = l → s.ClosingSettles t h after (some id)

/-- An exchange that ends from a state `v` after its outcome was applied: the contexts but its own are those of `s`. -/
theorem State.concludes_endsExchange {s v : State} {l : LineNo} {h : Handle} {id : Nat} {after : Station} {c : Context}
    {status : Status} {detail : Detail} {st' : Status} (hc : v.ctx id = some c) (hp : c.phase ≠ .ending)
    (hh : c.exchangeHandle = some h) (hx : v.station h = some after) (hctx : ∀ k, k ≠ id → v.ctx k = s.ctx k)
    (hj : (v.line l).job = none) (abort : Option Nat) :
    s.Concludes ((v.endsExchange id h status detail 0 abort st').toGuard l).finish l h id after abort status detail
      st' := by
  have handed := (State.handed_endsExchange (h := h) (st := status) (d := detail) (n := 0) (a := abort) (st' := st')
    hc (Context.live_of_exchange hp hh)).tells (State.tells_toGuard _ l)
  refine ⟨handed.reports, handed.handed.reports, fun a d ha hd hl hne hset => ?_, fun hs hline => ?_⟩
  · rw [ha]
    exact ((State.handed_endsExchange_abort hc hp hh hx ((hctx a hne).trans hd) hl hne hset).tells
      (State.tells_toGuard _ l)).reports
  · exact State.closingSettles_endsExchange hc hp hh hx hs hctx (by rw [hline]; exact Line.attempting_of_no_job hj h)

section
variable {s : State} {l : LineNo} {h : Handle} {id : Nat} {origin : Phase} {st after : Station} {o : AttemptOutcome}
  {ap : Bool} {c : Context}

/-- R62: a COMMAND attempt that leaves its station in use passes its outcome to its exchange. -/
theorem State.outcomeEnds_command (hw : ¬ (st.state ≠ .offline ∧ after.state = .offline)) (hc : s.ctx id = some c)
    (hp : c.phase ≠ .ending) : s.outcomeEnds l h (.command id h origin) st after o ap =
      ((s.outcomeApplied l h (.command id h origin) o after).exchangeActs l (c.noteOutcome o (s.line l).turnaround) after
        o).toGuard l := by
  rw [State.outcomeEnds, State.jobActs, if_neg hw, State.ctx_outcomeApplied_own hc hp]

/-- The contexts but the exchange's own are as they were. -/
theorem State.ctx_outcomeApplied_command {k : Nat} (hk : k ≠ id) :
    (s.outcomeApplied l h (.command id h origin) o after).ctx k = s.ctx k :=
  State.ctx_outcomeApplied fun id' h' origin' e => by cases e; exact hk

variable (hw : ¬ (st.state ≠ .offline ∧ after.state = .offline)) (hc : s.ctx id = some c) (hp : c.phase ≠ .ending)
include hw hc hp

/-- R70: an answer without a reply moves no more than ends do. -/
theorem State.sameButEnds_command (ho : ∀ octets, o ≠ .reply octets) (hs : (s.line l).state ≠ .idle) :
    ((s.setLine l { (s.line l).outcomeFixed.enterGuard s.time with quiescers := [] }).setStation h
      (some after)).SameButEnds (s.outcomeEnds l h (.command id h origin) st after o ap).finish := by
  rw [State.outcomeEnds_command hw hc hp]
  exact State.sameButEnds_guarded (z := (s.line l).outcomeFixed) hs
    (State.sameButEnds_outcomeApplied.trans (State.sameButEnds_of_ends (State.ends_exchangeActs ho)))

/-- R64: an exchange that is held. -/
theorem State.ctx_command_held (ha : c.abortRequested = none)
    (hl : ¬ (after.busyLimit ≠ 0 ∧ after.busyLimit ≤ min 255 (c.busyCount + 1))) (hs : after.state ≠ .closing)
    (hq : id ∉ (s.line l).quiescers) :
    (s.outcomeEnds l h (.command id h origin) st after .busy ap).finish.ctx id = some { c with
      unanswered := false, busyCount := min 255 (c.busyCount + 1), attemptsMade := 0
      lastTurnaround := (s.line l).turnaround, phase := .held } := by
  have hown := State.ctx_outcomeApplied_own (l := l) (h := h) (h' := h) (origin := origin) (after := after) (o := .busy) hc hp
  obtain rfl := State.ctx_id hc
  rw [State.ctx_finish, State.outcomeEnds_command hw hc hp,
    State.exchangeActs_busy_held (c := c.noteOutcome .busy (s.line l).turnaround) rfl ha hl hs, State.ctx_toGuard]
  · exact State.ctx_updCtx_same (f := fun c => { c with phase := .held }) (fun _ => rfl) hown hp
  · rw [State.line_updCtx, State.line_outcomeApplied]
    exact hq

/-- R66: an exchange that is to be retried after a NAK CHECK. -/
theorem State.check_retry {reason : Byte} (ha : c.abortRequested = none) (hn : c.attemptsMade < 1 + after.retryLimit)
    (hs : after.state ≠ .closing) (hq : id ∉ (s.line l).quiescers) :
    (s.outcomeEnds l h (.command id h origin) st after (.nak .check reason) ap).finish.phaseOf id = some .waitingRetry ∧
      ((s.outcomeEnds l h (.command id h origin) st after (.nak .check reason) ap).finish.line l).retryList =
        if id ∈ (s.line l).retryList then (s.line l).retryList else (s.line l).retryList ++ [id] := by
  have hown := State.ctx_outcomeApplied_own (l := l) (h := h) (h' := h) (origin := origin) (after := after)
    (o := .nak .check reason) hc hp
  obtain rfl := State.ctx_id hc
  have hacts : (s.outcomeApplied l h (.command c.id h origin) (.nak .check reason) after).exchangeActs l
      (c.noteOutcome (.nak .check reason) (s.line l).turnaround) after (.nak .check reason) =
        (s.outcomeApplied l h (.command c.id h origin) (.nak .check reason) after).awaitRetry l c.id :=
    State.exchangeFailed_retry (c := c.noteOutcome (.nak .check reason) (s.line l).turnaround) ha hn hs
  have hline : ((s.outcomeApplied l h (.command c.id h origin) (.nak .check reason) after).awaitRetry l c.id).line l =
      { (s.line l).outcomeFixed with retryList := joinTail (s.line l).retryList c.id } := by
    simp only [State.awaitRetry, State.updLine_eq, State.line_setLine_same, State.line_updCtx, State.line_outcomeApplied]
    rfl
  rw [State.outcomeEnds_command hw hc hp, hacts]
  refine ⟨?_, ?_⟩
  · rw [State.phaseOf, State.ctx_finish, State.ctx_toGuard (by rw [hline]; exact hq), State.awaitRetry, State.updLine_eq,
      State.ctx_setLine, State.ctx_updCtx_same (f := fun c => { c with phase := .waitingRetry }) (fun _ => rfl) hown hp]
    rfl
  · rw [State.retryList_finish, State.toGuard_eq, State.line_setLine_same, hline]
    simp [Line.enterGuard, joinTail]

variable (hh : c.exchangeHandle = some h)
include hh

/-- The exchange ends, from the state in which the outcome has been applied and, for a reply, the line has changed. -/
theorem State.concludes_command {status : Status} {detail : Detail} {st' : Status} (f : Line → Line)
    (hf : ∀ x : Line, (f x).job = x.job) (hacts : ∀ c' : Context, c' = c.noteOutcome o (s.line l).turnaround →
      (s.outcomeApplied l h (.command id h origin) o after).ctx id = some c' → c'.exchangeHandle = some h →
      (s.outcomeApplied l h (.command id h origin) o after).exchangeActs l c' after o =
        ((s.outcomeApplied l h (.command id h origin) o after).updLine l f).endsExchange id h status detail 0
          c.abortRequested st') :
    s.Concludes (s.outcomeEnds l h (.command id h origin) st after o ap).finish l h id after c.abortRequested status detail
      st' := by
  have hown := State.ctx_outcomeApplied_own (l := l) (h := h) (h' := h) (origin := origin) (after := after) (o := o) hc hp
  obtain ⟨-, hphase, hbody, -⟩ := c.noteOutcome_keeps o (s.line l).turnaround
  have hhandle : (c.noteOutcome o (s.line l).turnaround).exchangeHandle = some h := by
    rwa [Context.exchangeHandle, hbody]
  have hline : (((s.outcomeApplied l h (.command id h origin) o after).updLine l f).line l).job = none := by
    rw [State.updLine_eq, State.line_setLine_same, hf, State.line_outcomeApplied]
    rfl
  rw [State.outcomeEnds_command hw hc hp, hacts _ rfl hown hhandle]
  exact State.concludes_endsExchange (v := (s.outcomeApplied l h (.command id h origin) o after).updLine l f)
    (c := c.noteOutcome o (s.line l).turnaround) hown (by rwa [hphase]) hhandle State.station_outcomeApplied
    (fun k hk => State.ctx_outcomeApplied_command (origin := origin) hk) hline _

/-- The same where the line does not change: every answer but a reply. -/
theorem State.concludes_command_plain {status : Status} {detail : Detail} {st' : Status}
    (hacts : ∀ c' : Context, c' = c.noteOutcome o (s.line l).turnaround →
      (s.outcomeApplied l h (.command id h origin) o after).ctx id = some c' → c'.exchangeHandle = some h →
      (s.outcomeApplied l h (.command id h origin) o after).exchangeActs l c' after o =
        (s.outcomeApplied l h (.command id h origin) o after).endsExchange id h status detail 0 c.abortRequested st') :
    s.Concludes (s.outcomeEnds l h (.command id h origin) st after o ap).finish l h id after c.abortRequested status detail
      st' := by
  refine State.concludes_command hw hc hp hh (fun x => x) (fun _ => rfl) fun c' hc' hown hhandle => ?_
  rw [State.updLine_eq, State.setLine_line_self]
  exact hacts c' hc' hown hhandle

/-- R62: an ACK ends the exchange. -/
theorem State.concludes_ack : s.Concludes (s.outcomeEnds l h (.command id h origin) st after .ack ap).finish l h id after
    c.abortRequested .ok c.failureDetail .tooLate :=
  State.concludes_command_plain hw hc hp hh fun c' hc' hown hhandle => by
    subst hc'
    exact State.exchangeActs_ack hown hhandle

/-- R65: a NAK of another class than CHECK ends it REFUSED. -/
theorem State.concludes_nak {cls : NakClass} {reason : Byte} (hcls : cls ≠ .check) :
    s.Concludes (s.outcomeEnds l h (.command id h origin) st after (.nak cls reason) ap).finish l h id after
      c.abortRequested .refused (.reason reason) .tooLate :=
  State.concludes_command_plain hw hc hp hh fun c' hc' hown hhandle => by
    have habort : c'.abortRequested = c.abortRequested := by
      rw [hc']
      exact (c.noteOutcome_keeps _ _).2.2.2
    rw [← habort]
    exact State.exchangeActs_nak hown hhandle hcls

/-- R64, R71, R78: a BUSY ends it where it is aborted, at its busy limit, or of a CLOSING station. -/
theorem State.concludes_busy {status : Status} (hend : c.abortRequested ≠ none ∨
      (after.busyLimit ≠ 0 ∧ after.busyLimit ≤ min 255 (c.busyCount + 1)) ∨ after.state = .closing)
    (hstatus : (if c.abortRequested.isSome then .aborted
      else if after.busyLimit ≠ 0 ∧ after.busyLimit ≤ min 255 (c.busyCount + 1) then .stationBusy
      else .cancelled) = status) :
    s.Concludes (s.outcomeEnds l h (.command id h origin) st after .busy ap).finish l h id after c.abortRequested
      status c.failureDetail .ok :=
  State.concludes_command_plain hw hc hp hh fun c' hc' hown hhandle => by
    subst hc' hstatus
    exact State.exchangeActs_busy_ends hown hhandle hend

/-- R65, R66, R71, R78: a NAK CHECK ends it where it is aborted, of a CLOSING station, or out of attempts. -/
theorem State.concludes_check {reason : Byte} {status : Status}
    (hend : c.abortRequested ≠ none ∨ after.state = .closing ∨ 1 + after.retryLimit ≤ c.attemptsMade)
    (hstatus : c.failedStatus after = status) :
    s.Concludes (s.outcomeEnds l h (.command id h origin) st after (.nak .check reason) ap).finish l h id after
      c.abortRequested status (.failure .nakCheck) .ok :=
  State.concludes_command_plain hw hc hp hh fun c' hc' hown hhandle => by
    subst hc' hstatus
    exact State.exchangeActs_check_ends hown hhandle hend

/-- R24, R70: the entry of a station in use after an ACK. -/
theorem State.station_command_ack (hs : after.state ≠ .closing) {y : Station}
    (hy : (s.outcomeEnds l h (.command id h origin) st after .ack ap).finish.station h = some y) :
    y.link = after.link ∧ y.pending = after.pending.erase id := by
  have hown := State.ctx_outcomeApplied_own (l := l) (h := h) (h' := h) (origin := origin) (after := after) (o := .ack) hc hp
  have hentry : (s.outcomeEnds l h (.command id h origin) st after .ack ap).station h =
      some { after with pending := after.pending.erase id } := by
    rw [State.outcomeEnds_command hw hc hp, State.exchangeActs_ack (c := c.noteOutcome .ack (s.line l).turnaround) hown hh,
      State.station_toGuard]
    exact State.station_endsExchange (c := c.noteOutcome .ack (s.line l).turnaround) hown hp hh State.station_outcomeApplied
      hs rfl
  have hwriters := ((State.sameButWriters_iff _ _).1
    (State.writers_finish (s.outcomeEnds l h (.command id h origin) st after .ack ap))).2.2.2 h
  rw [hentry, hy] at hwriters
  rw [show y = { after with
    pending := after.pending.erase id, lastReported := y.lastReported, presenceChanges := y.presenceChanges } from hwriters]
  exact ⟨rfl, rfl⟩

end

/-! ## Replies (R63) -/

section
variable {s : State} {l : LineNo} {h : Handle} {id : Nat} {origin : Phase} {st after : Station} {octets : List Byte}
  {ap : Bool} {c : Context} {pa : Word} {len : Nat} {base : Word} {cap : Nat}
  (hw : ¬ (st.state ≠ .offline ∧ after.state = .offline)) (hc : s.ctx id = some c) (hp : c.phase ≠ .ending)
  (hb : c.body = .exchange h pa len base cap)
include hw hc hp hb

/-- R63: the step of a reply whose write begins. -/
theorem State.outcomeEnds_reply (hn : min octets.length cap ≠ 0) :
    s.outcomeEnds l h (.command id h origin) st after (.reply octets) ap =
      ((s.outcomeApplied l h (.command id h origin) (.reply octets) after).updLine l fun x =>
        { x with rxBuffer := some (.reply id octets) }).toGuard l := by
  have hown := State.ctx_outcomeApplied_own (l := l) (h := h) (h' := h) (origin := origin) (after := after)
    (o := .reply octets) hc hp
  rw [State.outcomeEnds_command hw hc hp, State.exchangeActs_reply hown hb hn]

/-- R63: it moves the receive buffer, and no more than ends do besides. -/
theorem State.sameButEnds_reply (hn : min octets.length cap ≠ 0) (hs : (s.line l).state ≠ .idle) :
    ((s.setLine l { ({ (s.line l).outcomeFixed with rxBuffer := some (.reply id octets) } : Line).enterGuard s.time with
        quiescers := [] }).setStation h (some after)).SameButEnds
      (s.outcomeEnds l h (.command id h origin) st after (.reply octets) ap).finish := by
  rw [State.outcomeEnds_reply hw hc hp hb hn]
  exact State.sameButEnds_guarded (z := { (s.line l).outcomeFixed with rxBuffer := some (.reply id octets) }) hs
    (State.sameButEnds_outcomeApplied_updLine _)

/-- R63, R68: the exchange whose reply is being written. -/
theorem State.ctx_reply (hn : min octets.length cap ≠ 0) (hq : id ∉ (s.line l).quiescers) :
    (s.outcomeEnds l h (.command id h origin) st after (.reply octets) ap).finish.ctx id =
      some { c with unanswered := false, lastTurnaround := (s.line l).turnaround } := by
  have hline : (((s.outcomeApplied l h (.command id h origin) (.reply octets) after).updLine l fun x =>
      { x with rxBuffer := some (.reply id octets) }).line l).quiescers = (s.line l).quiescers := by
    rw [State.updLine_eq, State.line_setLine_same, State.line_outcomeApplied]
    rfl
  rw [State.ctx_finish, State.outcomeEnds_reply hw hc hp hb hn, State.ctx_toGuard (by rwa [hline]), State.updLine_eq,
    State.ctx_setLine]
  exact State.ctx_outcomeApplied_own hc hp

/-- R63, entry 15: a reply without octets to write ends the exchange at once. -/
theorem State.concludes_empty (hn : min octets.length cap = 0) :
    s.Concludes (s.outcomeEnds l h (.command id h origin) st after (.reply octets) ap).finish l h id after c.abortRequested
      (if octets.length ≤ cap then .ok else .overrun) c.failureDetail .tooLate :=
  State.concludes_command hw hc hp (Context.exchangeHandle_of_body hb) (fun x => x.emptyReply id octets)
    (fun x => x.job_emptyReply id octets) fun c' hc' hown _ => by
      subst hc'
      exact State.exchangeActs_reply_empty hown hb hn

/-- R63, R122: it releases the receive buffer, and no more than ends do moves besides. -/
theorem State.sameButEnds_empty (hn : min octets.length cap = 0) (hs : (s.line l).state ≠ .idle) :
    ((s.setLine l { ((s.line l).outcomeFixed.emptyReply id octets).enterGuard s.time with quiescers := [] }).setStation h
      (some after)).SameButEnds (s.outcomeEnds l h (.command id h origin) st after (.reply octets) ap).finish := by
  have hown := State.ctx_outcomeApplied_own (l := l) (h := h) (h' := h) (origin := origin) (after := after)
    (o := .reply octets) hc hp
  rw [State.outcomeEnds_command hw hc hp, State.exchangeActs_reply_empty hown hb hn]
  exact State.sameButEnds_guarded (z := (s.line l).outcomeFixed.emptyReply id octets) (by rw [Line.state_emptyReply]; exact hs)
    ((State.sameButEnds_outcomeApplied_updLine fun x => x.emptyReply id octets).trans
      (State.sameButEnds_of_ends State.ends_endsExchange))

end

end Sys2Proof.Machine
end

section
/-! PROOFS. The whole step of the last octet of an answer to a POLL, to link service and to a probe: the reservation, the
ATTENTION report, and the CLOSING entry that settles (R30, R31, R43, R45, R71 to R73). -/

namespace Sys2Proof.Machine

/-! ## The ATTENTION report at the end of a step -/

theorem State.startCompletion_keeps (s : State) : s.startCompletion.attentions = s.attentions ∧
    s.startCompletion.event = s.event ∧ s.startCompletion.eventWrite = s.eventWrite ∧
    s.startCompletion.reserved = s.reserved := by
  unfold State.startCompletion
  split <;> exact ⟨rfl, rfl, rfl, rfl⟩

theorem State.checkHalted_keeps (s : State) : s.checkHalted.attentions = s.attentions ∧
    s.checkHalted.eventWrite = s.eventWrite ∧ s.checkHalted.reserved = s.reserved := by
  unfold State.checkHalted
  split <;> exact ⟨rfl, rfl, rfl⟩

/-- R149: with an ATTENTION waiting the writer begins its entry, or is busy. -/
theorem State.startEvent_attention {s : State} {r : AttentionReport} (h : r ∈ s.attentions) :
    s.startEvent.reserved = s.reserved ∧ (r ∈ s.startEvent.attentions ∨ ∃ w, s.startEvent.eventWrite = some w ∧
      w.attention = some (r.line, r.handle) ∧ w.octets = attentionOctets r s.event.phase) := by
  unfold State.startEvent
  split
  · exact ⟨rfl, .inl h⟩
  · split
    · next first rest hlist =>
      rw [hlist] at h
      rcases List.mem_cons.1 h with rfl | hrest
      · exact ⟨rfl, .inr ⟨_, rfl, rfl, rfl⟩⟩
      · exact ⟨rfl, .inl hrest⟩
    · next hnone =>
      rw [hnone] at h
      cases h

/-- R73, R149: at the end of the step an ATTENTION waits or is being written, in its reserved place. -/
theorem State.attention_finish {s : State} {r : AttentionReport} (h : r ∈ s.attentions) :
    s.finish.reserved = s.reserved ∧ (r ∈ s.finish.attentions ∨ ∃ w, s.finish.eventWrite = some w ∧
      w.attention = some (r.line, r.handle) ∧ w.octets = attentionOctets r s.event.phase) := by
  obtain ⟨hatt, hevent, -, hreserved⟩ := s.startCompletion_keeps
  obtain ⟨hcount, htaken⟩ := State.startEvent_attention (s := s.startCompletion) (r := r) (by rwa [hatt])
  obtain ⟨hatt', hwrite', hreserved'⟩ := s.startCompletion.startEvent.checkHalted_keeps
  unfold State.finish
  split
  · rw [hreserved', hcount, hreserved, hatt', hwrite', ← hevent]
    exact ⟨rfl, htaken⟩
  · exact ⟨rfl, .inl h⟩

/-- Ends touch nothing of the event writer. -/
theorem State.Ends.event_rest {s t : State} (e : s.Ends t) : t.attentions = s.attentions ∧ t.event = s.event ∧
    t.eventWrite = s.eventWrite ∧ t.reserved = s.reserved := by
  rw [e.rest]
  exact ⟨rfl, rfl, rfl, rfl⟩

theorem State.toGuard_event (s : State) (l : LineNo) : (s.toGuard l).attentions = s.attentions ∧
    (s.toGuard l).event = s.event ∧ (s.toGuard l).eventWrite = s.eventWrite ∧ (s.toGuard l).reserved = s.reserved := by
  have ended := State.Ends.event_rest (State.ends_endRecords (s := s.setLine l ((s.line l).enterGuard s.time))
    (ids := (s.line l).quiescers) (st := .ok) (d := .none))
  rw [State.toGuard_eq]
  exact ended

/-! ## The look at the station that ends the attempt -/

section
variable {s v : State} {l : LineNo} {h : Handle} {after : Station}

/-- R43, R45, R95: contexts that neither settle nor wait for GUARD are as they were. -/
theorem State.ctx_settled {j : Nat} (hx : v.station h = some after) (hset : j ∉ after.settling)
    (hq : j ∉ (v.line l).quiescers) : ((v.settleClosing h).toGuard l).finish.ctx j = v.ctx j := by
  have hline := (State.sameButEnds_of_ends (v.ends_settleClosing h)).quiescers l
  rw [State.ctx_finish, State.ctx_toGuard (by rwa [hline]), State.ctx_settleClosing hx hset]

/-- R43, R45, R71: a CLOSING entry settles after an attempt without an exchange. -/
theorem State.closingSettles_settled (hx : v.station h = some after) (hs : after.state = .closing)
    (hctx : ∀ k, v.ctx k = s.ctx k) (hl : after.line = l) (hj : (v.line l).job = none) :
    s.ClosingSettles ((v.settleClosing h).toGuard l).finish h after none :=
  State.closingSettles_finish (v := v) (waiting := after.pending) (link := after.link) hx hs
    (fun hn => ⟨hn, fun k => by simp⟩) (fun k _ => hctx k) (by rw [hl]; exact Line.attempting_of_no_job hj h)
    (State.tells_toGuard _ l) (State.station_toGuard _ l h)

end

/-! ## POLLs -/

section
variable {s : State} {l : LineNo} {h : Handle} {pseq ap : Bool} {o : AttemptOutcome} {st after : Station}

/-- R72, R73: what a POLL does with its outcome touches no entry, no context, no attempt and no waiting record. -/
theorem State.pollActs_frame (s : State) (l : LineNo) (h : Handle) (pseq : Bool) (o : AttemptOutcome) (ap : Bool) :
    (s.pollActs l h pseq o ap).station h = s.station h ∧ (∀ k, (s.pollActs l h pseq o ap).ctx k = s.ctx k) ∧
      ((s.pollActs l h pseq o ap).line l).job = (s.line l).job ∧
      ((s.pollActs l h pseq o ap).line l).quiescers = (s.line l).quiescers := by
  have released : s.releaseReservation.station h = s.station h ∧ (∀ k, s.releaseReservation.ctx k = s.ctx k) ∧
      (s.releaseReservation.line l).job = (s.line l).job ∧
      (s.releaseReservation.line l).quiescers = (s.line l).quiescers := by
    obtain ⟨hstation, hctx, -⟩ := s.releaseReservation_frame l h
    refine ⟨hstation, hctx, ?_⟩
    rw [(((State.sameButWriters_iff _ _).1 s.writers_releaseReservation).2.2.1 l).2]
    exact ⟨rfl, rfl⟩
  cases o with
  | attention octets =>
    have hline : (s.pollActs l h pseq (.attention octets) ap).line l =
        { s.line l with rxBuffer := some (.attention octets) } := State.line_setLine_same ..
    rw [hline]
    exact ⟨rfl, fun _ => rfl, rfl, rfl⟩
  | _ => exact released

/-- The state in which a POLL has acted on its outcome. -/
def State.pollActed (s : State) (l : LineNo) (h : Handle) (pseq : Bool) (o : AttemptOutcome) (ap : Bool) (after : Station) :
    State := (s.outcomeApplied l h (.poll h pseq) o after).pollActs l h pseq o ap

/-- R72, R73: a POLL that leaves its station in use acts, then a CLOSING entry settles. -/
theorem State.outcomeEnds_poll (hw : ¬ (st.state ≠ .offline ∧ after.state = .offline)) :
    s.outcomeEnds l h (.poll h pseq) st after o ap = ((s.pollActed l h pseq o ap after).settleClosing h).toGuard l := by
  rw [State.outcomeEnds, State.jobActs, if_neg hw]
  rfl

theorem State.pollActed_frame : (s.pollActed l h pseq o ap after).station h = some after ∧
    (∀ k, (s.pollActed l h pseq o ap after).ctx k = s.ctx k) ∧
    ((s.pollActed l h pseq o ap after).line l).job = none ∧
    ((s.pollActed l h pseq o ap after).line l).quiescers = (s.line l).quiescers := by
  obtain ⟨hstation, hctx, hjob, hq⟩ :=
    (s.outcomeApplied l h (.poll h pseq) o after).pollActs_frame l h pseq o ap
  rw [State.line_outcomeApplied] at hjob hq
  exact ⟨hstation.trans State.station_outcomeApplied, hctx, hjob, hq⟩

/-- R71, R43, R45: any outcome of a POLL of a CLOSING station. -/
theorem State.closingSettles_poll (hs : after.state = .closing) (hl : after.line = l) :
    s.ClosingSettles (s.outcomeEnds l h (.poll h pseq) st after o ap).finish h after none := by
  obtain ⟨hx, hctx, hjob, -⟩ := State.pollActed_frame (s := s) (l := l) (h := h) (pseq := pseq) (o := o) (ap := ap)
    (after := after)
  rw [State.outcomeEnds_poll (by simp [hs])]
  exact State.closingSettles_settled hx hs hctx hl hjob

/-- R72: the answers that report nothing release the reservation. -/
theorem State.pollActed_released (ho : o = .idle ∨ o = .busy) : s.pollActed l h pseq o ap after =
    (s.outcomeApplied l h (.poll h pseq) o after).releaseReservation := by
  rcases ho with rfl | rfl <;> rfl

variable (hw : ¬ (st.state ≠ .offline ∧ after.state = .offline))
include hw

theorem State.ctx_poll {j : Nat} (hset : j ∉ after.settling) (hq : j ∉ (s.line l).quiescers) :
    (s.outcomeEnds l h (.poll h pseq) st after o ap).finish.ctx j = s.ctx j := by
  obtain ⟨hx, hctx, -, hline⟩ := State.pollActed_frame (s := s) (l := l) (h := h) (pseq := pseq) (o := o) (ap := ap)
    (after := after)
  rw [State.outcomeEnds_poll hw, State.ctx_settled hx hset (by rwa [hline]), hctx]

/-- R73: the report of an ATTENTION, in the place reserved for it. -/
theorem State.reports_attention (octets : List Byte) :
    let t := (s.outcomeEnds l h (.poll h pseq) st after (.attention octets) ap).finish
    let report : AttentionReport := { line := l, handle := h, pseq := pseq, ap := ap, octets := octets }
    t.reserved = s.reserved ∧ (report ∈ t.attentions ∨ ∃ w, t.eventWrite = some w ∧ w.attention = some (l, h) ∧
      w.octets = attentionOctets report s.event.phase) := by
  intro t report
  obtain ⟨hatt, hevent, -, hreserved⟩ := ((s.pollActed l h pseq (.attention octets) ap after).settleClosing h).toGuard_event l
  obtain ⟨hatt', hevent', -, hreserved'⟩ :=
    (State.ends_settleClosing (s.pollActed l h pseq (.attention octets) ap after) h).event_rest
  have hends : s.outcomeEnds l h (.poll h pseq) st after (.attention octets) ap =
      ((s.pollActed l h pseq (.attention octets) ap after).settleClosing h).toGuard l := State.outcomeEnds_poll hw
  have hin : report ∈ (s.outcomeEnds l h (.poll h pseq) st after (.attention octets) ap).attentions := by
    rw [hends, hatt, hatt']
    exact List.mem_append_right _ (List.mem_singleton_self _)
  have hphase : (s.outcomeEnds l h (.poll h pseq) st after (.attention octets) ap).event = s.event := by
    rw [hends, hevent, hevent']
    rfl
  have hcount : (s.outcomeEnds l h (.poll h pseq) st after (.attention octets) ap).reserved = s.reserved := by
    rw [hends, hreserved, hreserved']
    rfl
  obtain ⟨hkept, htaken⟩ := State.attention_finish hin
  rw [hphase] at htaken
  exact ⟨hkept.trans hcount, htaken⟩

/-- R63, R73: an ATTENTION is put in the receive buffer. -/
theorem State.sameButEnds_attention (octets : List Byte) (hs : (s.line l).state ≠ .idle) :
    ((s.setLine l { ({ (s.line l).outcomeFixed with rxBuffer := some (.attention octets) } : Line).enterGuard s.time with
        quiescers := [] }).setStation h (some after)).SameButEnds
      (s.outcomeEnds l h (.poll h pseq) st after (.attention octets) ap).finish := by
  rw [State.outcomeEnds_poll hw]
  have queued : ((s.outcomeApplied l h (.poll h pseq) (.attention octets) after).updLine l fun x =>
      { x with rxBuffer := some (.attention octets) }).SameButEnds (s.pollActed l h pseq (.attention octets) ap after) :=
    State.sameButEnds_of_writers (State.sameButWriters_plain rfl)
  exact State.sameButEnds_guarded (z := { (s.line l).outcomeFixed with rxBuffer := some (.attention octets) }) hs
    (((State.sameButEnds_outcomeApplied_updLine _).trans queued).trans
      (State.sameButEnds_of_ends (State.ends_settleClosing _ h)))

variable (ho : o = .idle ∨ o = .busy)
include ho

theorem State.sameButEnds_released (hs : (s.line l).state ≠ .idle) :
    ((s.setLine l { (s.line l).outcomeFixed.enterGuard s.time with quiescers := [] }).setStation h
      (some after)).SameButEnds (s.outcomeEnds l h (.poll h pseq) st after o ap).finish := by
  rw [State.outcomeEnds_poll hw, State.pollActed_released ho]
  exact State.sameButEnds_guarded (z := (s.line l).outcomeFixed) hs
    ((State.sameButEnds_outcomeApplied.trans (State.sameButEnds_of_writers (State.writers_releaseReservation _))).trans
      (State.sameButEnds_of_ends (State.ends_settleClosing _ h)))

/-- R72, R148: the place is given up, and a report may have taken one. -/
theorem State.reserved_released :
    (s.outcomeEnds l h (.poll h pseq) st after o ap).finish.reserved = s.reserved - 1 ∨
      (s.eventWrite = none ∧ (s.outcomeEnds l h (.poll h pseq) st after o ap).finish.eventWrite.isSome = true ∧
        (s.outcomeEnds l h (.poll h pseq) st after o ap).finish.reserved = s.reserved - 1 + 1) := by
  have counts : (s.outcomeEnds l h (.poll h pseq) st after o ap).reserved = s.reserved - 1 ∧
      (s.outcomeEnds l h (.poll h pseq) st after o ap).eventWrite = s.eventWrite := by
    obtain ⟨-, -, hwrite, hreserved⟩ := (State.ends_settleClosing (s.pollActed l h pseq o ap after) h).event_rest
    rw [State.outcomeEnds_poll hw, (State.toGuard_counts _ l).1, (State.toGuard_counts _ l).2, hwrite, hreserved,
      State.pollActed_released ho, (State.releaseReservation_counts _).1, (State.releaseReservation_counts _).2,
      State.outcomeApplied_counts.1, State.outcomeApplied_counts.2]
    exact ⟨rfl, rfl⟩
  have taken := State.mayTakePlace_finish (s.outcomeEnds l h (.poll h pseq) st after o ap)
  rwa [State.MayTakePlace, counts.1, counts.2] at taken

end

/-! ## Link service and probes -/

section
variable {s : State} {l : LineNo} {h : Handle} {ap : Bool} {st after : Station} {job : Job}
  (hw : ¬ (st.state ≠ .offline ∧ after.state = .offline)) (hj : job = .link h ∨ job = .probe h)
include hw hj

/-- R30, R31: after an ACK a CLOSING entry settles, and nothing else follows. -/
theorem State.outcomeEnds_acknowledged : s.outcomeEnds l h job st after .ack ap =
    ((s.outcomeApplied l h job .ack after).settleClosing h).toGuard l := by
  rcases hj with rfl | rfl
  · have hmiss : ¬ (after.state = .online ∧ AttemptOutcome.ack.isMiss = true) := fun hm => by cases hm.2
    rw [State.outcomeEnds, State.jobActs, if_neg hw, if_neg hmiss]
  · rfl

theorem State.sameButEnds_acknowledged (hs : (s.line l).state ≠ .idle) :
    ((s.setLine l { (s.line l).outcomeFixed.enterGuard s.time with quiescers := [] }).setStation h
      (some after)).SameButEnds (s.outcomeEnds l h job st after .ack ap).finish := by
  rw [State.outcomeEnds_acknowledged hw hj]
  exact State.sameButEnds_guarded (z := (s.line l).outcomeFixed) hs
    (State.sameButEnds_outcomeApplied.trans (State.sameButEnds_of_ends (State.ends_settleClosing _ h)))

theorem State.ctx_acknowledged {j : Nat} (hset : j ∉ after.settling) (hq : j ∉ (s.line l).quiescers) :
    (s.outcomeEnds l h job st after .ack ap).finish.ctx j = s.ctx j := by
  rw [State.outcomeEnds_acknowledged hw hj,
    State.ctx_settled State.station_outcomeApplied hset (by rw [State.line_outcomeApplied]; exact hq)]
  exact State.ctx_outcomeApplied fun id h' origin e => by rcases hj with rfl | rfl <;> cases e

theorem State.closingSettles_acknowledged (hs : after.state = .closing) (hl : after.line = l) :
    s.ClosingSettles (s.outcomeEnds l h job st after .ack ap).finish h after none := by
  rw [State.outcomeEnds_acknowledged hw hj]
  exact State.closingSettles_settled State.station_outcomeApplied hs
    (fun k => State.ctx_outcomeApplied fun id h' origin e => by rcases hj with rfl | rfl <;> cases e) hl
    (by rw [State.line_outcomeApplied]; rfl)

end

end Sys2Proof.Machine
end

section
/-! PROOFS. The answers of stations (O42): the entry, then the step of the last octet of an answer, by the kind of attempt. -/

namespace Sys2Proof.Machine

/-! ## The last octet of a good answer -/

/-- R3, R88: the last octet of a good answer, dated by the middle of its stop bit. -/
theorem exec_characterReceived_answered {s : State} {l : LineNo} {octet : Byte} {mark ap : Bool} {e : Nat} {job : Job}
    {addr : BitVec 7} {o : AttemptOutcome} (ho : s.Operates) (hs : (s.line l).state = .receive)
    (hc : (s.line l).condition = .clear) (hr : (s.line l).receiving = true) (he : (s.line l).spaceEdge = some e)
    (hg : e ≤ (s.line l).gapSince + 3 * (s.line l).char) (hj : (s.line l).job = some job)
    (hw : (s.line l).rxWrong = false) (haddr : s.jobAddress job = addr)
    (hjudge : judgeCharacter job.sentKind addr (s.line l).rxOctets octet mark false = .good o ap) :
    exec (.characterReceived l octet mark .good) s = .next (((s.reach (e + 21 * (s.line l).bit / 2)).setLine l
      ((s.line l).endCharacter e (e + 21 * (s.line l).bit / 2))).endAttempt l o ap).finish := by
  subst haddr
  have hd : (s.line l).notWithdrawn e .good = true := by
    rw [Line.notWithdrawn_iff]
    rintro ⟨hf, -⟩
    cases hf
  exact exec_characterReceived_ends ho hc hr he hs (((s.line l).withinGap_iff e).2 (.inr (.inr hg))) hd hj hw (.inl hjudge)

/-- R13: a good answer is judged by its control octet and its payload. -/
theorem judgeCharacter_good {sent : SentKind} {addr : BitVec 7} {before : List Byte} {octet : Byte} {mark ferr ap : Bool}
    {o : AttemptOutcome} (h : judgeCharacter sent addr before octet mark ferr = .good o ap) :
    ∃ control payload, o = judgeGoodFrame sent control payload := by
  unfold judgeCharacter at h
  simp only at h
  repeat' split at h
  all_goals cases h
  exact ⟨_, _, rfl⟩

/-- R7, R13: what a COMMAND may be answered with. -/
theorem judgeGoodFrame_command (control : Byte) (payload : List Byte) :
    judgeGoodFrame .command control payload = .unexpected ∨ judgeGoodFrame .command control payload = .ack ∨
      (∃ octets, judgeGoodFrame .command control payload = .reply octets) ∨
      judgeGoodFrame .command control payload = .busy ∨
      ∃ cls reason, judgeGoodFrame .command control payload = .nak cls reason := by
  unfold judgeGoodFrame
  split
  · exact .inl rfl
  · unfold decodeAnswer
    repeat' split
    all_goals simp_all

/-! ## A COMMAND's answer to a CLOSING station -/

section
variable {s : State} {l : LineNo} {h : Handle} {id : Nat} {origin : Phase} {st after : Station} {o : AttemptOutcome}
  {ap : Bool} {c : Context} {pa : Word} {len : Nat} {base : Word} {cap : Nat}

/-- R71, R43, R45: whatever the answer, where no reply is being written the exchange of a CLOSING station ends and the entry
settles. -/
theorem State.closingSettles_answer (hc : s.ctx id = some c) (hp : c.phase ≠ .ending)
    (hb : c.body = .exchange h pa len base cap) (hs : after.state = .closing) (hl : after.line = l)
    (ho : o = .unexpected ∨ o = .ack ∨ (∃ octets, o = .reply octets) ∨ o = .busy ∨ ∃ cls reason, o = .nak cls reason)
    (hempty : ∀ octets, o = .reply octets → min octets.length cap = 0) :
    s.ClosingSettles (s.outcomeEnds l h (.command id h origin) st after o ap).finish h after (some id) := by
  have hw : ¬ (st.state ≠ .offline ∧ after.state = .offline) := by simp [hs]
  have hh := Context.exchangeHandle_of_body hb
  rcases ho with rfl | rfl | ⟨octets, rfl⟩ | rfl | ⟨cls, reason, rfl⟩
  · rw [State.outcomeEnds, State.outcomeApplied_miss rfl]
    exact State.closingSettles_command hw rfl rfl hc hp hh hs hl
  · exact (State.concludes_ack hw hc hp hh).settles hs hl
  · exact (State.concludes_empty hw hc hp hb (hempty octets rfl)).settles hs hl
  · exact (State.concludes_busy hw hc hp hh (.inr (.inr hs)) rfl).settles hs hl
  · by_cases hcls : cls = .check
    · subst hcls
      exact (State.concludes_check hw hc hp hh (.inr (.inl hs)) rfl).settles hs hl
    · exact (State.concludes_nak hw hc hp hh hcls).settles hs hl

end

end Sys2Proof.Machine

open Sys2Proof Sys2Proof.Machine

/-- Settles O42: `Station.applyOutcome` of an answer, then `State.outcomeEnds` for each kind of attempt. -/
theorem ackCompletesExchange : Obligations.AckCompletesExchange := by
  refine ⟨?_, ?_⟩
  · intro st table hysteresis now id h origin pseq turnaround ap applied b final polling holding linked
    have answered : ∀ {job o z}, o.isAnswer = true → st.state ≠ .closing → b.afterJob job o now = z →
        z.state = .online ∨ z.state = .hold → applied job o = final z := Station.applyOutcome_answer
    have closing : ∀ {job o}, st.state = .closing → applied job o = st.afterClosing job o := Station.applyOutcome_closing
    have hstate : b.state = st.state := Station.state_updateBand ..
    obtain ⟨band, hb⟩ : ∃ band, b = { st with band := band } := Station.updateBand_eq ..
    clear_value b
    subst hb
    refine ⟨fun hs => ?_, fun hs => ?_, fun hs => ?_, fun hs => ?_⟩
    · have hopen : st.state ≠ .closing := by simp [hs]
      have hb : ({ st with band := band } : Station).state = .online := hs
      refine ⟨?_, fun octets => ?_, ?_, fun reason => ?_, fun cls reason hc => ?_, fun octets => ?_, ?_, ?_, ?_⟩
      · exact answered rfl hopen (Station.afterJob_command hb _) (.inl hs)
      · exact answered rfl hopen (Station.afterJob_command hb _) (.inl hs)
      · exact answered rfl hopen (Station.afterJob_command hb _) (.inr rfl)
      · exact answered rfl hopen (Station.afterJob_command hb _) (.inl hs)
      · exact answered rfl hopen ((Station.afterJob_command hb _).trans (Station.afterCommand_nak hc reason)) (.inl hs)
      · exact answered rfl hopen ((Station.afterJob_poll hb _).trans (Station.afterPoll_attention hb octets)) (.inl hs)
      · exact answered rfl hopen ((Station.afterJob_poll hb _).trans (Station.afterPoll_idle hb)) (.inl hs)
      · exact answered rfl hopen ((Station.afterJob_poll hb _).trans Station.afterPoll_busy) (.inr rfl)
      · exact answered rfl hopen ((Station.afterJob_link (.inr hb) _).trans (Station.afterLink_online hb)) (.inl hs)
    · have hb : ({ st with band := band } : Station).state = .new := hs
      exact answered rfl (by simp [hs]) ((Station.afterJob_link (.inl hb) _).trans (Station.afterLink_new hb)) (.inl rfl)
    · have hb : ({ st with band := band } : Station).state = .offline := hs
      exact answered rfl (by simp [hs]) ((Station.afterJob_probe hb _).trans Station.afterProbe_ack) (.inl rfl)
    · refine ⟨closing hs, fun _ => closing hs, closing hs, fun _ => closing hs,
        fun cls reason hc => (closing hs).trans (Station.afterClosing_nak hc reason), fun _ => closing hs,
        ⟨closing hs, closing hs⟩, ?_⟩
      rintro job (rfl | rfl) <;> exact closing hs
  · intro s l octet mark ap o job h st e hop hs hclear hrec he hg hj hwrong hh hst hjudge x now u after y frame released
      untouched settles
    have hexec := exec_characterReceived_answered hop hs hclear hrec he hg hj hwrong (State.jobAddress_eq hh hst) hjudge
    obtain ⟨v, hexec, hline, hset, hctx, hsettles, hentry, hcount, hevent, hwrite⟩ : ∃ v : State,
        exec (.characterReceived l octet mark .good) s = .next (v.endAttempt l o ap).finish ∧
          v.line l = x.endCharacter e now ∧ (∀ z, v.setLine l z = u.setLine l z) ∧ (∀ k, v.ctx k = s.ctx k) ∧
          (∀ t own, v.ClosingSettles t h after own → s.ClosingSettles t h after own) ∧
          (v.station h = some st ∧ v.time = u.time) ∧ v.reserved = s.reserved ∧ v.event = s.event ∧
          v.eventWrite = s.eventWrite :=
      ⟨u.setLine l (x.endCharacter e now), hexec, State.line_setLine_same _ _ _, fun z => State.setLine_setLine ..,
        fun _ => rfl, fun _ _ => id, ⟨hst, rfl⟩, rfl, rfl, rfl⟩
    have hends : v.endAttempt l o ap = v.outcomeEnds l h job st after o ap := by
      rw [State.endAttempt_outcome (s := v) o (by rw [hline]; exact hj) hh hentry.1, hline, hentry.2]
      rfl
    rw [hends] at hexec
    have hbusy : (v.line l).state ≠ .idle := by
      rw [hline, (x.endCharacter_keeps e now).1, hs]
      simp
    have hq : (v.line l).quiescers = x.quiescers := by rw [hline]; rfl
    have framed : ∀ {z t}, ((v.setLine l z).setStation h (some after)).SameButEnds t → frame z t := fun {z t} a => by
      rwa [hset] at a
    have answered : o.isAnswer = true → st.Answered after := Station.answered_applyOutcome
    have hclosing : st.state = .closing → after.state = .closing ∧ after.line = st.line := fun hs => by
      have kept := st.answered_afterClosing job o
      rw [show after = st.afterClosing job o from Station.applyOutcome_closing hs]
      exact ⟨kept.closing_iff.2 hs, kept.line⟩
    have acknowledged : job = .link h ∨ job = .probe h → o = .ack → ∃ t,
        exec (.characterReceived l octet mark .good) s = .next t ∧ frame y t ∧ untouched t ∧ settles t none := by
      intro hkind ho
      subst ho
      have ans := answered rfl
      have hw := ans.not_wentOffline
      have frames := framed (State.sameButEnds_acknowledged (ap := ap) hw hkind hbusy)
      rw [hline, hentry.2] at frames
      refine ⟨_, hexec, frames, fun j f hj hs' hf => ?_, fun hs hl => ?_⟩
      · rw [State.ctx_acknowledged hw hkind (by rwa [ans.settling]) (by rwa [hq]), hctx, hf]
      · obtain ⟨hstate, hafter⟩ := hclosing hs
        exact hsettles _ _ (State.closingSettles_acknowledged hw hkind hstate (hafter.trans hl))
    refine ⟨fun id origin c pa len base cap hjob hmade hc hp hb => ?_, fun pseq hjob hmade => ?_, fun hjob hmade ho => ?_,
      fun hjob hmade ho => ?_⟩
    · subst hjob
      have hc' : v.ctx id = some c := (hctx id).trans hc
      have hh' := Context.exchangeHandle_of_body hb
      have hopen : ∀ hs : st.state = .online, o.isAnswer = true → after.state ≠ .closing := fun hs ho =>
        mt (answered ho).closing_iff.1 (by simp [hs])
      have plain : ∀ hw : ¬ (st.state ≠ .offline ∧ after.state = .offline), (∀ octets, o ≠ .reply octets) →
          frame y (v.outcomeEnds l h (.command id h origin) st after o ap).finish := fun hw ho => by
        have frames := framed (State.sameButEnds_command (origin := origin) (ap := ap) hw hc' hp ho hbusy)
        rwa [hline, hentry.2] at frames
      have aborts : ∀ {a d t status detail st'}, c.abortRequested = some a → s.ctx a = some d → d.Live → a ≠ id →
          a ∉ st.settling → o.isAnswer = true → (¬ (st.state ≠ .offline ∧ after.state = .offline) →
            v.Concludes t l h id after c.abortRequested status detail st') → t.Reports a st' .none :=
        fun ha hd hlive hne hset' ho con => (con (answered ho).not_wentOffline).aborts _ _ ha ((hctx _).trans hd) hlive hne
          (by rwa [(answered ho).settling])
      refine ⟨_, hexec, fun ho => ?_, fun octets ho => ?_, fun ho => ?_, fun cls reason ho hcls => ?_, fun reason ho => ?_,
        fun hempty hs hl => ?_, fun a d ha hd hlive hne hset' => ⟨fun ho => ?_, fun ho => ?_⟩⟩
      · subst ho
        have ans := answered rfl
        have hw := ans.not_wentOffline
        refine ⟨plain hw (by simp), (State.concludes_ack hw hc' hp hh').reports, fun hs st' hst' => ?_⟩
        obtain ⟨hlink, hpending⟩ := State.station_command_ack hw hc' hp hh' (hopen hs rfl) hst'
        exact ⟨hlink.trans (Station.link_applyOutcome_ack hs ap), by rw [hpending, ans.pending]⟩
      · subst ho
        have hw := (answered rfl).not_wentOffline
        refine ⟨fun hn => ⟨?_, fun hid => ?_⟩, fun hn => ⟨?_, ?_⟩⟩
        · have frames := framed (State.sameButEnds_reply (origin := origin) (ap := ap) hw hc' hp hb hn hbusy)
          rwa [hline, hentry.2] at frames
        · rw [State.ctx_reply hw hc' hp hb hn (by rwa [hq]), hline]
          rfl
        · have frames := framed (State.sameButEnds_empty (origin := origin) (ap := ap) hw hc' hp hb hn hbusy)
          rw [hline, hentry.2, Line.emptyReply_eq (by rw [← hline]; exact hbusy)] at frames
          by_cases hband : x.setLine.isSome = true ∧ x.bandReading = false
          · rw [if_pos hband]
            rwa [if_pos (by exact hband)] at frames
          · rw [if_neg hband]
            rwa [if_neg (by exact hband)] at frames
        · exact (State.concludes_empty hw hc' hp hb hn).reply
      · subst ho
        have ans := answered rfl
        have hw := ans.not_wentOffline
        rw [← ans.busyLimit]
        refine ⟨plain hw (by simp), fun ha => ?_, fun ha hlimit => ?_, fun ha hlimit => ⟨fun hs => ?_, fun hs hid => ?_⟩⟩
        · exact (State.concludes_busy hw hc' hp hh' (.inl (Option.isSome_iff_ne_none.1 ha)) (if_pos ha)).reports
        · exact (State.concludes_busy hw hc' hp hh' (.inr (.inl hlimit)) (by simp [ha, hlimit])).reports
        · exact (State.concludes_busy hw hc' hp hh' (.inr (.inr (hclosing hs).1)) (by simp only [ha, if_neg hlimit]; rfl)).reports
        · rw [State.ctx_command_held hw hc' hp ha hlimit (hopen hs rfl) (by rwa [hq]), hline]
          rfl
      · subst ho
        have hw := (answered rfl).not_wentOffline
        exact ⟨plain hw (by simp), (State.concludes_nak hw hc' hp hh' hcls).reports⟩
      · subst ho
        have ans := answered rfl
        have hw := ans.not_wentOffline
        rw [← ans.retryLimit]
        refine ⟨plain hw (by simp), fun ha => ?_, fun ha hlimit => ?_, fun ha hlimit => ⟨fun hs => ?_, fun hs hid => ?_⟩⟩
        · exact (State.concludes_check hw hc' hp hh' (.inl (Option.isSome_iff_ne_none.1 ha)) (if_pos ha)).reports
        · exact (State.concludes_check hw hc' hp hh' (.inr (.inr hlimit))
            (by simp [Context.failedStatus, ha, hlimit])).reports
        · exact (State.concludes_check hw hc' hp hh' (.inr (.inl (hclosing hs).1))
            (by simp [Context.failedStatus, ha, hlimit])).reports
        · have retried := State.check_retry (h := h) (origin := origin) (st := st) (ap := ap) (reason := reason) hw hc' hp ha
            hlimit (hopen hs rfl) (by rwa [hq])
          rwa [hline] at retried
      · obtain ⟨hstate, hafter⟩ := hclosing hs
        obtain ⟨control, payload, ho⟩ := judgeCharacter_good hjudge
        refine hsettles _ _ (State.closingSettles_answer hc' hp hb hstate (hafter.trans hl) ?_ hempty)
        rw [ho]
        exact judgeGoodFrame_command control payload
      · rcases ho with rfl | ⟨reason, rfl⟩
        · exact aborts ha hd hlive hne hset' rfl fun hw =>
            State.concludes_busy hw hc' hp hh' (.inl (by simp [ha])) rfl
        · exact aborts ha hd hlive hne hset' rfl fun hw =>
            State.concludes_check hw hc' hp hh' (.inl (by simp [ha])) rfl
      · rcases ho with rfl | ⟨octets, rfl, hn⟩ | ⟨cls, reason, rfl, hcls⟩
        · exact aborts ha hd hlive hne hset' rfl fun hw => State.concludes_ack hw hc' hp hh'
        · exact aborts ha hd hlive hne hset' rfl fun hw => State.concludes_empty hw hc' hp hb hn
        · exact aborts ha hd hlive hne hset' rfl fun hw => State.concludes_nak hw hc' hp hh' hcls
    · subst hjob
      refine ⟨_, hexec, fun hs hl => ?_, fun octets ho => ?_, fun ho => ?_⟩
      · obtain ⟨hstate, hafter⟩ := hclosing hs
        exact hsettles _ _ (State.closingSettles_poll hstate (hafter.trans hl))
      · subst ho
        have ans := answered rfl
        have hw := ans.not_wentOffline
        have frames := framed (State.sameButEnds_attention (pseq := pseq) (ap := ap) hw octets hbusy)
        obtain ⟨hreserved, hreport⟩ := State.reports_attention (s := v) (l := l) (h := h) (pseq := pseq) (ap := ap) hw octets
        rw [hline, hentry.2] at frames
        rw [hevent] at hreport
        exact ⟨frames, hreserved.trans hcount, fun j f hj hs' hf => by
          rw [State.ctx_poll hw (by rwa [ans.settling]) (by rwa [hq]), hctx, hf], hreport⟩
      · have ans := answered (by rcases ho with rfl | rfl <;> rfl)
        have hw := ans.not_wentOffline
        have frames := framed (State.sameButEnds_released (pseq := pseq) (ap := ap) hw ho hbusy)
        have release := State.reserved_released (s := v) (l := l) (h := h) (pseq := pseq) (ap := ap) hw ho
        rw [hline, hentry.2] at frames
        rw [hcount, hwrite] at release
        exact ⟨frames, release, fun j f hj hs' hf => by
          rw [State.ctx_poll hw (by rwa [ans.settling]) (by rwa [hq]), hctx, hf]⟩
    · exact acknowledged (.inl hjob) ho
    · exact acknowledged (.inr hjob) ho
end

section
/-! PROOFS. Band table, hysteresis and bit rate of the lines, and the lines that are DISABLED (R47, R97): what each shared
operation leaves of them. An operation of the engine may take its own line out of DISABLED and no other; that it is not given
to a DISABLED line is said of the commands. -/

namespace Sys2Proof.Machine

/-! ## The relation and the single updates -/

/-- What an installation gives to a line (R49): its band table, its hysteresis and its bit rate. -/
def Line.installed (x : Line) : Option BandTable × Nat × Option (Fin 8) := (x.bandTable, x.hysteresis, x.rate)

/-- What is installed on a line stays, and so does DISABLED. -/
structure Line.KeepsTable (x y : Line) : Prop where
  installed : y.installed = x.installed
  disabled : x.state = .disabled → y.state = .disabled

/-- Neither what is installed nor the engine state changes. -/
theorem Line.KeepsTable.plain {x y : Line} (hi : y.installed = x.installed) (hs : y.state = x.state) : x.KeepsTable y :=
  ⟨hi, hs.trans⟩

theorem Line.KeepsTable.trans {x y z : Line} (a : x.KeepsTable y) (b : y.KeepsTable z) : x.KeepsTable z :=
  ⟨b.installed.trans a.installed, b.disabled ∘ a.disabled⟩

/-- What is installed on every line stays, and every line but those that may move stays in DISABLED. -/
structure State.KeepsTables (moved : Set LineNo) (s t : State) : Prop where
  installed : ∀ l, (t.line l).installed = (s.line l).installed
  disabled : ∀ l, l ∉ moved → (s.line l).state = .disabled → (t.line l).state = .disabled

section
variable {moved : Set LineNo} {s t u : State} {l : LineNo}

theorem State.KeepsTables.refl (s : State) : s.KeepsTables moved s := ⟨fun _ => rfl, fun _ _ => id⟩

theorem State.KeepsTables.trans (a : s.KeepsTables moved t) (b : t.KeepsTables moved u) : s.KeepsTables moved u :=
  ⟨fun l => (b.installed l).trans (a.installed l), fun l hl h => b.disabled l hl (a.disabled l hl h)⟩

/-- Composition that starts from the last operation. -/
theorem State.KeepsTables.after (b : t.KeepsTables moved u) (a : s.KeepsTables moved t) : s.KeepsTables moved u :=
  a.trans b

theorem State.KeepsTables.foldl {α : Type} (f : State → α → State) (hf : ∀ (s : State) a, s.KeepsTables moved (f s a))
    (as : List α) (s : State) : s.KeepsTables moved (as.foldl f s) := by
  induction as generalizing s with
  | nil => exact .refl s
  | cons a rest ih => exact (hf s a).trans (ih _)

theorem State.KeepsTables.of_lines (h : ∀ l, (s.line l).KeepsTable (t.line l)) : s.KeepsTables moved t :=
  ⟨fun l => (h l).installed, fun l _ => (h l).disabled⟩

/-- The lines are the same. -/
theorem State.KeepsTables.same (h : t.lines = s.lines) : s.KeepsTables moved t :=
  .of_lines fun l => by
    rw [State.line, State.line, h]
    exact .plain rfl rfl

/-- An operation that may move a line which is not DISABLED takes no line out of DISABLED. -/
theorem State.KeepsTables.of_enabled (k : s.KeepsTables {l} t) (h : (s.line l).state ≠ .disabled) :
    s.KeepsTables ∅ t := by
  refine ⟨k.installed, fun j _ hj => k.disabled j (fun e => ?_) hj⟩
  obtain rfl : j = l := e
  exact h hj

theorem State.Ends.keepsTables (e : s.Ends t) : s.KeepsTables moved t :=
  .of_lines fun l => by
    rw [(e.lines l).2]
    exact .plain rfl rfl

theorem State.SameButWriters.keepsTables (w : s.SameButWriters t) : s.KeepsTables moved t := by
  obtain ⟨-, -, hlines, -⟩ := (s.sameButWriters_iff t).1 w
  refine .of_lines fun l => ?_
  rw [(hlines l).2]
  exact .plain rfl rfl

end

section
variable {moved : Set LineNo} (s : State) (l : LineNo)

theorem State.keepsTables_updLine (f : Line → Line) (hf : ∀ x : Line, x.KeepsTable (f x)) :
    s.KeepsTables moved (s.updLine l f) := by
  refine .of_lines fun k => ?_
  rw [State.updLine_eq, State.line_setLine]
  split
  · next e =>
    subst e
    exact hf _
  · exact .plain rfl rfl

/-- A line that may move enters any state of the engine. -/
theorem State.keepsTables_moveLine (f : Line → Line) (hf : ∀ x : Line, (f x).installed = x.installed) :
    s.KeepsTables {l} (s.updLine l f) := by
  refine ⟨fun k => ?_, fun k hk hs => ?_⟩
  · rw [State.updLine_eq, State.line_setLine]
    split
    · next e =>
      subst e
      exact hf _
    · rfl
  · rwa [State.updLine_eq, State.line_setLine_ne _ hk]

theorem State.keepsTables_reach (t : Nat) : s.KeepsTables moved (s.reach t) := .same rfl

/-- A change of a line that leaves what is installed and its engine, dated by a moment. -/
theorem State.keepsTables_reachLine (t : Nat) (f : Line → Line) (hf : ∀ x : Line, x.KeepsTable (f x)) :
    s.KeepsTables moved ((s.reach t).updLine l f) := (s.keepsTables_reach t).trans (State.keepsTables_updLine _ l f hf)

theorem Line.keepsTable_noticed (x : Line) : x.KeepsTable x.noticed := by
  rw [Line.noticed_eq]
  exact .plain rfl rfl

theorem State.keepsTables_setStation (h : Handle) (x : Option Station) : s.KeepsTables moved (s.setStation h x) :=
  .same rfl

theorem State.keepsTables_finish : s.KeepsTables moved s.finish := s.writers_finish.keepsTables

theorem State.keepsTables_endOk (id : Nat) : s.KeepsTables moved (s.endOk id) := (s.ends_endOk id).keepsTables

theorem State.keepsTables_notify : s.KeepsTables moved (s.notify l) := (s.ends_notify l).keepsTables

/-! ## Outcomes of attempts (sections 4.4, 4.5) -/

theorem Line.keepsTable_replyDelivered (x : Line) : x.KeepsTable x.replyDelivered := by
  refine x.keepsTable_noticed.trans ?_
  unfold Line.replyDelivered Line.releaseBuffer
  simp only
  split <;> exact .plain rfl rfl

theorem State.keepsTables_replyWritten (id : Nat) (octets : List Byte) (r : BusWrite) :
    s.KeepsTables moved (s.replyWritten l id octets r) := by
  have delivered : ∀ u : State, u.KeepsTables moved (u.updLine l Line.replyDelivered) := fun u =>
    u.keepsTables_updLine l _ Line.keepsTable_replyDelivered
  unfold State.replyWritten
  split
  · exact delivered s
  · exact State.KeepsTables.after ((State.ends_endExchange ..).trans (State.ends_endAbort ..)).keepsTables
      (State.KeepsTables.after (delivered _) (.same rfl))

theorem State.keepsTables_exchangeActs (c : Context) (st : Station) (o : AttemptOutcome) :
    s.KeepsTables moved (s.exchangeActs l c st o) := by
  have refused : ∀ reason, s.KeepsTables moved
      ((s.endExchange c.id .refused (.reason reason) 0).endAbort c.abortRequested .tooLate) := fun reason =>
    ((s.ends_endExchange ..).trans (State.ends_endAbort ..)).keepsTables
  have failed : s.KeepsTables moved (s.exchangeFailed l c st) := (s.ends_exchangeFailed l c st).keepsTables
  cases o with
  | ack => exact ((s.ends_endWith ..).trans (State.ends_endAbort ..)).keepsTables
  | reply octets =>
    have filled : s.KeepsTables moved (s.updLine l fun x => { x with rxBuffer := some (.reply c.id octets) }) :=
      s.keepsTables_updLine l _ fun _ => .plain rfl rfl
    simp only [State.exchangeActs, State.beginReply]
    split
    · exact filled.trans (State.keepsTables_replyWritten ..)
    · exact filled
  | busy => exact (s.ends_exchangeBusy c st).keepsTables
  | nak cls reason =>
    cases cls with
    | check => exact failed
    | refused => exact refused reason
    | unsupported => exact refused reason
  | attention octets => exact .refl s
  | idle => exact .refl s
  | noAnswer => exact failed
  | garbled => exact failed
  | wrongStation => exact failed
  | unexpected => exact failed
  | lineBreak =>
    simp only [State.exchangeActs]
    split
    · exact ((s.ends_endWith ..).trans (State.ends_endAbort ..)).keepsTables
    · exact (s.ends_endWith ..).keepsTables

theorem State.keepsTables_pollActs (h : Handle) (p : Bool) (o : AttemptOutcome) (ap : Bool) :
    s.KeepsTables moved (s.pollActs l h p o ap) := by
  unfold State.pollActs
  split
  · next octets =>
    exact State.KeepsTables.trans (s.keepsTables_updLine l (fun x => { x with rxBuffer := some (.attention octets) })
      fun _ => .plain rfl rfl) (.same rfl)
  · exact s.writers_releaseReservation.keepsTables

theorem State.keepsTables_jobActs (h : Handle) (job : Job) (st after : Station) (o : AttemptOutcome) (ap : Bool) :
    s.KeepsTables moved (s.jobActs l h job st after o ap) := by
  have drained : s.KeepsTables moved (s.drainOffline h job) := (s.ends_drainOffline h job).keepsTables
  have settled : ∀ u : State, u.KeepsTables moved (u.settleClosing h) := fun u => (u.ends_settleClosing h).keepsTables
  cases job with
  | command id h' origin =>
    simp only [State.jobActs]
    split
    · exact drained
    · split
      · exact s.keepsTables_exchangeActs ..
      · exact .refl s
  | broadcast id => exact .refl s
  | poll h' p =>
    simp only [State.jobActs]
    refine State.KeepsTables.after (settled _) (State.KeepsTables.after (State.keepsTables_pollActs ..) ?_)
    split
    · exact drained
    · exact .refl s
  | link h' =>
    simp only [State.jobActs]
    split
    · exact drained
    · split
      · exact (s.ends_linkLoop ..).keepsTables
      · exact settled s
  | probe h' => exact settled s

theorem State.keepsTables_deliver (job : Job) (o : AttemptOutcome) (ap : Bool) :
    s.KeepsTables moved (s.deliver l job o ap) := by
  have taken : ∀ n, s.KeepsTables moved
      ((s.updLine l fun x => { x with job := none, turnaround := none, replyTimer := none }).noteContext job o n) :=
    fun n => State.KeepsTables.after (State.ends_noteContext ..).keepsTables (s.keepsTables_updLine l _ fun _ => .plain rfl rfl)
  unfold State.deliver
  simp only
  split
  · exact taken _
  · split
    · exact taken _
    · exact State.KeepsTables.after (State.keepsTables_jobActs ..) ((taken _).trans (State.keepsTables_setStation ..))

/-! ## The engine (chapters 5, 6) -/

theorem State.keepsTables_endQuiescers : s.KeepsTables moved (s.endQuiescers l) :=
  (State.KeepsTables.foldl _ (fun s id => (s.ends_endRecord id .ok .none).keepsTables) _ _).trans
    (State.keepsTables_updLine _ l _ fun _ => .plain rfl rfl)

theorem State.keepsTables_breakReaches : s.KeepsTables moved (s.breakReaches l) :=
  State.KeepsTables.after (State.ends_endRetries _ l).keepsTables (.same rfl)

theorem State.keepsTables_abandonRead : s.KeepsTables moved (s.abandonRead l) := by
  have abandoned : s.KeepsTables moved (s.updLine l fun x => { x with job := none, abandoned := true, txHolds := none }) :=
    s.keepsTables_updLine l _ fun _ => .plain rfl rfl
  have aborted : ∀ (u : State) id a, u.KeepsTables moved ((u.endWith id .aborted).endAbort (some a) .ok) :=
    fun u id a => ((u.ends_endWith ..).trans (State.ends_endAbort ..)).keepsTables
  unfold State.abandonRead
  split
  · exact .refl s
  · simp only
    split
    · split
      · exact abandoned.trans (aborted ..)
      · exact abandoned.trans (State.ends_returnToWait ..).keepsTables
    · split
      · exact abandoned.trans (aborted ..)
      · exact abandoned.trans (State.ends_updCtx ..).keepsTables
    all_goals exact abandoned

theorem State.keepsTables_fillBuffer (job : Job) (octets : List Byte) : s.KeepsTables moved (s.fillBuffer l job octets) :=
  s.keepsTables_updLine l _ fun _ => .plain rfl rfl

end

/-! ## Moves of the line's engine -/

section
variable (s : State) (l : LineNo)

theorem State.keepsTables_toGuard : s.KeepsTables {l} (s.toGuard l) :=
  State.KeepsTables.after (State.keepsTables_endQuiescers _ l) (s.keepsTables_moveLine l _ fun _ => rfl)

theorem State.keepsTables_endAttempt (o : AttemptOutcome) (ap : Bool) : s.KeepsTables {l} (s.endAttempt l o ap) := by
  unfold State.endAttempt
  split
  · exact s.keepsTables_toGuard l
  · exact (s.keepsTables_deliver ..).trans (State.keepsTables_toGuard _ l)

/-- R94: a break drives the line at the rate in force. -/
theorem State.keepsTables_enterBreakOut (records : List Nat) (now : Nat) :
    s.KeepsTables {l} (s.enterBreakOut l records now) :=
  State.KeepsTables.after (State.keepsTables_breakReaches _ l) (s.keepsTables_moveLine l _ fun _ => rfl)

theorem State.keepsTables_beginTransmit (job : Job) : s.KeepsTables {l} (s.beginTransmit l job) :=
  (s.ends_beginAttempt job).keepsTables.trans (State.keepsTables_moveLine _ l _ fun _ => rfl)

theorem State.keepsTables_rest : s.KeepsTables {l} (s.updLine l Line.rest) := s.keepsTables_moveLine l _ fun _ => rfl

theorem State.keepsTables_leaveRead : s.KeepsTables {l} (s.leaveRead l) := by
  have left : s.KeepsTables {l} (s.updLine l fun x => { x with job := none, abandoned := false }) :=
    s.keepsTables_updLine l _ fun _ => .plain rfl rfl
  unfold State.leaveRead
  simp only
  split
  · exact left.trans (State.keepsTables_enterBreakOut _ l ..)
  · exact (left.trans (State.keepsTables_rest _ l)).trans (State.keepsTables_endQuiescers _ l)

theorem State.keepsTables_readGood (job : Job) : s.KeepsTables {l} (s.readGood l job) := by
  have left : ∀ u : State, s.Ends u → s.KeepsTables {l} (u.leaveRead l) := fun u e =>
    e.keepsTables.trans (u.keepsTables_leaveRead l)
  cases job with
  | command id h' origin =>
    simp only [State.readGood]
    split
    · exact left _ ((s.ends_endWith ..).trans (State.ends_endAbort ..))
    · split
      · exact left _ (.refl s)
      · split
        · exact left _ (s.ends_endWith ..)
        · split
          · exact left _ (s.ends_returnToWait ..)
          · exact s.keepsTables_beginTransmit l _
  | broadcast id =>
    simp only [State.readGood]
    split
    · exact left _ ((s.ends_endWith ..).trans (State.ends_endAbort ..))
    · exact s.keepsTables_beginTransmit l _
  | poll h' p => exact left _ (.refl s)
  | link h' => exact left _ (.refl s)
  | probe h' => exact left _ (.refl s)

theorem State.keepsTables_readFailed (id : Nat) : s.KeepsTables {l} (s.readFailed l id) := by
  have failed : s.KeepsTables {l} ((s.updLine l fun x => { x with txHolds := none }).updCtx id
      fun c => { c with lastFailure := some .payloadRead }) :=
    State.KeepsTables.after (State.ends_updCtx ..).keepsTables (s.keepsTables_updLine l _ fun _ => .plain rfl rfl)
  unfold State.readFailed
  refine State.KeepsTables.after (State.keepsTables_leaveRead _ l) (failed.trans ?_)
  split
  · exact ((State.ends_endWith ..).trans (State.ends_endAbort ..)).keepsTables
  · exact (State.ends_endWith ..).keepsTables

theorem State.keepsTables_startWork (job : Job) (id : Nat) : s.KeepsTables {l} (s.startWork l job id) := by
  have begun : s.KeepsTables {l} ((s.updLine l
      fun x => { x with state := .preparing, job := some job, abandoned := false, txHolds := none }).updCtx id
      fun c => { c with phase := .preparing }) :=
    State.KeepsTables.after (State.ends_updCtx ..).keepsTables (s.keepsTables_moveLine l _ fun _ => rfl)
  unfold State.startWork State.beginRead
  simp only
  split
  · exact s.keepsTables_beginTransmit l job
  · split
    · exact (begun.trans (State.keepsTables_fillBuffer ..)).trans (State.keepsTables_readGood _ l job)
    · exact begun

/-! ## The scheduler's choice -/

theorem State.keepsTables_act (choice : Choice) : s.KeepsTables {l} (s.act l choice) := by
  cases choice with
  | reset => exact s.keepsTables_enterBreakOut l ..
  | retry id =>
    simp only [State.act]
    split
    · exact State.KeepsTables.after (State.keepsTables_startWork _ l ..) (s.keepsTables_updLine l _ fun _ => .plain rfl rfl)
    · exact .refl s
  | link h' =>
    exact State.KeepsTables.after (State.keepsTables_beginTransmit _ l _) (s.keepsTables_updLine l _ fun _ => .plain rfl rfl)
  | work k i =>
    have pointed : s.KeepsTables {l} (s.updLine l fun x => x.movePtr k ⟨i % 65, Nat.mod_lt _ (by decide)⟩) :=
      s.keepsTables_updLine l _ fun x => by cases k <;> exact .plain rfl rfl
    simp only [State.act]
    refine pointed.trans ?_
    split
    · unfold State.startHead
      split
      · exact State.keepsTables_startWork _ l ..
      · exact .refl _
    · unfold State.startBroadcast
      split
      · exact State.keepsTables_startWork _ l ..
      · exact .refl _
  | poll h' =>
    simp only [State.act, State.startPoll]
    split
    · exact State.KeepsTables.after (State.keepsTables_beginTransmit _ l _) (.same rfl)
    · exact .refl s
  | probe h' => exact s.keepsTables_beginTransmit l _
  | nothing => exact .refl s

theorem State.keepsTables_consult : s.KeepsTables {l} (s.consult l) := by
  have consulted : s.KeepsTables {l} (s.updLine l Line.consulted) := s.keepsTables_updLine l _ fun _ => .plain rfl rfl
  refine State.KeepsTables.after (State.keepsTables_act _ l _) (consulted.trans ?_)
  split
  · exact .same rfl
  · exact .refl _

end

end Sys2Proof.Machine
end

section
/-! PROOFS. What is installed on the lines under each command (R47, R97, R123): only the good end of a valid band table read
installs anything or takes a line out of DISABLED, and only a reset takes it away (O60). -/

namespace Sys2Proof.Machine

section
variable (s : State) (l : LineNo)

/-! ## The part as a whole -/

theorem State.keepsTables_reject : s.KeepsTables ∅ s.reject := .same rfl

/-- R160, R161: a reset of either kind gives every line its reset values. -/
theorem State.line_softReset : s.softResetValues.line l = Line.reset := by
  simp [State.line, State.softResetValues, State.reset]

theorem State.keepsTables_landCompletion : s.KeepsTables ∅ s.landCompletion := by
  unfold State.landCompletion
  split <;> exact .same rfl

theorem State.keepsTables_landEvent : s.KeepsTables ∅ s.landEvent := by
  unfold State.landEvent
  split <;> exact .same rfl

theorem State.keepsTables_landReplies : s.KeepsTables ∅ s.landReplies := by
  refine State.KeepsTables.foldl _ (fun u l => ?_) _ _
  unfold State.landReply
  split
  · split <;> exact .same rfl
  · exact .refl u
  · exact .refl u

/-- R99: the release of the lines leaves what is installed and the engine states. -/
theorem State.keepsTables_enterFailed (cause : CauseCode) : s.KeepsTables ∅ (s.enterFailed cause) := by
  refine .of_lines fun l => ?_
  have hline : (s.enterFailed cause).line l = (s.line l).release := by simp [State.enterFailed, State.line, State.drivePin]
  rw [hline]
  exact .plain rfl rfl

theorem State.keepsTables_enterRunning : s.KeepsTables ∅ s.enterRunning :=
  State.KeepsTables.after (t := s.tellLines allLines) (.same rfl) (s.writers_tellLines allLines).keepsTables

/-- R98: a line that serves its pending reset was IDLE or QUIESCED. -/
theorem State.keepsTables_serveReset : s.KeepsTables ∅ (s.serveReset l) := by
  unfold State.serveReset
  split
  · next hc =>
    obtain ⟨hs | hs, -⟩ := hc
    · exact (s.keepsTables_enterBreakOut l ..).of_enabled (by simp [hs])
    · exact (s.keepsTables_enterBreakOut l ..).of_enabled (by simp [hs])
  · exact .refl s

theorem State.keepsTables_enableOne : s.KeepsTables ∅ s.enableOne := by
  have resumed : s.KeepsTables ∅ ({ s with enable := true } : State).resume.finish :=
    State.KeepsTables.after (State.keepsTables_finish _)
      (State.KeepsTables.after (State.KeepsTables.foldl _ (fun u l => u.keepsTables_serveReset l) _ _)
        (State.KeepsTables.after (State.keepsTables_enterRunning _) (.same rfl)))
  unfold State.enableOne
  split
  · exact .same rfl
  · exact .same rfl
  · exact .same rfl
  · exact resumed
  · exact resumed
  · exact s.keepsTables_reject

theorem State.keepsTables_enableZero : s.KeepsTables ∅ s.enableZero := by
  unfold State.enableZero
  split
  · exact .same rfl
  · exact .same rfl
  · exact State.KeepsTables.after (State.keepsTables_finish _) (.same rfl)
  · exact .same rfl
  · exact .same rfl
  · exact s.keepsTables_reject

theorem State.keepsTables_setupEnds (r : BusRead) : s.KeepsTables ∅ (s.setupEnds r) := by
  unfold State.setupEnds
  split
  · split
    · exact .same rfl
    · split
      · exact s.keepsTables_enterRunning.trans (.same rfl)
      · exact .same rfl
  · exact .same rfl

/-! ## Queues and rings -/

theorem State.keepsTables_postTail (v : Word) : s.KeepsTables ∅ (s.postTail v) := by
  unfold State.postTail
  split
  · refine State.KeepsTables.after (State.keepsTables_finish _) ?_
    unfold State.postedTail
    simp only
    split <;> exact .same rfl
  · exact s.keepsTables_reject

theorem State.keepsTables_postRestart (v : Word) : s.KeepsTables ∅ (s.postRestart v) := by
  unfold State.postRestart
  split
  · exact .same rfl
  · exact s.keepsTables_reject

theorem State.keepsTables_retire (v : Word) : s.KeepsTables ∅ (s.retire v) := by
  have completion : ∀ n, s.KeepsTables ∅ (s.retireCompletion n) := fun n => by
    unfold State.retireCompletion
    split <;> exact .same rfl
  have event : ∀ n, s.KeepsTables ∅ (s.retireEvent n) := fun n => by
    unfold State.retireEvent
    split
    · exact .refl s
    · exact State.KeepsTables.after (State.keepsTables_finish _)
        (State.KeepsTables.after (State.writers_judgeGrant _).keepsTables (.same rfl))
  unfold State.retire
  split
  · split
    · split
      · exact completion _
      · exact s.keepsTables_reject
    · split
      · exact event _
      · exact s.keepsTables_reject
  · exact s.keepsTables_reject

theorem State.keepsTables_fetchLook : s.KeepsTables ∅ s.fetchLook := by
  unfold State.fetchLook State.beginFetch
  simp only
  split
  · split
    · next k q id hq hid => cases k <;> exact .same rfl
    · exact .same rfl
  · exact .same rfl

theorem State.keepsTables_readFails : s.KeepsTables ∅ s.readFails := by
  unfold State.readFails
  split <;> exact .same rfl

theorem State.keepsTables_completionPosting : s.KeepsTables ∅ s.completionPosting := by
  unfold State.completionPosting
  simp only
  split <;> exact .same rfl

theorem State.keepsTables_eventPosting : s.KeepsTables ∅ s.eventPosting := by
  unfold State.eventPosting
  simp only
  split <;> exact .same rfl

theorem State.keepsTables_completionPosted : s.KeepsTables ∅ s.completionPosted := by
  unfold State.completionPosted
  split
  · exact .refl s
  · refine State.KeepsTables.after (State.keepsTables_finish _)
      (State.KeepsTables.after (State.keepsTables_completionPosting _) ?_)
    refine State.KeepsTables.after (t := State.freeContext _ _) (.same rfl) ?_
    exact State.KeepsTables.after (State.ends_freeContext _ _).keepsTables (.same rfl)

theorem State.keepsTables_completionFails (n : Nat) : s.KeepsTables ∅ (s.completionFails n) := by
  unfold State.completionFails
  split
  · exact .refl s
  · exact State.KeepsTables.after (State.keepsTables_enterFailed _ _)
      (State.KeepsTables.after (State.keepsTables_landReplies _)
        (State.KeepsTables.after (State.keepsTables_landEvent _) (.same rfl)))

theorem State.keepsTables_attentionWritten (a : Option (LineNo × Handle)) : s.KeepsTables ∅ (s.attentionWritten a) := by
  unfold State.attentionWritten
  split
  · exact .refl s
  · next l h =>
    refine State.KeepsTables.after (State.ends_settleClosing _ _).keepsTables
      (State.KeepsTables.after (t := s.updLine l Line.releaseBuffer) (.same rfl) ?_)
    exact s.keepsTables_updLine l _ fun x => x.keepsTable_noticed.trans (.plain rfl rfl)

theorem State.keepsTables_eventPosted : s.KeepsTables ∅ s.eventPosted := by
  unfold State.eventPosted
  split
  · exact .refl s
  · exact State.KeepsTables.after (State.keepsTables_finish _)
      (State.KeepsTables.after (State.writers_judgeGrant _).keepsTables
        (State.KeepsTables.after (State.keepsTables_eventPosting _)
          (State.KeepsTables.after (State.keepsTables_attentionWritten _ _) (.same rfl))))

theorem State.keepsTables_eventFails (n : Nat) : s.KeepsTables ∅ (s.eventFails n) := by
  unfold State.eventFails
  split
  · exact .refl s
  · exact State.KeepsTables.after (State.keepsTables_enterFailed _ _)
      (State.KeepsTables.after (State.keepsTables_landReplies _)
        (State.KeepsTables.after (State.keepsTables_landCompletion _) (.same rfl)))

/-! ## Records -/

/-- R139: accepting a record and ending it leave the lines to the act. -/
theorem State.keepsTables_takeRecord (r : List Byte) (act : State → Nat → State)
    (h : ∀ (u : State) id, s.verdict r = none → u.lines = s.lines → u.KeepsTables ∅ (act u id)) :
    s.KeepsTables ∅ (s.takeRecord r act) := by
  unfold State.takeRecord
  split
  · exact .refl s
  · next rd _ =>
    have accepted : s.KeepsTables ∅ (s.accept rd r) := .same rfl
    split
    · exact (accepted.trans (State.ends_endRecord ..).keepsTables).trans (State.keepsTables_finish _)
    · next hv => exact (accepted.trans (h _ _ hv rfl)).trans (State.keepsTables_finish _)

theorem State.keepsTables_acceptExchange (h : Handle) (id : Nat) : s.KeepsTables ∅ (s.acceptExchange h id) := by
  unfold State.acceptExchange
  split
  · exact .refl s
  · split
    · exact (s.ends_hand ..).keepsTables
    · exact (s.keepsTables_setStation ..).trans (State.keepsTables_notify _ _)

theorem State.keepsTables_resumeStation (h : Handle) : s.KeepsTables ∅ (s.resumeStation h) := by
  unfold State.resumeStation
  split
  · exact .refl s
  · simp only
    split
    · exact (s.keepsTables_setStation ..).trans (State.keepsTables_notify _ _)
    · exact s.keepsTables_setStation ..

/-- R97: a line that enters DISABLED keeps what is installed on it. -/
theorem State.keepsTables_disableLine : s.KeepsTables ∅ (s.disableLine l) := by
  unfold State.disableLine
  split
  · exact s.keepsTables_updLine l _ fun _ => ⟨rfl, fun _ => rfl⟩
  · exact .refl s

theorem Line.keepsTable_configure (x : Line) (id : Nat) : x.KeepsTable (x.configure id) := by
  unfold Line.configure
  simp only
  split <;> exact .plain rfl rfl

/-- R124: only an IDLE engine moves. -/
theorem State.keepsTables_quiesceLine (id : Nat) : s.KeepsTables ∅ (s.quiesceLine l id) := by
  have asked : ∀ moved, s.KeepsTables moved (s.updLine l fun x => { x with quiesce := true }) := fun _ =>
    s.keepsTables_updLine l _ fun _ => .plain rfl rfl
  have waits := State.KeepsTables.after (State.keepsTables_updLine _ l (fun x => { x with quiescers := x.quiescers ++ [id] })
    fun _ => .plain rfl rfl) (asked ∅)
  have ended := (asked ∅).trans (State.keepsTables_endOk _ id)
  unfold State.quiesceLine
  simp only
  split
  · next hidle =>
    refine State.KeepsTables.of_enabled (l := l) (State.KeepsTables.after (State.keepsTables_endOk _ id) ?_) (by simp [hidle])
    exact State.KeepsTables.after (State.keepsTables_moveLine _ l _ fun _ => rfl) (asked _)
  · exact ended
  · exact ended
  · exact waits
  · exact waits
  · exact waits
  · exact waits
  · exact waits
  · exact .refl s

/-- R125: RESUME_LINE is taken of a QUIESCED line alone. -/
theorem State.keepsTables_resumeLine (id : Nat) (h : (s.line l).state = .quiesced) :
    s.KeepsTables ∅ ((s.updLine l Line.resume).endOk id) :=
  State.KeepsTables.after (State.keepsTables_endOk _ id)
    ((s.keepsTables_moveLine l Line.resume fun _ => rfl).of_enabled (by simp [h]))

/-- R93, R126: the break of a record begins on a line that is IDLE, in GUARD or QUIESCED. -/
theorem State.keepsTables_resetLine (id : Nat) : s.KeepsTables ∅ (s.resetLine l id) := by
  have deferred : s.KeepsTables ∅ (s.updLine l fun x => x.deferReset id) :=
    s.keepsTables_updLine l _ fun x => x.keepsTable_noticed.trans (.plain rfl rfl)
  have now : (s.line l).state ≠ .disabled → s.KeepsTables ∅
      (if s.device = .running then s.enterBreakOut l [id] s.time else s.updLine l fun x => x.deferReset id) := fun hs => by
    split
    · exact (s.keepsTables_enterBreakOut l ..).of_enabled hs
    · exact deferred
  unfold State.resetLine
  simp only
  split
  · next hs => exact now (by simp [hs])
  · next hs => exact now (by simp [hs])
  · next hs => exact now (by simp [hs])
  · exact s.keepsTables_updLine l _ fun _ => .plain rfl rfl
  · exact deferred
  · exact deferred
  · exact deferred
  · exact deferred
  · exact .refl s

/-! ## Lines -/

theorem State.keepsTables_releaseDriver (t : Nat) :
    s.KeepsTables {l} ((s.reach t).updLine l fun x => x.releaseDriver t) :=
  s.keepsTables_reachLine l _ _ fun _ => .plain rfl rfl

/-- R62, R74: a frame that is sent leaves its line in AWAIT or in GUARD. -/
theorem State.keepsTables_frameSent (job : Job) (t : Nat) : s.KeepsTables {l} (s.frameSent l job t) := by
  have awaits : ∀ (u : State) n, u.KeepsTables {l} (u.updLine l fun x => x.await n t) := fun u n =>
    u.keepsTables_moveLine l _ fun _ => rfl
  cases job with
  | command id h origin => exact State.KeepsTables.after (awaits _ _) (s.ends_updCtx ..).keepsTables
  | broadcast id =>
    exact State.KeepsTables.after (State.keepsTables_toGuard _ l)
      ((s.ends_endWith ..).trans (State.ends_endAbort ..)).keepsTables
  | poll h p => exact awaits _ _
  | link h => exact awaits _ _
  | probe h => exact awaits _ _

theorem State.keepsTables_transmitEnds : s.KeepsTables {l} (s.transmitEnds l) := by
  unfold State.transmitEnds
  split
  · exact .refl s
  · exact State.KeepsTables.after (State.keepsTables_finish _)
      ((s.keepsTables_releaseDriver l _).trans (State.keepsTables_frameSent ..))

theorem State.keepsTables_payloadRead (octets : List Byte) : s.KeepsTables {l} (s.payloadRead l octets) := by
  unfold State.payloadRead
  split
  · exact .refl s
  · exact State.KeepsTables.after (State.keepsTables_finish _)
      ((s.keepsTables_fillBuffer ..).trans (State.keepsTables_readGood _ l _))

theorem State.keepsTables_payloadFails : s.KeepsTables {l} (s.payloadFails l) := by
  unfold State.payloadFails
  split
  · exact .refl s
  · exact (s.keepsTables_readFailed l _).trans (State.keepsTables_finish _)

theorem State.keepsTables_replyWriteEnds (r : BusWrite) : s.KeepsTables ∅ (s.replyWriteEnds l r) := by
  unfold State.replyWriteEnds
  split
  · exact (s.keepsTables_replyWritten ..).trans (State.keepsTables_finish _)
  · exact .refl s
  · exact .refl s

theorem State.keepsTables_guardEnds : s.KeepsTables {l} (s.guardEnds l) := by
  unfold State.guardEnds
  refine State.KeepsTables.after (State.keepsTables_finish _) ((s.keepsTables_reach (s.line l).guardMoment).trans ?_)
  split
  · exact State.keepsTables_enterBreakOut _ l ..
  · exact State.keepsTables_rest _ l

theorem State.keepsTables_breakReleased : s.KeepsTables {l} (s.breakReleased l) := by
  have bound : ∀ u : State, u.KeepsTables {l} (u.endBound l) := fun u =>
    State.KeepsTables.after (State.keepsTables_updLine _ l _ fun _ => .plain rfl rfl)
      (State.KeepsTables.foldl _ (fun u id => u.keepsTables_endOk id) _ _)
  exact State.KeepsTables.after (State.keepsTables_finish _) (State.KeepsTables.after (State.keepsTables_toGuard _ l)
    ((s.keepsTables_releaseDriver l _).trans (bound _)))

/-! ## The receiver -/

theorem State.enabled_of_watching (h : s.watching l = true) : (s.line l).state ≠ .disabled := by
  intro hs
  simp [State.watching, hs] at h

theorem Line.keepsTable_discardGlitch (x : Line) (t : Nat) : x.KeepsTable (x.discardGlitch t) := by
  unfold Line.discardGlitch
  split
  · exact x.keepsTable_noticed.trans (.plain rfl rfl)
  · exact .plain rfl rfl

theorem Line.keepsTable_quietAtExpiry (x : Line) (t : Nat) : x.KeepsTable (x.quietAtExpiry t) := by
  unfold Line.quietAtExpiry
  split <;> exact .plain rfl rfl

theorem State.keepsTables_readMark : s.KeepsTables {l} (s.readMark l) :=
  State.KeepsTables.after (State.keepsTables_moveLine _ l _ fun _ => rfl) (s.keepsTables_reach _)

theorem State.keepsTables_receiveOctet (octet : Byte) (mark ferr : Bool) :
    s.KeepsTables {l} (s.receiveOctet l octet mark ferr) := by
  unfold State.receiveOctet
  simp only
  split
  · exact .refl s
  · split
    · exact .refl s
    · split
      · exact s.keepsTables_updLine l _ fun _ => .plain rfl rfl
      · exact s.keepsTables_updLine l _ fun _ => .plain rfl rfl
      · exact s.keepsTables_endAttempt l ..
      · exact s.keepsTables_endAttempt l ..

theorem State.keepsTables_useCharacter (octet : Byte) (mark ferr : Bool) :
    s.KeepsTables {l} (s.useCharacter l octet mark ferr) := by
  have chatter : s.KeepsTables {l} (s.updLine l Line.countChatter) := s.keepsTables_updLine l _ fun _ => .plain rfl rfl
  unfold State.useCharacter
  split
  · exact s.keepsTables_receiveOctet ..
  · exact chatter.trans (State.keepsTables_toGuard _ l)
  · exact chatter
  · exact chatter
  · exact chatter
  · exact chatter
  · exact .refl s
  · exact .refl s
  · exact .refl s

theorem State.keepsTables_takeCharacter (octet : Byte) (mark : Bool) (stop : StopBit) (e : Nat) :
    s.KeepsTables {l} (s.takeCharacter l octet mark stop e) := by
  have begins : s.KeepsTables {l} (s.answerBegins l mark) := by
    unfold State.answerBegins
    split
    · exact s.keepsTables_readMark l
    · exact .refl s
  exact State.KeepsTables.after (State.keepsTables_finish _) (State.KeepsTables.after (State.keepsTables_useCharacter ..)
    (State.KeepsTables.after (State.keepsTables_reachLine _ l _ _ fun _ => .plain rfl rfl) begins))

theorem State.keepsTables_gapExpires (t : Nat) (o : AttemptOutcome) :
    s.KeepsTables {l} ((s.reach t).endAttempt l o false).finish :=
  State.KeepsTables.after (State.keepsTables_finish _)
    ((s.keepsTables_reach t).trans (State.keepsTables_endAttempt _ l ..))

theorem State.keepsTables_replyExpires : s.KeepsTables {l} (s.replyExpires l) :=
  State.KeepsTables.after (State.keepsTables_finish _) (State.KeepsTables.after (State.keepsTables_endAttempt _ l ..)
    (s.keepsTables_reachLine l _ _ fun x => x.keepsTable_quietAtExpiry _))

theorem State.keepsTables_breakDetected : s.KeepsTables {l} (s.breakDetected l) := by
  have read : ∀ u : State, u.KeepsTables {l} (u.breakOnRead l) := fun u => by
    unfold State.breakOnRead
    split
    · exact u.keepsTables_abandonRead l
    · exact .refl u
  have attempt : ∀ u : State, u.KeepsTables {l} (u.breakOnAttempt l) := fun u => by
    unfold State.breakOnAttempt
    split
    · split
      · exact u.keepsTables_deliver ..
      · exact .refl u
    · exact .refl u
  have guarded : ∀ u : State, u.KeepsTables {l} (u.guardAfterBreak l) := fun u => by
    unfold State.guardAfterBreak
    split
    · exact u.keepsTables_toGuard l
    · exact .refl u
  have applied : ∀ u : State, u.KeepsTables {l}
      ((((u.breakOnRead l).breakReaches l).cancelAbandoned (s.line l).abandonedJob).breakOnAttempt l) := fun u =>
    (((read u).trans (State.keepsTables_breakReaches _ l)).trans (State.ends_cancelAbandoned _ _).keepsTables).trans
      (attempt _)
  unfold State.breakDetected
  refine State.KeepsTables.after (State.keepsTables_finish _) (State.KeepsTables.after (guarded _)
    (State.KeepsTables.after (State.keepsTables_updLine _ l _ fun _ => .plain rfl rfl)
      (State.KeepsTables.after (applied _) ?_)))
  exact s.keepsTables_reachLine l _ _ fun _ => .plain rfl rfl

/-! ## Station timers -/

theorem State.keepsTables_timerExpires (h : Handle) (k : TimerKind) (f : Station → Nat → Station) :
    s.KeepsTables ∅ (s.timerExpires h k f) := .same rfl

theorem State.keepsTables_tellStationLine (h : Handle) : s.KeepsTables ∅ (s.tellStationLine h) := by
  unfold State.tellStationLine
  split
  · exact s.keepsTables_notify _
  · exact .refl s

theorem State.keepsTables_releaseHeld (h : Handle) : s.KeepsTables ∅ (s.releaseHeld h) := by
  unfold State.releaseHeld
  split
  · exact (s.ends_updCtx ..).keepsTables
  · exact .refl s

/-! ## The installation of a band table (R49, R97, R123) -/

theorem State.keepsTables_tableFails (id : Nat) (status : Status) (detail : Detail) :
    s.KeepsTables ∅ (s.tableFails l id status detail) :=
  State.KeepsTables.after (State.ends_endRecord ..).keepsTables (s.keepsTables_updLine l _ fun _ => .plain rfl rfl)

end

/-- The band table `b` spells is installed on line `l` and its engine moves; no other line leaves DISABLED or changes what is
installed on it. -/
def State.Installs (s : State) (l : LineNo) (b : List Byte) (t : State) : Prop :=
  ∃ hysteresis rate, (s.updLine l fun x => x.install (bandTableOf b) hysteresis rate s.time).KeepsTables {l} t

section
variable {s t : State} {l : LineNo} {b : List Byte}

/-- The line has the table read, with a rate. -/
theorem State.Installs.own (h : s.Installs l b t) :
    (t.line l).bandTable = some (bandTableOf b) ∧ ∃ rate, (t.line l).rate = some rate := by
  obtain ⟨hysteresis, rate, k⟩ := h
  have hi := k.installed l
  rw [State.updLine_eq, State.line_setLine_same, Line.installed, Line.installed, Prod.mk.injEq, Prod.mk.injEq] at hi
  obtain ⟨htable, -, hrate⟩ := hi
  exact ⟨htable, rate, hrate⟩

theorem State.Installs.other (h : s.Installs l b t) {k : LineNo} (hk : k ≠ l) : (s.line k).KeepsTable (t.line k) := by
  obtain ⟨hysteresis, rate, kept⟩ := h
  have hi := kept.installed k
  have hs := kept.disabled k hk
  rw [State.updLine_eq, State.line_setLine_ne _ hk] at hi hs
  exact ⟨hi, hs⟩

/-- R97: the engine moves, if at all, to BREAK_OUT or to GUARD, after the record's end. -/
theorem State.installs_installTable (s : State) (l : LineNo) (id : Nat) (b : List Byte) (n : Nat) (rate : Fin 8) :
    s.Installs l b (s.installTable l id b n rate) := by
  have enabled : ∀ u : State, u.KeepsTables {l} (u.enableLine l) := fun u => by
    have started : u.KeepsTables {l} (u.updLine l fun x => x.startReceiver u.time) :=
      u.keepsTables_updLine l _ fun _ => .plain rfl rfl
    unfold State.enableLine
    simp only
    split
    · exact started.trans (State.keepsTables_enterBreakOut _ l ..)
    · exact State.KeepsTables.after (State.keepsTables_moveLine _ l _ fun _ => rfl) started
  refine ⟨n, rate, ?_⟩
  unfold State.installTable
  simp only
  split
  · exact (State.keepsTables_endOk _ id).trans (enabled _)
  · exact State.KeepsTables.after (State.keepsTables_updLine _ l Line.dropCharacter fun _ => .plain rfl rfl)
      (State.keepsTables_endOk _ id)

theorem State.Installs.finish (h : s.Installs l b t) : s.Installs l b t.finish := by
  obtain ⟨hysteresis, rate, k⟩ := h
  exact ⟨hysteresis, rate, k.trans t.keepsTables_finish⟩

/-- R123: a band table read that fails, or whose block is not valid, installs nothing. -/
theorem State.tableReadEnds_keeps_or_installs (s : State) (l : LineNo) (r : BusRead) :
    s.KeepsTables ∅ (s.tableReadEnds l r) ∨
      ∃ b, r = .good b ∧ bandBlockValid b = true ∧ s.Installs l b (s.tableReadEnds l r) := by
  have failed : ∀ id status detail, s.KeepsTables ∅ (s.tableFails l id status detail).finish := fun id status detail =>
    (s.keepsTables_tableFails l id status detail).trans (State.keepsTables_finish _)
  unfold State.tableReadEnds
  split
  · exact .inl (.refl s)
  · next id _ =>
    cases r with
    | error => exact .inl (failed ..)
    | good b =>
      by_cases hb : bandBlockValid b = true
      · refine .inr ⟨b, rfl, hb, ?_⟩
        simp only [if_pos hb]
        exact (s.installs_installTable ..).finish
      · refine .inl ?_
        simp only [if_neg hb]
        exact failed ..

end

/-! ## The commands -/

/-- What a command does to what is installed on the lines, and to DISABLED. -/
inductive TableEffect (c : Instr) (s t : State) : Prop where
  | kept (k : s.KeepsTables ∅ t)
  | installed (l : LineNo) (b : List Byte) (command : c = .bandTableReadEnd l (.good b)) (valid : bandBlockValid b = true)
      (installs : s.Installs l b t)
  | reset (command : c = .hardwareReset ∨ ∃ v, c = .softReset v) (lines : ∀ l, t.line l = Line.reset)

section
variable {c : Instr} {o : Bool} {e : State → State} {s t : State}

/-- A command keeps what is installed when its effect does wherever it occurs. -/
theorem tableEffect_runCommand (h : runCommand c o e s = .next t) (k : o = true → s.KeepsTables ∅ (e s)) :
    TableEffect c s t := by
  obtain ⟨-, ⟨-, ho, rfl⟩ | rfl⟩ := runCommand_next h
  · exact .kept (k ho)
  · exact .kept (.refl _)

/-- So does a command of a line's engine that does not occur on a DISABLED line. -/
theorem tableEffect_runEngine {l : LineNo} (h : runCommand c o e s = .next t) (k : s.KeepsTables {l} (e s))
    (enabled : o = true → (s.line l).state ≠ .disabled) : TableEffect c s t :=
  tableEffect_runCommand h fun ho => k.of_enabled (enabled ho)

/-- So does a command of a record that acts so wherever it is taken. -/
theorem tableEffect_runTaken {r : List Byte} {act : State → Nat → State} (h : runRecord c r act s = .next t)
    (k : ∀ (u : State) id, c.wellFormed = true → s.verdict r = none → u.lines = s.lines → u.KeepsTables ∅ (act u id)) :
    TableEffect c s t :=
  tableEffect_runCommand h fun _ => s.keepsTables_takeRecord r act fun u id => k u id (runCommand_next h).1

theorem tableEffect_runRecord {r : List Byte} {act : State → Nat → State} (h : runRecord c r act s = .next t)
    (k : ∀ (u : State) id, u.KeepsTables ∅ (act u id)) : TableEffect c s t :=
  tableEffect_runTaken h fun u id _ _ _ => k u id

/-- R47: what each command does to the tables of the lines. -/
theorem exec_tableEffect (h : exec c s = .next t) : TableEffect c s t := by
  unfold exec at h
  cases c with
  | hardwareReset =>
    cases h
    exact .reset (.inl rfl) s.line_softReset
  | resetRelease =>
    cases h
    exact .kept (.same rfl)
  | softReset v =>
    obtain ⟨-, ⟨-, -, rfl⟩ | rfl⟩ := runCommand_next h
    · exact .reset (.inr ⟨v, rfl⟩) s.line_softReset
    · exact .kept (.refl _)
  | enableWritten1 v => exact tableEffect_runCommand h fun _ => s.keepsTables_enableOne
  | enableWritten0 v => exact tableEffect_runCommand h fun _ => s.keepsTables_enableZero
  | setupAddrWrite v =>
    refine tableEffect_runCommand h fun _ => ?_
    unfold State.writeSetupAddr
    split
    · exact .same rfl
    · exact s.keepsTables_reject
  | postTail v => exact tableEffect_runCommand h fun _ => s.keepsTables_postTail v
  | postRestart v => exact tableEffect_runCommand h fun _ => s.keepsTables_postRestart v
  | retire v => exact tableEffect_runCommand h fun _ => s.keepsTables_retire v
  | intStatusWrite v => exact tableEffect_runCommand h fun _ => .same rfl
  | intEnableWrite v => exact tableEffect_runCommand h fun _ => .same rfl
  | registerWriteIgnored offset v => exact tableEffect_runCommand h fun _ => s.keepsTables_reject
  | setupReadEnd result => exact tableEffect_runCommand h fun _ => s.keepsTables_setupEnds result
  | fetchChoice => exact tableEffect_runCommand h fun _ => s.keepsTables_fetchLook
  | recordReadError =>
    exact tableEffect_runCommand h fun _ => s.keepsTables_readFails.trans (State.keepsTables_finish _)
  | unknownKind r => exact tableEffect_runRecord h fun u _ => .refl u
  | exchange r => exact tableEffect_runRecord h fun u id => u.keepsTables_acceptExchange (recHandle r) id
  | broadcast r =>
    exact tableEffect_runRecord h fun u id =>
      u.keepsTables_updLine _ _ fun x => x.keepsTable_noticed.trans (.plain rfl rfl)
  | addStation r =>
    exact tableEffect_runRecord h fun u id => State.KeepsTables.after (State.keepsTables_endOk _ id)
      ((u.keepsTables_setStation ..).trans (State.keepsTables_notify _ _))
  | removeStation r =>
    exact tableEffect_runRecord h fun u id => State.KeepsTables.after (State.ends_settleClosing _ _).keepsTables
      (u.keepsTables_setStation ..)
  | pauseStation r =>
    exact tableEffect_runRecord h fun u id => (u.keepsTables_setStation ..).trans (State.keepsTables_endOk _ id)
  | resumeStation r =>
    exact tableEffect_runRecord h fun u id => (u.keepsTables_resumeStation _).trans (State.keepsTables_endOk _ id)
  | setLineDisable r =>
    exact tableEffect_runRecord h fun u id => (u.keepsTables_disableLine _).trans (State.keepsTables_endOk _ id)
  | setLineEnable r =>
    exact tableEffect_runRecord h fun u id => u.keepsTables_updLine _ _ fun x => x.keepsTable_configure id
  | quiesceLine r => exact tableEffect_runRecord h fun u id => u.keepsTables_quiesceLine _ id
  | resumeLine r =>
    refine tableEffect_runTaken h fun u id hw hv hlines => ?_
    have hcheck := (State.verdict_of_recordOf hv hw (k := .resumeLine) rfl).2
    have hpermits := State.checkLine_taken (k := .resumeLine) (l := recLine r) hcheck
    refine u.keepsTables_resumeLine _ id ?_
    rw [State.line, hlines]
    simpa [linePermits, State.line] using hpermits
  | lineReset r => exact tableEffect_runRecord h fun u id => u.keepsTables_resetLine _ id
  | abort r => exact tableEffect_runRecord h fun u id => (u.ends_abortRecord _ _ id).keepsTables
  | fence r => exact tableEffect_runRecord h fun u id => (u.ends_fenceRecord id).keepsTables
  | bandTableReadEnd l result =>
    obtain ⟨-, ⟨-, -, rfl⟩ | rfl⟩ := runCommand_next h
    · rcases s.tableReadEnds_keeps_or_installs l result with k | ⟨b, rfl, hb, hi⟩
      · exact .kept k
      · exact .installed l b rfl hb hi
    · exact .kept (.refl _)
  | schedulerChoice l wait =>
    refine tableEffect_runEngine h (l := l) ?_ fun ho => ?_
    · exact State.KeepsTables.after (State.keepsTables_finish _)
        ((s.keepsTables_reach _).trans (State.keepsTables_consult _ l))
    · have hidle : (s.line l).state = .idle := State.idle_of_mayChoose (s := s.reach (s.time + wait)) ho
      simp [hidle]
  | payloadReadEnd l octets =>
    exact tableEffect_runEngine h (s.keepsTables_payloadRead l octets) fun ho => by
      simp [State.preparing_of_reads (Bool.and_eq_true_iff.1 ho).1]
  | payloadReadError l =>
    exact tableEffect_runEngine h (s.keepsTables_payloadFails l) fun ho => by
      simp [State.preparing_of_reads (Bool.and_eq_true_iff.1 ho).1]
  | abandonedReadEnd l =>
    refine tableEffect_runEngine h (l := l) ((s.keepsTables_toGuard l).trans (State.keepsTables_finish _)) fun ho hs => ?_
    simp [hs] at ho
  | transmitEnd l =>
    refine tableEffect_runEngine h (s.keepsTables_transmitEnds l) fun ho hs => ?_
    simp [hs] at ho
  | characterReceived l octet mark stop =>
    exact tableEffect_runEngine h (s.keepsTables_takeCharacter l octet mark stop _) fun ho =>
      s.enabled_of_watching l (Bool.and_eq_true_iff.1 ho).1
  | interCharacterGapExpiry l =>
    exact tableEffect_runEngine h (s.keepsTables_gapExpires l _ _) fun ho => by
      simp [Line.receive_of_gapOpen (Bool.and_eq_true_iff.1 ho).2]
  | replyTimerExpiry l =>
    refine tableEffect_runEngine h (s.keepsTables_replyExpires l) fun ho hs => ?_
    simp [hs] at ho
  | replyWriteEnd l result => exact tableEffect_runCommand h fun _ => s.keepsTables_replyWriteEnds l result
  | breakDetected l =>
    exact tableEffect_runEngine h (s.keepsTables_breakDetected l) fun ho =>
      s.enabled_of_watching l (Bool.and_eq_true_iff.1 ho).1
  | stuck l =>
    exact tableEffect_runCommand h fun _ => State.KeepsTables.after (State.keepsTables_finish _)
      (s.keepsTables_reachLine l _ _ fun _ => .plain rfl rfl)
  | lineReturnToMark l wait =>
    exact tableEffect_runCommand h fun _ => s.keepsTables_reachLine l _ _ fun _ => .plain rfl rfl
  | recoveryEnd l =>
    exact tableEffect_runCommand h fun _ => State.KeepsTables.after (State.keepsTables_finish _)
      (s.keepsTables_reachLine l _ _ fun _ => .plain rfl rfl)
  | guardEnd l =>
    exact tableEffect_runEngine h (s.keepsTables_guardEnds l) fun ho => by
      simp [Line.guard_of_guardMayEnd (Bool.and_eq_true_iff.1 ho).2]
  | breakSpaceEnd l => exact tableEffect_runCommand h fun _ => s.keepsTables_reachLine l _ _ fun _ => .plain rfl rfl
  | breakRelease l =>
    refine tableEffect_runEngine h (s.keepsTables_breakReleased l) fun ho hs => ?_
    simp [hs] at ho
  | pollTimerExpiry k =>
    exact tableEffect_runCommand h fun _ => (s.keepsTables_timerExpires k .poll _).trans
      (State.keepsTables_tellStationLine _ k)
  | holdTimerExpiry k =>
    exact tableEffect_runCommand h fun _ => ((s.keepsTables_timerExpires k .hold _).trans
      (State.keepsTables_releaseHeld _ k)).trans (State.keepsTables_tellStationLine _ k)
  | probeTimerExpiry k =>
    exact tableEffect_runCommand h fun _ => (s.keepsTables_timerExpires k .probe _).trans
      (State.keepsTables_tellStationLine _ k)
  | completionEntryPosted => exact tableEffect_runCommand h fun _ => s.keepsTables_completionPosted
  | completionWriteError done => exact tableEffect_runCommand h fun _ => s.keepsTables_completionFails done
  | eventEntryPosted => exact tableEffect_runCommand h fun _ => s.keepsTables_eventPosted
  | eventWriteError done => exact tableEffect_runCommand h fun _ => s.keepsTables_eventFails done
  | holdoffTimerExpiry ring =>
    refine tableEffect_runCommand h fun _ => ?_
    unfold State.holdoffExpires
    cases ring <;> exact .same rfl
  | characterBegun l wait =>
    exact tableEffect_runCommand h fun _ => s.keepsTables_reachLine l _ _ fun _ => .plain rfl rfl
  | glitchDiscarded l wait =>
    exact tableEffect_runCommand h fun _ => s.keepsTables_reachLine l _ _ fun x => x.keepsTable_discardGlitch _
  | markBitRead l =>
    refine tableEffect_runEngine h (s.keepsTables_readMark l) fun ho => s.enabled_of_watching l ?_
    simp only [Bool.and_eq_true] at ho
    obtain ⟨⟨hw, -⟩, -⟩ := ho
    exact hw

end

/-! ## Configured lines -/

/-- R47 for one line: not DISABLED, it holds a band table and a bit rate. -/
def Line.Configured (x : Line) : Prop := x.state ≠ .disabled → x.bandTable.isSome = true ∧ x.rate.isSome = true

theorem State.linesConfigured_iff (s : State) : s.LinesConfigured ↔ ∀ l, (s.line l).Configured := Iff.rfl

theorem Line.installed_eq_iff {x y : Line} :
    y.installed = x.installed ↔ y.bandTable = x.bandTable ∧ y.hysteresis = x.hysteresis ∧ y.rate = x.rate := by
  rw [Line.installed, Line.installed, Prod.mk.injEq, Prod.mk.injEq]

theorem Line.KeepsTable.configured {x y : Line} (k : x.KeepsTable y) (h : x.Configured) : y.Configured := by
  intro hy
  obtain ⟨htable, -, hrate⟩ := Line.installed_eq_iff.1 k.installed
  rw [htable, hrate]
  exact h fun hx => hy (k.disabled hx)

theorem State.KeepsTables.line {s t : State} (k : s.KeepsTables ∅ t) (l : LineNo) : (s.line l).KeepsTable (t.line l) :=
  ⟨k.installed l, k.disabled l fun h => h.elim⟩

/-- R47: whatever a command does to the tables keeps the lines configured. -/
theorem TableEffect.configured {c : Instr} {s t : State} (e : TableEffect c s t) (h : s.LinesConfigured) :
    t.LinesConfigured := by
  rw [State.linesConfigured_iff] at h ⊢
  intro k
  cases e with
  | kept kept => exact (kept.line k).configured (h k)
  | installed l b _ _ installs =>
    by_cases hk : k = l
    · subst hk
      obtain ⟨htable, rate, hrate⟩ := installs.own
      intro _
      rw [htable, hrate]
      exact ⟨rfl, rfl⟩
    · exact (installs.other hk).configured (h k)
  | reset _ lines =>
    intro hk
    rw [lines] at hk
    exact (hk rfl).elim

theorem step_linesConfigured {s t : State} (h : step s = .next t) (hs : s.LinesConfigured) : t.LinesConfigured := by
  unfold step at h
  split at h
  · cases h
    unfold State.tick
    split <;> exact hs
  · exact (exec_tableEffect h).configured hs

/-- A line whose table is not kept is the one whose table was read, or the part has been reset. -/
theorem TableEffect.line {c : Instr} {s t : State} (e : TableEffect c s t) (l : LineNo) :
    (s.line l).KeepsTable (t.line l) ∨ (∃ b, c = .bandTableReadEnd l (.good b) ∧ bandBlockValid b = true) ∨
      ((c = .hardwareReset ∨ ∃ v, c = .softReset v) ∧ (t.line l).state = .disabled) := by
  cases e with
  | kept kept => exact .inl (kept.line l)
  | installed k b command valid installs =>
    by_cases hk : l = k
    · subst hk
      exact .inr (.inl ⟨b, command, valid⟩)
    · exact .inl (installs.other hk)
  | reset command lines => exact .inr (.inr ⟨command, by rw [lines]; rfl⟩)

end Sys2Proof.Machine

open Sys2Proof Sys2Proof.Machine

/-- Settles O60, by what each command does to the tables of the lines (`exec_tableEffect`). -/
theorem bandTableRulesTheLine : Obligations.BandTableRulesTheLine := by
  refine ⟨fun _ _ => step_linesConfigured, fun c s t l h => ?_⟩
  rcases (exec_tableEffect h).line l with k | read | ⟨reset, hdisabled⟩
  · refine ⟨fun hs ht => (ht (k.disabled hs)).elim, fun changed => ?_⟩
    obtain ⟨htable, hhysteresis, hrate⟩ := Line.installed_eq_iff.1 k.installed
    rcases changed with hc | hc | hc
    · exact (hc htable).elim
    · exact (hc hhysteresis).elim
    · exact (hc hrate).elim
  · exact ⟨fun _ _ => read, fun _ => .inl read⟩
  · exact ⟨fun _ ht => (ht hdisabled).elim, fun _ => .inr reset⟩
end

section
/-! PROOFS. The band table: the block that is valid (R48, section 11.2), the band that contains a turnaround, and what each
outcome does to a station's band (R52, R53; O32, O43). -/

namespace Sys2Proof.Machine

/-! ## The block (R48) -/

/-- The bound at index `k`, B_{k+1} of the manual, stands at 4k. -/
theorem bounds_bandTableOf (b : List Byte) (k : Fin 7) : (bandTableOf b).bounds[k] = le32 b (4 * k.val) := by
  fin_cases k <;> rfl

/-- The timeout W_k stands at 28 + 4k. -/
theorem wait_bandTableOf (b : List Byte) (k : Fin 8) : (bandTableOf b).wait k = le32 b (28 + 4 * k.val) := by
  fin_cases k <;> rfl

/-! ## The band that contains a turnaround (section 3.1, R52) -/

/-- In a rising list the elements below `t` come first. -/
theorem lt_countP_iff_of_rising {l : List Nat} (h : l.Pairwise (· < ·)) (t k : Nat) (hk : k < l.length) :
    k < l.countP (· < t) ↔ l[k] < t := by
  induction l generalizing k with
  | nil => exact absurd hk (Nat.not_lt_zero k)
  | cons a rest ih =>
    obtain ⟨ha, hrest⟩ := List.pairwise_cons.1 h
    by_cases hat : a < t
    · rw [List.countP_cons_of_pos (by simpa using hat)]
      cases k with
      | zero => simpa using hat
      | succ k => simpa using ih hrest k (by simpa using hk)
    · have above : rest.countP (· < t) = 0 :=
        List.countP_eq_zero.2 fun b hb => by simpa using (Nat.le_of_not_lt hat).trans (ha b hb).le
      rw [List.countP_cons_of_neg (by simpa using hat), above]
      have hge : a ≤ (a :: rest)[k] := by
        cases k with
        | zero => exact Nat.le_refl a
        | succ k => exact (ha _ (List.getElem_mem _)).le
      omega

section
variable {table : BandTable} (rising : ∀ i j : Fin 7, i < j → table.bounds[i] < table.bounds[j])
include rising

theorem BandTable.pairwise_bounds : table.bounds.toList.Pairwise (· < ·) := by
  rw [List.pairwise_iff_getElem]
  intro i j hi hj hij
  have hi' : i < 7 := by simpa using hi
  have hj' : j < 7 := by simpa using hj
  simpa using rising ⟨i, hi'⟩ ⟨j, hj'⟩ hij

/-- The band that contains `t` lies above a bound exactly when `t` does. -/
theorem BandTable.lt_bandOf_iff (t k : Nat) (hk : k < 7) : k < table.bandOf t ↔ table.bounds[k] < t := by
  have := lt_countP_iff_of_rising (BandTable.pairwise_bounds rising) t k (by simpa using hk)
  simpa [BandTable.bandOf] using this

end

theorem BandTable.bandOf_le (table : BandTable) (t : Nat) : table.bandOf t ≤ 7 := by
  simpa [BandTable.bandOf] using List.countP_le_length (p := fun b => decide (b < t)) (l := table.bounds.toList)

/-! ## The band after a decoded answer (R52) -/

section
variable {table : BandTable} {hysteresis t : Nat} {b : Fin 8}

/-- A turnaround above the band's upper bound leads to the band that contains it. -/
theorem bandAfterAnswer_slower (hi : b.val < 7) (h : table.bounds[b.val] < t) :
    (bandAfterAnswer table hysteresis t b).val = table.bandOf t := by
  have hle := table.bandOf_le t
  rw [bandAfterAnswer, if_pos ⟨hi, by simpa [List.getD, hi] using h⟩]
  exact Nat.mod_eq_of_lt (by omega)

/-- A turnaround that is not above the band's upper bound leaves the first case of R52. -/
theorem bounds_getD_not_lt (slow : ∀ hi : b.val < 7, t ≤ table.bounds[b.val]) :
    ¬ (b.val < 7 ∧ table.bounds.toList.getD b.val 0 < t) := by
  rintro ⟨hi, h⟩
  have hle := slow hi
  have hlt : table.bounds[b.val] < t := by simpa [List.getD, hi] using h
  omega

theorem bounds_getD_lower (lo : 0 < b.val) : table.bounds.toList.getD (b.val - 1) 0 = table.bounds[b.val - 1] := by
  have hb : b.val - 1 < 7 := by omega
  simp [List.getD, hb]

/-- A turnaround below the band's lower bound by the hysteresis steps the band down by one. -/
theorem bandAfterAnswer_faster (slow : ∀ hi : b.val < 7, t ≤ table.bounds[b.val]) (lo : 0 < b.val)
    (h : t + hysteresis ≤ table.bounds[b.val - 1]) : (bandAfterAnswer table hysteresis t b).val = b.val - 1 := by
  rw [bandAfterAnswer, if_neg (bounds_getD_not_lt slow), if_pos ⟨lo, by rwa [bounds_getD_lower lo]⟩]

/-- Any other turnaround leaves the band. -/
theorem bandAfterAnswer_within (slow : ∀ hi : b.val < 7, t ≤ table.bounds[b.val])
    (fast : ∀ lo : 0 < b.val, table.bounds[b.val - 1] < t + hysteresis) : bandAfterAnswer table hysteresis t b = b := by
  rw [bandAfterAnswer, if_neg (bounds_getD_not_lt slow), if_neg]
  rintro ⟨lo, h⟩
  rw [bounds_getD_lower lo] at h
  exact Nat.not_le_of_gt (fast lo) h

end

/-! ## The band of an entry (R29, R44) -/

section
variable (st : Station) (o : AttemptOutcome) (now : Nat)

theorem Station.band_afterCommand : (st.afterCommand o now).band = st.band := by
  cases o with
  | nak cls reason => cases cls <;> rfl
  | noAnswer => exact st.band_miss now
  | garbled => exact st.band_miss now
  | wrongStation => exact st.band_miss now
  | unexpected => exact st.band_miss now
  | _ => rfl

theorem Station.band_afterPoll : (st.afterPoll o now).band = st.band := by
  have outcome : (st.pollOutcome o now).band = st.band := by
    cases o with
    | noAnswer => exact Station.band_miss _ now
    | garbled => exact Station.band_miss _ now
    | wrongStation => exact Station.band_miss _ now
    | unexpected => exact Station.band_miss _ now
    | _ => rfl
  rw [← outcome, Station.afterPoll]
  split <;> rfl

theorem Station.band_afterLink : (st.afterLink o now).band = st.band := by
  unfold Station.afterLink
  split
  · simp only
    split <;> rfl
  · split
    · exact st.band_miss now
    · rfl

theorem Station.band_afterProbe : (st.afterProbe o now).band = st.band := by
  unfold Station.afterProbe
  simp only
  split <;> rfl

/-- The effect of the attempt's kind leaves the band, whatever the outcome. -/
theorem Station.band_afterJob (job : Job) : (st.afterJob job o now).band = st.band := by
  unfold Station.afterJob
  split
  · exact st.band_afterCommand o now
  · exact st.band_afterPoll o now
  · exact st.band_afterLink o now
  · exact st.band_afterLink o now
  · exact st.band_afterProbe o now
  · rfl

theorem Station.band_afterClosing (job : Job) : (st.afterClosing job o).band = st.band := by
  unfold Station.afterClosing
  split <;> rfl

end

section
variable {st : Station} {table : Option BandTable} {hysteresis now : Nat} {job : Job} {o : AttemptOutcome}
  {turnaround : Option Nat} {ap : Bool}

/-- R29: outside CLOSING the band is that of the first step. -/
theorem Station.applyOutcome_open (hs : st.state ≠ .closing) :
    st.applyOutcome table hysteresis job o turnaround ap now =
      ((st.updateBand table hysteresis o turnaround).afterJob job o now).applyAp ap now := if_neg hs

theorem Station.band_applyOutcome (hs : st.state ≠ .closing) :
    (st.applyOutcome table hysteresis job o turnaround ap now).band =
      (st.updateBand table hysteresis o turnaround).band := by
  rw [Station.applyOutcome_open hs, Station.band_applyAp, Station.band_afterJob]

/-- R44: in CLOSING it stays. -/
theorem Station.band_applyOutcome_closing (hs : st.state = .closing) :
    (st.applyOutcome table hysteresis job o turnaround ap now).band = st.band := by
  rw [Station.applyOutcome_closing hs, Station.band_afterClosing]

/-- R53: the first step of NO_ANSWER. -/
theorem Station.band_updateBand_silence :
    (st.updateBand table hysteresis .noAnswer turnaround).band.val = min 7 (st.band.val + 1) := rfl

/-- R52: the first step of a decoded answer. -/
theorem Station.band_updateBand_answer {tbl : BandTable} {t : Nat} (ho : o.isAnswer = true) :
    (st.updateBand (some tbl) hysteresis o (some t)).band = bandAfterAnswer tbl hysteresis t st.band := by
  rw [Station.updateBand_answer ho]
  rfl

/-- R52, R53: any other outcome leaves the band. -/
theorem Station.band_updateBand_other (hn : o ≠ .noAnswer) (ho : o.isAnswer = false) :
    (st.updateBand table hysteresis o turnaround).band = st.band := by
  simp [Station.updateBand, hn, ho]

/-- So does such an outcome as a whole, in CLOSING too. -/
theorem Station.band_applyOutcome_other (hn : o ≠ .noAnswer) (ho : o.isAnswer = false) :
    (st.applyOutcome table hysteresis job o turnaround ap now).band = st.band := by
  by_cases hs : st.state = .closing
  · exact Station.band_applyOutcome_closing hs
  · rw [Station.band_applyOutcome hs, Station.band_updateBand_other hn ho]

end

end Sys2Proof.Machine

open Sys2Proof Sys2Proof.Machine

/-- Settles O32: each check of the block is a check of the numbers below its bound. -/
theorem bandBlockValidity : Obligations.BandBlockValidity := by
  intro b
  refine ⟨?_, bounds_bandTableOf b, wait_bandTableOf b⟩
  have reserved : (∀ i, i < 4 → le8 b (60 + i) = 0) ↔ ∀ i, 60 ≤ i → i < 64 → le8 b i = 0 := by
    refine ⟨fun h i hlo hhi => ?_, fun h i hi => h (60 + i) (by omega) (by omega)⟩
    have hz := h (i - 60) (by omega)
    rwa [Nat.add_sub_cancel' hlo] at hz
  simp only [bandBlockValid, Bool.and_eq_true, List.all_eq_true, List.mem_range, decide_eq_true_eq, beq_iff_eq, reserved,
    and_assoc]

/-- Settles O43: NO_ANSWER and the answers move the band in the first step of R29, and nothing after it does. -/
theorem silenceStepsTheBand : Obligations.SilenceStepsTheBand := by
  refine ⟨fun st table hysteresis now job turnaround ap => ⟨fun hs => ?_, Station.band_applyOutcome_closing⟩,
    fun st table hysteresis now t job o ap rising => ?_⟩
  · have hopen : st.state ≠ .closing := by rcases hs with h | h | h <;> simp [h]
    rw [Station.band_applyOutcome hopen, Station.band_updateBand_silence]
    exact ⟨fun h => by omega, fun h => by omega, Station.applyOutcome_open hopen⟩
  · refine ⟨fun ho hs => ?_, fun _ => Station.band_applyOutcome_closing, fun ho => ?_⟩
    · rw [Station.band_applyOutcome hs, Station.band_updateBand_answer ho]
      refine ⟨Station.applyOutcome_open hs, fun hi h => ?_, fun lo slow h => bandAfterAnswer_faster slow lo h,
        bandAfterAnswer_within⟩
      rw [bandAfterAnswer_slower hi h]
      exact ⟨(BandTable.lt_bandOf_iff rising t _ hi).2 h, BandTable.lt_bandOf_iff rising t⟩
    · rcases ho with rfl | rfl | rfl | rfl <;> exact Station.band_applyOutcome_other (by simp) rfl
end

section
/-! PROOFS. Contexts and rings (R56, R135, R143, R147): what the single updates and the ends of exchanges and records do to the
contexts in use, to the credits of the completion ring and to the places of the event ring. -/

namespace Sys2Proof.Machine

/-! ## The invariants with something owed -/

/-- A context in use whose end is decided and whose completion is not written yet. -/
def State.Undone (s : State) (id : Nat) : Prop := ∃ c ∈ s.pool, c.id = id ∧ c.phase = .ending ∧ c.body ≠ .reserved

/-- `State.CreditsKept` where the entries of the contexts `owed` are posted already and these contexts are still to be freed
(R145). -/
structure State.CreditsOwed (owed : List Nat) (s : State) : Prop where
  nodup : (owed ++ s.completionOrder).Nodup
  undone : ∀ id ∈ owed ++ s.completionOrder, s.Undone id
  reading : ∀ rd, s.reading = some rd → ∃ c ∈ s.pool, c.id = rd.ctx ∧ c.body = .reserved
  installed : s.Installed → s.completion.indexed ∧
    s.completion.posted + s.pool.countP (fun c => c.id ∉ owed) ≤ s.completion.size - 1
  empty : ¬ s.Installed → s.pool = [] ∧ s.completion.tail = 0 ∧ s.completion.hostHead = 0

theorem State.creditsKept_iff (s : State) : s.CreditsKept ↔ s.CreditsOwed [] := by
  have count : s.pool.countP (fun c => c.id ∉ ([] : List Nat)) = s.pool.length := by
    rw [List.countP_eq_length]
    simp
  refine ⟨fun ⟨h1, h2, h3, h4, h5⟩ => ⟨h1, h2, h3, ?_, h5⟩, fun ⟨h1, h2, h3, h4, h5⟩ => ⟨h1, h2, h3, ?_, h5⟩⟩
  · rwa [count]
  · rwa [count] at h4

/-- `State.PlacesKept` with `spare` reserved places that nothing holds yet. -/
structure State.PlacesSpared (spare : Nat) (s : State) : Prop where
  held : s.placesHeld + spare ≤ s.reserved
  installed : s.Installed → s.event.indexed ∧ s.reserved + s.event.posted ≤ s.event.size - 1
  empty : ¬ s.Installed → s.reserved = 0 ∧ s.event.tail = 0 ∧ s.event.hostHead = 0

theorem State.placesKept_iff (s : State) : s.PlacesKept ↔ s.PlacesSpared 0 :=
  ⟨fun ⟨h1, h2, h3⟩ => ⟨h1, h2, h3⟩, fun ⟨h1, h2, h3⟩ => ⟨h1, h2, h3⟩⟩

/-! ## The relation -/

/-- The invariants of O58 carry over from `s` to `t`, which takes `given` spare places and leaves `left`. -/
structure State.MovesRings (given left : Nat) (s t : State) : Prop where
  distinct : s.ContextsDistinct → t.ContextsDistinct
  credits : ∀ owed, s.ContextsDistinct → s.CreditsOwed owed → t.CreditsOwed owed
  places : ∀ n, s.PlacesSpared (n + given) → t.PlacesSpared (n + left)

/-- The invariants of O58 carry over, and so does every spare place. -/
abbrev State.KeepsRings (s t : State) : Prop := s.MovesRings 0 0 t

theorem State.MovesRings.refl (s : State) : s.KeepsRings s := ⟨id, fun _ _ => id, fun _ => id⟩

theorem State.MovesRings.trans {a b c : Nat} {s t u : State} (x : s.MovesRings a b t) (y : t.MovesRings b c u) :
    s.MovesRings a c u :=
  ⟨y.distinct ∘ x.distinct, fun owed hd hc => y.credits owed (x.distinct hd) (x.credits owed hd hc),
    fun n => y.places n ∘ x.places n⟩

/-- Composition that starts from the last operation. -/
theorem State.MovesRings.after {a b c : Nat} {s t u : State} (y : t.MovesRings b c u) (x : s.MovesRings a b t) :
    s.MovesRings a c u := x.trans y

/-- What keeps every spare place keeps those set aside. -/
theorem State.KeepsRings.widen {s t : State} (x : s.KeepsRings t) (k : Nat) : s.MovesRings k k t :=
  ⟨x.distinct, x.credits, fun n => x.places (n + k)⟩

theorem State.MovesRings.foldl {α : Type} (f : State → α → State) (hf : ∀ (s : State) a, s.KeepsRings (f s a))
    (as : List α) (s : State) : s.KeepsRings (as.foldl f s) := by
  induction as generalizing s with
  | nil => exact .refl s
  | cons a rest ih => exact (hf s a).trans (ih _)

/-- The contexts, their completions, the read in progress and the completion ring are the same. -/
structure State.SameCredits (s t : State) : Prop where
  pool : t.pool = s.pool
  order : t.completionOrder = s.completionOrder
  reading : t.reading = s.reading
  completion : t.completion = s.completion
  installed : t.Installed ↔ s.Installed

theorem State.SameCredits.distinct {s t : State} (e : s.SameCredits t) (h : s.ContextsDistinct) : t.ContextsDistinct := by
  rwa [State.ContextsDistinct, e.pool]

theorem State.SameCredits.owed {s t : State} (e : s.SameCredits t) {owed : List Nat} (h : s.CreditsOwed owed) :
    t.CreditsOwed owed := by
  refine ⟨?_, ?_, ?_, ?_, ?_⟩
  · rw [e.order]; exact h.nodup
  · simp only [e.order, State.Undone, e.pool]; exact h.undone
  · rw [e.reading, e.pool]; exact h.reading
  · rw [e.installed, e.completion, e.pool]; exact h.installed
  · rw [e.installed, e.completion, e.pool]; exact h.empty

/-- The event ring is the same, and so is the count of reserved places, of which no more are held. -/
structure State.SamePlaces (s t : State) : Prop where
  held : t.placesHeld ≤ s.placesHeld
  reserved : t.reserved = s.reserved
  event : t.event = s.event
  installed : t.Installed ↔ s.Installed

theorem State.SamePlaces.spared {s t : State} (e : s.SamePlaces t) {n : Nat} (h : s.PlacesSpared n) : t.PlacesSpared n := by
  refine ⟨?_, ?_, ?_⟩
  · rw [e.reserved]; exact Nat.le_trans (Nat.add_le_add_right e.held n) h.held
  · rw [e.installed, e.reserved, e.event]; exact h.installed
  · rw [e.installed, e.reserved, e.event]; exact h.empty

theorem State.SameCredits.keepsRings {s t : State} (e : s.SameCredits t) (p : s.SamePlaces t) : s.KeepsRings t :=
  ⟨e.distinct, fun _ _ => e.owed, fun _ => p.spared⟩

/-- No more lines carry out a POLL, and no more places are held. -/
theorem State.placesHeld_le {s t : State} (h1 : t.attentions = s.attentions) (h2 : t.eventWrite = s.eventWrite)
    (h3 : ∀ l, (t.line l).polling = true → (s.line l).polling = true) : t.placesHeld ≤ s.placesHeld := by
  unfold State.placesHeld
  rw [h1, h2]
  have := List.countP_mono_left (l := allLines) fun l _ => h3 l
  omega

/-- What no invariant of O58 reads has moved, and a line may have given up its POLL. -/
theorem State.keepsRings_of {s t : State}
    (h : t = { s with
          cause := t.cause, enable := t.enable, setupAddr := t.setupAddr, resetHeld := t.resetHeld
          intStatus := t.intStatus, intEnable := t.intEnable, intPin := t.intPin, completionInt := t.completionInt
          eventInt := t.eventInt, queues := t.queues, fetchUrgent := t.fetchUrgent, fetchNormal := t.fetchNormal
          fetchDue := t.fetchDue, stations := t.stations, lines := t.lines, refusedLines := t.refusedLines
          clock := t.clock, time := t.time, mem := t.mem, landings := t.landings, pending := t.pending })
    (hp : ∀ l, (t.line l).polling = true → (s.line l).polling = true) : s.KeepsRings t := by
  refine State.SameCredits.keepsRings ⟨?_, ?_, ?_, ?_, ?_⟩ ⟨State.placesHeld_le ?_ ?_ hp, ?_, ?_, ?_⟩ <;> rw [h] <;> rfl

/-- What no invariant of O58 reads has moved. -/
theorem State.MovesRings.same {s t : State}
    (h : t = { s with
          cause := t.cause, enable := t.enable, setupAddr := t.setupAddr, resetHeld := t.resetHeld
          intStatus := t.intStatus, intEnable := t.intEnable, intPin := t.intPin, completionInt := t.completionInt
          eventInt := t.eventInt, queues := t.queues, fetchUrgent := t.fetchUrgent, fetchNormal := t.fetchNormal
          fetchDue := t.fetchDue, stations := t.stations, refusedLines := t.refusedLines
          clock := t.clock, time := t.time, mem := t.mem, landings := t.landings, pending := t.pending }) : s.KeepsRings t := by
  refine State.keepsRings_of ?_ fun l => ?_
  · rw [h]
  · rw [h]; exact id

/-! ## Single updates -/

theorem State.keepsRings_updLine (s : State) (l : LineNo) (f : Line → Line)
    (hf : ∀ x, (f x).polling = true → x.polling = true) : s.KeepsRings (s.updLine l f) := by
  refine State.keepsRings_of rfl fun k => ?_
  rw [State.updLine_eq, State.line_setLine]
  split
  · next e =>
    subst e
    exact hf _
  · exact id

theorem State.keepsRings_reach (s : State) (t : Nat) : s.KeepsRings (s.reach t) := .same rfl

/-- A change of a line that begins no POLL, dated by a moment. -/
theorem State.keepsRings_reachLine (s : State) (l : LineNo) (t : Nat) (f : Line → Line)
    (hf : ∀ x, (f x).polling = true → x.polling = true) : s.KeepsRings ((s.reach t).updLine l f) :=
  (s.keepsRings_reach t).trans (State.keepsRings_updLine _ l f hf)

theorem State.keepsRings_setStation (s : State) (h : Handle) (x : Option Station) : s.KeepsRings (s.setStation h x) := .same rfl

theorem Line.polling_noticed (x : Line) : x.noticed.polling = x.polling := by
  rw [Line.noticed_eq]
  rfl

theorem State.keepsRings_notify (s : State) (l : LineNo) : s.KeepsRings (s.notify l) :=
  s.keepsRings_updLine l _ fun x => x.polling_noticed.symm.trans

theorem State.keepsRings_tellLines (s : State) (ls : List LineNo) : s.KeepsRings (s.tellLines ls) := by
  refine State.keepsRings_of rfl fun l => ?_
  rw [State.line_tellLines]
  split
  · rw [Line.polling_noticed]; exact id
  · exact id

/-- What an end may change of a line leaves its attempt. -/
theorem State.Ends.polling {s t : State} (e : s.Ends t) (l : LineNo) : (t.line l).polling = (s.line l).polling := by
  rw [(e.lines l).2]
  rfl

/-- An end moves no place of the event ring. -/
theorem State.Ends.samePlaces {s t : State} (e : s.Ends t) : s.SamePlaces t := by
  have hr := e.rest
  refine ⟨State.placesHeld_le ?_ ?_ fun l => ?_, ?_, ?_, ?_⟩
  · rw [hr]
  · rw [hr]
  · rw [e.polling]; exact id
  · rw [hr]
  · rw [hr]
  · rw [hr]; rfl

/-- An end that leaves the contexts and the handed list. -/
theorem State.Ends.keepsRings {s t : State} (e : s.Ends t) (hp : t.pool = s.pool) (hh : t.handed = s.handed) :
    s.KeepsRings t := by
  have hr := e.rest
  refine State.SameCredits.keepsRings ⟨hp, State.completionOrder_congr hh ?_, ?_, ?_, ?_⟩ e.samePlaces <;> rw [hr]
  rfl

/-! ## Contexts -/

/-- The change of a context that `State.updCtx` makes. -/
def Context.updated (id : Nat) (f : Context → Context) (c : Context) : Context :=
  if c.id = id ∧ c.phase ≠ .ending then f c else c

theorem State.pool_updCtx (s : State) (id : Nat) (f : Context → Context) :
    (s.updCtx id f).pool = s.pool.map (Context.updated id f) := rfl

section
variable {s : State} {id : Nat} {f : Context → Context}

theorem Context.id_updated (hf : ∀ c, (f c).id = c.id) (c : Context) : (c.updated id f).id = c.id := by
  unfold Context.updated
  split
  · exact hf c
  · rfl

theorem State.contextsDistinct_updCtx (hf : ∀ c, (f c).id = c.id) (h : s.ContextsDistinct) :
    (s.updCtx id f).ContextsDistinct := by
  refine ⟨?_, fun c hc => ?_⟩
  · have names : (Context.id ∘ Context.updated id f) = Context.id := funext fun c => Context.id_updated hf c
    rw [State.pool_updCtx, List.map_map]
    rw [show List.map ((fun x => x.id) ∘ Context.updated id f) s.pool = s.pool.map (·.id) from congrArg (List.map · s.pool) names]
    exact h.1
  · rw [State.pool_updCtx] at hc
    obtain ⟨d, hd, rfl⟩ := List.mem_map.1 hc
    rw [Context.id_updated hf]
    exact h.2 d hd

/-- A context in ENDING is finished for every change (section 4.6). -/
theorem State.Undone.updCtx {k : Nat} (h : s.Undone k) : (s.updCtx id f).Undone k := by
  obtain ⟨c, hc, hid, hp, hb⟩ := h
  refine ⟨c, ?_, hid, hp, hb⟩
  rw [State.pool_updCtx]
  refine List.mem_map.2 ⟨c, hc, if_neg fun hn => hn.2 hp⟩

theorem State.creditsOwed_updCtx {owed : List Nat} (hf : ∀ c, (f c).id = c.id)
    (hb : s.reading = none ∨ ∀ c, (f c).body = c.body) (h : s.CreditsOwed owed) : (s.updCtx id f).CreditsOwed owed := by
  refine ⟨h.nodup, fun k hk => (h.undone k hk).updCtx, fun rd hrd => ?_, fun hi => ⟨(h.installed hi).1, ?_⟩, fun hi => ?_⟩
  · obtain ⟨c, hc, hid, hbody⟩ := h.reading rd hrd
    refine ⟨c.updated id f, List.mem_map_of_mem hc, (Context.id_updated hf c).trans hid, ?_⟩
    rcases hb with hnone | hkeep
    · rw [State.updCtx_reading, hnone] at hrd
      cases hrd
    · unfold Context.updated
      split
      · exact (hkeep c).trans hbody
      · exact hbody
  · have count : (s.updCtx id f).pool.countP (fun c => c.id ∉ owed) = s.pool.countP (fun c => c.id ∉ owed) := by
      rw [State.pool_updCtx, List.countP_map]
      exact List.countP_congr fun c _ => by simp only [Function.comp_apply, Context.id_updated hf]
    rw [count]
    exact (h.installed hi).2
  · obtain ⟨hp, ht⟩ := h.empty hi
    exact ⟨by rw [State.pool_updCtx, hp]; rfl, ht⟩

theorem State.keepsRings_updCtx (hf : ∀ c, (f c).id = c.id) (hb : s.reading = none ∨ ∀ c, (f c).body = c.body) :
    s.KeepsRings (s.updCtx id f) :=
  ⟨State.contextsDistinct_updCtx hf, fun _ _ => State.creditsOwed_updCtx hf hb, fun _ => (s.ends_updCtx id f).samePlaces.spared⟩

end

/-- A change of a context that keeps its name and its record. -/
theorem State.keepsRings_setCtx (s : State) (id : Nat) (f : Context → Context) (hf : ∀ c, (f c).id = c.id ∧ (f c).body = c.body) :
    s.KeepsRings (s.updCtx id f) :=
  State.keepsRings_updCtx (fun c => (hf c).1) (.inr fun c => (hf c).2)

/-! ## Completions (R144) -/

theorem State.mem_of_ctx {s : State} {id : Nat} {c : Context} (h : s.ctx id = some c) : c ∈ s.pool := List.mem_of_find?_eq_some h

theorem State.eq_of_distinct {s : State} {c d : Context} (h : s.ContextsDistinct) (hc : c ∈ s.pool) (hd : d ∈ s.pool)
    (e : c.id = d.id) : c = d := List.inj_on_of_nodup_map h.1 hc hd e

/-- The context of a completion held has no second end. -/
theorem State.not_undone_of_live {s : State} {id : Nat} {c : Context} (h : s.ContextsDistinct) (hc : s.ctx id = some c)
    (hl : c.Live) : ¬ s.Undone id := by
  rintro ⟨d, hd, hid, hp, -⟩
  obtain rfl := State.eq_of_distinct h (State.mem_of_ctx hc) hd ((State.ctx_id hc).trans hid.symm)
  exact hl.1 hp

/-- A completion of a context in ENDING that has none joins the handed list. -/
theorem State.CreditsOwed.hand {s : State} {owed : List Nat} {e : Completion} (h : s.CreditsOwed owed) (hu : s.Undone e.ctx)
    (hn : e.ctx ∉ owed ++ s.completionOrder) : ({ s with handed := s.handed ++ [e] } : State).CreditsOwed owed := by
  have order : ({ s with handed := s.handed ++ [e] } : State).completionOrder = s.completionOrder ++ [e.ctx] := by
    simp [State.completionOrder]
  refine ⟨?_, ?_, h.reading, h.installed, h.empty⟩
  · rw [order, ← List.append_assoc]
    exact List.nodup_append.2 ⟨h.nodup, List.nodup_singleton _, fun k hk j hj e =>
      hn (by rw [← List.mem_singleton.1 hj, ← e]; exact hk)⟩
  · rw [order, ← List.append_assoc]
    intro k hk
    rcases List.mem_append.1 hk with hk | hk
    · exact h.undone k hk
    · rw [List.mem_singleton.1 hk]; exact hu

theorem State.keepsRings_hand (s : State) (id : Nat) (st : Status) (d : Detail) (n : Nat) (b : Option (Fin 8))
    (t : Option Nat) : s.KeepsRings (s.hand id st d n b t) := by
  have places := (s.ends_hand id st d n b t).samePlaces
  revert places
  unfold State.hand
  split
  · exact fun _ => .refl s
  · next c hc =>
    split
    · exact fun _ => .refl s
    · next hopen =>
      intro places
      have hl : c.Live := by simpa only [Context.Live, not_or] using hopen
      have ended := State.keepsRings_setCtx s id (fun c => { c with phase := .ending }) fun _ => ⟨rfl, rfl⟩
      refine ⟨ended.distinct, fun owed hd ho => (ended.credits owed hd ho).hand ?_ fun hmem => ?_, fun _ => places.spared⟩
      · exact ⟨{ c with phase := .ending }, List.mem_map.2 ⟨c, State.mem_of_ctx hc, if_pos ⟨State.ctx_id hc, hl.1⟩⟩,
          (State.ctx_id hc : c.id = id), rfl, hl.2⟩
      · exact State.not_undone_of_live hd hc hl (ho.undone id hmem)

/-! ## Ends (chapter 4) -/

theorem State.keepsRings_endRecord (s : State) (id : Nat) (st : Status) (d : Detail) : s.KeepsRings (s.endRecord id st d) :=
  s.keepsRings_hand ..

theorem State.keepsRings_endOk (s : State) (id : Nat) : s.KeepsRings (s.endOk id) := s.keepsRings_endRecord ..

theorem State.keepsRings_endAbort (s : State) (a : Option Nat) (st : Status) : s.KeepsRings (s.endAbort a st) := by
  unfold State.endAbort
  split
  · exact s.keepsRings_endRecord ..
  · exact .refl s

theorem State.keepsRings_leaveLists (s : State) (c : Context) : s.KeepsRings (s.leaveLists c) := by
  refine (s.ends_leaveLists c).keepsRings ?_ ?_ <;>
  · unfold State.leaveLists State.leavePending
    split <;> split <;> rfl

theorem State.keepsRings_linkInDoubt (s : State) (h : Handle) : s.KeepsRings (s.linkInDoubt h) := by
  unfold State.linkInDoubt
  split
  · exact .refl s
  · simp only
    split
    · exact (s.keepsRings_setStation ..).trans (State.keepsRings_notify _ _)
    · exact s.keepsRings_setStation ..

theorem State.keepsRings_markUncertain (s : State) (c : Context) (st : Status) : s.KeepsRings (s.markUncertain c st) := by
  unfold State.markUncertain
  split
  · split
    · exact s.keepsRings_linkInDoubt _
    · exact .refl s
  · exact .refl s

theorem State.keepsRings_endOne (s : State) (id : Nat) (st : Status) (d : Detail) (n : Nat) :
    s.KeepsRings (s.endOne id st d n) := by
  unfold State.endOne
  split
  · exact .refl s
  · split
    · exact .refl s
    · exact ((s.keepsRings_leaveLists _).trans (State.keepsRings_markUncertain ..)).trans (State.keepsRings_hand ..)

theorem State.keepsRings_endPlain (s : State) (id : Nat) (st : Status) : s.KeepsRings (s.endPlain id st) :=
  s.keepsRings_endOne ..

theorem State.keepsRings_endList (s : State) (h : Handle) (st : Status) : s.KeepsRings (s.endList h st) := by
  unfold State.endList
  split
  · exact .refl s
  · exact .foldl _ (fun s id => s.keepsRings_endPlain id st) _ _

theorem State.keepsRings_tryFree (s : State) (h : Handle) : s.KeepsRings (s.tryFree h) := by
  unfold State.tryFree
  split
  · exact .refl s
  · split
    · split
      · exact (s.keepsRings_setStation ..).trans (State.keepsRings_endRecord ..)
      · exact s.keepsRings_setStation ..
    · exact .refl s

theorem State.keepsRings_settleClosing (s : State) (h : Handle) : s.KeepsRings (s.settleClosing h) := by
  refine State.MovesRings.after (State.keepsRings_tryFree _ h) ?_
  unfold State.drainClosing
  split
  · exact .refl s
  · split
    · exact s.keepsRings_endList ..
    · exact .refl s

theorem State.keepsRings_endExchange (s : State) (id : Nat) (st : Status) (d : Detail) (n : Nat) :
    s.KeepsRings (s.endExchange id st d n) := by
  unfold State.endExchange
  split
  · exact .refl s
  · simp only
    split
    · exact (s.keepsRings_endOne ..).trans (State.keepsRings_settleClosing _ _)
    · exact s.keepsRings_endOne ..

theorem State.keepsRings_endWith (s : State) (id : Nat) (st : Status) : s.KeepsRings (s.endWith id st) :=
  s.keepsRings_endExchange ..

/-- An exchange or broadcast ends, and the ABORT that waited for it. -/
theorem State.keepsRings_endAborted (s : State) (id : Nat) (st : Status) (a : Option Nat) (st' : Status) :
    s.KeepsRings ((s.endWith id st).endAbort a st') := (s.keepsRings_endWith ..).trans (State.keepsRings_endAbort ..)

theorem State.keepsRings_endRetries (s : State) (l : LineNo) : s.KeepsRings (s.endRetries l) :=
  .foldl State.endBreak (fun s id => (s.keepsRings_setCtx id (fun c => { c with lastFailure := some .lineBreak }) fun _ => ⟨rfl, rfl⟩).trans
    (State.keepsRings_endWith ..)) _ _

theorem State.keepsRings_drainOffline (s : State) (h : Handle) (job : Job) : s.KeepsRings (s.drainOffline h job) := by
  unfold State.drainOffline
  refine State.MovesRings.after (State.keepsRings_endList _ h _) ?_
  split
  · split
    · exact (s.keepsRings_endPlain ..).trans (State.keepsRings_endAbort ..)
    · exact s.keepsRings_endPlain ..
  · exact .refl s

theorem State.keepsRings_linkLoop (s : State) (st : Station) (o : AttemptOutcome) : s.KeepsRings (s.linkLoop st o) := by
  unfold State.linkLoop
  split
  · exact .refl s
  · split
    · exact .refl s
    · split
      · exact .refl s
      · exact State.MovesRings.after (State.keepsRings_endWith ..) (s.keepsRings_setCtx _ _ fun _ => ⟨rfl, rfl⟩)

theorem State.keepsRings_awaitRetry (s : State) (l : LineNo) (id : Nat) : s.KeepsRings (s.awaitRetry l id) :=
  State.MovesRings.after (State.keepsRings_updLine _ l _ fun _ h => h) (s.keepsRings_setCtx _ _ fun _ => ⟨rfl, rfl⟩)

theorem State.keepsRings_returnToWait (s : State) (l : LineNo) (id : Nat) (origin : Phase) :
    s.KeepsRings (s.returnToWait l id origin) := by
  have returned := s.keepsRings_setCtx id (fun c => { c with phase := origin }) fun _ => ⟨rfl, rfl⟩
  unfold State.returnToWait
  simp only
  split
  · exact returned.trans (State.keepsRings_updLine _ l _ fun _ h => h)
  · exact returned

theorem State.keepsRings_cancelAbandoned (s : State) (job : Option Job) : s.KeepsRings (s.cancelAbandoned job) := by
  unfold State.cancelAbandoned
  split
  · split
    · split
      · exact s.keepsRings_endWith ..
      · exact .refl s
    · exact .refl s
  · exact .refl s

theorem State.keepsRings_abortRecord (s : State) (q : QueueNo) (t id : Nat) : s.KeepsRings (s.abortRecord q t id) := by
  have ended : ∀ c : Context, s.KeepsRings ((s.endWith c.id .aborted).endOk id) := fun c =>
    (s.keepsRings_endWith ..).trans (State.keepsRings_endOk ..)
  have requested : ∀ c : Context, s.KeepsRings (s.updCtx c.id fun d => { d with abortRequested := some id }) := fun c =>
    s.keepsRings_setCtx _ _ fun _ => ⟨rfl, rfl⟩
  unfold State.abortRecord
  split
  · next c _ =>
    unfold State.abortContext
    split
    · exact ended c
    · exact ended c
    · exact ended c
    · exact requested c
    · exact requested c
    · exact .refl s
  · exact s.keepsRings_endRecord ..

theorem State.keepsRings_fenceRecord (s : State) (id : Nat) : s.KeepsRings (s.fenceRecord id) := by
  have counted := s.keepsRings_setCtx id (fun c => { c with fenceCount := s.fenceCountOf id }) fun _ => ⟨rfl, rfl⟩
  unfold State.fenceRecord
  simp only
  split
  · exact counted.trans (State.keepsRings_endOk ..)
  · exact counted

theorem State.keepsRings_fenceCounts (s : State) (id : Nat) : s.KeepsRings (s.fenceCounts id) := by
  have counted := s.keepsRings_setCtx id (fun c => { c with fenceCount := c.fenceCount - 1 }) fun _ => ⟨rfl, rfl⟩
  unfold State.fenceCounts
  simp only
  split
  · exact counted.trans (State.keepsRings_endRecord ..)
  · exact counted

/-! ## Outcomes of attempts (sections 4.4, 4.5) -/

theorem State.keepsRings_exchangeFailed (s : State) (l : LineNo) (c : Context) (st : Station) :
    s.KeepsRings (s.exchangeFailed l c st) := by
  unfold State.exchangeFailed
  split
  · exact s.keepsRings_endAborted ..
  · split
    · split
      · exact s.keepsRings_endWith ..
      · exact s.keepsRings_awaitRetry ..
    · exact s.keepsRings_endWith ..

theorem State.keepsRings_exchangeBusy (s : State) (c : Context) (st : Station) : s.KeepsRings (s.exchangeBusy c st) := by
  unfold State.exchangeBusy
  split
  · exact s.keepsRings_endAborted ..
  · split
    · exact s.keepsRings_endWith ..
    · split
      · exact s.keepsRings_endWith ..
      · exact s.keepsRings_setCtx _ _ fun _ => ⟨rfl, rfl⟩

theorem Line.polling_replyDelivered (x : Line) : x.replyDelivered.polling = x.polling := by
  rw [Line.polling, x.replyDelivered_keeps.2]
  rfl

theorem State.keepsRings_replyWritten (s : State) (l : LineNo) (id : Nat) (octets : List Byte) (r : BusWrite) :
    s.KeepsRings (s.replyWritten l id octets r) := by
  have delivered : ∀ u : State, u.KeepsRings (u.updLine l Line.replyDelivered) := fun u =>
    u.keepsRings_updLine l _ fun x => x.polling_replyDelivered.symm.trans
  unfold State.replyWritten
  split
  · exact delivered s
  · exact State.MovesRings.after (State.keepsRings_endAbort ..) (State.MovesRings.after (State.keepsRings_endExchange ..)
      (State.MovesRings.after (delivered _) (.same rfl)))

theorem State.keepsRings_exchangeActs (s : State) (l : LineNo) (c : Context) (st : Station) (o : AttemptOutcome) :
    s.KeepsRings (s.exchangeActs l c st o) := by
  have refused : ∀ reason, s.KeepsRings
      ((s.endExchange c.id .refused (.reason reason) 0).endAbort c.abortRequested .tooLate) := fun reason =>
    (s.keepsRings_endExchange ..).trans (State.keepsRings_endAbort ..)
  have failed := s.keepsRings_exchangeFailed l c st
  cases o with
  | ack => exact s.keepsRings_endAborted ..
  | reply octets =>
    have filled : s.KeepsRings (s.updLine l fun x => { x with rxBuffer := some (.reply c.id octets) }) :=
      s.keepsRings_updLine l _ fun _ h => h
    simp only [State.exchangeActs, State.beginReply]
    split
    · exact filled.trans (State.keepsRings_replyWritten ..)
    · exact filled
  | busy => exact s.keepsRings_exchangeBusy ..
  | nak cls reason =>
    cases cls with
    | check => exact failed
    | refused => exact refused reason
    | unsupported => exact refused reason
  | attention octets => exact .refl s
  | idle => exact .refl s
  | noAnswer => exact failed
  | garbled => exact failed
  | wrongStation => exact failed
  | unexpected => exact failed
  | lineBreak =>
    simp only [State.exchangeActs]
    split
    · exact s.keepsRings_endAborted ..
    · exact s.keepsRings_endWith ..

end Sys2Proof.Machine
end

section
/-! PROOFS. Contexts and rings under the writers, the engine and the scheduler (R72, R73, R144, R147 to R150): a place of the
event ring is held by a POLL from its grant on, passes to its ATTENTION report and to the entry of it, and is given up with the
POLL or the entry. -/

namespace Sys2Proof.Machine

/-! ## The places held -/

/-- One position of a list counts for at most one. -/
theorem countP_add_le {α : Type} {as : List α} {p q : α → Bool} {a : α} (hn : as.Nodup) (ha : a ∈ as)
    (h : ∀ x, x ≠ a → q x = true → p x = true) : as.countP q + (p a).toNat ≤ as.countP p + (q a).toNat := by
  have single : ∀ r : α → Bool, [a].countP r = (r a).toNat := fun r => by cases hr : r a <;> simp [hr]
  obtain ⟨before, after, rfl⟩ := List.append_of_mem ha
  have hne : ∀ x, x ∈ before ∨ x ∈ after → x ≠ a := by
    rintro x hx rfl
    have := List.nodup_middle.1 hn
    simp only [List.nodup_cons, List.mem_append] at this
    exact this.1 hx
  have hb := List.countP_mono_left (l := before) fun x hx => h x (hne x (.inl hx))
  have ht := List.countP_mono_left (l := after) fun x hx => h x (hne x (.inr hx))
  have split : ∀ r : α → Bool, (before ++ a :: after).countP r = before.countP r + (r a).toNat + after.countP r := fun r => by
    rw [← single r, List.countP_append, List.countP_cons, List.countP_singleton]
    omega
  rw [split, split]
  omega

/-- A line that is set holds a place by what it carries out. -/
theorem State.placesHeld_setLine (s : State) (l : LineNo) (x : Line) :
    (s.setLine l x).placesHeld + (s.line l).polling.toNat ≤ s.placesHeld + x.polling.toNat := by
  have := countP_add_le (as := allLines) (p := fun k => (s.line k).polling) (q := fun k => ((s.setLine l x).line k).polling)
    (a := l) (List.nodup_finRange 4) (List.mem_finRange l) fun k hk => by rw [s.line_setLine_ne hk]; exact id
  rw [State.line_setLine_same] at this
  have held : (s.setLine l x).placesHeld = (allLines.countP fun k => ((s.setLine l x).line k).polling) +
      s.attentions.length + (if s.eventWrite.isSome then 1 else 0) := rfl
  rw [held, State.placesHeld]
  omega

/-- R72: a POLL that leaves its line leaves its place to spare. -/
theorem State.movesRings_takePoll (s : State) (l : LineNo) (f : Line → Line) (hj : (s.line l).polling = true)
    (hf : (f (s.line l)).polling = false) : s.MovesRings 0 1 (s.updLine l f) := by
  have kept := s.keepsRings_of (t := s.updLine l f) rfl fun k => by
    rw [State.updLine_eq, State.line_setLine]
    split
    · rw [hf]; exact fun h => by cases h
    · exact id
  refine ⟨kept.distinct, kept.credits, fun n h => ⟨?_, h.installed, h.empty⟩⟩
  have := s.placesHeld_setLine l (f (s.line l))
  rw [hj, hf] at this
  have held := h.held
  simp only [Bool.toNat_true, Bool.toNat_false, State.updLine_eq, State.setLine_reserved] at *
  omega

/-! ## The event ring's writer -/

theorem State.keepsRings_judgeGrant (s : State) : s.KeepsRings s.judgeGrant := by
  unfold State.judgeGrant
  split
  · exact (s.keepsRings_tellLines s.refusedLines).trans (.same rfl)
  · exact .refl s

/-- R148: the release of a reservation that nothing holds. -/
theorem State.movesRings_releaseReservation (s : State) : s.MovesRings 1 0 s.releaseReservation := by
  refine State.MovesRings.after (State.keepsRings_judgeGrant _) ?_
  have kept : s.SameCredits { s with reserved := s.reserved - 1 } := ⟨rfl, rfl, rfl, rfl, Iff.rfl⟩
  refine ⟨kept.distinct, fun _ _ => kept.owed, fun n h => ⟨?_, fun hi => ?_, fun hi => ?_⟩⟩
  · have := h.held
    show s.placesHeld + n ≤ s.reserved - 1
    omega
  · obtain ⟨hx, hle⟩ := h.installed hi
    exact ⟨hx, Nat.le_trans (Nat.add_le_add_right (Nat.sub_le ..) _) hle⟩
  · obtain ⟨hr, ht⟩ := h.empty hi
    exact ⟨by show s.reserved - 1 = 0; omega, ht⟩

/-- R73: an ATTENTION report takes over the place of its POLL. -/
theorem State.movesRings_attention (s : State) (r : AttentionReport) :
    s.MovesRings 1 0 { s with attentions := s.attentions ++ [r] } := by
  have kept : s.SameCredits { s with attentions := s.attentions ++ [r] } := ⟨rfl, rfl, rfl, rfl, Iff.rfl⟩
  refine ⟨kept.distinct, fun _ _ => kept.owed, fun n h => ⟨?_, h.installed, h.empty⟩⟩
  have := h.held
  simp only [State.placesHeld, List.length_append, List.length_singleton] at *
  exact this.trans' (by simp only [State.line]; omega)

/-- R72, R73: the outcome of a POLL gives its place up or hands it over. -/
theorem State.movesRings_pollActs (s : State) (l : LineNo) (h : Handle) (p : Bool) (o : AttemptOutcome) (ap : Bool) :
    s.MovesRings 1 0 (s.pollActs l h p o ap) := by
  unfold State.pollActs
  split
  · next octets =>
    exact State.MovesRings.trans (b := 1) (State.KeepsRings.widen (s.keepsRings_updLine l
      (fun x => { x with rxBuffer := some (.attention octets) }) fun _ h => h) 1) (State.movesRings_attention _ _)
  · exact s.movesRings_releaseReservation

/-- R149: a report takes a place of its own, as its entry begins. -/
theorem State.keepsRings_takePlace (s : State) (octets : List Byte) (hw : s.eventWrite = none) (hf : 0 < s.freePlaces)
    (hi : s.Installed) : s.KeepsRings (s.beginEvent octets none).takePlace := by
  refine State.MovesRings.after (State.keepsRings_judgeGrant _) ?_
  have kept : s.SameCredits { s.beginEvent octets none with reserved := s.reserved + 1 } := ⟨rfl, rfl, rfl, rfl, Iff.rfl⟩
  refine ⟨kept.distinct, fun _ _ => kept.owed, fun n h => ⟨?_, fun _ => ⟨(h.installed hi).1, ?_⟩, fun hn => (hn hi).elim⟩⟩
  · have := h.held
    simp only [State.placesHeld, State.beginEvent, State.line, hw] at *
    simp only [Option.isSome_none, Bool.false_eq_true, if_false, Option.isSome_some, if_true] at *
    omega
  · show s.reserved + 1 + s.event.posted ≤ s.event.size - 1
    unfold State.freePlaces at hf
    omega

theorem State.keepsRings_takeReport (s : State) (hw : s.eventWrite = none) (hf : 0 < s.freePlaces) (hi : s.Installed) :
    s.KeepsRings s.takeReport := by
  unfold State.takeReport
  split
  · next l _ =>
    refine State.MovesRings.after (State.keepsRings_takePlace _ _ hw hf hi)
      (s.keepsRings_updLine l (fun x => { x with breaksSeen := 0, chatter := 0, breakEnded := false, stuckSeen := false })
        fun _ h => h)
  · split
    · split
      · exact State.MovesRings.after (State.keepsRings_takePlace _ _ hw hf hi) (.same rfl)
      · exact .refl s
    · split
      · split
        · exact State.MovesRings.after (State.keepsRings_takePlace _ _ hw hf hi) (s.keepsRings_setStation ..)
        · exact .refl s
      · exact .refl s

/-- R149: the entry of an ATTENTION report takes over the report's place. -/
theorem State.keepsRings_startEvent (s : State) (hi : s.Installed) : s.KeepsRings s.startEvent := by
  unfold State.startEvent
  split
  · exact .refl s
  · next hw =>
    split
    · next r rest ha =>
      refine State.SameCredits.keepsRings ⟨rfl, rfl, rfl, rfl, Iff.rfl⟩ ⟨?_, rfl, rfl, Iff.rfl⟩
      simp only [State.placesHeld, State.beginEvent, State.line, hw, ha]
      simp only [Option.isSome_none, Bool.false_eq_true, if_false, Option.isSome_some, if_true, List.length_cons]
      omega
    · split
      · next hf => exact s.keepsRings_takeReport hw hf hi
      · exact .refl s

/-! ## The completion writer and the end of a step -/

theorem State.keepsRings_startCompletion (s : State) : s.KeepsRings s.startCompletion := by
  have order := s.completionOrder_startCompletion
  revert order
  unfold State.startCompletion
  split
  · exact fun order => State.SameCredits.keepsRings ⟨rfl, order, rfl, rfl, Iff.rfl⟩ ⟨Nat.le_refl _, rfl, rfl, Iff.rfl⟩
  · exact fun _ => .refl s

/-- A move of the device between states in which the rings are installed. -/
theorem State.keepsRings_setDevice (s : State) (d : DeviceState) (hs : s.Installed) (hd : d ≠ .ready ∧ d ≠ .starting) :
    s.KeepsRings { s with device := d } :=
  State.SameCredits.keepsRings ⟨rfl, rfl, rfl, rfl, iff_of_true hd hs⟩ ⟨Nat.le_refl _, rfl, rfl, iff_of_true hd hs⟩

theorem State.keepsRings_setCause (s : State) (c : IntCause) : s.KeepsRings (s.setCause c) := .same rfl

theorem State.keepsRings_checkHalted (s : State) : s.KeepsRings s.checkHalted := by
  unfold State.checkHalted
  split
  · next h =>
    exact State.MovesRings.after (State.keepsRings_setCause _ _) (s.keepsRings_setDevice .halted
      (by simp [State.Installed, h.1]) (by simp))
  · exact .refl s

theorem State.installed_of_posting {s : State} (h : s.posting = true) : s.Installed := by
  simp only [State.posting, Bool.and_eq_true, Bool.or_eq_true, beq_iff_eq] at h
  rcases h.2 with (h | h) | h <;> simp [State.Installed, h]

theorem State.installed_startCompletion {s : State} (h : s.Installed) : s.startCompletion.Installed := by
  unfold State.startCompletion
  split <;> exact h

theorem State.keepsRings_finish (s : State) : s.KeepsRings s.finish := by
  unfold State.finish
  split
  · next h =>
    exact (s.keepsRings_startCompletion.trans (State.keepsRings_startEvent _
      (State.installed_startCompletion (State.installed_of_posting h)))).trans (State.keepsRings_checkHalted _)
  · exact .refl s

/-! ## The engine (chapters 5, 6) -/

section
variable (s : State) (l : LineNo)

theorem State.keepsRings_jobActs (h : Handle) (job : Job) (st after : Station) (o : AttemptOutcome) (ap : Bool)
    (hj : ∀ k p, job ≠ .poll k p) : s.KeepsRings (s.jobActs l h job st after o ap) := by
  cases job with
  | command id h' origin =>
    simp only [State.jobActs]
    split
    · exact s.keepsRings_drainOffline ..
    · split
      · exact s.keepsRings_exchangeActs ..
      · exact .refl s
  | broadcast id => exact .refl s
  | poll h' p => exact (hj h' p rfl).elim
  | link h' =>
    simp only [State.jobActs]
    split
    · exact s.keepsRings_drainOffline ..
    · split
      · exact s.keepsRings_linkLoop ..
      · exact s.keepsRings_settleClosing h
  | probe h' => exact s.keepsRings_settleClosing h

/-- R72, R73: the outcome of a POLL takes the place that the POLL has left to spare. -/
theorem State.movesRings_jobActs_poll (h k : Handle) (p : Bool) (st after : Station) (o : AttemptOutcome) (ap : Bool) :
    s.MovesRings 1 0 (s.jobActs l h (.poll k p) st after o ap) := by
  simp only [State.jobActs]
  refine State.MovesRings.after (State.keepsRings_settleClosing _ h)
    (State.MovesRings.after (State.movesRings_pollActs _ l h p o ap) ?_)
  split
  · exact (s.keepsRings_drainOffline ..).widen 1
  · exact State.KeepsRings.widen (.refl s) 1

theorem State.keepsRings_noteContext (job : Job) (o : AttemptOutcome) (t : Option Nat) : s.KeepsRings (s.noteContext job o t) := by
  cases job with
  | command id h origin =>
    exact s.keepsRings_setCtx id _ fun c => ⟨(c.noteOutcome_keeps o t).1, (c.noteOutcome_keeps o t).2.2.1⟩
  | broadcast id => exact .refl s
  | poll h p => exact .refl s
  | link h => exact .refl s
  | probe h => exact .refl s

/-- A spare place may stay unused. -/
theorem State.MovesRings.forget {a b : Nat} {s t : State} (x : s.MovesRings a (b + 1) t) : s.MovesRings a b t :=
  ⟨x.distinct, x.credits, fun n h => by
    have hx := x.places n h
    exact ⟨by have := hx.held; omega, hx.installed, hx.empty⟩⟩

/-- R88: the outcome of the line's own attempt is delivered. -/
theorem State.keepsRings_deliver (job : Job) (o : AttemptOutcome) (ap : Bool) (hjob : (s.line l).job = some job) :
    s.KeepsRings (s.deliver l job o ap) := by
  unfold State.deliver
  simp only
  generalize (if o.isAnswer = true then (s.line l).turnaround else none) = n
  by_cases hpoll : ∃ k p, job = .poll k p
  · obtain ⟨k, p, rfl⟩ := hpoll
    have taken : s.MovesRings 0 1 ((s.updLine l fun x => { x with job := none, turnaround := none, replyTimer := none }).noteContext
        (.poll k p) o n) :=
      s.movesRings_takePoll l (fun x => { x with job := none, turnaround := none, replyTimer := none })
        (by rw [Line.polling, hjob]) rfl
    split
    · exact taken.forget
    · split
      · exact taken.forget
      · exact State.MovesRings.after (State.movesRings_jobActs_poll ..)
          (taken.trans (State.KeepsRings.widen (State.keepsRings_setStation ..) 1))
  · have taken : s.KeepsRings
        ((s.updLine l fun x => { x with job := none, turnaround := none, replyTimer := none }).noteContext job o n) :=
      State.MovesRings.after (State.keepsRings_noteContext ..) (s.keepsRings_updLine l _ fun _ h => by cases h)
    split
    · exact taken
    · split
      · exact taken
      · exact State.MovesRings.after (State.keepsRings_jobActs _ l _ _ _ _ _ _ fun k p e => hpoll ⟨k, p, e⟩)
          (taken.trans (State.keepsRings_setStation ..))

theorem State.keepsRings_endQuiescers : s.KeepsRings (s.endQuiescers l) :=
  State.MovesRings.after (State.keepsRings_updLine _ l _ fun _ h => h)
    (State.MovesRings.foldl _ (fun s id => s.keepsRings_endRecord id .ok .none) _ _)

theorem State.keepsRings_toGuard : s.KeepsRings (s.toGuard l) :=
  State.MovesRings.after (State.keepsRings_endQuiescers _ l) (s.keepsRings_updLine l _ fun _ h => by cases h)

theorem State.keepsRings_endAttempt (o : AttemptOutcome) (ap : Bool) : s.KeepsRings (s.endAttempt l o ap) := by
  unfold State.endAttempt
  split
  · exact s.keepsRings_toGuard l
  · next job hjob => exact (s.keepsRings_deliver l job o ap hjob).trans (State.keepsRings_toGuard _ l)

theorem State.keepsRings_breakReaches : s.KeepsRings (s.breakReaches l) :=
  State.MovesRings.after (State.keepsRings_endRetries _ l) (.same rfl)

theorem State.keepsRings_enterBreakOut (records : List Nat) (now : Nat) : s.KeepsRings (s.enterBreakOut l records now) :=
  State.MovesRings.after (State.keepsRings_breakReaches _ l) (s.keepsRings_updLine l _ fun _ h => by cases h)

theorem State.keepsRings_beginAttempt (job : Job) : s.KeepsRings (s.beginAttempt job) := by
  cases job with
  | command id h origin => exact s.keepsRings_setCtx _ _ fun _ => ⟨rfl, rfl⟩
  | broadcast id => exact s.keepsRings_setCtx _ _ fun _ => ⟨rfl, rfl⟩
  | poll h p => exact .refl s
  | probe h => exact .refl s
  | link h =>
    simp only [State.beginAttempt]
    split
    · split
      · split
        · exact s.keepsRings_setCtx _ _ fun _ => ⟨rfl, rfl⟩
        · exact .refl s
      · exact .refl s
    · exact .refl s

theorem Line.not_polling_of_job {x : Line} {job : Job} (hx : x.job = some job) (hj : ∀ k p, job ≠ .poll k p) :
    x.polling = false := by
  unfold Line.polling
  split
  · next k p hp => exact (hj k p (Option.some.inj (hx.symm.trans hp))).elim
  · rfl

/-- R61, R86: an attempt other than a POLL begins. -/
theorem State.keepsRings_beginTransmit (job : Job) (hj : ∀ k p, job ≠ .poll k p) : s.KeepsRings (s.beginTransmit l job) :=
  (s.keepsRings_beginAttempt job).trans (State.keepsRings_updLine _ l _ fun _ h => by
    rw [Line.not_polling_of_job rfl hj] at h; cases h)

theorem State.keepsRings_leaveRead : s.KeepsRings (s.leaveRead l) := by
  have left : s.KeepsRings (s.updLine l fun x => { x with job := none, abandoned := false }) :=
    s.keepsRings_updLine l _ fun _ h => by cases h
  unfold State.leaveRead
  simp only
  split
  · exact left.trans (State.keepsRings_enterBreakOut _ l ..)
  · exact (left.trans (State.keepsRings_updLine _ l Line.rest fun _ h => h)).trans (State.keepsRings_endQuiescers _ l)

theorem State.keepsRings_readGood (job : Job) : s.KeepsRings (s.readGood l job) := by
  have left : ∀ u : State, s.KeepsRings u → s.KeepsRings (u.leaveRead l) := fun u k => k.trans (u.keepsRings_leaveRead l)
  cases job with
  | command id h origin =>
    simp only [State.readGood]
    split
    · exact left _ (s.keepsRings_endAborted ..)
    · split
      · exact left _ (.refl s)
      · split
        · exact left _ (s.keepsRings_endWith ..)
        · split
          · exact left _ (s.keepsRings_returnToWait ..)
          · exact s.keepsRings_beginTransmit l _ fun _ _ e => by cases e
  | broadcast id =>
    simp only [State.readGood]
    split
    · exact left _ (s.keepsRings_endAborted ..)
    · exact s.keepsRings_beginTransmit l _ fun _ _ e => by cases e
  | poll h p => exact left _ (.refl s)
  | link h => exact left _ (.refl s)
  | probe h => exact left _ (.refl s)

theorem State.keepsRings_fillBuffer (job : Job) (octets : List Byte) : s.KeepsRings (s.fillBuffer l job octets) :=
  s.keepsRings_updLine l _ fun _ h => h

theorem State.keepsRings_readFailed (id : Nat) : s.KeepsRings (s.readFailed l id) := by
  have failed : s.KeepsRings ((s.updLine l fun x => { x with txHolds := none }).updCtx id
      fun c => { c with lastFailure := some .payloadRead }) :=
    State.MovesRings.after (State.keepsRings_setCtx _ _ _ fun _ => ⟨rfl, rfl⟩) (s.keepsRings_updLine l _ fun _ h => h)
  unfold State.readFailed
  refine State.MovesRings.after (State.keepsRings_leaveRead _ l) (failed.trans ?_)
  split
  · exact State.keepsRings_endAborted ..
  · exact State.keepsRings_endWith ..

/-- R58, R85: the attempt of an exchange or broadcast starts. -/
theorem State.keepsRings_startWork (job : Job) (id : Nat) (hj : ∀ k p, job ≠ .poll k p) : s.KeepsRings (s.startWork l job id) := by
  have begun : s.KeepsRings ((s.updLine l
      fun x => { x with state := .preparing, job := some job, abandoned := false, txHolds := none }).updCtx id
      fun c => { c with phase := .preparing }) :=
    State.MovesRings.after (State.keepsRings_setCtx _ _ _ fun _ => ⟨rfl, rfl⟩)
      (s.keepsRings_updLine l _ fun _ h => by rw [Line.not_polling_of_job rfl hj] at h; cases h)
  unfold State.startWork State.beginRead
  simp only
  split
  · exact s.keepsRings_beginTransmit l job hj
  · split
    · exact (begun.trans (State.keepsRings_fillBuffer ..)).trans (State.keepsRings_readGood _ l job)
    · exact begun

theorem State.keepsRings_abandonRead : s.KeepsRings (s.abandonRead l) := by
  have abandoned : s.KeepsRings (s.updLine l fun x => { x with job := none, abandoned := true, txHolds := none }) :=
    s.keepsRings_updLine l _ fun _ h => by cases h
  unfold State.abandonRead
  split
  · exact .refl s
  · simp only
    split
    · split
      · exact abandoned.trans (State.keepsRings_endAborted ..)
      · exact abandoned.trans (State.keepsRings_returnToWait ..)
    · split
      · exact abandoned.trans (State.keepsRings_endAborted ..)
      · exact abandoned.trans (State.keepsRings_setCtx _ _ _ fun _ => ⟨rfl, rfl⟩)
    all_goals exact abandoned

/-! ## The scheduler's choice -/

/-- R72, R148: a POLL begins under the reservation granted to it. -/
theorem State.keepsRings_startPoll (h : Handle) (hg : s.grantable = true) (hi : s.Installed) :
    s.KeepsRings (s.startPoll l h) := by
  unfold State.startPoll
  split
  · next st _ =>
    have kept : s.SameCredits ((s.grantReservation l).beginTransmit l (.poll h st.pseq)) := ⟨rfl, rfl, rfl, rfl, Iff.rfl⟩
    refine ⟨kept.distinct, fun _ _ => kept.owed, fun n hs => ⟨?_, fun _ => ⟨(hs.installed hi).1, ?_⟩, fun hn => (hn hi).elim⟩⟩
    · have places := (s.grantReservation l).placesHeld_setLine l
        (((s.grantReservation l).line l).beginFrame (.poll h st.pseq) ((s.grantReservation l).jobFrame l (.poll h st.pseq))
          ((s.grantReservation l).serviceAfter l (.poll h st.pseq)) s.time)
      have same : (s.grantReservation l).placesHeld = s.placesHeld := rfl
      have held := hs.held
      have one := Bool.toNat_le (Line.polling (((s.grantReservation l).line l).beginFrame (.poll h st.pseq)
        ((s.grantReservation l).jobFrame l (.poll h st.pseq)) ((s.grantReservation l).serviceAfter l (.poll h st.pseq)) s.time))
      show State.placesHeld (State.setLine _ l _) + n ≤ s.reserved + 1
      refine Nat.le_trans (Nat.add_le_add_right (Nat.le_trans (Nat.le_add_right ..) places) n) ?_
      omega
    · show s.reserved + 1 + s.event.posted ≤ s.event.size - 1
      have hg : s.pendingReports < s.freePlaces := by simpa [State.grantable] using hg
      unfold State.freePlaces at hg
      omega
  · exact .refl s

theorem State.keepsRings_act (choice : Choice) (hp : ∀ h, choice = .poll h → s.grantable = true) (hi : s.Installed) :
    s.KeepsRings (s.act l choice) := by
  have job : ∀ id h origin k p, Job.command id h origin ≠ .poll k p := fun _ _ _ _ _ e => by cases e
  cases choice with
  | reset => exact s.keepsRings_enterBreakOut l ..
  | retry id =>
    simp only [State.act]
    split
    · exact State.MovesRings.after (State.keepsRings_startWork _ l _ _ (job _ _ _)) (s.keepsRings_updLine l _ fun _ h => h)
    · exact .refl s
  | link h =>
    exact State.MovesRings.after (State.keepsRings_beginTransmit _ l _ fun _ _ e => by cases e)
      (s.keepsRings_updLine l _ fun _ h => h)
  | work k i =>
    have pointed : s.KeepsRings (s.updLine l fun x => x.movePtr k ⟨i % 65, Nat.mod_lt _ (by decide)⟩) :=
      s.keepsRings_updLine l _ fun x => by cases k <;> exact id
    simp only [State.act]
    refine pointed.trans ?_
    split
    · unfold State.startHead
      split
      · exact State.keepsRings_startWork _ l _ _ (job _ _ _)
      · exact .refl _
    · unfold State.startBroadcast
      split
      · exact State.keepsRings_startWork _ l _ _ fun _ _ e => by cases e
      · exact .refl _
  | poll h => exact s.keepsRings_startPoll l h (hp h rfl) hi
  | probe h => exact s.keepsRings_beginTransmit l _ fun _ _ e => by cases e
  | nothing => exact .refl s

end

/-! ## A POLL is chosen under the grant condition (R110, R111, R148) -/

section
variable {s : State} {l : LineNo} {h : Handle}

/-- A station chosen at step 5 while no reservation would be granted offers a probe, so that it is OFFLINE. -/
theorem State.grantable_of_starved {k : Handle} (hc : s.starvedChoice l = some k) (hp : s.pollOrProbe k = .poll h) :
    s.grantable = true := by
  by_contra hg
  unfold State.starvedChoice at hc
  simp only [hg, if_false] at hc
  obtain ⟨st, hst, hdue⟩ := State.oldest_due hc
  have offline : st.state = .offline := by
    unfold Station.probeStamp Station.offersProbe at hdue
    split at hdue
    · next ho => simp only [Bool.and_eq_true, beq_iff_eq] at ho; exact ho.1.1
    · cases hdue
  have entry : s.station k = some st := by
    unfold State.stationOn at hst
    split at hst
    · next x hx =>
      split at hst
      · rw [hx, hst]
      · cases hst
    · cases hst
  simp [State.pollOrProbe, entry, offline] at hp

theorem State.grantable_of_late (hc : s.lateChoice l = .poll h) : s.grantable = true := by
  unfold State.lateChoice at hc
  split at hc
  · cases hc
  · split at hc
    · next k hk =>
      split at hk
      · assumption
      · cases hk
    · split at hc <;> cases hc

theorem State.grantable_of_choose (hc : s.choose l = .poll h) : s.grantable = true := by
  unfold State.choose at hc
  split at hc
  · cases hc
  · split at hc
    · cases hc
    · split at hc
      · cases hc
      · split at hc
        · cases hc
        · split at hc
          · next k hk =>
            split at hk
            · exact State.grantable_of_starved hk hc
            · cases hk
          · exact State.grantable_of_late hc

end

/-- R103, R148: the consultation owed, on a part that is RUNNING. -/
theorem State.keepsRings_consult (s : State) (l : LineNo) (hi : s.Installed) : s.KeepsRings (s.consult l) := by
  have consulted : s.KeepsRings (s.updLine l Line.consulted) := s.keepsRings_updLine l _ fun _ h => h
  unfold State.consult
  simp only
  refine consulted.trans ?_
  split
  · exact State.MovesRings.after (State.keepsRings_act _ l _ (fun h e => (State.grantable_of_choose e :)) hi) (.same rfl)
  · exact State.keepsRings_act _ l _ (fun h e => State.grantable_of_choose e) hi

end Sys2Proof.Machine
end

section
/-! PROOFS. Contexts and rings under each command (O58): the commands that move the ends of the rings, reserve a context, free one
or install the rings, and all others by their shared operations. -/

namespace Sys2Proof.Machine

/-! ## The rings (section 9.1) -/

section
variable {r : RingState}

theorem RingState.posted_eq (h : r.indexed) :
    r.posted = if r.hostHead ≤ r.tail then r.tail - r.hostHead else r.tail + r.size - r.hostHead := by
  obtain ⟨ht, hh⟩ := h
  unfold RingState.posted
  split
  · rw [show r.tail + r.size - r.hostHead = r.tail - r.hostHead + r.size by omega, Nat.add_mod_right, Nat.mod_eq_of_lt (by omega)]
  · exact Nat.mod_eq_of_lt (by omega)

/-- R145, R150: a posting counts one entry more. -/
theorem RingState.post_counts (h : r.indexed) (hp : r.posted + 1 < r.size) :
    r.post.indexed ∧ r.post.posted = r.posted + 1 := by
  have tail : r.post.tail = if r.tail + 1 = r.size then 0 else r.tail + 1 := rfl
  have head : r.post.hostHead = r.hostHead := rfl
  have size : r.post.size = r.size := rfl
  have hx : r.post.indexed := by
    obtain ⟨ht, hh⟩ := h
    unfold RingState.indexed
    rw [tail, head, size]
    split <;> omega
  refine ⟨hx, ?_⟩
  rw [RingState.posted_eq h] at hp
  rw [RingState.posted_eq hx, RingState.posted_eq h, tail, head, size]
  obtain ⟨ht, hh⟩ := h
  split_ifs at hp ⊢ <;> omega

/-- R146: a retirement counts no entry more. -/
theorem RingState.retire_counts {v : Nat} (h : r.indexed) (hv : r.mayRetire v = true) :
    ({ r with hostHead := v } : RingState).indexed ∧ ({ r with hostHead := v } : RingState).posted ≤ r.posted := by
  simp only [RingState.mayRetire, Bool.and_eq_true, decide_eq_true_eq] at hv
  obtain ⟨hlt, hd⟩ := hv
  have hx : ({ r with hostHead := v } : RingState).indexed := ⟨h.1, hlt⟩
  have distance : r.distance v = ({ r with tail := v } : RingState).posted := rfl
  have hx' : ({ r with tail := v } : RingState).indexed := ⟨hlt, h.2⟩
  refine ⟨hx, ?_⟩
  rw [distance, RingState.posted_eq hx', RingState.posted_eq h] at hd
  rw [RingState.posted_eq hx, RingState.posted_eq h]
  obtain ⟨ht, hh⟩ := h
  simp only at hd ⊢
  split_ifs at hd ⊢ <;> omega

end

/-! ## What a command carries over -/

/-- The invariants of O58 carry over from `s` to `t`. -/
structure State.CarriesRings (s t : State) : Prop where
  distinct : s.ContextsDistinct → t.ContextsDistinct
  credits : s.ContextsDistinct → s.CreditsKept → t.CreditsKept
  places : s.PlacesKept → t.PlacesKept

theorem State.MovesRings.carries {s t : State} (k : s.KeepsRings t) : s.CarriesRings t := by
  refine ⟨k.distinct, fun hd hc => ?_, fun hp => ?_⟩
  · exact (State.creditsKept_iff t).2 (k.credits [] hd ((State.creditsKept_iff s).1 hc))
  · exact (State.placesKept_iff t).2 (k.places 0 ((State.placesKept_iff s).1 hp))

theorem State.CarriesRings.trans {s t u : State} (a : s.CarriesRings t) (b : t.CarriesRings u) : s.CarriesRings u :=
  ⟨b.distinct ∘ a.distinct, fun hd hc => b.credits (a.distinct hd) (a.credits hd hc), b.places ∘ a.places⟩

/-- What follows moves no ring. -/
theorem State.CarriesRings.keeps {s t u : State} (a : s.CarriesRings t) (b : t.KeepsRings u) : s.CarriesRings u :=
  a.trans b.carries

theorem RingState.idle_counts {r : RingState} (ht : r.tail = 0) (hh : r.hostHead = 0) (hs : 0 < r.size) :
    r.indexed ∧ r.posted = 0 := by
  have hx : r.indexed := ⟨by omega, by omega⟩
  exact ⟨hx, by rw [RingState.posted_eq hx]; simp [ht, hh]⟩

/-- R56, R143: no context is in use and no completion entry is posted. -/
theorem State.creditsKept_idle {s : State} (hp : s.pool = []) (ho : s.completionOrder = []) (hr : s.reading = none)
    (ht : s.completion.tail = 0) (hh : s.completion.hostHead = 0) (hs : s.Installed → 0 < s.completion.size) :
    s.CreditsKept := by
  refine ⟨?_, ?_, ?_, fun hi => ?_, fun _ => ⟨hp, ht, hh⟩⟩
  · rw [ho]; exact List.nodup_nil
  · rw [ho]; exact fun id hid => by cases hid
  · rw [hr]; exact fun rd hrd => by cases hrd
  · obtain ⟨hx, hposted⟩ := RingState.idle_counts ht hh (hs hi)
    exact ⟨hx, by rw [hposted, hp]; exact Nat.zero_le _⟩

/-- R147: no place is held or reserved and no event entry is posted. -/
theorem State.placesKept_idle {s : State} (hp : s.placesHeld = 0) (hr : s.reserved = 0) (ht : s.event.tail = 0)
    (hh : s.event.hostHead = 0) (hs : s.Installed → 0 < s.event.size) : s.PlacesKept := by
  refine ⟨by omega, fun hi => ?_, fun _ => ⟨hr, ht, hh⟩⟩
  obtain ⟨hx, hposted⟩ := RingState.idle_counts ht hh (hs hi)
  exact ⟨hx, by rw [hposted, hr]; exact Nat.zero_le _⟩

/-! ## The part as a whole -/

theorem State.keepsRings_reject (s : State) : s.KeepsRings s.reject := s.keepsRings_setCause _

/-- R160: after a reset nothing is in use. -/
theorem State.carriesRings_softReset (s : State) : s.CarriesRings s.softResetValues := by
  have hd : ¬ s.softResetValues.Installed := fun h => h.1 rfl
  have held : s.softResetValues.placesHeld = 0 := by
    simp only [State.placesHeld, State.line_softReset]
    rfl
  refine ⟨fun _ => ⟨List.nodup_nil, fun c hc => by cases hc⟩, fun _ _ => ?_, fun _ => ?_⟩
  · exact State.creditsKept_idle rfl rfl rfl rfl rfl fun hi => (hd hi).elim
  · exact State.placesKept_idle held rfl rfl rfl fun hi => (hd hi).elim

theorem State.keepsRings_landCompletion (s : State) : s.KeepsRings s.landCompletion := by
  unfold State.landCompletion
  split
  · exact .refl s
  · exact .same rfl

theorem State.keepsRings_landEvent (s : State) : s.KeepsRings s.landEvent := by
  unfold State.landEvent
  split
  · exact .refl s
  · exact .same rfl

theorem State.keepsRings_landReplies (s : State) : s.KeepsRings s.landReplies := by
  refine State.MovesRings.foldl State.landReply (fun u l => ?_) _ _
  unfold State.landReply
  split
  · split
    · exact .refl u
    · exact .same rfl
  · exact .refl u
  · exact .refl u

theorem State.device_landCompletion (s : State) : s.landCompletion.device = s.device := by
  unfold State.landCompletion
  split <;> rfl

theorem State.device_landEvent (s : State) : s.landEvent.device = s.device := by
  unfold State.landEvent
  split <;> rfl

theorem State.device_landReply (s : State) (l : LineNo) : (s.landReply l).device = s.device := by
  unfold State.landReply
  split
  · split <;> rfl
  · rfl
  · rfl

theorem State.device_landReplies (s : State) : s.landReplies.device = s.device := by
  unfold State.landReplies
  generalize allLines = ls
  induction ls generalizing s with
  | nil => rfl
  | cons l rest ih => exact (ih _).trans (s.device_landReply l)

/-- R159: what was in use stays so in FAILED. -/
theorem State.keepsRings_enterFailed (s : State) (cause : CauseCode) (hi : s.Installed) : s.KeepsRings (s.enterFailed cause) := by
  unfold State.enterFailed
  refine State.MovesRings.after (State.keepsRings_setCause _ _)
    (State.MovesRings.after (t := { s with device := .failed }) ?_ (s.keepsRings_setDevice .failed hi (by simp)))
  refine State.keepsRings_of rfl fun l => ?_
  have hline : ({ s with device := .failed, cause := cause, lines := s.lines.map Line.release } : State).line l =
      (s.line l).release := by simp [State.line]
  rw [hline]
  exact id

theorem State.keepsRings_enterRunning (s : State) (hi : s.Installed) : s.KeepsRings s.enterRunning :=
  State.MovesRings.after (t := { s.tellLines allLines with device := .running }) (.same rfl)
    ((s.keepsRings_tellLines allLines).trans (State.keepsRings_setDevice _ .running hi (by simp)))

theorem State.keepsRings_resume (s : State) (hi : s.Installed) : s.KeepsRings s.resume := by
  refine (s.keepsRings_enterRunning hi).trans (State.MovesRings.foldl State.serveReset (fun u l => ?_) _ _)
  unfold State.serveReset
  split
  · exact u.keepsRings_enterBreakOut ..
  · exact .refl u

/-- A move of the device between states in which no ring is installed. -/
theorem State.keepsRings_notInstalled {s t : State} (hs : ¬ s.Installed) (ht : ¬ t.Installed)
    (h : t = { s with device := t.device, enable := t.enable, cause := t.cause }) : s.KeepsRings t := by
  refine State.SameCredits.keepsRings ⟨?_, ?_, ?_, ?_, iff_of_false ht hs⟩ ⟨?_, ?_, ?_, iff_of_false ht hs⟩ <;> rw [h] <;> rfl

theorem State.keepsRings_enableOne (s : State) : s.KeepsRings s.enableOne := by
  have resumed : s.Installed → s.KeepsRings ({ s with enable := true } : State).resume.finish := fun hi =>
    State.MovesRings.after (State.keepsRings_finish _)
      (State.MovesRings.after (State.keepsRings_resume { s with enable := true } hi) (.same rfl))
  unfold State.enableOne
  split
  · next hd => exact State.keepsRings_notInstalled (fun h => h.1 hd) (fun h => h.2 rfl) rfl
  · exact .same rfl
  · exact .same rfl
  · next hd => exact resumed (by simp [State.Installed, hd])
  · next hd => exact resumed (by simp [State.Installed, hd])
  · exact s.keepsRings_reject

theorem State.keepsRings_enableZero (s : State) : s.KeepsRings s.enableZero := by
  unfold State.enableZero
  split
  · exact .same rfl
  · exact .same rfl
  · next hd =>
    exact State.MovesRings.after (State.keepsRings_finish _) (State.MovesRings.after (t := { s with device := .halting })
      (.same rfl) (s.keepsRings_setDevice .halting (by simp [State.Installed, hd]) (by simp)))
  · exact .same rfl
  · exact .same rfl
  · exact s.keepsRings_reject

/-- R157: the sizes of the rings that a valid block brings. -/
theorem setupValid_sizes {b : List Byte} (h : setupValid b = true) : 0 < le16 b 36 ∧ 0 < le16 b 44 := by
  simp only [setupValid, Bool.and_eq_true] at h
  obtain ⟨⟨⟨⟨⟨⟨⟨⟨⟨⟨-, -⟩, -⟩, hc⟩, -⟩, he⟩, -⟩, -⟩, -⟩, -⟩, -⟩ := h
  simp only [ringSize4096, ringSize1024, List.contains_iff_mem, List.mem_cons, List.not_mem_nil, or_false] at hc he
  omega

theorem State.carriesRings_install (s : State) (b : List Byte) (hs : ¬ s.Installed) (hv : setupValid b = true) :
    s.CarriesRings (s.install b) := by
  obtain ⟨hcompletion, hevent⟩ := setupValid_sizes hv
  refine ⟨id, fun _ ⟨_, hundone, hreading, _, hempty⟩ => ?_, fun ⟨hheld, _, hempty⟩ => ?_⟩
  · obtain ⟨hp, ht, hh⟩ := hempty hs
    have none_in : ∀ {P : Context → Prop}, ¬ ∃ c ∈ s.pool, P c := fun ⟨c, hc, _⟩ => by rw [hp] at hc; cases hc
    refine State.creditsKept_idle hp ?_ ?_ ht hh fun _ => hcompletion
    · exact List.eq_nil_iff_forall_not_mem.2 fun id hid => none_in (hundone id hid)
    · exact Option.eq_none_iff_forall_ne_some.2 fun rd hrd => none_in (hreading rd hrd)
  · obtain ⟨hr, ht, hh⟩ := hempty hs
    have told : (s.tellLines allLines).placesHeld ≤ s.placesHeld :=
      State.placesHeld_le rfl rfl fun l => by
        rw [State.line_tellLines]
        split
        · rw [Line.polling_noticed]; exact id
        · exact id
    have held : (s.install b).placesHeld = (s.tellLines allLines).placesHeld := rfl
    exact State.placesKept_idle (by omega) hr ht hh fun _ => hevent

/-- R156, R157: the rings are installed while nothing is in use. -/
theorem State.carriesRings_setupEnds (s : State) (r : BusRead) (hd : s.device = .starting) : s.CarriesRings (s.setupEnds r) := by
  have hs : ¬ s.Installed := fun h => h.2 hd
  have back : ∀ c, s.CarriesRings (s.backToReady c) := fun c =>
    (State.keepsRings_notInstalled hs (fun h => h.1 rfl) rfl).carries
  unfold State.setupEnds
  split
  · split
    · exact back _
    · next b =>
      split
      · next hv => exact s.carriesRings_install b hs hv
      · exact back _
  · exact back _

/-! ## Queues and rings -/

theorem State.keepsRings_postTail (s : State) (v : Word) : s.KeepsRings (s.postTail v) := by
  unfold State.postTail
  split
  · refine State.MovesRings.after (State.keepsRings_finish _) ?_
    unfold State.postedTail
    simp only
    split
    · exact .same rfl
    · exact .same rfl
  · exact s.keepsRings_reject

theorem DeviceState.installed_of_started {s : State} (h : s.device.started = true) : s.Installed := by
  constructor <;> intro hd <;> rw [hd] at h <;> cases h

/-- R146: a RETIRE of the completion ring gives credits back. -/
theorem State.keepsRings_retireCompletion (s : State) (v : Nat) (hi : s.Installed) (hv : s.completion.mayRetire v = true) :
    s.KeepsRings (s.retireCompletion v) := by
  unfold State.retireCompletion
  split
  · exact .refl s
  · refine State.MovesRings.after (t := { s with completion := { s.completion with hostHead := v } }) (.same rfl) ?_
    refine ⟨id, fun owed _ h => ⟨h.nodup, h.undone, h.reading, fun _ => ?_, fun hn => (hn hi).elim⟩,
      fun n h => ⟨h.held, h.installed, h.empty⟩⟩
    obtain ⟨hx, hle⟩ := h.installed hi
    obtain ⟨hx', hle'⟩ := RingState.retire_counts hx hv
    exact ⟨hx', Nat.le_trans (Nat.add_le_add_right hle' _) hle⟩

/-- R146: a RETIRE of the event ring gives places back. -/
theorem State.keepsRings_retireEvent (s : State) (v : Nat) (hi : s.Installed) (hv : s.event.mayRetire v = true) :
    s.KeepsRings (s.retireEvent v) := by
  unfold State.retireEvent
  split
  · exact .refl s
  · refine State.MovesRings.after (State.keepsRings_finish _) (State.MovesRings.after (State.keepsRings_judgeGrant _) ?_)
    have kept : s.SameCredits { s with event := { s.event with hostHead := v } } := ⟨rfl, rfl, rfl, rfl, Iff.rfl⟩
    refine ⟨kept.distinct, fun _ _ => kept.owed, fun n h => ⟨h.held, fun _ => ?_, fun hn => (hn hi).elim⟩⟩
    obtain ⟨hx, hle⟩ := h.installed hi
    obtain ⟨hx', hle'⟩ := RingState.retire_counts hx hv
    exact ⟨hx', Nat.le_trans (Nat.add_le_add_left hle' _) hle⟩

theorem State.keepsRings_retire (s : State) (v : Word) : s.KeepsRings (s.retire v) := by
  unfold State.retire
  split
  · next hd =>
    have hi := DeviceState.installed_of_started hd
    split
    · split
      · next hv => exact s.keepsRings_retireCompletion _ hi hv
      · exact s.keepsRings_reject
    · split
      · next hv => exact s.keepsRings_retireEvent _ hi hv
      · exact s.keepsRings_reject
  · exact s.keepsRings_reject

/-! ## Record reads (R134 to R137) -/

/-- The free context that is reserved has no namesake (R56, R135). -/
theorem State.freeCtx_fresh {s : State} {id : Nat} (h : s.freeCtx = some id) :
    id < Config.contexts ∧ ∀ c ∈ s.pool, c.id ≠ id := by
  have free := List.find?_some h
  refine ⟨List.mem_range.1 (List.mem_of_find?_eq_some h), fun c hc e => ?_⟩
  simp only [Bool.not_eq_true', List.any_eq_false, beq_iff_eq] at free
  exact free c hc e

theorem State.reserve_distinct {s : State} {c : Context} (h : s.ContextsDistinct) (hid : c.id < Config.contexts)
    (hc : ∀ d ∈ s.pool, d.id ≠ c.id) : ({ s with pool := s.pool ++ [c] } : State).ContextsDistinct := by
  refine ⟨?_, fun d hd => ?_⟩
  · rw [List.map_append]
    refine List.nodup_append.2 ⟨h.1, List.nodup_singleton _, fun k hk j hj e => ?_⟩
    obtain ⟨d, hd, rfl⟩ := List.mem_map.1 hk
    exact hc d hd (e.trans (List.mem_singleton.1 hj))
  · rcases List.mem_append.1 hd with hd | hd
    · exact h.2 d hd
    · rw [List.mem_singleton.1 hd]; exact hid

/-- R135: a context is reserved, for a record read, while a credit is free. -/
theorem State.reserve_credits {s t : State} {c : Context} {rd : RecordRead} (hi : s.Installed)
    (hf : s.creditFree = true) (hc : c.body = .reserved) (hp : t.pool = s.pool ++ [c])
    (ho : t.completionOrder = s.completionOrder) (ht : t.reading = some rd) (hid : rd.ctx = c.id)
    (hring : t.completion = s.completion) (hinst : t.Installed) (h : s.CreditsKept) : t.CreditsKept := by
  obtain ⟨hnodup, hundone, -, hring', -⟩ := h
  obtain ⟨hx, hle⟩ := hring' hi
  have hf : s.completion.posted + s.pool.length + 1 < s.completion.size := by simpa [State.creditFree] using hf
  refine ⟨?_, ?_, fun rd' hrd => ⟨c, ?_, ?_, hc⟩, fun _ => ⟨hring ▸ hx, ?_⟩, fun hn => (hn hinst).elim⟩
  · rw [ho]; exact hnodup
  · rw [ho]
    intro id hmem
    obtain ⟨d, hd, hd'⟩ := hundone id hmem
    exact ⟨d, by rw [hp]; exact List.mem_append_left _ hd, hd'⟩
  · rw [hp]; exact List.mem_append_right _ (List.mem_singleton_self _)
  · obtain rfl : rd = rd' := Option.some.inj (ht.symm.trans hrd)
    exact hid.symm
  · rw [hring, hp, List.length_append, List.length_singleton]
    omega

theorem State.carriesRings_beginFetch (s : State) (hm : s.mayFetch = true) : s.CarriesRings s.beginFetch := by
  simp only [State.mayFetch, Bool.and_eq_true, beq_iff_eq, Option.isNone_iff_eq_none] at hm
  obtain ⟨⟨⟨⟨hd, -⟩, -⟩, hf⟩, -⟩ := hm
  have hi : s.Installed := by simp [State.Installed, hd]
  unfold State.beginFetch
  split
  · next k q id _ hid =>
    obtain ⟨hlt, hfresh⟩ := State.freeCtx_fresh hid
    cases k <;>
    · refine ⟨fun h => State.reserve_distinct (c := reservedContext id q _) h hlt hfresh, fun _ h => ?_, fun h => ?_⟩
      · exact State.reserve_credits (c := reservedContext id q _) hi hf rfl rfl rfl rfl rfl rfl hi h
      · exact h
  · exact State.MovesRings.carries (.refl s)

theorem State.carriesRings_fetchLook (s : State) : s.CarriesRings s.fetchLook := by
  have looked : s.KeepsRings { s with fetchDue := false } := .same rfl
  unfold State.fetchLook
  simp only
  split
  · next hm => exact looked.carries.trans (State.carriesRings_beginFetch _ hm)
  · exact looked.carries

/-- The contexts in use but one. -/
theorem State.free_distinct {s : State} {id : Nat} (h : s.ContextsDistinct) :
    ({ s with pool := s.pool.filter fun c => c.id != id } : State).ContextsDistinct :=
  ⟨h.1.sublist (List.filter_sublist.map _), fun c hc => h.2 c (List.mem_of_mem_filter hc)⟩

theorem State.Undone.free {s : State} {id k : Nat} (h : s.Undone k) (hne : k ≠ id) :
    ({ s with pool := s.pool.filter fun c => c.id != id } : State).Undone k := by
  obtain ⟨c, hc, hid, hc'⟩ := h
  exact ⟨c, List.mem_filter.2 ⟨hc, by simpa [hid] using hne⟩, hid, hc'⟩

/-- A context that is freed takes the credit owed for it along. -/
theorem State.CreditsOwed.free {s : State} {owed : List Nat} {id : Nat} (h : s.CreditsOwed owed) (howed : ∀ k ∈ owed, k = id)
    (hout : id ∉ s.completionOrder) (hr : ∀ rd, s.reading = some rd → rd.ctx ≠ id) :
    ({ s with pool := s.pool.filter fun c => c.id != id } : State).CreditsKept := by
  refine ⟨(List.nodup_append.1 h.nodup).2.1, fun k hk => ?_, fun rd hrd => ?_, fun hi => ⟨(h.installed hi).1, ?_⟩, fun hn => ?_⟩
  · exact State.Undone.free (h.undone k (List.mem_append_right _ hk)) fun e => hout (e ▸ hk)
  · obtain ⟨c, hc, hid, hbody⟩ := h.reading rd hrd
    exact ⟨c, List.mem_filter.2 ⟨hc, by simpa [hid] using hr rd hrd⟩, hid, hbody⟩
  · have fewer : (s.pool.filter fun c => c.id != id).length ≤ s.pool.countP (fun c => c.id ∉ owed) := by
      rw [← List.countP_eq_length_filter]
      refine List.countP_mono_left fun c _ hc => ?_
      simp only [bne_iff_ne] at hc
      exact decide_eq_true fun hmem => hc (howed _ hmem)
    exact Nat.le_trans (Nat.add_le_add_left fewer _) (h.installed hi).2
  · obtain ⟨hp, ht⟩ := h.empty hn
    exact ⟨by show s.pool.filter _ = []; rw [hp]; rfl, ht⟩

/-- A context reserved for a read under way holds no completion. -/
theorem State.Undone.ne_reserved {s : State} {id : Nat} {c : Context} (h : s.Undone id) (hd : s.ContextsDistinct)
    (hc : c ∈ s.pool) (hb : c.body = .reserved) : c.id ≠ id := by
  intro e
  obtain ⟨d, hd', hid, -, hbody⟩ := h
  exact hbody (State.eq_of_distinct hd hc hd' (e.trans hid.symm) ▸ hb)

/-- R137: the context of a record read that failed becomes free. -/
theorem State.carriesRings_readFails (s : State) : s.CarriesRings s.readFails := by
  unfold State.readFails
  split
  · exact State.MovesRings.carries (.refl s)
  · next rd hrd =>
    refine State.CarriesRings.keeps (t := { s with reading := none, pool := s.pool.filter fun c => c.id != rd.ctx }) ?_ (.same rfl)
    refine ⟨State.free_distinct, fun hd h => ?_, fun h => h⟩
    have h := (State.creditsKept_iff s).1 h
    obtain ⟨c, hc, hid, hbody⟩ := h.reading rd hrd
    have ended : ({ s with reading := none } : State).CreditsOwed [] :=
      ⟨h.nodup, h.undone, fun _ hrd => (by cases hrd), h.installed, h.empty⟩
    refine ended.free (fun k hk => by cases hk) (fun hmem => ?_) fun _ hrd => by cases hrd
    exact (h.undone rd.ctx hmem).ne_reserved hd hc hbody hid

/-! ## Completion entries (R145, R159) -/

/-- R145, R79: the context whose entry is posted becomes free, and it owes no credit any more. -/
theorem State.freeContext_credits {s : State} {id : Nat} (hd : s.ContextsDistinct) (h : s.CreditsOwed [id]) :
    (s.freeContext id).CreditsKept := by
  unfold State.freeContext
  split
  · next hnone =>
    obtain ⟨c, hc, hid, -⟩ := h.undone id (List.mem_cons_self ..)
    have := List.find?_eq_none.1 hnone c hc
    simp [hid] at this
  · next c _ =>
    have fences : s.KeepsRings ((s.fencesAfter c).foldl State.fenceCounts s) :=
      .foldl _ (fun s id => s.keepsRings_fenceCounts id) _ _
    have counted := fences.credits _ hd h
    refine counted.free (fun k hk => List.mem_singleton.1 hk) (List.nodup_cons.1 counted.nodup).1 fun rd hrd => ?_
    obtain ⟨d, hd', hid, hbody⟩ := counted.reading rd hrd
    exact hid ▸ (counted.undone id (List.mem_cons_self ..)).ne_reserved (fences.distinct hd) hd' hbody

theorem State.freeContext_distinct {s : State} {id : Nat} (h : s.ContextsDistinct) : (s.freeContext id).ContextsDistinct := by
  unfold State.freeContext
  split
  · exact h
  · next c _ =>
    have fences : s.KeepsRings ((s.fencesAfter c).foldl State.fenceCounts s) :=
      .foldl _ (fun s id => s.keepsRings_fenceCounts id) _ _
    exact State.free_distinct (fences.distinct h)

/-- R145: the entry is posted, and its context is still to be freed. -/
theorem State.post_credits {s t : State} {w : CompletionWrite} (hw : s.completionWrite = some w) (hi : s.Installed)
    (hp : t.pool = s.pool) (hh : t.handed = s.handed) (ht : t.completionWrite = none) (hr : t.reading = s.reading)
    (hring : t.completion = s.completion.post) (hinst : t.Installed) (h : s.CreditsKept) : t.CreditsOwed [w.ctx] := by
  have order : [w.ctx] ++ t.completionOrder = s.completionOrder := by simp [State.completionOrder, hw, hh, ht]
  obtain ⟨hnodup, hundone, hreading, hring', -⟩ := h
  obtain ⟨hx, hle⟩ := hring' hi
  obtain ⟨c, hc, hid, -⟩ := hundone w.ctx (by rw [← order]; exact List.mem_cons_self ..)
  have fewer : s.pool.countP (fun c => c.id ∉ [w.ctx]) + 1 ≤ s.pool.length :=
    List.countP_lt_length_iff.2 ⟨c, hc, by simp [hid]⟩
  obtain ⟨hx', hposted⟩ := RingState.post_counts hx (by omega)
  refine ⟨order ▸ hnodup, fun k hk => ?_, ?_, fun _ => ⟨hring ▸ hx', ?_⟩, fun hn => (hn hinst).elim⟩
  · simp only [State.Undone, hp]
    exact hundone k (order ▸ hk)
  · rw [hr, hp]; exact hreading
  · rw [hring, hp, hposted]
    show _ ≤ s.completion.size - 1
    omega

theorem State.keepsRings_tellArbiter (s : State) : s.KeepsRings s.tellArbiter := .same rfl

theorem State.keepsRings_completionPosting (s : State) : s.KeepsRings s.completionPosting := by
  unfold State.completionPosting
  simp only
  split
  · exact .same rfl
  · exact .same rfl

theorem State.carriesRings_completionPosted (s : State) (hp : s.posting = true) : s.CarriesRings s.completionPosted := by
  have hi := State.installed_of_posting hp
  unfold State.completionPosted
  split
  · exact State.MovesRings.carries (.refl s)
  · next w hw =>
    refine State.CarriesRings.keeps ?_ (State.keepsRings_finish _)
    refine State.CarriesRings.keeps ?_ (State.keepsRings_completionPosting _)
    refine State.CarriesRings.keeps ?_ (State.keepsRings_tellArbiter _)
    refine ⟨fun hd => State.freeContext_distinct hd, fun hd h => State.freeContext_credits hd ?_, fun h => ?_⟩
    · exact State.post_credits hw hi rfl rfl rfl rfl rfl hi h
    · obtain ⟨hheld, hring, hempty⟩ := h
      exact (State.placesKept_iff _).2 ((State.ends_freeContext _ _).samePlaces.spared ⟨hheld, hring, hempty⟩)

theorem State.keepsRings_completionFails (s : State) (n : Nat) (hi : s.Installed) : s.KeepsRings (s.completionFails n) := by
  unfold State.completionFails
  split
  · exact .refl s
  · have landed : ∀ m, s.KeepsRings ({ s with mem := m } : State).landEvent.landReplies := fun m =>
      State.MovesRings.after (State.keepsRings_landReplies _) (State.MovesRings.after (State.keepsRings_landEvent _) (.same rfl))
    refine (landed _).trans (State.keepsRings_enterFailed _ _ ?_)
    rw [State.Installed, State.device_landReplies, State.device_landEvent]
    exact hi

theorem State.keepsRings_eventFails (s : State) (n : Nat) (hi : s.Installed) : s.KeepsRings (s.eventFails n) := by
  unfold State.eventFails
  split
  · exact .refl s
  · have landed : ∀ m, s.KeepsRings ({ s with mem := m } : State).landCompletion.landReplies := fun m =>
      State.MovesRings.after (State.keepsRings_landReplies _) (State.MovesRings.after (State.keepsRings_landCompletion _) (.same rfl))
    refine (landed _).trans (State.keepsRings_enterFailed _ _ ?_)
    rw [State.Installed, State.device_landReplies, State.device_landCompletion]
    exact hi

/-! ## Event entries (R150, R159) -/

theorem State.keepsRings_attentionWritten (s : State) (a : Option (LineNo × Handle)) : s.KeepsRings (s.attentionWritten a) := by
  unfold State.attentionWritten
  split
  · exact .refl s
  · next l h =>
    refine State.MovesRings.after (State.keepsRings_settleClosing _ h)
      (State.MovesRings.after (State.keepsRings_setStation _ h _) (s.keepsRings_updLine l Line.releaseBuffer fun x => ?_))
    exact x.polling_noticed.symm.trans

theorem State.keepsRings_eventPosting (s : State) : s.KeepsRings s.eventPosting := by
  unfold State.eventPosting
  simp only
  split
  · exact .same rfl
  · exact .same rfl

/-- R150: the entry is posted, and its place is given up. -/
theorem State.keepsRings_post {s : State} {w : EventWrite} (hw : s.eventWrite = some w) (hi : s.Installed) :
    s.KeepsRings { s with event := s.event.post, reserved := s.reserved - 1, eventWrite := none } := by
  have kept : s.SameCredits { s with event := s.event.post, reserved := s.reserved - 1, eventWrite := none } :=
    ⟨rfl, rfl, rfl, rfl, Iff.rfl⟩
  refine ⟨kept.distinct, fun _ _ => kept.owed, fun n h => ?_⟩
  obtain ⟨hx, hle⟩ := h.installed hi
  have held := h.held
  have own : s.placesHeld = (allLines.countP fun l => (s.line l).polling) + s.attentions.length + 1 := by
    simp [State.placesHeld, hw]
  obtain ⟨hx', hposted⟩ := RingState.post_counts hx (by have := hx.1; omega)
  refine ⟨?_, fun _ => ⟨hx', ?_⟩, fun hn => (hn hi).elim⟩
  · show (allLines.countP fun l => (s.line l).polling) + s.attentions.length + 0 + n ≤ s.reserved - 1
    omega
  · show s.reserved - 1 + s.event.post.posted ≤ s.event.size - 1
    rw [hposted]
    omega

theorem State.keepsRings_eventPosted (s : State) (hp : s.posting = true) : s.KeepsRings s.eventPosted := by
  unfold State.eventPosted
  split
  · exact .refl s
  · next w hw =>
    refine State.MovesRings.after (State.keepsRings_finish _) (State.MovesRings.after (State.keepsRings_judgeGrant _)
      (State.MovesRings.after (State.keepsRings_eventPosting _)
        (State.MovesRings.after (State.keepsRings_attentionWritten _ _) ?_)))
    generalize writeOctets w.addr w.octets (wordOffsets eventWords 16) s.mem = written
    exact State.MovesRings.after (State.keepsRings_post (s := { s with mem := written }) hw (State.installed_of_posting hp))
      (.same rfl)

end Sys2Proof.Machine
end

section
/-! PROOFS. Every command keeps the contexts distinct and both rings within their sizes (R56, R135, R143, R147). -/

namespace Sys2Proof.Machine

/-! ## Records -/

theorem State.keepsRings_endReading (s : State) : s.KeepsRings { s with reading := none } :=
  ⟨id, fun _ _ h => ⟨h.nodup, h.undone, fun _ hrd => (by cases hrd), h.installed, h.empty⟩,
    fun _ h => ⟨h.held, h.installed, h.empty⟩⟩

/-- R56, R136: the context reserved for the read takes the record. -/
theorem State.keepsRings_accept (s : State) (rd : RecordRead) (r : List Byte) : s.KeepsRings (s.accept rd r) :=
  State.MovesRings.after
    (t := ({ s with reading := none } : State).updCtx rd.ctx fun c => c.accept r (s.recordBody r)) (.same rfl)
    (s.keepsRings_endReading.trans (State.keepsRings_updCtx (fun _ => rfl) (.inl rfl)))

/-- R139: a record is accepted, acts or ends, and the step ends. -/
theorem State.keepsRings_takeRecord (s : State) (r : List Byte) (act : State → Nat → State)
    (h : ∀ (u : State) id, u.KeepsRings (act u id)) : s.KeepsRings (s.takeRecord r act) := by
  unfold State.takeRecord
  split
  · exact .refl s
  · next rd _ =>
    split
    · exact ((s.keepsRings_accept rd r).trans (State.keepsRings_endRecord ..)).trans (State.keepsRings_finish _)
    · exact ((s.keepsRings_accept rd r).trans (h _ _)).trans (State.keepsRings_finish _)

theorem State.keepsRings_acceptExchange (s : State) (h : Handle) (id : Nat) : s.KeepsRings (s.acceptExchange h id) := by
  unfold State.acceptExchange
  split
  · exact .refl s
  · split
    · exact s.keepsRings_hand ..
    · exact (s.keepsRings_setStation ..).trans (State.keepsRings_notify _ _)

theorem State.keepsRings_resumeStation (s : State) (h : Handle) : s.KeepsRings (s.resumeStation h) := by
  unfold State.resumeStation
  split
  · exact .refl s
  · simp only
    split
    · exact (s.keepsRings_setStation ..).trans (State.keepsRings_notify _ _)
    · exact s.keepsRings_setStation ..

theorem State.keepsRings_disableLine (s : State) (l : LineNo) : s.KeepsRings (s.disableLine l) := by
  unfold State.disableLine
  split
  · exact s.keepsRings_updLine l _ fun _ h => h
  · exact .refl s

theorem Line.polling_configure (x : Line) (id : Nat) : (x.configure id).polling = x.polling := by
  unfold Line.configure
  simp only
  split <;> rfl

theorem State.keepsRings_quiesceLine (s : State) (l : LineNo) (id : Nat) : s.KeepsRings (s.quiesceLine l id) := by
  have asked : s.KeepsRings (s.updLine l fun x => { x with quiesce := true }) := s.keepsRings_updLine l _ fun _ h => h
  have waits := State.MovesRings.after (State.keepsRings_updLine _ l (fun x => { x with quiescers := x.quiescers ++ [id] })
    fun _ h => h) asked
  have ended := asked.trans (State.keepsRings_endOk _ id)
  unfold State.quiesceLine
  simp only
  split
  · exact State.MovesRings.after (State.keepsRings_endOk _ id)
      (State.MovesRings.after (State.keepsRings_updLine _ l _ fun _ h => h) asked)
  · exact ended
  · exact ended
  · exact waits
  · exact waits
  · exact waits
  · exact waits
  · exact waits
  · exact .refl s

theorem State.keepsRings_resetLine (s : State) (l : LineNo) (id : Nat) : s.KeepsRings (s.resetLine l id) := by
  have deferred : s.KeepsRings (s.updLine l fun x => x.deferReset id) :=
    s.keepsRings_updLine l _ fun x => x.polling_noticed.symm.trans
  have now : s.KeepsRings
      (if s.device = .running then s.enterBreakOut l [id] s.time else s.updLine l fun x => x.deferReset id) := by
    split
    · exact s.keepsRings_enterBreakOut ..
    · exact deferred
  unfold State.resetLine
  simp only
  split
  · exact now
  · exact now
  · exact now
  · exact s.keepsRings_updLine l _ fun _ h => h
  · exact deferred
  · exact deferred
  · exact deferred
  · exact deferred
  · exact .refl s

/-! ## Lines -/

section
variable (s : State) (l : LineNo)

theorem State.keepsRings_frameSent (job : Job) (t : Nat) : s.KeepsRings (s.frameSent l job t) := by
  have awaits : ∀ (u : State) n, u.KeepsRings (u.updLine l fun x => x.await n t) := fun u n =>
    u.keepsRings_updLine l _ fun _ h => h
  cases job with
  | command id h origin => exact State.MovesRings.after (awaits _ _) (s.keepsRings_setCtx _ _ fun _ => ⟨rfl, rfl⟩)
  | broadcast id => exact State.MovesRings.after (State.keepsRings_toGuard _ l) (s.keepsRings_endAborted ..)
  | poll h p => exact awaits _ _
  | link h => exact awaits _ _
  | probe h => exact awaits _ _

theorem State.keepsRings_transmitEnds : s.KeepsRings (s.transmitEnds l) := by
  unfold State.transmitEnds
  split
  · exact .refl s
  · exact State.MovesRings.after (State.keepsRings_finish _)
      ((s.keepsRings_reachLine l _ (fun x => x.releaseDriver _) fun _ h => h).trans (State.keepsRings_frameSent ..))

theorem State.keepsRings_payloadRead (octets : List Byte) : s.KeepsRings (s.payloadRead l octets) := by
  unfold State.payloadRead
  split
  · exact .refl s
  · exact State.MovesRings.after (State.keepsRings_finish _)
      ((s.keepsRings_fillBuffer ..).trans (State.keepsRings_readGood _ l _))

theorem State.keepsRings_payloadFails : s.KeepsRings (s.payloadFails l) := by
  unfold State.payloadFails
  split
  · exact .refl s
  · exact (s.keepsRings_readFailed l _).trans (State.keepsRings_finish _)

theorem State.keepsRings_replyWriteEnds (r : BusWrite) : s.KeepsRings (s.replyWriteEnds l r) := by
  unfold State.replyWriteEnds
  split
  · exact (s.keepsRings_replyWritten ..).trans (State.keepsRings_finish _)
  · exact .refl s
  · exact .refl s

/-- R97: the receiver of an enabled line starts. -/
theorem State.keepsRings_enableLine : s.KeepsRings (s.enableLine l) := by
  have started : s.KeepsRings (s.updLine l fun x => x.startReceiver s.time) := s.keepsRings_updLine l _ fun _ h => h
  unfold State.enableLine
  simp only
  split
  · exact started.trans (State.keepsRings_enterBreakOut ..)
  · exact started.trans (State.keepsRings_updLine _ l _ fun _ h => h)

theorem State.keepsRings_tableReadEnds (r : BusRead) : s.KeepsRings (s.tableReadEnds l r) := by
  have failed : ∀ id st d, s.KeepsRings (s.tableFails l id st d) := fun id st d =>
    State.MovesRings.after (State.keepsRings_endRecord ..)
      (s.keepsRings_updLine l (fun x => { x with setLine := none, bandReading := false }) fun _ h => h)
  have installed : ∀ id b n rate, s.KeepsRings (s.installTable l id b n rate) := fun id b n rate => by
    have ended := State.MovesRings.after (State.keepsRings_endOk _ id)
      (s.keepsRings_updLine l (fun x => x.install (bandTableOf b) n rate s.time) fun _ h => h)
    unfold State.installTable
    simp only
    split
    · exact ended.trans (State.keepsRings_enableLine _ l)
    · exact ended.trans (State.keepsRings_updLine _ l _ fun _ h => h)
  unfold State.tableReadEnds
  split
  · exact .refl s
  · refine State.MovesRings.after (State.keepsRings_finish _) ?_
    split
    · exact failed ..
    · split
      · exact installed ..
      · exact failed ..

theorem State.keepsRings_guardEnds : s.KeepsRings (s.guardEnds l) := by
  unfold State.guardEnds
  refine State.MovesRings.after (State.keepsRings_finish _) ((s.keepsRings_reach (s.line l).guardMoment).trans ?_)
  split
  · exact State.keepsRings_enterBreakOut ..
  · exact State.keepsRings_updLine _ l _ fun _ h => h

theorem State.keepsRings_breakReleased : s.KeepsRings (s.breakReleased l) := by
  have bound : ∀ u : State, u.KeepsRings (u.endBound l) := fun u =>
    State.MovesRings.after (State.keepsRings_updLine _ l _ fun _ h => h)
      (State.MovesRings.foldl State.endOk (fun u id => u.keepsRings_endOk id) _ _)
  exact State.MovesRings.after (State.keepsRings_finish _) (State.MovesRings.after (State.keepsRings_toGuard _ l)
    ((s.keepsRings_reachLine l _ (fun x => x.releaseDriver _) fun _ h => h).trans (bound _)))

/-! ## The receiver -/

theorem Line.polling_discardGlitch (x : Line) (t : Nat) : (x.discardGlitch t).polling = x.polling := by
  unfold Line.discardGlitch
  split
  · exact x.polling_noticed
  · rfl

theorem Line.polling_quietAtExpiry (x : Line) (t : Nat) : (x.quietAtExpiry t).polling = x.polling := by
  unfold Line.quietAtExpiry
  split <;> rfl

theorem State.keepsRings_readMark : s.KeepsRings (s.readMark l) := s.keepsRings_reachLine l _ _ fun _ h => h

theorem State.keepsRings_receiveOctet (octet : Byte) (mark ferr : Bool) : s.KeepsRings (s.receiveOctet l octet mark ferr) := by
  unfold State.receiveOctet
  simp only
  split
  · exact .refl s
  · split
    · exact .refl s
    · split
      · exact s.keepsRings_updLine l _ fun _ h => h
      · exact s.keepsRings_updLine l _ fun _ h => h
      · exact s.keepsRings_endAttempt ..
      · exact s.keepsRings_endAttempt ..

theorem State.keepsRings_useCharacter (octet : Byte) (mark ferr : Bool) : s.KeepsRings (s.useCharacter l octet mark ferr) := by
  have counted : s.KeepsRings (s.updLine l Line.countChatter) := s.keepsRings_updLine l _ fun _ h => h
  unfold State.useCharacter
  split
  · exact s.keepsRings_receiveOctet ..
  · exact counted.trans (State.keepsRings_toGuard _ l)
  · exact counted
  · exact counted
  · exact counted
  · exact counted
  · exact .refl s
  · exact .refl s
  · exact .refl s

theorem State.keepsRings_takeCharacter (octet : Byte) (mark : Bool) (stop : StopBit) (e : Nat) :
    s.KeepsRings (s.takeCharacter l octet mark stop e) := by
  have begun : s.KeepsRings (s.answerBegins l mark) := by
    unfold State.answerBegins
    split
    · exact s.keepsRings_readMark l
    · exact .refl s
  exact State.MovesRings.after (State.keepsRings_finish _) (State.MovesRings.after (State.keepsRings_useCharacter ..)
    (begun.trans (State.keepsRings_reachLine _ l _ (fun x => x.endCharacter e _) fun _ h => h)))

theorem State.keepsRings_breakOnAttempt : s.KeepsRings (s.breakOnAttempt l) := by
  unfold State.breakOnAttempt
  split
  · split
    · next job hjob => exact s.keepsRings_deliver l job _ _ hjob
    · exact .refl s
  · exact .refl s

theorem State.keepsRings_breakDetected : s.KeepsRings (s.breakDetected l) := by
  have abandoned : ∀ u : State, u.KeepsRings (u.breakOnRead l) := fun u => by
    unfold State.breakOnRead
    split
    · exact u.keepsRings_abandonRead l
    · exact .refl u
  have guarded : ∀ u : State, u.KeepsRings (u.guardAfterBreak l) := fun u => by
    unfold State.guardAfterBreak
    split
    · exact u.keepsRings_toGuard l
    · exact .refl u
  have entered := s.keepsRings_reachLine l ((s.line l).reaches ((s.line l).breakEdge s.time) 2)
    (fun x => x.enterBreak ((s.line l).breakEdge s.time)) fun _ h => h
  have ended := (((entered.trans (abandoned _)).trans (State.keepsRings_breakReaches _ l)).trans
    (State.keepsRings_cancelAbandoned _ (s.line l).abandonedJob)).trans (State.keepsRings_breakOnAttempt _ l)
  exact State.MovesRings.after (State.keepsRings_finish _) (State.MovesRings.after (guarded _)
    (ended.trans (State.keepsRings_updLine _ l (fun x => { x with breaksSeen := min 255 (x.breaksSeen + 1) }) fun _ h => h)))

end

/-! ## Station timers -/

theorem State.keepsRings_timerExpires (s : State) (h : Handle) (k : TimerKind) (f : Station → Nat → Station) :
    s.KeepsRings (s.timerExpires h k f) := .same rfl

theorem State.keepsRings_tellStationLine (s : State) (h : Handle) : s.KeepsRings (s.tellStationLine h) := by
  unfold State.tellStationLine
  split
  · exact s.keepsRings_notify _
  · exact .refl s

theorem State.keepsRings_releaseHeld (s : State) (h : Handle) : s.KeepsRings (s.releaseHeld h) := by
  unfold State.releaseHeld
  split
  · exact s.keepsRings_setCtx _ _ fun _ => ⟨rfl, rfl⟩
  · exact .refl s

/-! ## The commands -/

theorem carriesRings_runCommand {c : Instr} {o : Bool} {e : State → State} {s t : State} (h : runCommand c o e s = .next t)
    (k : o = true → s.CarriesRings (e s)) : s.CarriesRings t := by
  obtain ⟨-, ⟨-, ho, rfl⟩ | rfl⟩ := runCommand_next h
  · exact k ho
  · exact State.MovesRings.carries (.refl _)

theorem keepsRings_runCommand {c : Instr} {o : Bool} {e : State → State} {s t : State} (h : runCommand c o e s = .next t)
    (k : s.KeepsRings (e s)) : s.CarriesRings t :=
  carriesRings_runCommand h fun _ => k.carries

theorem keepsRings_runRecord {c : Instr} {r : List Byte} {act : State → Nat → State} {s t : State}
    (h : runRecord c r act s = .next t) (k : ∀ (u : State) id, u.KeepsRings (act u id)) : s.CarriesRings t :=
  keepsRings_runCommand h (s.keepsRings_takeRecord r act k)

theorem State.installed_of_mayChoose {s : State} {l : LineNo} (h : s.mayChoose l = true) : s.Installed := by
  unfold State.mayChoose at h
  simp only [Bool.and_eq_true, beq_iff_eq] at h
  obtain ⟨⟨⟨⟨⟨⟨⟨-, hd⟩, -⟩, -⟩, -⟩, -⟩, -⟩, -⟩ := h
  simp [State.Installed, hd]

theorem exec_carriesRings {c : Instr} {s t : State} (h : exec c s = .next t) : s.CarriesRings t := by
  unfold exec at h
  cases c with
  | hardwareReset => cases h; exact s.carriesRings_softReset.keeps (u := s.hardResetValues) (.same rfl)
  | resetRelease => cases h; exact State.MovesRings.carries (.same rfl)
  | softReset v => exact carriesRings_runCommand h fun _ => s.carriesRings_softReset
  | enableWritten1 v => exact keepsRings_runCommand h s.keepsRings_enableOne
  | enableWritten0 v => exact keepsRings_runCommand h s.keepsRings_enableZero
  | setupAddrWrite v =>
    refine keepsRings_runCommand h ?_
    unfold State.writeSetupAddr
    split
    · exact .same rfl
    · exact s.keepsRings_reject
  | postTail v => exact keepsRings_runCommand h (s.keepsRings_postTail v)
  | postRestart v =>
    refine keepsRings_runCommand h ?_
    unfold State.postRestart
    split
    · exact .same rfl
    · exact s.keepsRings_reject
  | retire v => exact keepsRings_runCommand h (s.keepsRings_retire v)
  | intStatusWrite v => exact keepsRings_runCommand h (.same rfl)
  | intEnableWrite v => exact keepsRings_runCommand h (.same rfl)
  | registerWriteIgnored offset v => exact keepsRings_runCommand h s.keepsRings_reject
  | setupReadEnd result => exact carriesRings_runCommand h fun hd => s.carriesRings_setupEnds result (by simpa using hd)
  | fetchChoice => exact carriesRings_runCommand h fun _ => s.carriesRings_fetchLook
  | recordReadError =>
    exact carriesRings_runCommand h fun _ => s.carriesRings_readFails.keeps (State.keepsRings_finish _)
  | unknownKind r => exact keepsRings_runRecord h fun u _ => .refl u
  | exchange r => exact keepsRings_runRecord h fun u id => u.keepsRings_acceptExchange (recHandle r) id
  | broadcast r =>
    exact keepsRings_runRecord h fun u id => u.keepsRings_updLine _ _ fun x => x.polling_noticed.symm.trans
  | addStation r =>
    exact keepsRings_runRecord h fun u id => State.MovesRings.after (State.keepsRings_endOk _ id)
      (State.MovesRings.after (State.keepsRings_notify _ _) (u.keepsRings_setStation ..))
  | removeStation r =>
    exact keepsRings_runRecord h fun u id => State.MovesRings.after (State.keepsRings_settleClosing _ _)
      (u.keepsRings_setStation ..)
  | pauseStation r =>
    exact keepsRings_runRecord h fun u id => State.MovesRings.after (State.keepsRings_endOk _ id) (u.keepsRings_setStation ..)
  | resumeStation r =>
    exact keepsRings_runRecord h fun u id => (u.keepsRings_resumeStation _).trans (State.keepsRings_endOk _ id)
  | setLineDisable r =>
    exact keepsRings_runRecord h fun u id => (u.keepsRings_disableLine _).trans (State.keepsRings_endOk _ id)
  | setLineEnable r =>
    exact keepsRings_runRecord h fun u id => u.keepsRings_updLine _ _ fun x => (x.polling_configure id).symm.trans
  | quiesceLine r => exact keepsRings_runRecord h fun u id => u.keepsRings_quiesceLine _ id
  | resumeLine r =>
    exact keepsRings_runRecord h fun u id => State.MovesRings.after (State.keepsRings_endOk _ id)
      (u.keepsRings_updLine _ Line.resume fun _ h => h)
  | lineReset r => exact keepsRings_runRecord h fun u id => u.keepsRings_resetLine _ id
  | abort r => exact keepsRings_runRecord h fun u id => u.keepsRings_abortRecord _ _ id
  | fence r => exact keepsRings_runRecord h fun u id => u.keepsRings_fenceRecord id
  | bandTableReadEnd l result => exact keepsRings_runCommand h (s.keepsRings_tableReadEnds l result)
  | schedulerChoice l wait =>
    exact carriesRings_runCommand h fun ho => State.MovesRings.carries (State.MovesRings.after (State.keepsRings_finish _)
      ((s.keepsRings_reach _).trans (State.keepsRings_consult _ l (State.installed_of_mayChoose ho))))
  | payloadReadEnd l octets => exact keepsRings_runCommand h (s.keepsRings_payloadRead l octets)
  | payloadReadError l => exact keepsRings_runCommand h (s.keepsRings_payloadFails l)
  | abandonedReadEnd l => exact keepsRings_runCommand h ((s.keepsRings_toGuard l).trans (State.keepsRings_finish _))
  | transmitEnd l => exact keepsRings_runCommand h (s.keepsRings_transmitEnds l)
  | characterReceived l octet mark stop => exact keepsRings_runCommand h (s.keepsRings_takeCharacter ..)
  | interCharacterGapExpiry l =>
    exact keepsRings_runCommand h (State.MovesRings.after (State.keepsRings_finish _)
      ((s.keepsRings_reach _).trans (State.keepsRings_endAttempt ..)))
  | replyTimerExpiry l =>
    exact keepsRings_runCommand h (State.MovesRings.after (State.keepsRings_finish _)
      (State.MovesRings.after (State.keepsRings_endAttempt ..)
        (s.keepsRings_reachLine l _ _ fun x => (x.polling_quietAtExpiry _).symm.trans)))
  | replyWriteEnd l result => exact keepsRings_runCommand h (s.keepsRings_replyWriteEnds l result)
  | breakDetected l => exact keepsRings_runCommand h (s.keepsRings_breakDetected l)
  | stuck l =>
    exact keepsRings_runCommand h (State.MovesRings.after (State.keepsRings_finish _)
      (s.keepsRings_reachLine l _ _ fun _ hx => hx))
  | lineReturnToMark l wait => exact keepsRings_runCommand h (s.keepsRings_reachLine l _ _ fun _ hx => hx)
  | recoveryEnd l =>
    exact keepsRings_runCommand h (State.MovesRings.after (State.keepsRings_finish _)
      (s.keepsRings_reachLine l _ _ fun _ hx => hx))
  | guardEnd l => exact keepsRings_runCommand h (s.keepsRings_guardEnds l)
  | breakSpaceEnd l => exact keepsRings_runCommand h (s.keepsRings_reachLine l _ _ fun _ hx => hx)
  | breakRelease l => exact keepsRings_runCommand h (s.keepsRings_breakReleased l)
  | pollTimerExpiry k =>
    exact keepsRings_runCommand h ((s.keepsRings_timerExpires k .poll _).trans (State.keepsRings_tellStationLine _ k))
  | holdTimerExpiry k =>
    exact keepsRings_runCommand h (((s.keepsRings_timerExpires k .hold _).trans
      (State.keepsRings_releaseHeld _ k)).trans (State.keepsRings_tellStationLine _ k))
  | probeTimerExpiry k =>
    exact keepsRings_runCommand h ((s.keepsRings_timerExpires k .probe _).trans (State.keepsRings_tellStationLine _ k))
  | completionEntryPosted =>
    exact carriesRings_runCommand h fun ho => s.carriesRings_completionPosted (Bool.and_eq_true_iff.1 ho).1
  | completionWriteError done =>
    exact carriesRings_runCommand h fun ho =>
      (s.keepsRings_completionFails done (State.installed_of_posting (Bool.and_eq_true_iff.1 ho).1)).carries
  | eventEntryPosted =>
    exact carriesRings_runCommand h fun ho => (s.keepsRings_eventPosted (Bool.and_eq_true_iff.1 ho).1).carries
  | eventWriteError done =>
    exact carriesRings_runCommand h fun ho =>
      (s.keepsRings_eventFails done (State.installed_of_posting (Bool.and_eq_true_iff.1 ho).1)).carries
  | holdoffTimerExpiry ring =>
    refine keepsRings_runCommand h ?_
    unfold State.holdoffExpires
    cases ring <;> exact .same rfl
  | characterBegun l wait => exact keepsRings_runCommand h (s.keepsRings_reachLine l _ _ fun _ hx => hx)
  | glitchDiscarded l wait =>
    exact keepsRings_runCommand h (s.keepsRings_reachLine l _ _ fun x => (x.polling_discardGlitch _).symm.trans)
  | markBitRead l => exact keepsRings_runCommand h (s.keepsRings_readMark l)

/-- A step runs the command at the front of the queue, or lets time pass. -/
theorem step_carriesRings {s t : State} (h : step s = .next t) : s.CarriesRings t := by
  cases hp : s.pending with
  | nil =>
    rw [step_of_empty hp] at h
    cases h
    unfold State.tick
    split
    · exact State.MovesRings.carries (.refl s)
    · exact State.MovesRings.carries (.same rfl)
  | cons c rest =>
    have hrun : exec c { s with pending := rest } = .next t := by
      unfold step at h
      rwa [hp] at h
    exact (State.MovesRings.carries (.same rfl)).trans (exec_carriesRings hrun)

end Sys2Proof.Machine

open Sys2Proof Sys2Proof.Machine

/-- Settles O58, by what each command does to the contexts, the credits and the places. -/
theorem contextsStayDistinct : Obligations.ContextsStayDistinct := fun _ _ h =>
  have k := step_carriesRings h
  ⟨k.distinct, k.credits, k.places⟩
end

section
/-! PROOFS. ABORT and FENCE, taken (R76 to R79). -/

namespace Sys2Proof.Machine

/-! ## An accepted record (R136, R139) -/

/-- The fields of a record of a known kind are never those of a context that waits for its record. -/
theorem bodyOf_ne_reserved (k : RecordKind) (r : List Byte) : bodyOf k r ≠ .reserved := by
  cases k <;> exact fun h => Body.noConfusion h

theorem State.recordBody_ne_reserved (s : State) (r : List Byte) : s.recordBody r ≠ .reserved := by
  unfold State.recordBody
  split
  · exact bodyOf_ne_reserved _ _
  · exact fun h => Body.noConfusion h

section
variable {s : State} {rd : RecordRead} {x : Context}

/-- R136: the accepted record stands in its context. -/
theorem State.ctx_accept (hx : s.ctx rd.ctx = some x) (hp : x.phase ≠ .ending) (r : List Byte) :
    (s.accept rd r).ctx rd.ctx = some (x.accept r (s.recordBody r)) :=
  State.ctx_updCtx_same (s := s.updQueue rd.queue Queue.readEnds) (f := fun c => c.accept r (s.recordBody r))
    (fun _ => rfl) hx hp

/-- R56: the end of an accepted record is open. -/
theorem Context.live_accept (x : Context) (r : List Byte) (s : State) : (x.accept r (s.recordBody r)).Live :=
  ⟨Phase.noConfusion, s.recordBody_ne_reserved r⟩

/-- Acceptance changes neither the name nor the queue of any context. -/
theorem State.countP_accept (r : List Byte) (p : Nat → QueueNo → Bool) :
    (s.accept rd r).pool.countP (fun d => p d.id d.queue) = s.pool.countP (fun d => p d.id d.queue) := by
  have hpool : (s.accept rd r).pool =
      s.pool.map (Context.updated rd.ctx fun c => c.accept r (s.recordBody r)) := rfl
  rw [hpool, List.countP_map]
  refine List.countP_congr fun d _ => ?_
  simp only [Function.comp_apply, Context.updated]
  split <;> rfl

/-- R79: the count that an accepted FENCE takes. -/
theorem State.fenceCountOf_accept (hx : s.ctx rd.ctx = some x) (hp : x.phase ≠ .ending) (r : List Byte) :
    (s.accept rd r).fenceCountOf rd.ctx = s.pool.countP fun d => d.id != rd.ctx && d.queue == x.queue := by
  rw [State.fenceCountOf, State.ctx_accept hx hp]
  exact State.countP_accept r fun id q => id != rd.ctx && q == x.queue

end

/-! ## FENCE (R79) -/

theorem exec_fence (r : List Byte) (s : State) :
    exec (.fence r) s = runRecord (.fence r) r (fun s id => s.fenceRecord id) s := rfl

theorem State.fenceRecord_of_pos {s : State} {id : Nat} (h : s.fenceCountOf id ≠ 0) :
    s.fenceRecord id = s.updCtx id fun c => { c with fenceCount := s.fenceCountOf id } := if_neg h

/-- R79: a FENCE with nothing before it ends OK. -/
theorem State.handed_fenceRecord {s : State} {id : Nat} {c : Context} (h : s.fenceCountOf id = 0) (hc : s.ctx id = some c)
    (hl : c.Live) : (s.fenceRecord id).Handed id .ok .none := by
  have hcounted := State.ctx_updCtx_same (f := fun c => { c with fenceCount := s.fenceCountOf id }) (fun _ => rfl) hc hl.1
  have hends : s.fenceRecord id = (s.updCtx id fun c => { c with fenceCount := s.fenceCountOf id }).endRecord id .ok .none :=
    if_pos h
  rw [hends]
  exact State.handed_endRecord _ _ _ _ hcounted hl

/-! ## ABORT (R76 to R78) -/

theorem exec_abort (r : List Byte) (s : State) :
    exec (.abort r) s = runRecord (.abort r) r (fun s id => s.abortRecord (recQueue r) (le16 r 6) id) s := rfl

/-- R76: the contexts that an ABORT of a queue in range names. -/
theorem Context.named_iff {c : Context} {r : List Byte} (h : le8 r 4 < 4) (t : Nat) : c.named (recQueue r) t = true ↔
    (c.kind = some .exchange ∨ c.kind = some .broadcast) ∧ c.queue.val = le8 r 4 ∧ c.tag = t := by
  have hqueue : c.queue = recQueue r ↔ c.queue.val = le8 r 4 := by
    rw [← Fin.val_inj, show (recQueue r).val = le8 r 4 from Nat.mod_eq_of_lt h]
  simp [Context.named, hqueue, and_assoc]

section
variable {s : State} {q : QueueNo} {t id : Nat}

/-- R76: the target is the first context in the order of acceptance that can be one. -/
theorem State.abortTarget_eq {before after : List Context} {c : Context} (hpool : s.pool = before ++ c :: after)
    (hc : c.named q t = true ∧ c.phase ≠ .ending ∧ c.abortRequested = none)
    (hbefore : ∀ d ∈ before, ¬ (d.named q t = true ∧ d.phase ≠ .ending ∧ d.abortRequested = none)) :
    s.abortTarget q t = some c := by
  rw [State.abortTarget, hpool, List.find?_eq_some_iff_append]
  refine ⟨by simp [hc], before, after, rfl, fun d hd => ?_⟩
  rw [Bool.not_eq_true', ← Bool.not_eq_true]
  simpa [and_assoc] using hbefore d hd

theorem State.abortTarget_eq_none
    (h : ∀ d ∈ s.pool, ¬ (d.named q t = true ∧ d.phase ≠ .ending ∧ d.abortRequested = none)) : s.abortTarget q t = none := by
  rw [State.abortTarget, List.find?_eq_none]
  intro d hd
  simpa [and_assoc] using h d hd

/-- R77: a target that does not transmit ends ABORTED at once. -/
theorem State.abortRecord_of_waiting {c : Context} (hc : s.abortTarget q t = some c)
    (hp : c.phase = .queued ∨ c.phase = .waitingRetry ∨ c.phase = .held) :
    s.abortRecord q t id = (s.endWith c.id .aborted).endRecord id .ok .none := by
  rw [State.abortRecord, hc]
  rcases hp with hp | hp | hp <;> simp only [State.abortContext, hp] <;> rfl

/-- R78: the abort of a target in PREPARING or ATTEMPTING is requested. -/
theorem State.abortRecord_of_active {c : Context} (hc : s.abortTarget q t = some c)
    (hp : c.phase = .preparing ∨ c.phase = .attempting) :
    s.abortRecord q t id = s.updCtx c.id fun d => { d with abortRequested := some id } := by
  rw [State.abortRecord, hc]
  rcases hp with hp | hp <;> simp only [State.abortContext, hp]

/-- R76: without a target the ABORT ends TOO_LATE when a named context is ENDING. -/
theorem State.abortRecord_of_none (hc : s.abortTarget q t = none) (id : Nat) :
    s.abortRecord q t id = s.endRecord id (s.abortMiss q t) .none := by
  rw [State.abortRecord, hc]

theorem State.abortMiss_tooLate (h : ∃ c ∈ s.pool, c.named q t = true ∧ c.phase = .ending) :
    s.abortMiss q t = .tooLate := by
  simpa [State.abortMiss] using h

theorem State.abortMiss_notFound (h : ∀ c ∈ s.pool, ¬ (c.named q t = true ∧ c.phase = .ending)) :
    s.abortMiss q t = .notFound := by
  simpa [State.abortMiss] using h

end

end Sys2Proof.Machine

open Sys2Proof Sys2Proof.Machine

/-- Settles O29, by whether the count is 0. -/
theorem fenceCountsItsQueue : Obligations.FenceCountsItsQueue := by
  intro s r rd x ht hx hp n
  have hcount : (s.accept rd r).fenceCountOf rd.ctx = n := State.fenceCountOf_accept hx hp r
  rw [exec_fence, runRecord_taken ht]
  refine ⟨fun hn => ⟨_, rfl, ?_, State.sameButEnds_finish (State.ends_fenceRecord ..)⟩, fun hn => ?_⟩
  · have handed := State.handed_fenceRecord (hcount.trans hn) (State.ctx_accept hx hp r) (x.live_accept r s)
    exact handed.reports
  · rw [State.fenceRecord_of_pos (hcount.trans_ne hn), hcount]

/-- Settles O28: the search of `State.abortRecord` finds the first eligible context, whose phase decides. -/
theorem abortFindsItsTarget : Obligations.AbortFindsItsTarget := by
  intro s r rd ht u named eligible
  have ⟨_, _, _, _, hwell, hverdict⟩ := ht
  have hqueue : le8 r 4 < 4 := by
    simpa [fieldsInRange] using (State.verdict_of_recordOf hverdict hwell (k := .abort) rfl).1
  have hnamed : ∀ c : Context, c.named (recQueue r) (le16 r 6) = true ↔ named c := fun c => Context.named_iff hqueue _
  rw [exec_abort, runRecord_taken ht]
  refine ⟨fun before after c hpool hc hbefore => ?_, fun hnone => ?_⟩
  · have htarget : u.abortTarget (recQueue r) (le16 r 6) = some c :=
      State.abortTarget_eq hpool (by rwa [hnamed]) fun d hd => by rw [hnamed]; exact hbefore d hd
    exact ⟨fun hp => by rw [State.abortRecord_of_waiting htarget hp], fun hp => by rw [State.abortRecord_of_active htarget hp]⟩
  · have htarget : u.abortTarget (recQueue r) (le16 r 6) = none :=
      State.abortTarget_eq_none fun d hd => by rw [hnamed]; exact hnone d hd
    rw [State.abortRecord_of_none htarget]
    refine ⟨fun hlate => ?_, fun hmiss => ?_⟩
    · rw [State.abortMiss_tooLate (by simpa only [hnamed] using hlate)]
    · rw [State.abortMiss_notFound (by simpa only [hnamed] using hmiss)]
end

section
/-! PROOFS. The end of an exchange or a broadcast with what follows it in the same step (R43, R45, R70, R71, R78). -/

namespace Sys2Proof.Machine

section
variable {s : State} {id k n : Nat} {st st' : Status} {d : Detail} {c : Context} {h : Handle} {x : Station}

/-- A free entry has nothing to settle. -/
theorem State.settleClosing_of_free (hx : s.station h = none) : s.settleClosing h = s := by
  have hdrain : s.drainClosing h = s := by rw [State.drainClosing, hx]
  rw [State.settleClosing, hdrain, State.tryFree, hx]

/-- The contexts that settle with an entry stay among them until an exchange leaves its list. -/
theorem Station.mem_settling_of_erase {link : Link}
    (hk : k ∈ ({ x with pending := x.pending.erase id, link := link } : Station).settling) : k ∈ x.settling := by
  simp only [Station.settling] at hk ⊢
  split at hk
  · rw [if_pos ‹_›]
    exact (List.mem_append.1 hk).elim (fun m => List.mem_append_left _ (List.mem_of_mem_erase m))
      (List.mem_append_right _)
  · cases hk

theorem State.endExchange_of_station (hc : s.ctx id = some c) (hh : c.exchangeHandle = some h) :
    s.endExchange id st d n = (s.endOne id st d n).settleClosing h := by
  rw [State.endExchange, hc]
  simp only [hh]

theorem State.endExchange_of_broadcast (hc : s.ctx id = some c) (hh : c.exchangeHandle = none) :
    s.endExchange id st d n = s.endOne id st d n := by
  rw [State.endExchange, hc]
  simp only [hh]

/-- R70, R71: the end of an exchange or a broadcast leaves every context alone but its own and those that settle with its
station. -/
theorem State.ctx_endExchange (hc : s.ctx id = some c) (hp : c.phase ≠ .ending) (hk : k ≠ id)
    (hset : ∀ h x, c.exchangeHandle = some h → s.station h = some x → k ∉ x.settling) :
    (s.endExchange id st d n).ctx k = s.ctx k := by
  have hown : (s.endOne id st d n).ctx k = s.ctx k := State.ctx_endOne_ne hk
  cases hh : c.exchangeHandle with
  | none => rw [State.endExchange_of_broadcast hc hh, hown]
  | some h =>
    rw [State.endExchange_of_station hc hh]
    cases hx : s.station h with
    | none =>
      have hfree := (s.ends_endOne id st d n).stations h
      rw [hx] at hfree
      cases hy : (s.endOne id st d n).station h with
      | none =>
        rw [State.settleClosing_of_free hy, hown]
      | some y =>
        rw [hy] at hfree
        exact hfree.elim
    | some x =>
      obtain ⟨link, hlink, -⟩ := State.station_endOne (st := st) (d := d) (n := n) hc hp hh hx
      exact (State.ctx_settleClosing hlink fun m => hset h x hh hx (Station.mem_settling_of_erase m)).trans hown

theorem State.handedReply_endExchange (hc : s.ctx id = some c) (hl : c.Live) :
    (s.endExchange id st d n).HandedReply id st d n := by
  have handed := State.handedReply_endOne (st := st) (d := d) (n := n) hc hl
  cases hh : c.exchangeHandle with
  | none =>
    rw [State.endExchange_of_broadcast hc hh]
    exact handed
  | some h =>
    rw [State.endExchange_of_station hc hh]
    exact handed.tells (State.tells_settleClosing _ h)

/-- R78: the ABORT that waited for it, where the settling has not ended that. -/
theorem State.handed_endExchange_abort {e : Context} (hc : s.ctx id = some c) (hp : c.phase ≠ .ending)
    (he : s.ctx k = some e) (hl : e.Live) (hk : k ≠ id)
    (hset : ∀ h x, c.exchangeHandle = some h → s.station h = some x → k ∉ x.settling) :
    ((s.endExchange id st d n).endAbort (some k) st').Handed k st' .none :=
  State.handed_endRecord _ k st' .none ((State.ctx_endExchange hc hp hk hset).trans he) hl

/-- R43, R45, R71: from the state `u` before the step, whose contexts but the exchange's own are those of `s`, the end of the
exchange settles its CLOSING station; the rest `w` of the step keeps what is handed, and keeps a free entry free. -/
theorem State.closingSettles_endExchange {u w : State} (hc : s.ctx id = some c) (hp : c.phase ≠ .ending)
    (hh : c.exchangeHandle = some h) (hx : s.station h = some x) (hs : x.state = .closing)
    (hctx : ∀ k, k ≠ id → s.ctx k = u.ctx k) (hatt : (s.line x.line).attempting h = false)
    (htells : (s.endExchange id st d n).Tells w)
    (hfree : (s.endExchange id st d n).station h = none → w.station h = none) :
    u.ClosingSettles w.finish h x (some id) := by
  intro hn hw
  obtain ⟨link, hlink, -⟩ := State.station_endOne (st := st) (d := d) (n := n) hc hp hh hx
  have hmem : ∀ k, k ∈ x.pending.erase id ↔ k ∈ x.pending ∧ k ≠ id := fun k => by rw [hn.mem_erase_iff, and_comm]
  have hothers : ∀ k, k ≠ id → (s.endOne id st d n).ctx k = u.ctx k := fun k hk =>
    (State.ctx_endOne_ne hk).trans (hctx k hk)
  have hwait : ∀ k ∈ x.pending.erase id, ∃ e, (s.endOne id st d n).ctx k = some e ∧ e.WaitsFor h := fun k hk => by
    obtain ⟨hpending, hne⟩ := (hmem k).1 hk
    rw [hothers k hne]
    exact hw k hpending fun e => hne (Option.some.inj e)
  obtain ⟨hcancelled, hfreed⟩ := State.settleClosing_settles hlink hs (hn.erase _) hwait
    (((s.ends_endOne ..).attempting _ h).trans hatt)
  rw [State.endExchange_of_station hc hh] at htells hfree
  refine ⟨fun k e hk hne he => ?_, fun hattention => ?_⟩
  · have hne' : k ≠ id := fun e => hne (congrArg some e)
    exact ((hcancelled k e ((hmem k).2 ⟨hk, hne'⟩) ((hothers k hne').trans he)).tells htells).reports
  · obtain ⟨hnone, hremoved⟩ := hfreed hattention
    refine ⟨State.station_finish_none (hfree hnone), fun r e hr hnot hne he hl => ?_⟩
    have hne' : r ≠ id := fun e => hne (congrArg some e)
    have hwaits : r ∉ x.pending.erase id := fun hm => hnot ((hmem r).1 hm).1
    exact ((hremoved r e hr hwaits ((hothers r hne').trans he) hl).tells htells).reports

end

end Sys2Proof.Machine
end

section
/-! PROOFS. The end of a reply write: the octets in host memory, the line, and the end of the exchange (R63, R78, R122;
entries 13, 31). -/

namespace Sys2Proof.Machine

/-! ## Host memory -/

/-- Within 2^32 octets no address comes twice (entry 13). -/
theorem addrPlus_inj {base : Word} {i j : Nat} (hi : i < 2 ^ 32) (hj : j < 2 ^ 32) (h : addrPlus base i = addrPlus base j) :
    i = j := by
  have hsum : base + BitVec.ofNat 32 i = base + BitVec.ofNat 32 j := BitVec.eq_of_toNat_eq h
  have hoffset : BitVec.ofNat 32 i = BitVec.ofNat 32 j := BitVec.add_right_inj base |>.1 hsum
  have hmod := congrArg BitVec.toNat hoffset
  rwa [BitVec.toNat_ofNat, BitVec.toNat_ofNat, Nat.mod_eq_of_lt hi, Nat.mod_eq_of_lt hj] at hmod

/-- A write of several octets puts each octet listed at its address. -/
theorem readMem_writeOctets {base : Word} {octets : List Byte} {offsets : List Nat} (m : List Host.Cell) {i : Nat}
    (hi : i ∈ offsets) (hlt : ∀ j ∈ offsets, j < 2 ^ 32) :
    readMem (writeOctets base octets offsets m) (addrPlus base i) = some (octetAt octets i) := by
  induction offsets generalizing m with
  | nil => cases hi
  | cons j rest ih =>
    have hrest : ∀ k ∈ rest, k < 2 ^ 32 := fun k hk => hlt k (List.mem_cons_of_mem _ hk)
    by_cases hmem : i ∈ rest
    · exact ih _ hmem hrest
    · obtain rfl : i = j := (List.mem_cons.1 hi).resolve_right hmem
      have hkept : ∀ k ∈ rest, addrPlus base i ≠ addrPlus base k := fun k hk e =>
        hmem (addrPlus_inj (hlt i hi) (hrest k hk) e ▸ hk)
      have hhead : writeOctets base octets (i :: rest) m =
          writeOctets base octets rest (writeByte (addrPlus base i) (octetAt octets i) m) := rfl
      rw [hhead, readMem_writeOctets_ne _ _ _ _ _ hkept, readMem_writeByte, if_pos rfl]

theorem mem_transactionOffsets {base : Word} {len n i : Nat} :
    i ∈ transactionOffsets base len n ↔ i < len ∧ (base.toNat % 4 + i) / 4 < n := by
  simp [transactionOffsets]

/-- R63: every octet of a write lies in one of its transactions. -/
theorem transaction_lt_count {base : Word} {len i : Nat} (h : i < len) :
    (base.toNat % 4 + i) / 4 < transactionCount base len := by
  rw [transactionCount, if_neg (by omega)]
  omega

/-- R63: memory after the first `n` transactions of a write of the first `len` of `octets`. -/
theorem readMem_transactions {base : Word} {octets : List Byte} {len n : Nat} (m : List Host.Cell)
    (hlen : len ≤ octets.length) (hsize : octets.length ≤ 240) :
    (∀ i, i < len → (base.toNat % 4 + i) / 4 < n →
      readMem (writeOctets base octets (transactionOffsets base len n) m) (addrPlus base i) = octets[i]?) ∧
    ∀ a, (∀ i, i < len → (base.toNat % 4 + i) / 4 < n → a ≠ addrPlus base i) →
      readMem (writeOctets base octets (transactionOffsets base len n) m) a = readMem m a := by
  refine ⟨fun i hi hn => ?_, fun a ha => ?_⟩
  · have hoctet : octets[i]? = some (octetAt octets i) := by
      rw [octetAt, List.getD_eq_getElem _ _ (hi.trans_le hlen), List.getElem?_eq_getElem]
    rw [hoctet]
    refine readMem_writeOctets m (mem_transactionOffsets.2 ⟨hi, hn⟩) fun j hj => ?_
    have := (mem_transactionOffsets.1 hj).1
    omega
  · refine readMem_writeOctets_ne _ _ _ _ _ fun i hi => ?_
    obtain ⟨hlt, hn⟩ := mem_transactionOffsets.1 hi
    exact ha i hlt hn

/-! ## The line (R63, R113, R122) -/

/-- R63, R113, R122: the line after the end of a reply write, in every state of its engine. -/
theorem Line.replyDelivered_noticed (x : Line) : x.replyDelivered =
    let y : Line := { x with rxBuffer := none, consultDue := if x.state = .idle then true else x.consultDue }
    if y.setLine.isSome = true ∧ y.bandReading = false then { y with bandReading := true, txHolds := none } else y := by
  unfold Line.replyDelivered Line.releaseBuffer Line.noticed Line.beginBandRead
  by_cases hidle : x.state = .idle <;> simp [hidle]

theorem Line.attempting_replyDelivered (x : Line) (h : Handle) : x.replyDelivered.attempting h = x.attempting h := by
  obtain ⟨hstate, hjob⟩ := x.replyDelivered_keeps
  rw [Line.attempting, Line.attempting, hstate, hjob]

/-! ## The write ends -/

/-- The state in which the octets of a reply write are in memory and its receive buffer is released. -/
def State.replyStored (s : State) (l : LineNo) (m : List Host.Cell) : State :=
  ({ s with mem := m } : State).setLine l (s.line l).replyDelivered

section
variable {s : State} {l : LineNo} {id : Nat} {octets : List Byte} {c : Context} {base : Word} {cap : Nat} {h : Handle}
  {pa : Word} {n : Nat}

theorem exec_replyWriteEnd (l : LineNo) (r : BusWrite) (s : State) : exec (.replyWriteEnd l r) s =
    runCommand (.replyWriteEnd l r) (s.mayEndReply l r) (fun s => s.replyWriteEnds l r) s := rfl

/-- R63, entry 31: which ends of the write can come. -/
theorem State.mayEndReply_eq (ho : s.Operates) (hr : (s.line l).rxBuffer = some (.reply id octets)) (hc : s.ctx id = some c)
    (hb : c.body = .exchange h pa n base cap) (r : BusWrite) : s.mayEndReply l r =
      match r with
      | .good => true
      | .error done => decide (done < transactionCount base (min octets.length cap)) := by
  have hreplying : (s.line l).replying = true := by rw [Line.replying, hr]
  cases r <;>
    simp [State.mayEndReply, ho.operating, hreplying, State.replyTransactions, hr, hc, Context.replyBuffer, hb]

/-- R63: what the end of the write does. -/
theorem State.replyWritten_eq (hc : s.ctx id = some c) (hb : c.body = .exchange h pa n base cap) (l : LineNo)
    (octets : List Byte) (r : BusWrite) :
    s.replyWritten l id octets r =
      (((s.replyStored l (writeOctets base octets (transactionOffsets base (min octets.length cap)
        (writtenTransactions r base (min octets.length cap))) s.mem)).endExchange id (replyEnd r octets.length cap).1
          c.failureDetail (replyEnd r octets.length cap).2).endAbort c.abortRequested .tooLate) := by
  rw [State.replyWritten, hc]
  simp only [Context.replyBuffer, hb]
  rfl

/-- R63: the status and the reply length of a good end. -/
theorem replyEnd_good (n cap : Nat) : replyEnd .good n cap = (if n ≤ cap then .ok else .overrun, min n cap) := by
  by_cases hle : n ≤ cap
  · simp [replyEnd, hle]
  · simp [replyEnd, hle, (not_le.1 hle).le]

/-- What the end of a reply write reports and moves, whatever reached memory: from `s` to the end of the step `t`. -/
structure State.EndsReply (s t : State) (l : LineNo) (m : List Host.Cell) (id : Nat) (c : Context) (h : Handle)
    (status : Status) (len : Nat) : Prop where
  reply : t.ReportsReply id status c.failureDetail len
  aborts : ∀ a d, c.abortRequested = some a → s.ctx a = some d → d.Live → a ≠ id →
    (∀ st, s.station h = some st → a ∉ st.settling) → t.Reports a .tooLate .none
  settles : ∀ st, s.station h = some st → st.state = .closing → (s.line st.line).attempting h = false →
    s.ClosingSettles t h st (some id)
  frame : (s.replyStored l m).SameButEnds t
  mem : t.mem = m

/-- R63, R78, R45: every end of a reply write ends its exchange. -/
theorem State.endsReply (hc : s.ctx id = some c) (hp : c.phase ≠ .ending) (hh : c.exchangeHandle = some h) (l : LineNo)
    (m : List Host.Cell) (status : Status) (len : Nat) :
    s.EndsReply (((s.replyStored l m).endExchange id status c.failureDetail len).endAbort c.abortRequested .tooLate).finish
      l m id c h status len := by
  have hl : c.Live := Context.live_of_exchange hp hh
  have hc' : (s.replyStored l m).ctx id = some c := hc
  have moved := State.sameButEnds_finish (((s.replyStored l m).ends_endExchange id status c.failureDetail len).trans
    (State.ends_endAbort _ c.abortRequested .tooLate))
  refine ⟨((State.handedReply_endExchange hc' hl).tells (State.tells_endAbort ..)).reports,
    fun a d ha hd hlive hne hset => ?_, fun st hst hs hatt => ?_, moved, ?_⟩
  · rw [ha]
    refine (State.handed_endExchange_abort hc' hp hd hlive hne fun h' x hh' hx => ?_).reports
    obtain rfl := Option.some.inj (hh.symm.trans hh')
    exact hset x hx
  · refine State.closingSettles_endExchange hc' hp hh hst hs (fun _ _ => rfl) ?_ (State.tells_endAbort ..) fun hfree => ?_
    · rw [State.replyStored, State.line_setLine]
      split
      · next e => rw [Line.attempting_replyDelivered, ← e, hatt]
      · exact hatt
    · rw [State.station_endAbort, hfree]
  · rw [moved.1]
    rfl

end

end Sys2Proof.Machine

open Sys2Proof Sys2Proof.Machine

/-- Settles O45: `State.endsReply` for what a good end and an error leave in memory. -/
theorem replyWriteEnds : Obligations.ReplyWriteEnds := by
  intro s l id octets c base cap h pa n ho hr hlen hc hp hb len transactions x y aborted settles
  have hh : c.exchangeHandle = some h := Context.exchangeHandle_of_body hb
  have hline : (s.line l).replyDelivered = y := Line.replyDelivered_noticed _
  have hmay := State.mayEndReply_eq ho hr hc hb
  have hmem := fun k => readMem_transactions (base := base) (n := k) s.mem (min_le_left octets.length cap) hlen
  have step : ∀ r, (Instr.replyWriteEnd l r).wellFormed = true → s.mayEndReply l r = true →
      ∃ t, exec (.replyWriteEnd l r) s = .next t ∧ s.EndsReply t l
        (writeOctets base octets (transactionOffsets base len (writtenTransactions r base len)) s.mem) id c h
        (replyEnd r octets.length cap).1 (replyEnd r octets.length cap).2 := fun r hwell hm => by
    refine ⟨_, ?_, State.endsReply hc hp hh ..⟩
    rw [exec_replyWriteEnd, runCommand_occurs hwell ho.live hm, State.replyWriteEnds, hr]
    simp only [State.replyWritten_eq hc hb]
    rfl
  refine ⟨?_, fun done hd hlt => ?_, fun done hd hge => ?_⟩
  · obtain ⟨t, ht, hreply, haborts, hsettles, hframe, hstored⟩ := step .good rfl (hmay .good)
    obtain ⟨hread, hkept⟩ := hmem (transactionCount base len)
    rw [replyEnd_good] at hreply
    rw [State.replyStored, hline, ← hstored] at hframe
    refine ⟨t, ht, hreply, haborts, hsettles, hframe, fun i hi => ?_, fun a ha => ?_⟩
    · rw [hstored]
      exact hread i hi (transaction_lt_count hi)
    · rw [hstored]
      exact hkept a fun i hi _ => ha i hi
  · obtain ⟨t, ht, hreply, haborts, hsettles, hframe, hstored⟩ :=
      step (.error done) (decide_eq_true hd) ((hmay (.error done)).trans (decide_eq_true hlt))
    obtain ⟨hread, hkept⟩ := hmem done
    have hwritten : writtenTransactions (.error done) base len = done := min_eq_left hlt.le
    rw [hwritten] at hframe hstored
    rw [State.replyStored, hline, ← hstored] at hframe
    refine ⟨t, ht, hreply, haborts, hsettles, hframe, fun i hi hn => ?_, fun a ha => ?_⟩
    · rw [hstored]
      exact hread i hi hn
    · rw [hstored]
      exact hkept a ha
  · have hwell : (Instr.replyWriteEnd l (.error done)).wellFormed = true := decide_eq_true hd
    rw [exec_replyWriteEnd, runCommand_absent hwell ((hmay (.error done)).trans (decide_eq_false (not_lt.2 hge)))]
end

section
/-! PROOFS. The exchanges in WAITING_RETRY that a break ends, and the entry into the part's own break (R41, R67, R94; entries
7, 10). -/

namespace Sys2Proof.Machine

/-! ## Contexts that ends leave or end -/

/-- Every context is as it was, or its end is decided. -/
structure State.EndsOrKeeps (s t : State) : Prop where
  ctx : ∀ k, t.ctx k = s.ctx k ∨ t.phaseOf k = some .ending

theorem State.EndsOrKeeps.same {s t : State} (h : ∀ k, t.ctx k = s.ctx k) : s.EndsOrKeeps t := ⟨fun k => .inl (h k)⟩

theorem State.EndsOrKeeps.refl (s : State) : s.EndsOrKeeps s := .same fun _ => rfl

theorem State.EndsOrKeeps.trans {s t u : State} (a : s.EndsOrKeeps t) (b : t.EndsOrKeeps u) : s.EndsOrKeeps u := ⟨fun k => by
  rcases b.ctx k with hb | hb
  · rw [State.phaseOf, hb]
    exact a.ctx k
  · exact .inr hb⟩

theorem State.EndsOrKeeps.foldl {α : Type} (f : State → α → State) (hf : ∀ (s : State) a, s.EndsOrKeeps (f s a)) (as : List α)
    (s : State) : s.EndsOrKeeps (as.foldl f s) := by
  induction as generalizing s with
  | nil => exact .refl s
  | cons a rest ih => exact (hf s a).trans (ih _)

section
variable (s : State) (id : Nat) (st : Status) (d : Detail) (n : Nat) (h : Handle)

theorem State.endsOrKeeps_hand (b : Option (Fin 8)) (t : Option Nat) : s.EndsOrKeeps (s.hand id st d n b t) := ⟨fun k => by
  by_cases hk : k = id
  · subst hk
    cases hc : s.ctx k with
    | none => exact .inl (by rw [State.hand, hc, hc])
    | some c =>
      by_cases hl : c.Live
      · exact .inr (s.handed_hand k st d n b t hc hl).1
      · have hsame : s.hand k st d n b t = s := by
          rw [State.hand, hc]
          exact if_pos (by rwa [Context.Live, not_and_or, not_not, not_not] at hl)
        exact .inl (by rw [hsame, hc])
  · exact .inl (State.ctx_hand_ne hk)⟩

theorem State.endsOrKeeps_endRecord : s.EndsOrKeeps (s.endRecord id st d) := s.endsOrKeeps_hand ..

theorem State.endsOrKeeps_endAbort (a : Option Nat) : s.EndsOrKeeps (s.endAbort a st) := by
  cases a with
  | none => exact .refl s
  | some id => exact s.endsOrKeeps_endRecord ..

theorem State.endsOrKeeps_endOne : s.EndsOrKeeps (s.endOne id st d n) := by
  unfold State.endOne
  split
  · exact .refl s
  · split
    · exact .refl s
    · exact State.EndsOrKeeps.trans (.same fun k => (State.ctx_markUncertain ..).trans (State.ctx_leaveLists ..))
        (State.endsOrKeeps_hand ..)

theorem State.endsOrKeeps_settleClosing : s.EndsOrKeeps (s.settleClosing h) := by
  have drained : s.EndsOrKeeps (s.drainClosing h) := by
    unfold State.drainClosing State.endList
    split
    · exact .refl s
    · split
      · split
        · exact .refl s
        · exact .foldl _ (fun s id => s.endsOrKeeps_endOne ..) _ _
      · exact .refl s
  refine drained.trans ?_
  show (s.drainClosing h).EndsOrKeeps ((s.drainClosing h).tryFree h)
  unfold State.tryFree
  split
  · exact .refl _
  · split
    · split
      · exact State.EndsOrKeeps.trans (t := (s.drainClosing h).setStation h none) (.same fun _ => rfl)
          (State.endsOrKeeps_endRecord ..)
      · exact .same fun _ => rfl
    · exact .refl _

theorem State.endsOrKeeps_endExchange : s.EndsOrKeeps (s.endExchange id st d n) := by
  unfold State.endExchange
  split
  · exact .refl s
  · simp only
    split
    · exact (s.endsOrKeeps_endOne ..).trans (State.endsOrKeeps_settleClosing ..)
    · exact s.endsOrKeeps_endOne ..

end

/-! ## The exchanges that wait -/

theorem State.retryWaits_iff {s : State} {l : LineNo} {c : Context} : s.retryWaits l c = true ↔
    c.phase = .waitingRetry ∧ ∃ h x, c.exchangeHandle = some h ∧ s.station h = some x ∧ x.line = l ∧ x.state ≠ .closing := by
  unfold State.retryWaits
  cases hh : c.exchangeHandle with
  | none => simp
  | some h => cases hx : s.station h <;> simp [hx]

/-- Ends free no entry but a CLOSING one, and move neither the line nor the state of any. -/
theorem State.Ends.retryWaits {s t : State} (e : s.Ends t) (l : LineNo) (c : Context) :
    t.retryWaits l c = s.retryWaits l c := by
  rw [Bool.eq_iff_iff, State.retryWaits_iff, State.retryWaits_iff]
  refine and_congr_right fun _ => ⟨fun ⟨h, y, hh, hy, hl, hs⟩ => ?_, fun ⟨h, x, hh, hx, hl, hs⟩ => ?_⟩
  · have entry := e.stations h
    cases hx : s.station h with
    | none =>
      rw [hx, hy] at entry
      exact entry.elim
    | some x =>
      rw [hx, hy] at entry
      rw [show y = { x with pending := y.pending, link := y.link } from entry] at hl hs
      exact ⟨h, x, hh, hx, hl, hs⟩
  · have entry := e.stations h
    cases hy : t.station h with
    | none =>
      rw [hx, hy] at entry
      exact (hs entry).elim
    | some y =>
      rw [hx, hy] at entry
      refine ⟨h, y, hh, hy, ?_⟩
      rw [show y = { x with pending := y.pending, link := y.link } from entry]
      exact ⟨hl, hs⟩

/-- The context of a name is the one that has it (R56). -/
theorem State.ctx_of_mem {s : State} {c : Context} (h : s.ContextsDistinct) (hc : c ∈ s.pool) : s.ctx c.id = some c := by
  cases hx : s.ctx c.id with
  | none =>
    have := List.find?_eq_none.1 hx c hc
    simp at this
  | some d => rw [State.eq_of_distinct h (State.mem_of_ctx hx) hc (State.ctx_id hx)]

/-! ## One exchange that a break ends -/

/-- Every entry still in use keeps its line and its link. -/
def State.KeepsLinks (s t : State) : Prop :=
  ∀ h y, t.station h = some y → ∃ x, s.station h = some x ∧ y.line = x.line ∧ y.link = x.link

section
variable {s : State} {id : Nat} {c : Context} {l : LineNo}

/-- R67, R70: the end of an exchange in WAITING_RETRY by a break. It marks no link, and its station is not CLOSING. -/
theorem State.endBreak_eq (hc : s.ctx id = some c) (hw : s.retryWaits l c = true) : ∃ band turnaround, s.endBreak id =
    ((s.updCtx id fun c => { c with lastFailure := some .lineBreak }).leaveLists
      { c with lastFailure := some .lineBreak }).hand id .lineBreak (.failure .lineBreak) 0 band turnaround := by
  obtain ⟨hphase, h, x, hh, hx, -, hs⟩ := State.retryWaits_iff.1 hw
  have hp : c.phase ≠ .ending := by rw [hphase]; exact Phase.noConfusion
  have hfailed := State.ctx_updCtx_same (f := fun c => { c with lastFailure := some .lineBreak }) (fun _ => rfl) hc hp
  obtain ⟨link, hlink⟩ := State.station_endPlain (s := s.updCtx id fun c => { c with lastFailure := some .lineBreak })
    .lineBreak hfailed hp hh hx
  have hunmarked : ∀ (u : State) (e : Context), u.markUncertain e .lineBreak = u := fun u e => by
    unfold State.markUncertain
    split
    · rw [show (e.unanswered && Status.marksUncertain .lineBreak) = false from Bool.and_false _]
      rfl
    · rfl
  rw [State.endBreak, State.endWith_eq _ hfailed hh, State.settleClosing_of_not_closing hlink hs, State.endPlain, State.endOne,
    hfailed]
  simp only [if_neg hp, hunmarked]
  exact ⟨_, _, rfl⟩

theorem State.handed_endBreak (hc : s.ctx id = some c) (hw : s.retryWaits l c = true) :
    (s.endBreak id).Handed id .lineBreak (.failure .lineBreak) := by
  obtain ⟨hphase, h, x, hh, -⟩ := State.retryWaits_iff.1 hw
  have hp : c.phase ≠ .ending := by rw [hphase]; exact Phase.noConfusion
  obtain ⟨band, turnaround, heq⟩ := State.endBreak_eq hc hw
  rw [heq]
  refine State.handed_hand _ _ _ _ _ _ _ (c := { c with lastFailure := some .lineBreak }) ?_ (Context.live_of_exchange hp hh)
  rw [State.ctx_leaveLists]
  exact State.ctx_updCtx_same (f := fun c => { c with lastFailure := some .lineBreak }) (fun _ => rfl) hc hp

theorem State.ctx_endBreak_ne {k : Nat} (hc : s.ctx id = some c) (hw : s.retryWaits l c = true) (hk : k ≠ id) :
    (s.endBreak id).ctx k = s.ctx k := by
  obtain ⟨band, turnaround, heq⟩ := State.endBreak_eq hc hw
  rw [heq, State.ctx_hand_ne hk, State.ctx_leaveLists]
  exact State.ctx_updCtx_ne (f := fun c => { c with lastFailure := some .lineBreak }) (fun _ => rfl) hk

/-- Leaving the lists touches no link. -/
theorem State.keepsLinks_leaveLists (s : State) (c : Context) : s.KeepsLinks (s.leaveLists c) := by
  intro h y hy
  by_cases hh : c.exchangeHandle = some h
  · cases hx : s.station h with
    | none =>
      have entry := (s.ends_leaveLists c).stations h
      rw [hx, hy] at entry
      exact entry.elim
    | some x =>
      rw [State.station_leaveLists hh hx] at hy
      cases hy
      exact ⟨x, rfl, rfl, rfl⟩
  · rw [State.station_leaveLists_ne hh] at hy
    exact ⟨y, hy, rfl, rfl⟩

theorem State.keepsLinks_endBreak (hc : s.ctx id = some c) (hw : s.retryWaits l c = true) :
    s.KeepsLinks (s.endBreak id) := by
  obtain ⟨band, turnaround, heq⟩ := State.endBreak_eq hc hw
  intro h y hy
  rw [heq, State.station, State.stations_hand, ← State.station] at hy
  obtain ⟨x, hx, hsame⟩ := State.keepsLinks_leaveLists _ _ h y hy
  exact ⟨x, hx, hsame⟩

/-- The buffer that holds another context's payload goes on holding it. -/
theorem State.txHolds_leaveLists {s : State} {c : Context} {m : LineNo} {k : Nat} (hk : k ≠ c.id)
    (hx : (s.line m).txHolds = some k) : ((s.leaveLists c).line m).txHolds = some k := by
  have hpending : (s.leavePending c).line m = s.line m := by
    unfold State.leavePending
    split <;> rfl
  unfold State.leaveLists
  split
  · rw [State.updLine_eq, State.line_setLine]
    split
    · next e =>
      subst e
      rw [hpending, Line.forget]
      simp [hx, hk]
    · rw [hpending, hx]
  · rw [hpending, hx]

theorem State.txHolds_endBreak {m : LineNo} {k : Nat} (hc : s.ctx id = some c) (hw : s.retryWaits l c = true) (hk : k ≠ id)
    (hx : (s.line m).txHolds = some k) : ((s.endBreak id).line m).txHolds = some k := by
  obtain ⟨band, turnaround, heq⟩ := State.endBreak_eq hc hw
  rw [heq, State.line, State.lines_hand, ← State.line]
  exact State.txHolds_leaveLists (by rwa [← State.ctx_id hc] at hk) hx

end

/-! ## All of them -/

/-- The exchanges listed end LINE_BREAK, in the order of the list. -/
def State.endBreaks (s : State) (ids : List Nat) : State := ids.foldl (fun s id => s.endBreak id) s

/-- The names of the exchanges in WAITING_RETRY for the stations of a line, in acceptance order. -/
def State.retriesOf (s : State) (l : LineNo) : List Nat := (s.pool.filter fun c => s.retryWaits l c).map (·.id)

theorem State.endRetries_eq (s : State) (l : LineNo) : s.endRetries l = s.endBreaks (s.retriesOf l) := rfl

/-- The contexts listed wait in WAITING_RETRY for stations of the line, each listed once. -/
def State.AllWait (s : State) (l : LineNo) (ids : List Nat) : Prop :=
  ids.Nodup ∧ ∀ id ∈ ids, ∃ c, s.ctx id = some c ∧ s.retryWaits l c = true

section
variable {s : State} {l : LineNo} {ids : List Nat}

/-- The end of the first leaves the rest waiting. -/
theorem State.AllWait.tail {id : Nat} (h : s.AllWait l (id :: ids)) : (s.endBreak id).AllWait l ids := by
  obtain ⟨hid, hrest⟩ := List.nodup_cons.1 h.1
  obtain ⟨c, hc, hw⟩ := h.2 id (List.mem_cons_self ..)
  refine ⟨hrest, fun k hk => ?_⟩
  have hne : k ≠ id := fun e => hid (e ▸ hk)
  obtain ⟨e, he, hwait⟩ := h.2 k (List.mem_cons_of_mem _ hk)
  exact ⟨e, (State.ctx_endBreak_ne hc hw hne).trans he, ((s.ends_endBreak id).retryWaits l e).trans hwait⟩

/-- What each end by a break keeps, all of them keep. -/
theorem State.AllWait.endBreaks {R : State → State → Prop} (h : s.AllWait l ids) (hrefl : ∀ s, R s s)
    (htrans : ∀ a b c, R a b → R b c → R a c)
    (hstep : ∀ (s : State) id c, id ∈ ids → s.ctx id = some c → s.retryWaits l c = true → R s (s.endBreak id)) :
    R s (s.endBreaks ids) := by
  induction ids generalizing s with
  | nil => exact hrefl s
  | cons id rest ih =>
    obtain ⟨c, hc, hw⟩ := h.2 id (List.mem_cons_self ..)
    exact htrans _ _ _ (hstep s id c (List.mem_cons_self ..) hc hw)
      (ih h.tail fun s k c hk => hstep s k c (List.mem_cons_of_mem _ hk))

theorem State.tells_endBreaks : s.Tells (s.endBreaks ids) := .foldl _ (fun s id => s.tells_endBreak id) _ _

theorem State.AllWait.handed (h : s.AllWait l ids) {k : Nat} (hk : k ∈ ids) :
    (s.endBreaks ids).Handed k .lineBreak (.failure .lineBreak) := by
  induction ids generalizing s with
  | nil => cases hk
  | cons id rest ih =>
    by_cases e : k = id
    · subst e
      obtain ⟨c, hc, hw⟩ := h.2 k hk
      exact (State.handed_endBreak hc hw).tells State.tells_endBreaks
    · exact ih h.tail ((List.mem_cons.1 hk).resolve_left e)

theorem State.AllWait.ctx (h : s.AllWait l ids) {k : Nat} (hk : k ∉ ids) : (s.endBreaks ids).ctx k = s.ctx k :=
  h.endBreaks (R := fun a b => b.ctx k = a.ctx k) (fun _ => rfl) (fun _ _ _ h1 h2 => h2.trans h1)
    fun _ _ _ hid hc hw => State.ctx_endBreak_ne hc hw fun e => hk (e ▸ hid)

theorem State.AllWait.links (h : s.AllWait l ids) : s.KeepsLinks (s.endBreaks ids) :=
  h.endBreaks (fun _ _ y hy => ⟨y, hy, rfl, rfl⟩)
    (fun a b c h1 h2 k z hz => by
      obtain ⟨y, hy, hline, hlink⟩ := h2 k z hz
      obtain ⟨x, hx, hline', hlink'⟩ := h1 k y hy
      exact ⟨x, hx, hline.trans hline', hlink.trans hlink'⟩)
    fun _ _ _ _ hc hw => State.keepsLinks_endBreak hc hw

theorem State.AllWait.txHolds (h : s.AllWait l ids) {k : Nat} {m : LineNo} (hk : k ∉ ids)
    (hx : (s.line m).txHolds = some k) : ((s.endBreaks ids).line m).txHolds = some k :=
  h.endBreaks (R := fun a b => (a.line m).txHolds = some k → (b.line m).txHolds = some k) (fun _ => id)
    (fun _ _ _ h1 h2 => h2 ∘ h1) (fun _ _ _ hid hc hw => State.txHolds_endBreak hc hw fun e => hk (e ▸ hid)) hx

end

section
variable {s : State} {l : LineNo}

/-- R56: with distinct contexts those of the line's retries wait, each once. -/
theorem State.allWait_retriesOf (h : s.ContextsDistinct) : s.AllWait l (s.retriesOf l) := by
  refine ⟨h.1.sublist (List.filter_sublist.map _), fun id hid => ?_⟩
  obtain ⟨c, hc, rfl⟩ := List.mem_map.1 hid
  obtain ⟨hmem, hw⟩ := List.mem_filter.1 hc
  exact ⟨c, State.ctx_of_mem h hmem, hw⟩

theorem State.mem_retriesOf {id : Nat} {c : Context} (h : s.ContextsDistinct) (hc : s.ctx id = some c) :
    id ∈ s.retriesOf l ↔ s.retryWaits l c = true := by
  refine ⟨fun hid => ?_, fun hw => List.mem_map.2 ⟨c, List.mem_filter.2 ⟨State.mem_of_ctx hc, hw⟩, State.ctx_id hc⟩⟩
  obtain ⟨d, hd, hw⟩ := (State.allWait_retriesOf h).2 id hid
  rwa [Option.some.inj (hc.symm.trans hd)]

end

/-! ## The part's own break begins (R41, R94) -/

theorem State.enterBreakOut_eq (s : State) (l : LineNo) (records : List Nat) (now : Nat) :
    s.enterBreakOut l records now = (s.breakStart l records now).endRetries l := rfl

theorem Line.SameButEnds.beginBreak {x y : Line} (h : x.SameButEnds y) (hs : x.state ≠ .idle) (records : List Nat)
    (now : Nat) : (x.beginBreak records now).SameButEnds (y.beginBreak records now) := by
  obtain ⟨⟨-, hdue⟩, heq⟩ := h
  refine ⟨⟨fun hx => (hdue hs).trans hx, fun _ => hdue hs⟩, ?_⟩
  rw [heq]
  rfl

theorem State.SameButEnds.breakStations {s t : State} (a : s.SameButEnds t) (l : LineNo) :
    (s.breakStations l).SameButEnds (t.breakStations l) := by
  obtain ⟨hrest, hwriters, hlines, hstations⟩ := a
  refine ⟨?_, hwriters, hlines, fun h => ?_⟩
  · rw [hrest]
    rfl
  · have entry := hstations h
    rw [State.station_breakStations, State.station_breakStations]
    cases hx : s.station h with
    | none =>
      cases hy : t.station h with
      | none => trivial
      | some y =>
        rw [hx, hy] at entry
        exact entry.elim
    | some x =>
      cases hy : t.station h with
      | none =>
        rw [hx, hy] at entry
        have hclosing : x.state = .closing := entry
        show (if x.line = l then x.breakReaches else x).state = .closing
        split <;> exact hclosing
      | some y =>
        rw [hx, hy] at entry
        have heq : y = { x with
          pending := y.pending, link := y.link, lastReported := y.lastReported, presenceChanges := y.presenceChanges } := entry
        have hline : y.line = x.line := by rw [heq]
        rw [Option.map_some, Option.map_some, hline]
        split
        · rw [heq]
          rfl
        · exact heq

/-- R94: what the begin of a break makes of a state that ends have moved. -/
theorem State.SameButEnds.breakStart {s t : State} (a : s.SameButEnds t) {l : LineNo} (hs : (s.line l).state ≠ .idle)
    (records : List Nat) (now : Nat) : (s.breakStart l records now).SameButEnds (t.breakStart l records now) :=
  (a.updLine l (fun x => x.beginBreak records now) ((a.2.2.1 l).beginBreak hs records now)).breakStations l

section
variable {s : State} {l : LineNo} {records : List Nat} {now : Nat}

theorem State.line_breakStart : (s.breakStart l records now).line l = (s.line l).beginBreak records now :=
  State.line_setLine_same (s := s) l _

/-- R41: every station of the line has the CERTAIN link of the break. -/
theorem State.station_breakStart (h : Handle) : (s.breakStart l records now).station h =
    (s.station h).map fun x => if x.line = l then x.breakReaches else x := s.station_breakStations l h

theorem State.retryWaits_breakStart (m : LineNo) (c : Context) :
    (s.breakStart l records now).retryWaits m c = s.retryWaits m c := by
  unfold State.retryWaits
  cases c.exchangeHandle with
  | none => rfl
  | some h =>
    simp only [State.station_breakStart]
    cases s.station h with
    | none => rfl
    | some x =>
      simp only [Option.map_some]
      split <;> rfl

end

end Sys2Proof.Machine
end

section
/-! PROOFS. A payload read that sends nothing leaves PREPARING (R41, R67, R85, R94, R95). -/

namespace Sys2Proof.Machine

/-! ## The two ways out -/

/-- The line whose payload read is over. -/
def Line.readOver (x : Line) : Line := { x with job := none, abandoned := false }

/-- R85, R95: the line at rest after its payload read, with no QUIESCE_LINE waiting. -/
def Line.leftRead (x : Line) : Line :=
  { x with
    job := none, abandoned := false, state := if x.quiesce then .quiesced else .idle, consultDue := !x.quiesce
    quiescers := [] }

theorem Line.SameButEnds.leftRead {x y : Line} (h : x.SameButEnds y) : x.leftRead.SameButEnds y.leftRead := by
  have hdue : y.leftRead.consultDue = x.leftRead.consultDue := by rw [h.2]; rfl
  refine ⟨⟨fun hx => hdue.trans hx, fun _ => hdue⟩, ?_⟩
  rw [h.2]
  rfl

/-- The handing of completions does not look at the lines. -/
theorem State.hand_setLine (s : State) (l : LineNo) (x : Line) (id : Nat) (st : Status) (d : Detail) (n : Nat)
    (b : Option (Fin 8)) (t : Option Nat) : (s.setLine l x).hand id st d n b t = (s.hand id st d n b t).setLine l x := by
  unfold State.hand
  rw [State.ctx_setLine]
  split
  · rfl
  · split <;> rfl

theorem State.endRecords_setLine (s : State) (l : LineNo) (x : Line) (ids : List Nat) (st : Status) (d : Detail) :
    (s.setLine l x).endRecords ids st d = (s.endRecords ids st d).setLine l x := by
  induction ids generalizing s with
  | nil => rfl
  | cons id rest ih =>
    show ((s.setLine l x).endRecord id st d).endRecords rest st d = _
    rw [State.endRecord, State.hand_setLine, ih]
    rfl

section
variable {v : State} {l : LineNo}

theorem State.leaveRead_eq (v : State) (l : LineNo) : v.leaveRead l =
    let w := v.setLine l (v.line l).readOver
    if (w.line l).resetPending && w.device == .running then w.enterBreakOut l [] w.time
    else (w.updLine l Line.rest).endQuiescers l := rfl

/-- R85, R95: without a break the engine comes to rest, and the QUIESCE_LINE records end. -/
theorem State.leaveRead_of_rest (h : ¬ ((v.line l).resetPending = true ∧ v.device = .running)) :
    v.leaveRead l = (v.setLine l (v.line l).leftRead).endRecords (v.line l).quiescers .ok .none := by
  have hcond : ¬ ((((v.setLine l (v.line l).readOver).line l).resetPending && v.device == .running) = true) := by
    rw [State.line_setLine_same]
    simpa [Line.readOver] using h
  have hline := (v.setLine l (v.line l).readOver.rest).line_endRecords (v.line l).quiescers .ok .none l
  rw [State.line_setLine_same] at hline
  have hrest : v.leaveRead l = ((v.setLine l (v.line l).readOver).updLine l Line.rest).endQuiescers l := by
    rw [State.leaveRead_eq]
    exact if_neg hcond
  rw [hrest, State.updLine_eq, State.line_setLine_same, State.setLine_setLine, State.endQuiescers, State.line_setLine_same,
    State.updLine_eq]
  show ((v.setLine l (v.line l).readOver.rest).endRecords (v.line l).quiescers .ok .none).setLine l
    { ((v.setLine l (v.line l).readOver.rest).endRecords (v.line l).quiescers .ok .none).line l with quiescers := [] } = _
  rw [hline, State.endRecords_setLine, State.endRecords_setLine, State.setLine_setLine]
  rfl

/-- R85, R94: with a line reset pending on a RUNNING part the break begins at once. -/
theorem State.leaveRead_of_break (hr : (v.line l).resetPending = true) (hd : v.device = .running) :
    v.leaveRead l = ((v.setLine l (v.line l).readOver).breakStart l [] v.time).endRetries l := by
  have hcond : (((v.setLine l (v.line l).readOver).line l).resetPending && v.device == .running) = true := by
    rw [State.line_setLine_same]
    simp [Line.readOver, hr, hd]
  rw [State.leaveRead_eq]
  exact if_pos hcond

/-- A free entry stays free. -/
theorem State.station_leaveRead_none {h : Handle} (hv : v.station h = none) : (v.leaveRead l).station h = none := by
  by_cases hb : (v.line l).resetPending = true ∧ v.device = .running
  · rw [State.leaveRead_of_break hb.1 hb.2]
    have entry := (((v.setLine l (v.line l).readOver).breakStart l [] v.time).ends_endRetries l).stations h
    rw [State.station_breakStart, State.station_setLine, hv] at entry
    cases hy : (((v.setLine l (v.line l).readOver).breakStart l [] v.time).endRetries l).station h with
    | none => rfl
    | some y =>
      rw [hy] at entry
      exact entry.elim
  · rw [State.leaveRead_of_rest hb, State.station_endRecords, State.station_setLine, hv]

end

/-! ## The whole step -/

/-- From `u` to `v` the work of the payload read of line `l` has ended, in the contexts that it may end. -/
structure State.EndsOwn (u v : State) (l : LineNo) : Prop where
  ends : u.Ends v
  distinct : u.ContextsDistinct → v.ContextsDistinct
  others : ∀ k, k ∉ u.endedByRead l → v.ctx k = u.ctx k
  keeps : u.EndsOrKeeps v

theorem State.EndsOwn.refl (u : State) (l : LineNo) : u.EndsOwn u l := ⟨.refl u, id, fun _ _ => rfl, .refl u⟩

section
variable {u v : State} {l : LineNo}

theorem State.EndsOwn.line (e : u.EndsOwn v l) : (v.line l).resetPending = (u.line l).resetPending ∧
    (v.line l).quiescers = (u.line l).quiescers ∧ v.device = u.device ∧ v.time = u.time := by
  rw [(e.ends.lines l).2, e.ends.rest]
  exact ⟨rfl, rfl, rfl, rfl⟩

/-- R41, R67: what the break leaves of the contexts and the links, with distinct contexts. -/
theorem State.EndsOwn.breaks (e : u.EndsOwn v l) (hd : u.ContextsDistinct) :
    let w := (v.setLine l (v.line l).readOver).breakStart l [] v.time
    (∀ id c, v.ctx id = some c → u.retryWaits l c = true →
      (w.endRetries l).Handed id .lineBreak (.failure .lineBreak)) ∧
    (∀ id c, v.ctx id = some c → u.retryWaits l c = false → (w.endRetries l).ctx id = some c ∧
      ((v.line l).txHolds = some id → ((w.endRetries l).line l).txHolds = some id)) ∧
    ∀ h y, (w.endRetries l).station h = some y → y.line = l → y.link = .certain := by
  intro w
  have hw : w.ContextsDistinct := e.distinct hd
  have hwaits : ∀ c, w.retryWaits l c = u.retryWaits l c := fun c =>
    (State.retryWaits_breakStart (s := v.setLine l (v.line l).readOver) l c).trans (e.ends.retryWaits l c)
  have hall := State.allWait_retriesOf (l := l) hw
  refine ⟨fun id c hc hret => ?_, fun id c hc hret => ?_, fun h y hy hline => ?_⟩
  · exact hall.handed ((State.mem_retriesOf hw (c := c) hc).2 ((hwaits c).trans hret))
  · have hnot : id ∉ w.retriesOf l := fun hid => by
      have hwait := (State.mem_retriesOf hw (c := c) hc).1 hid
      rw [hwaits, hret] at hwait
      cases hwait
    refine ⟨(hall.ctx hnot).trans hc, fun hx => hall.txHolds hnot ?_⟩
    rw [State.line_breakStart, State.line_setLine_same]
    exact hx
  · obtain ⟨x, hx, hxline, hxlink⟩ := hall.links h y hy
    rw [State.station_breakStart, Option.map_eq_some_iff] at hx
    obtain ⟨z, -, rfl⟩ := hx
    rw [hxlink]
    split
    · rfl
    · next hz =>
      rw [if_neg hz] at hxline
      exact (hz (hxline.symm.trans hline)).elim

/-- What the writers move of an entry is neither its line nor its link. -/
theorem State.keepsLinks_finish (s : State) : s.KeepsLinks s.finish := by
  intro h y hy
  have entry := ((s.sameButWriters_iff _).1 s.writers_finish).2.2.2 h
  cases hx : s.station h with
  | none =>
    rw [hx, hy] at entry
    exact entry.elim
  | some x =>
    rw [hx, hy] at entry
    rw [show y = { x with lastReported := y.lastReported, presenceChanges := y.presenceChanges } from entry]
    exact ⟨x, rfl, rfl, rfl⟩

/-- R85: the step that leaves PREPARING without a frame, after the ends that it brings. -/
theorem State.EndsOwn.leavesRead (e : u.EndsOwn v l) (hs : (u.line l).state ≠ .idle) :
    u.LeavesRead (v.leaveRead l).finish l := by
  obtain ⟨hreset, hquiescers, hdevice, htime⟩ := e.line
  have moved := State.sameButEnds_of_ends e.ends
  refine ⟨fun hn => ?_, fun hr hrunning => ?_, fun hd id c hc hown hq hret => ?_⟩
  · rw [State.leaveRead_of_rest (by rwa [hreset, hdevice])]
    exact (moved.updLine l Line.leftRead (moved.2.2.1 l).leftRead).trans (State.sameButEnds_finish State.ends_endRecords)
  · rw [State.leaveRead_of_break (hreset.trans hr) (hdevice.trans hrunning)]
    have line : (u.line l).readOver.SameButEnds (v.line l).readOver :=
      (moved.2.2.1 l).map Line.readOver hs (fun _ => rfl) fun _ _ _ _ _ _ _ _ => rfl
    have hstate : ((u.setLine l (u.line l).readOver).line l).state ≠ .idle := by
      rw [State.line_setLine_same]
      exact hs
    have begun := (moved.updLine l Line.readOver line).breakStart hstate [] u.time
    refine ⟨?_, fun hd => ?_⟩
    · rw [htime]
      exact begun.trans (State.sameButEnds_finish (State.ends_endRetries _ l))
    · obtain ⟨hbroken, -, hlinks⟩ := e.breaks hd
      refine ⟨fun c hmem hret => ?_, fun c hmem hret hown => ?_, fun h y hy hline => ?_⟩
      · rw [State.phaseOf, State.ctx_finish]
        rcases e.keeps.ctx c.id with hsame | hended
        · exact (hbroken c.id c (hsame.trans (State.ctx_of_mem hd hmem)) hret).1
        · exact (State.tells_endRetries _ l).ending c.id hended
      · exact (hbroken c.id c ((e.others _ hown).trans (State.ctx_of_mem hd hmem)) hret).reports
      · obtain ⟨x, hx, hxline, hxlink⟩ := State.keepsLinks_finish _ h y hy
        rw [hxlink]
        exact hlinks h x hx (hxline ▸ hline)
  · have hv : v.ctx id = some c := (e.others id hown).trans hc
    rw [State.ctx_finish]
    by_cases hb : (v.line l).resetPending = true ∧ v.device = .running
    · rw [State.leaveRead_of_break hb.1 hb.2]
      exact ((e.breaks hd).2.1 id c hv hret).1
    · rw [State.leaveRead_of_rest hb, State.ctx_endRecords_of_not_mem (by rwa [hquiescers])]
      exact hv

end

end Sys2Proof.Machine
end

section
/-! PROOFS. A payload read that ends an exchange or a broadcast, and the read that a break has abandoned (R43, R45, R58, R71,
R78, R85; entries 16, 34). -/

namespace Sys2Proof.Machine

/-! ## The contexts of the read -/

section
variable {u : State} {l : LineNo} {id : Nat} {c : Context}

theorem State.endedByRead_eq (hj : (u.line l).job.bind Job.context = some id) (hc : u.ctx id = some c) :
    u.endedByRead l =
      id :: (c.abortRequested.toList ++ ((c.exchangeHandle.bind u.station).map Station.settling).getD []) := by
  simp only [State.endedByRead, hj, hc]

/-- What it means that the end of the read reaches a context not. -/
theorem State.of_not_mem_endedByRead (hj : (u.line l).job.bind Job.context = some id) (hc : u.ctx id = some c) {k : Nat}
    (hk : k ∉ u.endedByRead l) : k ≠ id ∧ c.abortRequested ≠ some k ∧
      ∀ h x, c.exchangeHandle = some h → u.station h = some x → k ∉ x.settling := by
  rw [State.endedByRead_eq hj hc, List.mem_cons, List.mem_append, not_or, not_or, Option.mem_toList] at hk
  obtain ⟨hid, habort, hsettling⟩ := hk
  refine ⟨hid, habort, fun h x hh hx => ?_⟩
  rwa [hh, Option.bind_some, hx] at hsettling

end

/-- From `u` to `w` only the open context `id` has been marked, `c` before and `c'` after; its station and its ABORT are the
same. -/
structure State.Marks (u w : State) (id : Nat) (c c' : Context) : Prop where
  ends : u.Ends w
  distinct : u.ContextsDistinct → w.ContextsDistinct
  before : u.ctx id = some c
  after : w.ctx id = some c'
  others : ∀ k, k ≠ id → w.ctx k = u.ctx k
  stations : w.stations = u.stations
  lines : w.lines = u.lines
  live : c'.Live
  handle : c'.exchangeHandle = c.exchangeHandle

theorem State.Marks.refl {u : State} {id : Nat} {c : Context} (hc : u.ctx id = some c) (hl : c.Live) : u.Marks u id c c :=
  ⟨.refl u, fun hd => hd, hc, hc, fun _ _ => rfl, rfl, rfl, hl, rfl⟩

/-- R58: the last failure cause of a payload read in error. -/
theorem State.marks_failure {u : State} {id : Nat} {c : Context} (hc : u.ctx id = some c) (hl : c.Live) (f : FailureCause) :
    u.Marks (u.updCtx id fun c => { c with lastFailure := some f }) id c { c with lastFailure := some f } :=
  ⟨u.ends_updCtx id _, State.contextsDistinct_updCtx fun _ => rfl, hc,
    State.ctx_updCtx_same (f := fun c => { c with lastFailure := some f }) (fun _ => rfl) hc hl.1,
    fun _ hk => State.ctx_updCtx_ne (f := fun c => { c with lastFailure := some f }) (fun _ => rfl) hk, rfl, rfl, hl, rfl⟩

section
variable {u w : State} {l : LineNo} {id : Nat} {c c' : Context} {st st' : Status} {d : Detail} {n : Nat} {a : Option Nat}

theorem State.Marks.station (m : u.Marks w id c c') (h : Handle) : w.station h = u.station h := by
  rw [State.station, m.stations, ← State.station]

/-- R70, R71, R78: the end of the exchange or broadcast of the read, of its ABORT, and of what settles with its station. -/
theorem State.Marks.endsOwn (m : u.Marks w id c c') (hj : (u.line l).job.bind Job.context = some id)
    (ha : ∀ k, a = some k → c.abortRequested = some k) :
    u.EndsOwn ((w.endExchange id st d n).endAbort a st') l := by
  have handed := (State.handedReply_endExchange (st := st) (d := d) (n := n) m.after m.live).tells
    (State.tells_endAbort _ a st')
  refine ⟨(m.ends.trans (w.ends_endExchange ..)).trans (State.ends_endAbort ..), fun hd => ?_, fun k hk => ?_, ⟨fun k => ?_⟩⟩
  · exact (State.keepsRings_endAbort _ a st').distinct ((w.keepsRings_endExchange ..).distinct (m.distinct hd))
  · obtain ⟨hid, habort, hsettling⟩ := State.of_not_mem_endedByRead hj m.before hk
    rw [State.ctx_endAbort_ne fun e => habort (ha k e),
      State.ctx_endExchange m.after m.live.1 hid fun h x hh hx => hsettling h x (m.handle ▸ hh) (m.station h ▸ hx), m.others k hid]
  · by_cases hk : k = id
    · subst hk
      exact .inr handed.1
    · have kept := (w.endsOrKeeps_endExchange id st d n).trans (State.endsOrKeeps_endAbort _ st' a)
      rw [← m.others k hk]
      exact kept.ctx k

/-- R43, R45, R71: the CLOSING station of the exchange settles in the step. -/
theorem State.Marks.settles (m : u.Marks w id c c') {h : Handle} {x : Station} (hh : c.exchangeHandle = some h)
    (hx : u.station h = some x) (hs : x.state = .closing) (hatt : (u.line x.line).attempting h = false) :
    u.ClosingSettles (((w.endExchange id st d n).endAbort a st').leaveRead l).finish h x (some id) := by
  refine State.closingSettles_endExchange m.after m.live.1 (m.handle.trans hh) ((m.station h).trans hx) hs m.others ?_
    ((State.tells_endAbort _ a st').trans (State.tells_leaveRead _ l)) fun hfree => ?_
  · rwa [State.line, m.lines, ← State.line]
  · exact State.station_leaveRead_none (State.station_endAbort.trans hfree)

/-- R80, R144: the exchange or broadcast is reported. -/
theorem State.Marks.reports (m : u.Marks w id c c') :
    (((w.endExchange id st d n).endAbort a st').leaveRead l).finish.Reports id st d :=
  State.reports_finish (State.handedReply_endExchange m.after m.live).handed
    ((State.tells_endAbort _ a st').trans (State.tells_leaveRead _ l))

end

/-- A line that changes neither its engine's state nor its work makes no other attempt. -/
theorem State.attempting_setLine {s : State} {l : LineNo} {y : Line} (hs : y.state = (s.line l).state)
    (hj : y.job = (s.line l).job) (m : LineNo) (h : Handle) :
    ((s.setLine l y).line m).attempting h = (s.line m).attempting h := by
  rw [State.line_setLine]
  split
  · next e => rw [e, Line.attempting, Line.attempting, hs, hj]
  · rfl

/-- R70: an end with the last failure cause as its detail. -/
theorem State.endWith_eq_endExchange {s : State} {id : Nat} {c : Context} (hc : s.ctx id = some c) (st : Status) :
    s.endWith id st = s.endExchange id st c.failureDetail 0 := by
  rw [State.endWith, hc]
  rfl

/-! ## A read in error -/

theorem exec_payloadReadError (l : LineNo) (s : State) : exec (.payloadReadError l) s =
    runCommand (.payloadReadError l) (s.reads l && (s.readLength l).isSome) (fun s => s.payloadFails l) s := rfl

theorem exec_abandonedReadEnd (l : LineNo) (s : State) : exec (.abandonedReadEnd l) s = runCommand (.abandonedReadEnd l)
    (s.operating && (s.line l).state == .preparing && (s.line l).abandoned) (fun s => (s.toGuard l).finish) s := rfl

section
variable {s : State} {l : LineNo} {id : Nat} {c : Context}

/-- The read in progress of the line is that of a context in use. -/
theorem State.reads_of (ho : s.Operates) (hs : (s.line l).state = .preparing) (ha : (s.line l).abandoned = false) :
    s.reads l = true := by
  simp [State.reads, ho.operating, hs, ha]

theorem State.readLength_eq (hj : (s.line l).job.bind Job.context = some id) (hc : s.ctx id = some c) :
    s.readLength l = some c.payloadLength := by
  simp [State.readLength, hj, hc]

/-- R58, R78: the status with which a read in error ends its exchange or broadcast. -/
def Context.readErrorStatus (c : Context) : Status :=
  if c.abortRequested.isSome then .aborted else if c.unanswered then .noReply else .hostReadError

/-- R58, R78: what a read in error does, from the line that holds no payload any more. -/
theorem State.readFailed_eq (hc : s.ctx id = some c) (hp : c.phase ≠ .ending) (l : LineNo) : s.readFailed l id =
    (((((s.setLine l { s.line l with txHolds := none }).updCtx id fun c => { c with lastFailure := some .payloadRead }).endExchange
      id c.readErrorStatus (.failure .payloadRead) 0).endAbort c.abortRequested .ok).leaveRead l) := by
  have hmarked := State.ctx_updCtx_same (s := s.setLine l { s.line l with txHolds := none })
    (f := fun c => { c with lastFailure := some .payloadRead }) (fun _ => rfl) hc hp
  have habort : s.aborter id = c.abortRequested := by rw [State.aborter, hc]; rfl
  have hends : ∀ st, ((s.setLine l { s.line l with txHolds := none }).updCtx id
      fun c => { c with lastFailure := some .payloadRead }).endWith id st = _ := fun st =>
    State.endWith_eq_endExchange hmarked st
  unfold State.readFailed
  simp only [State.updLine_eq, habort, hc, Option.map_some, Option.getD_some, Context.readErrorStatus]
  cases c.abortRequested with
  | some a => simp only [hends, Option.isSome_some, if_true]; rfl
  | none => simp only [hends, Option.isSome_none, Bool.false_eq_true, if_false]; rfl

end

end Sys2Proof.Machine

open Sys2Proof Sys2Proof.Machine

/-- Settles O38: `State.Marks` of the read that meets an error, and the entry into GUARD of an abandoned one. -/
theorem payloadReadEndsWithoutFrame : Obligations.PayloadReadEndsWithoutFrame := by
  intro s l ho hs
  refine ⟨fun id c job hab hjob hcontext hc hphase hbody => ?_, fun hab => ?_⟩
  · have hj : (s.line l).job.bind Job.context = some id := by rw [hjob]; exact hcontext
    have hp : c.phase ≠ .ending := by rw [hphase]; exact Phase.noConfusion
    have hstep : exec (.payloadReadError l) s = .next (s.readFailed l id).finish := by
      rw [exec_payloadReadError, runCommand_occurs rfl ho.live (by rw [State.reads_of ho hs hab, State.readLength_eq hj hc]; rfl),
        State.payloadFails, hj]
    have hline := s.line_setLine_same l { s.line l with txHolds := none }
    have marks := State.marks_failure (u := s.setLine l { s.line l with txHolds := none }) (c := c) hc ⟨hp, hbody⟩ .payloadRead
    rw [State.readFailed_eq hc hp] at hstep
    refine ⟨_, hstep, fun hnone => ?_, fun a ha => ⟨?_, fun d hd hne hl hset => ?_⟩, ?_, fun h st hh hst hclosing hatt => ?_⟩
    · have reported := marks.reports (l := l) (st := c.readErrorStatus) (d := .failure .payloadRead) (n := 0)
        (a := c.abortRequested) (st' := .ok)
      simpa only [Context.readErrorStatus, hnone, Option.isSome_none, Bool.false_eq_true, if_false] using reported
    · have reported := marks.reports (l := l) (st := c.readErrorStatus) (d := .failure .payloadRead) (n := 0)
        (a := c.abortRequested) (st' := .ok)
      simpa only [Context.readErrorStatus, ha, Option.isSome_some, if_true] using reported
    · rw [ha]
      exact ((State.handed_endExchange_abort marks.after marks.live.1 ((marks.others a hne).trans hd) hl hne
        (fun h x hh hx => hset h x hh hx)).tells (State.tells_leaveRead _ l)).reports
    · have own := marks.endsOwn (l := l) (st := c.readErrorStatus) (d := .failure .payloadRead) (n := 0) (st' := .ok)
        (a := c.abortRequested) (by rw [hline]; exact hj) fun _ ha => ha
      exact own.leavesRead (by rw [hline, hs]; exact EngineState.noConfusion)
    · have idle := (State.attempting_setLine (y := { s.line l with txHolds := none }) rfl rfl st.line h).trans hatt
      exact marks.settles hh hst hclosing idle
  · have hstep : exec (.abandonedReadEnd l) s = .next (s.toGuard l).finish := by
      rw [exec_abandonedReadEnd, runCommand_occurs rfl ho.live (by rw [ho.operating, hs, hab]; rfl)]
    refine ⟨_, hstep, ?_, fun id c hid hc hl => (State.handed_toGuard hid hc hl).reports⟩
    exact ((State.SameButEnds.refl s).toGuard (by rw [hs]; exact EngineState.noConfusion)).trans
      (State.sameButEnds_of_writers (State.writers_finish _))
end

section
/-! PROOFS. A payload read that ends good (R43, R45, R58, R59, R61, R71, R74, R78, R85, R102). -/

namespace Sys2Proof.Machine

/-! ## The read ends -/

theorem exec_payloadReadEnd (l : LineNo) (octets : List Byte) (s : State) : exec (.payloadReadEnd l octets) s =
    runCommand (.payloadReadEnd l octets) (s.reads l && s.readLength l == some octets.length)
      (fun s => s.payloadRead l octets) s := rfl

/-- R58: the line whose transmit buffer holds the payload of context `id`. -/
def Line.filled (x : Line) (octets : List Byte) (id : Nat) : Line := { x with txBuffer := octets, txHolds := some id }

section
variable {s : State} {l : LineNo} {octets : List Byte} {id : Nat} {c : Context} {job : Job}

/-- R59: the command that ends the read good takes its payload into the buffer and acts on it. -/
theorem exec_payloadReadEnd_of_reads (ho : s.Operates) (hs : (s.line l).state = .preparing)
    (hab : (s.line l).abandoned = false) (hlen : octets.length ≤ 240) (hc : s.ctx id = some c)
    (hpayload : c.payloadLength = octets.length) (hjob : (s.line l).job = some job) (hcontext : job.context = some id) :
    exec (.payloadReadEnd l octets) s =
      .next ((s.setLine l ((s.line l).filled octets id)).readGood l job).finish := by
  have hj : (s.line l).job.bind Job.context = some id := by rw [hjob]; exact hcontext
  have hreads : (s.reads l && s.readLength l == some octets.length) = true := by
    rw [State.reads_of ho hs hab, State.readLength_eq hj hc, hpayload, beq_self_eq_true, Bool.true_and]
  have hwell : (Instr.payloadReadEnd l octets).wellFormed = true := decide_eq_true hlen
  rw [exec_payloadReadEnd, runCommand_occurs hwell ho.live hreads, State.payloadRead, hjob]
  show Host.Outcome.next ((s.setLine l { s.line l with txBuffer := octets, txHolds := job.context }).readGood l job).finish = _
  rw [hcontext]
  rfl

/-! ## What it does (R59, R78) -/

theorem State.aborter_eq (hc : s.ctx id = some c) : s.aborter id = c.abortRequested := by
  rw [State.aborter, hc]
  rfl

/-- R78: with its abort requested the exchange or broadcast ends ABORTED, and the ABORT OK. -/
theorem State.readGood_abort {a : Nat} (hc : s.ctx id = some c) (ha : c.abortRequested = some a)
    (hcontext : job.context = some id) : s.readGood l job =
      ((s.endExchange id .aborted c.failureDetail 0).endAbort (some a) .ok).leaveRead l := by
  have habort := (State.aborter_eq hc).trans ha
  rw [← State.endWith_eq_endExchange hc]
  cases job with
  | command k h origin =>
    cases hcontext
    simp only [State.readGood, habort]
  | broadcast k =>
    cases hcontext
    simp only [State.readGood, habort]
  | poll h p => cases hcontext
  | link h => cases hcontext
  | probe h => cases hcontext

section
variable {h : Handle} {origin : Phase} {st : Station} (hc : s.ctx id = some c) (ha : c.abortRequested = none)
include hc ha

/-- R43, R71: the exchange of a CLOSING station ends CANCELLED. -/
theorem State.readGood_closing (hst : s.station h = some st) (hs : st.state = .closing) :
    s.readGood l (.command id h origin) =
      ((s.endExchange id .cancelled c.failureDetail 0).endAbort none .ok).leaveRead l := by
  rw [← State.endWith_eq_endExchange hc]
  simp only [State.readGood, (State.aborter_eq hc).trans ha, hst, hs, if_true]
  rfl

/-- R59: the exchange of a paused station returns to the phase it came from. -/
theorem State.readGood_paused (hst : s.station h = some st) (hs : st.state ≠ .closing) (hp : st.paused = true) :
    s.readGood l (.command id h origin) = (s.returnToWait l id origin).leaveRead l := by
  simp only [State.readGood, (State.aborter_eq hc).trans ha, hst, if_neg hs, hp, if_true]

/-- R61: otherwise its frame is sent. -/
theorem State.readGood_sends (hst : s.station h = some st) (hs : st.state ≠ .closing) (hp : st.paused = false) :
    s.readGood l (.command id h origin) = s.beginTransmit l (.command id h origin) := by
  simp only [State.readGood, (State.aborter_eq hc).trans ha, hst, if_neg hs, hp, Bool.false_eq_true, if_false]

/-- R74: the frame of a broadcast is sent. -/
theorem State.readGood_broadcast : s.readGood l (.broadcast id) = s.beginTransmit l (.broadcast id) := by
  simp only [State.readGood, (State.aborter_eq hc).trans ha]

end

/-- R102: a paused exchange rejoins the head of the retry list where it came from it. -/
theorem State.returnToWait_eq (s : State) (l : LineNo) (id : Nat) (origin : Phase) (x : Line) :
    (s.setLine l x).returnToWait l id origin = (s.updCtx id fun c => { c with phase := origin }).setLine l
      { x with retryList := if origin = .waitingRetry then id :: x.retryList.erase id else x.retryList } := by
  have hline : ((s.setLine l x).updCtx id fun c => { c with phase := origin }).line l = x := State.line_setLine_same ..
  unfold State.returnToWait
  by_cases ho : origin = .waitingRetry
  · rw [if_pos ho, if_pos ho]
    simp only [State.updLine_eq, hline]
    exact State.setLine_setLine (s.updCtx id fun c => { c with phase := origin }) l x _
  · rw [if_neg ho, if_neg ho]
    rfl

/-! ## Frames -/

/-- R86: the start of a transmission that notes it in the context `id` by `f`. -/
theorem State.beginTransmit_eq {x : Line} {f : Context → Context} {frame : List Byte} {service : Nat}
    (hbegin : (s.setLine l x).beginAttempt job = (s.setLine l x).updCtx id f) (hframe : (s.setLine l x).jobFrame l job = frame)
    (hservice : (s.setLine l x).serviceAfter l job = service) :
    (s.setLine l x).beginTransmit l job = (s.updCtx id f).setLine l (x.beginFrame job frame service s.time) := by
  rw [State.beginTransmit, hframe, hservice, hbegin]
  show ((s.updCtx id f).setLine l x).updLine l _ = _
  rw [State.updLine_eq, State.line_setLine_same, State.setLine_setLine]
  rfl

/-- R5, R61, R109: the frame of an exchange, from the line whose buffer holds its payload. -/
theorem State.beginTransmit_command {h : Handle} {origin : Phase} {st : Station} (hst : s.station h = some st) (x : Line) :
    (s.setLine l x).beginTransmit l (.command id h origin) =
      (s.updCtx id fun c => { c with phase := .attempting, attemptsMade := c.attemptsMade + 1 }).setLine l
        (x.beginFrame (.command id h origin) (formFrame st.address .command st.cseq x.txBuffer)
          (if s.lineOffers l then min 255 (x.service + 1) else x.service) s.time) := by
  refine State.beginTransmit_eq rfl ?_ ?_
  · simp [State.jobFrame, State.jobAddress, Job.handle, State.jobSequence, State.jobPayload, Job.sentKind, hst]
  · rw [State.serviceAfter, State.line_setLine_same]
    rfl

/-- R4, R74, R109: the frame of a broadcast. -/
theorem State.beginTransmit_broadcast (x : Line) : (s.setLine l x).beginTransmit l (.broadcast id) =
    (s.updCtx id fun c => { c with phase := .attempting, attemptsMade := 1 }).setLine l
      (x.beginFrame (.broadcast id) (formFrame 0 .command false x.txBuffer)
        (if s.lineOffers l then min 255 (x.service + 1) else x.service) s.time) := by
  refine State.beginTransmit_eq rfl ?_ ?_
  · simp [State.jobFrame, State.jobAddress, Job.handle, State.jobSequence, State.jobPayload, Job.sentKind]
  · rw [State.serviceAfter, State.line_setLine_same]
    rfl

end

/-! ## An ABORT that the settling of its target's station may end (R78, R118) -/

/-- R45, R118: the freeing of an entry leaves a record as it is, or ends it OK. -/
theorem State.tryFree_record {s : State} {k : Nat} {e : Context} (h : Handle) (he : s.ctx k = some e) (hl : e.Live) :
    (s.tryFree h).ctx k = some e ∨ (s.tryFree h).Handed k .ok .none := by
  unfold State.tryFree
  split
  · exact .inl he
  · split
    · split
      · next r _ =>
        by_cases hk : k = r
        · subst hk
          exact .inr (State.handed_endRecord _ k .ok .none he hl)
        · exact .inl ((State.ctx_endRecord_ne hk).trans he)
      · exact .inl he
    · exact .inl he

/-- R78: the ABORT of an exchange ends OK, where it stands in no list that drains. -/
theorem State.handed_endExchange_abortOk {s : State} {id k n : Nat} {st : Status} {d : Detail} {c e : Context} {h : Handle}
    {x : Station} (hc : s.ctx id = some c) (hp : c.phase ≠ .ending) (hh : c.exchangeHandle = some h)
    (hx : s.station h = some x) (he : s.ctx k = some e) (hl : e.Live) (hk : k ≠ id) (hpending : k ∉ x.pending) :
    ((s.endExchange id st d n).endAbort (some k) .ok).Handed k .ok .none := by
  obtain ⟨link, hlink, -⟩ := State.station_endOne (st := st) (d := d) (n := n) hc hp hh hx
  have hdrain : ((s.endOne id st d n).drainClosing h).ctx k = some e := by
    rw [State.drainClosing, hlink]
    simp only
    split
    · rw [State.endList_eq hlink, State.ctx_endPlains_of_not_mem fun m => hpending (List.mem_of_mem_erase m),
        State.ctx_endOne_ne hk, he]
    · rw [State.ctx_endOne_ne hk, he]
  rw [State.endExchange_of_station hc hh]
  rcases State.tryFree_record h hdrain hl with hsame | hended
  · exact State.handed_endRecord _ k .ok .none hsame hl
  · exact hended.tells (State.tells_endAbort _ (some k) .ok)

/-! ## A paused station (R59, R102) -/

theorem State.txHolds_finish (s : State) (l : LineNo) : (s.finish.line l).txHolds = (s.line l).txHolds := by
  rw [(((s.sameButWriters_iff _).1 s.writers_finish).2.2.1 l).2]

section
variable {s : State} {l : LineNo} {id : Nat} {c : Context} {origin : Phase} {x : Line}

/-- The state in which a paused exchange waits again in the phase `origin`, before the engine leaves PREPARING. -/
def State.waitsAgain (s : State) (l : LineNo) (id : Nat) (origin : Phase) (x : Line) : State :=
  (s.updCtx id fun c => { c with phase := origin }).setLine l
    { x with retryList := if origin = .waitingRetry then id :: x.retryList.erase id else x.retryList }

theorem State.ctx_waitsAgain (hc : s.ctx id = some c) (hp : c.phase ≠ .ending) (origin : Phase) (x : Line) :
    (s.waitsAgain l id origin x).ctx id = some { c with phase := origin } :=
  State.ctx_updCtx_same (f := fun c => { c with phase := origin }) (fun _ => rfl) hc hp

theorem State.line_waitsAgain : (s.waitsAgain l id origin x).line l =
    { x with retryList := if origin = .waitingRetry then id :: x.retryList.erase id else x.retryList } :=
  State.line_setLine_same ..

/-- R59, R102: where no break begins the exchange waits, and the buffer keeps its payload. -/
theorem State.waitsAgain_rests (hc : s.ctx id = some c) (hp : c.phase ≠ .ending)
    (hb : ¬ (x.resetPending = true ∧ s.device = .running)) (hq : id ∉ x.quiescers) :
    let t := ((s.waitsAgain l id origin x).leaveRead l).finish
    t.phaseOf id = some origin ∧ (t.line l).txHolds = x.txHolds ∧
      (t.line l).retryList = if origin = .waitingRetry then id :: x.retryList.erase id else x.retryList := by
  have hleave := State.leaveRead_of_rest (v := s.waitsAgain l id origin x) (l := l) (by rw [State.line_waitsAgain]; exact hb)
  have hline : ((s.waitsAgain l id origin x).leaveRead l).line l = ((s.waitsAgain l id origin x).line l).leftRead := by
    rw [hleave, State.line_endRecords, State.line_setLine_same]
  refine ⟨?_, ?_, ?_⟩
  · rw [State.phaseOf, State.ctx_finish, hleave, State.ctx_endRecords_of_not_mem (by rw [State.line_waitsAgain]; exact hq),
      State.ctx_setLine, State.ctx_waitsAgain hc hp]
    rfl
  · rw [State.txHolds_finish, hline, State.line_waitsAgain]
    rfl
  · rw [State.retryList_finish, hline, State.line_waitsAgain]
    rfl

/-- R59, R67: where the break begins, an exchange that was not in WAITING_RETRY waits and the buffer keeps its payload; one that
was, for a station of the line, ends LINE_BREAK. -/
theorem State.waitsAgain_breaks {h : Handle} {st : Station} (hc : s.ctx id = some c) (hp : c.phase ≠ .ending)
    (hr : x.resetPending = true) (hrunning : s.device = .running) (hd : s.ContextsDistinct) :
    let t := ((s.waitsAgain l id origin x).leaveRead l).finish
    (origin ≠ .waitingRetry → x.txHolds = some id → t.phaseOf id = some origin ∧ (t.line l).txHolds = some id) ∧
    (origin = .waitingRetry → c.exchangeHandle = some h → s.station h = some st → st.line = l → st.state ≠ .closing →
      t.Reports id .lineBreak (.failure .lineBreak)) := by
  have hleave := State.leaveRead_of_break (v := s.waitsAgain l id origin x) (l := l)
    (by rw [State.line_waitsAgain]; exact hr) hrunning
  have hdu : (s.waitsAgain l id origin x).ContextsDistinct :=
    State.contextsDistinct_updCtx (f := fun c => { c with phase := origin }) (fun _ => rfl) hd
  have hctx := State.ctx_waitsAgain (l := l) hc hp origin x
  obtain ⟨hbroken, hkept, -⟩ := (State.EndsOwn.refl (s.waitsAgain l id origin x) l).breaks hdu
  refine ⟨fun horigin hx => ?_, fun horigin hh hst hline hs => ?_⟩
  · have hret : (s.waitsAgain l id origin x).retryWaits l { c with phase := origin } = false := by
      rw [Bool.eq_false_iff]
      exact fun hw => horigin (State.retryWaits_iff.1 hw).1
    obtain ⟨hsame, hholds⟩ := hkept id _ hctx hret
    refine ⟨?_, ?_⟩
    · rw [State.phaseOf, State.ctx_finish, hleave, hsame]
      rfl
    · rw [State.txHolds_finish, hleave]
      exact hholds (by rw [State.line_waitsAgain]; exact hx)
  · have hret : (s.waitsAgain l id origin x).retryWaits l { c with phase := origin } = true :=
      State.retryWaits_iff.2 ⟨horigin, h, st, hh, hst, hline, hs⟩
    rw [hleave]
    exact (hbroken id _ hctx hret).reports

end

end Sys2Proof.Machine

open Sys2Proof Sys2Proof.Machine

/-- Settles O37: the branches of `State.readGood`, each by its own lemma. -/
theorem payloadReadEndsGood : Obligations.PayloadReadEndsGood := by
  intro s l octets id c ho hs hab hlen hc hpayload hphase x service breaks settles
  have hp : c.phase ≠ .ending := by rw [hphase]; exact Phase.noConfusion
  have hstep : ∀ job, x.job = some job → job.context = some id →
      exec (.payloadReadEnd l octets) s = .next ((s.setLine l x).readGood l job).finish :=
    fun job hjob hcontext => exec_payloadReadEnd_of_reads ho hs hab hlen hc hpayload hjob hcontext
  have hline : (s.setLine l x).line l = x := State.line_setLine_same ..
  have hbusy : ((s.setLine l x).line l).state ≠ .idle := by
    rw [hline, show x.state = .preparing from hs]
    exact EngineState.noConfusion
  have hidle : ∀ (m : LineNo) h, (s.line m).attempting h = false → ((s.setLine l x).line m).attempting h = false :=
    fun m h hm => (State.attempting_setLine (y := x) rfl rfl m h).trans hm
  have hown : ∀ job, x.job = some job → job.context = some id → ((s.setLine l x).line l).job.bind Job.context = some id :=
    fun job hjob hcontext => by rw [hline, hjob]; exact hcontext
  refine ⟨fun job pa hjob hcontext hbody => ?_, fun h origin st hjob hst hh => ⟨fun ha hcl hpaused => ?_,
    fun ha hcl hpaused => ?_, fun a ha => ?_, fun ha hcl => ?_⟩, fun hjob ha => ?_, fun a hjob ha hh hbody => ?_⟩
  · rw [State.payloadReadAt, show (s.line l).job = some job from hjob, Option.bind_some, hcontext, Option.bind_some, hc,
      Option.bind_some]
    rcases hbody with ⟨h, n, ra, cap, hb⟩ | ⟨k, n, hb⟩ <;> rw [hb]
  · rw [hstep _ hjob rfl, State.readGood_sends (s := s.setLine l x) hc ha hst hcl hpaused, State.beginTransmit_command hst]
  · have hwaits : (s.setLine l x).readGood l (.command id h origin) = (s.waitsAgain l id origin x).leaveRead l := by
      rw [State.readGood_paused (s := s.setLine l x) hc ha hst hcl hpaused, State.returnToWait_eq, State.waitsAgain]
    have hbusy' : ((s.waitsAgain l id origin x).line l).state ≠ .idle := by
      rw [hline] at hbusy
      rw [State.line_waitsAgain]
      exact hbusy
    refine ⟨((s.waitsAgain l id origin x).leaveRead l).finish, (hstep _ hjob rfl).trans (by rw [hwaits]),
      (State.EndsOwn.refl _ l).leavesRead hbusy', fun hb hq => ?_, fun hb hd horigin => ?_,
      fun hb hd horigin hl => ?_⟩
    · obtain ⟨hphase, hholds, hlist⟩ := State.waitsAgain_rests (origin := origin) hc hp hb hq
      exact ⟨hphase, hholds, fun horigin => by rw [hlist, if_pos horigin]⟩
    · have kept := (State.waitsAgain_breaks (l := l) (origin := origin) (h := h) (st := st) hc hp hb.1 hb.2 hd).1
      rw [← horigin]
      exact kept (by rw [horigin]; exact Phase.noConfusion) rfl
    · have ended := (State.waitsAgain_breaks (l := l) (origin := origin) (h := h) (st := st) hc hp hb.1 hb.2 hd).2
      exact ended horigin hh hst hl hcl
  · have hl := Context.live_of_exchange hp hh
    have marks := State.Marks.refl (u := s.setLine l x) hc hl
    have own := marks.endsOwn (l := l) (st := .aborted) (d := c.failureDetail) (n := 0) (a := some a) (st' := .ok)
      (hown _ hjob rfl) fun k hk => hk ▸ ha
    refine ⟨_, (hstep _ hjob rfl).trans (by rw [State.readGood_abort (s := s.setLine l x) hc ha rfl]), marks.reports,
      own.leavesRead hbusy, fun hcl hatt => marks.settles hh hst hcl (hidle _ h hatt), fun d hd hne hlive hpending => ?_⟩
    have handed := State.handed_endExchange_abortOk (s := s.setLine l x) (st := .aborted) (d := c.failureDetail) (n := 0)
      hc hp hh hst hd hlive hne hpending
    exact (handed.tells (State.tells_leaveRead _ l)).reports
  · have marks := State.Marks.refl (u := s.setLine l x) hc (Context.live_of_exchange hp hh)
    have own := marks.endsOwn (l := l) (st := .cancelled) (d := c.failureDetail) (n := 0) (a := none) (st' := .ok)
      (hown _ hjob rfl) fun k hk => by cases hk
    exact ⟨_, (hstep _ hjob rfl).trans (by rw [State.readGood_closing (s := s.setLine l x) hc ha hst hcl]), marks.reports,
      own.leavesRead hbusy, fun hcl hatt => marks.settles hh hst hcl (hidle _ h hatt)⟩
  · rw [hstep _ hjob rfl, State.readGood_broadcast (s := s.setLine l x) hc ha, State.beginTransmit_broadcast]
  · have marks := State.Marks.refl (u := s.setLine l x) hc ⟨hp, hbody⟩
    have own := marks.endsOwn (l := l) (st := .aborted) (d := c.failureDetail) (n := 0) (a := some a) (st' := .ok)
      (hown _ hjob rfl) fun k hk => hk ▸ ha
    refine ⟨_, (hstep _ hjob rfl).trans (by rw [State.readGood_abort (s := s.setLine l x) hc ha rfl]), marks.reports,
      own.leavesRead hbusy, fun d hd hne hlive => ?_⟩
    have handed := State.handed_endExchange_abort (s := s.setLine l x) (st := .aborted) (d := c.failureDetail) (n := 0)
      (st' := .ok) hc hp hd hlive hne fun h x hh' => by rw [hh] at hh'; cases hh'
    exact (handed.tells (State.tells_leaveRead _ l)).reports
end

section
/-! PROOFS. The guard of a line and its condition (R83, R84, R85, R89, R92 to R94, R97), the part's own break as a step begins
it (R41, R67, R94), and the rules that every step keeps (R82, R99, R100, R151). -/

namespace Sys2Proof.Machine

section
variable (s : State) (l : LineNo)

theorem exec_stuck : exec (.stuck l) s = runCommand (.stuck l) (s.watching l && (s.line l).condition == .break)
    (fun s => ((s.reach ((s.line l).reaches ((s.line l).breakEdge s.time) 256)).updLine l
      fun x => { x with condition := .stuck, stuckSeen := true }).finish) s := rfl

theorem exec_lineReturnToMark (wait : Nat) : exec (.lineReturnToMark l wait) s = runCommand (.lineReturnToMark l wait)
    (s.watching l && (s.line l).mayReturn)
    (fun s => (s.reach (s.time + wait)).updLine l fun x => x.returnToMark (s.time + wait)) s := rfl

theorem exec_recoveryEnd : exec (.recoveryEnd l) s = runCommand (.recoveryEnd l)
    (s.watching l && (s.line l).recovering)
    (fun s => ((s.reach (s.line l).recoveryMoment).updLine l fun x => x.recover (s.line l).recoveryMoment).finish) s := rfl

theorem exec_guardEnd : exec (.guardEnd l) s = runCommand (.guardEnd l) (s.operating && (s.line l).guardMayEnd)
    (fun s => s.guardEnds l) s := rfl

end

/-- An announced space has the leading edge it was announced with. -/
theorem Line.breakEdge_eq {x : Line} {e : Nat} (he : x.spaceEdge = some e) (now : Nat) : x.breakEdge now = e := by
  rw [Line.breakEdge, he, Option.getD_some]

/-- R41, R67, R94: a step that enters BREAK_OUT begins the part's own break. -/
theorem State.beginsBreak (s : State) (l : LineNo) (records : List Nat) (now : Nat) :
    s.BeginsBreak (s.enterBreakOut l records now).finish l records now := by
  rw [State.enterBreakOut_eq]
  refine ⟨State.sameButEnds_finish (State.ends_endRetries _ l), fun hd => ?_⟩
  have hwaits := fun c => State.retryWaits_breakStart (s := s) (l := l) (records := records) (now := now) l c
  have begun : (s.breakStart l records now).ContextsDistinct := hd
  have hall := State.allWait_retriesOf (l := l) begun
  refine ⟨fun c hc hw _ => ?_, fun id c hc hw => ?_, fun h y hy hline => ?_⟩
  · refine (hall.handed ((State.mem_retriesOf begun (c := c) (State.ctx_of_mem begun hc)).2 ?_)).reports
    rw [hwaits, hw]
  · rw [State.ctx_finish, State.endRetries_eq, hall.ctx fun hid => ?_]
    · exact hc
    · have hwait := (State.mem_retriesOf begun (c := c) hc).1 hid
      rw [hwaits, hw] at hwait
      cases hwait
  · obtain ⟨y', hy', hline', hlink'⟩ := State.keepsLinks_finish _ h y hy
    obtain ⟨x, hx, hxline, hxlink⟩ := hall.links h y' hy'
    rw [State.station_breakStart, Option.map_eq_some_iff] at hx
    obtain ⟨z, -, rfl⟩ := hx
    rw [hlink', hxlink]
    split
    · rfl
    · next hz =>
      rw [if_neg hz] at hxline
      exact absurd (hxline.symm.trans (hline'.symm.trans hline)) hz

/-- R89: what the end of the guard is, from the moment its quiet time and its entry give. -/
theorem exec_guardEnd_of_quiet {s : State} {l : LineNo} {q : Nat} (ho : s.Operates) (hs : (s.line l).state = .guard)
    (hc : (s.line l).condition = .clear) (hr : (s.line l).receiving = false) (hq : (s.line l).quietSince = some q) :
    let now := max (max (q + 2 * (s.line l).char) (s.line l).rateSince) (s.line l).guardSince
    exec (.guardEnd l) s = .next ((if (s.line l).resetPending = true ∧ s.device = .running then
      (s.reach now).enterBreakOut l [] now else (s.reach now).updLine l Line.rest).finish) := by
  intro now
  have hmoment : (s.line l).guardMoment = now := by rw [Line.guardMoment, Line.quietMoment, hq]; rfl
  rw [exec_guardEnd, runCommand_occurs rfl ho.live (by simp [ho.operating, Line.guardMayEnd, hs, hc, hr, hq]),
    State.guardEnds, hmoment]
  rfl

end Sys2Proof.Machine

open Sys2Proof Sys2Proof.Machine

/-- Settles O56, by what every step keeps (`step_keeps`). -/
theorem driversPinAndMemoryKept : Obligations.DriversPinAndMemoryKept := by
  intro s t h
  have kept := step_keeps h
  exact ⟨kept.drivers, kept.pin, kept.memory⟩

/-- Settles O47: each of the three announcements occurs on a watched line, at the moment its threshold gives. -/
theorem conditionMoves : Obligations.ConditionMoves := by
  intro s l ho hw x
  have hwatch : s.watching l = true := ho.watching hw
  refine ⟨fun e hc he => ?_, fun wait hc => ?_, fun m hc he hm => ?_⟩
  · rw [exec_stuck, runCommand_occurs rfl ho.live (by rw [hwatch, show (s.line l).condition = .break from hc]; rfl),
      Line.breakEdge_eq he]
    rfl
  · rw [exec_lineReturnToMark]
    refine runCommand_occurs rfl ho.live ?_
    have hreturn : (s.line l).mayReturn = true := by simpa [Line.mayReturn, or_assoc] using hc
    rw [hwatch, hreturn]
    rfl
  · have hrecovering : (s.line l).recovering = true := by
      simp [Line.recovering, show (s.line l).condition = .recovering from hc, show (s.line l).spaceEdge = none from he,
        show (s.line l).markSince = some m from hm]
    have hmoment : (s.line l).recoveryMoment = max (m + 8 * (s.line l).char) (s.line l).rateSince := by
      rw [Line.recoveryMoment, show (s.line l).markSince = some m from hm]
      rfl
    rw [exec_recoveryEnd, runCommand_occurs rfl ho.live (by rw [hwatch, hrecovering]; rfl), hmoment]
    rfl

/-- Settles O48, by the two ways out of GUARD: the part's own break, and rest. -/
theorem guardEnds : Obligations.GuardEnds := by
  intro s l q ho hs hc hr hq x now u
  have ended := exec_guardEnd_of_quiet ho hs hc hr hq
  refine ⟨fun hreset hrun => ?_, fun hn => ⟨fun hquiesce => ?_, fun hquiesce => ?_⟩⟩
  · refine ⟨_, ended, ?_⟩
    rw [if_pos ⟨hreset, hrun⟩]
    exact u.beginsBreak l [] now
  · rw [ended, if_neg hn, State.updLine_eq, Line.rest]
    simp [u, x, now, show (s.line l).quiesce = true from hquiesce]
  · rw [ended, if_neg hn, State.updLine_eq, Line.rest]
    simp [u, x, now, show (s.line l).quiesce = false from hquiesce]
end

section
/-! PROOFS. The last stop bit of a frame: AWAIT with its reply timer, or the end of a broadcast (R51, R61, R68, R74, R78, R82,
R84, R86), and the bit times (R2). -/

namespace Sys2Proof.Machine

/-- The end of an exchange or broadcast, with the ABORT that waits for it, is an end. -/
theorem State.ends_endExchange_endAbort (s : State) (id : Nat) (st st' : Status) (d : Detail) (n : Nat) (a : Option Nat) :
    s.Ends ((s.endExchange id st d n).endAbort a st') :=
  (s.ends_endExchange id st d n).trans (State.ends_endAbort _ a st')

section
variable {s : State} {l : LineNo} {job : Job} {t : Nat}

theorem exec_transmitEnd (l : LineNo) (s : State) : exec (.transmitEnd l) s = runCommand (.transmitEnd l)
    (s.operating && (s.line l).state == .transmit && (s.line l).job.isSome) (fun s => s.transmitEnds l) s := rfl

theorem exec_transmitEnd_of_job (ho : s.Operates) (hs : (s.line l).state = .transmit) (hj : (s.line l).job = some job) :
    exec (.transmitEnd l) s =
      .next ((s.driverReleased l (s.line l).frameEnd).frameSent l job (s.line l).frameEnd).finish := by
  rw [exec_transmitEnd, runCommand_occurs rfl ho.live (by simp [ho.operating, hs, hj]), State.transmitEnds, hj]
  rfl

/-- R86: a frame that awaits an answer takes the engine to AWAIT. -/
theorem State.frameSent_await {h : Handle} (hh : job.handle = some h) :
    s.frameSent l job t = (s.markUnanswered job).updLine l fun x => x.await (s.replyTimeout l h) t := by
  cases job with
  | broadcast id => cases hh
  | command id k origin => cases hh; rfl
  | poll k pseq => cases hh; rfl
  | link k => cases hh; rfl
  | probe k => cases hh; rfl

/-- R61: only a COMMAND is marked unanswered. -/
theorem State.markUnanswered_other (hj : ∀ id h origin, job ≠ .command id h origin) : s.markUnanswered job = s := by
  cases job with
  | command id h origin => exact absurd rfl (hj id h origin)
  | broadcast id => rfl
  | poll h pseq => rfl
  | link h => rfl
  | probe h => rfl

/-- R51: the reply timer's length is W_b of the station's band. -/
theorem State.replyTimeout_driverReleased {h : Handle} {st : Station} {table : BandTable} (hst : s.station h = some st)
    (ht : (s.line l).bandTable = some table) : (s.driverReleased l t).replyTimeout l h = table.wait st.band := by
  have htable : ((s.driverReleased l t).line l).bandTable = some table := by
    rw [State.line_driverReleased]
    exact ht
  have hstation : (s.driverReleased l t).station h = some st := hst
  simp only [State.replyTimeout, htable, hstation]

/-- R74, R78: the end of a broadcast whose frame has been sent. -/
theorem State.frameSent_broadcast {id : Nat} {c : Context} (hc : s.ctx id = some c) : s.frameSent l (.broadcast id) t =
    ((s.endExchange id .ok c.failureDetail 0).endAbort c.abortRequested .tooLate).toGuard l := by
  rw [← State.endWith_eq_endExchange hc, ← State.aborter_eq hc]
  rfl

end

end Sys2Proof.Machine

open Sys2Proof Sys2Proof.Machine

/-- Settles O39, by the kind of frame: one that awaits an answer, and a broadcast. -/
theorem frameHasBeenSent : Obligations.FrameHasBeenSent := by
  refine ⟨fun x rate hrate => ?_, fun s l job ho hs hj => ?_⟩
  · refine ⟨?_, by rw [Line.bit, hrate]; rfl, rfl⟩
    clear hrate
    revert rate
    decide
  intro x now u y
  have sent : exec (.transmitEnd l) s = .next ((s.driverReleased l now).frameSent l job now).finish :=
    exec_transmitEnd_of_job ho hs hj
  refine ⟨fun h st table hh hst htable => ?_, fun id c hb hc hl hx => ?_⟩
  · intro z
    rw [State.frameSent_await hh, State.replyTimeout_driverReleased hst htable] at sent
    refine ⟨fun id origin hcommand => ?_, fun hother => ?_⟩
    · subst hcommand
      have hline : ((s.driverReleased l now).updCtx id fun c => { c with unanswered := true }).line l =
        (s.line l).releaseDriver now := s.line_driverReleased l now
      have hset : ∀ z', ((s.driverReleased l now).updCtx id fun c => { c with unanswered := true }).setLine l z' =
        (u.updCtx id fun c => { c with unanswered := true }).setLine l z' :=
        fun z' => State.setLine_setLine (u.updCtx id fun c => { c with unanswered := true }) l _ z'
      rw [sent, State.markUnanswered, State.updLine_eq, hline, hset]
      rfl
    · rw [sent, State.markUnanswered_other fun id k origin hk => ?_, State.updLine_eq, State.line_driverReleased,
        State.setLine_driverReleased]
      · rfl
      · subst hk
        cases hh
        exact hother id origin rfl
  · subst hb
    have hset := State.setLine_driverReleased s l now
    have hstate : ((s.driverReleased l now).line l).state ≠ .idle := by
      rw [State.line_driverReleased]
      exact fun h => by rw [show ((s.line l).releaseDriver now).state = _ from hs] at h; cases h
    rw [State.frameSent_broadcast (s := s.driverReleased l now) (c := c) hc] at sent
    refine ⟨_, sent, ?_, ?_, fun a d ha hd hne hlive => ?_⟩
    · have handed := State.handed_endExchange (s.driverReleased l now) id .ok c.failureDetail 0 hc hl
      exact ((handed.tells (State.tells_endAbort _ _ _)).tells (State.tells_toGuard _ l)).reports
    · have ended := (State.sameButEnds_of_ends (State.ends_endExchange_endAbort (s.driverReleased l now) id .ok .tooLate
        c.failureDetail 0 c.abortRequested)).toGuard hstate
      rw [hset, State.line_driverReleased] at ended
      exact ended.trans (State.sameButEnds_of_writers (State.writers_finish _))
    · rw [ha]
      have handed := State.handed_endExchange_abort (s := s.driverReleased l now) (st := .ok) (d := c.failureDetail) (n := 0)
        (st' := .tooLate) hc hl.1 hd hlive hne fun h x hh => by rw [hx] at hh; cases hh
      exact (handed.tells (State.tells_toGuard _ l)).reports
end

section
/-! PROOFS. The consultation of a line's scheduler: when the engine makes it, and what it does with each choice (R58, R61, R69,
R72, R74, R85, R103 to R113, R148; entries 3, 15, 24, 28). -/

namespace Sys2Proof.Machine

/-! ## When it is made (R85, R113) -/

/-- R84, R85, R113: the engine may leave IDLE at `now`, and it owes its scheduler a consultation. -/
def State.MayConsult (s : State) (l : LineNo) (now : Nat) : Prop :=
  s.resetHeld = false ∧ s.device = .running ∧ (s.line l).state = .idle ∧ (s.line l).quiesce = false ∧
    (s.line l).condition = .clear ∧ (s.line l).receiving = false ∧ (s.line l).rxBuffer = none ∧
    (s.line l).consultDue = true ∧ ∃ q, (s.line l).quietSince = some q ∧ q + 2 * (s.line l).char ≤ now

section
variable {s : State} {l : LineNo} {now : Nat}

/-- On a part that is not FAILED the time of the lines reaches every moment to come. -/
theorem State.time_reach (hd : s.device ≠ .failed) (hn : s.time ≤ now) : (s.reach now).time = now := by
  simp only [State.reach, State.elapse, if_neg hd]
  omega

theorem Line.quietReached_iff (x : Line) (now : Nat) : x.quietReached now = true ↔
    (∃ q, x.quietSince = some q ∧ q + 2 * x.char ≤ now) ∧ x.receiving = false := by
  unfold Line.quietReached
  cases x.quietSince <;> simp

theorem State.mayChoose_reach_iff (hn : s.time ≤ now) : (s.reach now).mayChoose l = true ↔ s.MayConsult l now := by
  have hline : (s.reach now).line l = s.line l := rfl
  by_cases hd : s.device = .running
  · have htime : (s.reach now).time = now := State.time_reach (by rw [hd]; decide) hn
    simp only [State.mayChoose, State.live, hline, htime, Bool.and_eq_true, Bool.not_eq_true', beq_iff_eq,
      Option.isNone_iff_eq_none, Line.quietReached_iff, State.MayConsult]
    exact ⟨fun ⟨⟨⟨⟨⟨⟨⟨hs, hr⟩, hh⟩, hq⟩, hc⟩, ⟨hquiet, hn⟩⟩, hb⟩, hdue⟩ => ⟨hh, hr, hs, hq, hc, hn, hb, hdue, hquiet⟩,
      fun ⟨hh, hr, hs, hq, hc, hn, hb, hdue, hquiet⟩ => ⟨⟨⟨⟨⟨⟨⟨hs, hr⟩, hh⟩, hq⟩, hc⟩, ⟨hquiet, hn⟩⟩, hb⟩, hdue⟩⟩
  · simp [State.mayChoose, State.MayConsult, hd]

theorem exec_schedulerChoice (l : LineNo) (wait : Nat) (s : State) : exec (.schedulerChoice l wait) s =
    runCommand (.schedulerChoice l wait) ((s.reach (s.time + wait)).mayChoose l)
      (fun s => ((s.reach (s.time + wait)).consult l).finish) s := rfl

end

/-! ## What the choice is made by (R103) -/

/-- R104 to R108: the step of the choice that gives it. -/
def State.ChosenBy (s : State) (l : LineNo) : Choice → Prop
  | .reset => (s.line l).resetPending = true
  | .retry id => s.retryChoice l = some id
  | .link h => ∃ i, s.linkChoice l = some i ∧ h = ⟨i % 64, Nat.mod_lt _ (by decide)⟩
  | .work k i => s.classChoice l k = some i
  | .poll _ => True
  | .probe _ => True
  | .nothing => True

section
variable {s : State} {l : LineNo}

theorem State.pollOrProbe_chosenBy (h : Handle) : s.ChosenBy l (s.pollOrProbe h) := by
  unfold State.pollOrProbe
  split
  · split <;> trivial
  · trivial

theorem State.lateChoice_chosenBy : s.ChosenBy l (s.lateChoice l) := by
  unfold State.lateChoice
  split
  · next hi => exact hi
  · split
    · trivial
    · split <;> trivial

theorem State.choose_chosenBy : s.ChosenBy l (s.choose l) := by
  unfold State.choose
  split
  · next hr => exact hr
  · split
    · next hid => exact hid
    · split
      · next i hi => exact ⟨i, hi, rfl⟩
      · split
        · next hi => exact hi
        · split
          · exact State.pollOrProbe_chosenBy _
          · exact State.lateChoice_chosenBy

/-- A station found on the line is in use. -/
theorem State.station_of_stationOn {h : Handle} {st : Station} (hst : s.stationOn l h = some st) : s.station h = some st := by
  unfold State.stationOn at hst
  split at hst
  · next x hx =>
    split at hst
    · rw [hx, hst]
    · cases hst
  · cases hst

/-- R106: an ONLINE station chosen for link service has an UNCERTAIN link. -/
theorem State.choose_link {h : Handle} {st : Station} (hc : s.choose l = .link h) (hst : s.station h = some st)
    (hs : st.state = .online) : st.link = .uncertain := by
  have chosen := State.choose_chosenBy (s := s) (l := l)
  rw [hc] at chosen
  obtain ⟨i, hi, rfl⟩ := chosen
  have ready := firstAfter_ready hi
  split at ready
  · next hlt =>
    have hmod : (⟨i % 64, Nat.mod_lt _ (by decide)⟩ : Handle) = ⟨i, hlt⟩ := Fin.ext (Nat.mod_eq_of_lt hlt)
    split at ready
    · next x hx =>
      rw [hmod, State.station_of_stationOn hx] at hst
      obtain rfl : x = st := Option.some.inj hst
      simp only [Station.needsLink, hs, Bool.and_eq_true, Bool.or_eq_true] at ready
      obtain ⟨-, hnew | ⟨⟨-, hlink⟩, -⟩⟩ := ready
      · cases hnew
      · exact eq_of_beq hlink
    · cases ready
  · cases ready

/-- R107: a station chosen in a class is ONLINE. -/
theorem State.choose_work {k : QueueClass} {h : Handle} {st : Station} (hc : s.choose l = .work k h.val)
    (hst : s.station h = some st) : st.state = .online := by
  have chosen := State.choose_chosenBy (s := s) (l := l)
  rw [hc] at chosen
  have ready := firstAfter_ready chosen
  rw [State.candidateReady, dif_pos h.isLt] at ready
  split at ready
  · next x hx =>
    rw [State.station_of_stationOn hx] at hst
    obtain rfl : x = st := Option.some.inj hst
    simp only [State.stationReady, Bool.and_eq_true] at ready
    obtain ⟨⟨⟨honline, -⟩, -⟩, -⟩ := ready
    exact eq_of_beq honline
  · cases ready

/-- R148, entry 28: a choice of steps 1 to 3 asks for no reservation. -/
theorem State.asksInVain_early (h : s.choose l = .reset ∨ (∃ id, s.choose l = .retry id) ∨ ∃ k, s.choose l = .link k) :
    s.asksInVain l = false := by
  have chosen := State.choose_chosenBy (s := s) (l := l)
  rcases h with h | ⟨id, h⟩ | ⟨k, h⟩
  · rw [h] at chosen
    simp [State.asksInVain, show (s.line l).resetPending = true from chosen]
  · rw [h] at chosen
    simp [State.asksInVain, show s.retryChoice l = some id from chosen]
  · rw [h] at chosen
    obtain ⟨i, hi, -⟩ := chosen
    simp [State.asksInVain, hi]

/-- R148: a granted reservation ends the line's record of refusal. -/
theorem State.grantReservation_recordRefusal : (s.recordRefusal l).grantReservation l = s.grantReservation l := by
  have hfilter : (s.recordRefusal l).refusedLines.filter (fun k => k != l) = s.refusedLines.filter fun k => k != l := by
    simp only [State.recordRefusal]
    split
    · rfl
    · simp
  simp only [State.grantReservation, hfilter]
  rfl

end

/-! ## The consultation made -/

/-- R103, R113: the state in which the consultation that line `l` owed is being made. -/
def State.consulting (s : State) (l : LineNo) : State := s.setLine l (s.line l).consulted

/-- R148: with the refusal of its request recorded, where it asks in vain. -/
def State.refusing (s : State) (l : LineNo) : State := if s.asksInVain l then s.recordRefusal l else s

theorem State.consult_eq (s : State) (l : LineNo) :
    s.consult l = ((s.consulting l).refusing l).act l ((s.consulting l).choose l) := rfl

section
variable {s : State} {l : LineNo}

theorem State.refusing_early (h : s.asksInVain l = false) : s.refusing l = s := by
  rw [State.refusing, h]
  rfl

/-- The record of a refusal changes nothing else. -/
theorem State.refusing_keeps : (s.refusing l).lines = s.lines ∧ (s.refusing l).stations = s.stations ∧
    (s.refusing l).pool = s.pool ∧ (s.refusing l).time = s.time := by
  unfold State.refusing
  split <;> exact ⟨rfl, rfl, rfl, rfl⟩

theorem State.line_refusing : (s.refusing l).line l = s.line l := by
  obtain ⟨hlines, -⟩ := State.refusing_keeps (s := s) (l := l)
  rw [State.line, hlines, ← State.line]

theorem State.station_refusing (h : Handle) : (s.refusing l).station h = s.station h := by
  obtain ⟨-, hstations, -⟩ := State.refusing_keeps (s := s) (l := l)
  rw [State.station, hstations, ← State.station]

theorem State.ctx_refusing (id : Nat) : (s.refusing l).ctx id = s.ctx id := by
  obtain ⟨-, -, hpool, -⟩ := State.refusing_keeps (s := s) (l := l)
  rw [State.ctx, hpool, ← State.ctx]

theorem State.lineOffers_refusing : (s.refusing l).lineOffers l = s.lineOffers l := by
  unfold State.lineOffers
  simp only [State.station_refusing]

theorem State.grantReservation_refusing : (s.refusing l).grantReservation l = s.grantReservation l := by
  unfold State.refusing
  split
  · exact State.grantReservation_recordRefusal
  · rfl

end

/-! ## Frames without a context (R69, R72) -/

section
variable {s : State} {l : LineNo} {job : Job} {h : Handle} {st : Station}

/-- R86: the start of a transmission that no context notes. -/
theorem State.beginTransmit_plain {x : Line} {frame : List Byte} {service : Nat}
    (hbegin : (s.setLine l x).beginAttempt job = s.setLine l x) (hframe : (s.setLine l x).jobFrame l job = frame)
    (hservice : (s.setLine l x).serviceAfter l job = service) :
    (s.setLine l x).beginTransmit l job = s.setLine l (x.beginFrame job frame service s.time) := by
  rw [State.beginTransmit, hframe, hservice, hbegin, State.updLine_eq, State.line_setLine_same, State.setLine_setLine]
  rfl

theorem State.beginTransmit_probe (hst : s.station h = some st) (x : Line) : (s.setLine l x).beginTransmit l (.probe h) =
    s.setLine l (x.beginFrame (.probe h) (formFrame st.address .linkReset false []) 0 s.time) := by
  refine State.beginTransmit_plain rfl ?_ rfl
  simp [State.jobFrame, State.jobAddress, Job.handle, State.jobSequence, State.jobPayload, Job.sentKind, hst]

theorem State.beginTransmit_poll (hst : s.station h = some st) (x : Line) (pseq : Bool) :
    (s.setLine l x).beginTransmit l (.poll h pseq) =
      s.setLine l (x.beginFrame (.poll h pseq) (formFrame st.address .poll pseq []) 0 s.time) := by
  refine State.beginTransmit_plain rfl ?_ rfl
  simp [State.jobFrame, State.jobAddress, Job.handle, State.jobSequence, State.jobPayload, Job.sentKind, hst]

theorem State.jobFrame_link (hst : s.station h = some st) (x : Line) :
    (s.setLine l x).jobFrame l (.link h) = formFrame st.address .linkReset false [] := by
  simp [State.jobFrame, State.jobAddress, Job.handle, State.jobSequence, State.jobPayload, Job.sentKind, hst]

theorem State.beginTransmit_link_new (hst : s.station h = some st) (hs : st.state = .new) (x : Line) :
    (s.setLine l x).beginTransmit l (.link h) =
      s.setLine l (x.beginFrame (.link h) (formFrame st.address .linkReset false []) x.service s.time) := by
  refine State.beginTransmit_plain ?_ (State.jobFrame_link hst x) (by rw [State.serviceAfter, State.line_setLine_same])
  simp [State.beginAttempt, hst, hs]

/-- R69: link service of an ONLINE station counts an attempt for the head of its list. -/
theorem State.beginTransmit_link_online {id : Nat} {rest : List Nat} (hst : s.station h = some st) (hs : st.state = .online)
    (hl : st.link = .uncertain) (hp : st.pending = id :: rest) (x : Line) : (s.setLine l x).beginTransmit l (.link h) =
      (s.updCtx id fun c => { c with linkAttempts := c.linkAttempts + 1 }).setLine l
        (x.beginFrame (.link h) (formFrame st.address .linkReset false []) x.service s.time) := by
  refine State.beginTransmit_eq ?_ (State.jobFrame_link hst x) (by rw [State.serviceAfter, State.line_setLine_same])
  simp [State.beginAttempt, hst, hs, hl, hp]

end

/-! ## The start of an exchange or a broadcast (R58, R61, R74, R85) -/

/-- R58: the line whose engine reads the payload of `job`. -/
def Line.reads (x : Line) (job : Job) : Line :=
  { x with state := .preparing, job := some job, abandoned := false, txHolds := none }

/-- Entry 15: a payload of length 0 is read as soon as its read is begun. -/
def State.readIfEmpty (u : State) (l : LineNo) (job : Job) (id : Nat) : State :=
  if (u.ctx id).map Context.payloadLength = some 0 then (u.fillBuffer l job []).readGood l job else u

theorem State.beginRead_eq (s : State) (l : LineNo) (job : Job) (id : Nat) : s.beginRead l job id =
    ((s.updLine l fun x => x.reads job).updCtx id fun c => { c with phase := .preparing }).readIfEmpty l job id := rfl

section
variable {s : State} {l : LineNo} {id : Nat} {c : Context}

/-- A context changed twice. -/
theorem State.updCtx_updCtx {f g : Context → Context} (hid : ∀ c, (f c).id = c.id) (hf : ∀ c, (f c).phase ≠ .ending) :
    (s.updCtx id f).updCtx id g = s.updCtx id fun c => g (f c) := by
  simp only [State.updCtx, List.map_map]
  congr 1
  refine List.map_congr_left fun c _ => ?_
  simp only [Function.comp_apply]
  by_cases h : c.id = id ∧ c.phase ≠ .ending
  · rw [if_pos h, if_pos ⟨(hid c).trans h.1, hf c⟩, if_pos h]
  · rw [if_neg h, if_neg h, if_neg h]

theorem State.updCtx_preparing (g : Context → Context) : (s.updCtx id fun c => { c with phase := .preparing }).updCtx id g =
    s.updCtx id fun c => g { c with phase := .preparing } :=
  State.updCtx_updCtx (f := fun c => { c with phase := .preparing }) (fun _ => rfl) fun _ => Phase.noConfusion

theorem State.startWork_held {x : Line} (hx : x.txHolds = some id) (job : Job) :
    (s.setLine l x).startWork l job id = (s.setLine l x).beginTransmit l job := by
  rw [State.startWork, State.line_setLine_same, if_pos hx]

/-- R58, entry 15: without its payload in the buffer the read begins, and a payload of length 0 has been read at once. -/
theorem State.startWork_reads {x : Line} {job : Job} (hx : x.txHolds ≠ some id) (hc : s.ctx id = some c) :
    (s.setLine l x).startWork l job id =
      let u := (s.updCtx id fun c => { c with phase := .preparing }).setLine l (x.reads job)
      if c.payloadLength = 0 then (u.fillBuffer l job []).readGood l job else u := by
  have begun : ((s.setLine l x).updLine l fun x => x.reads job).updCtx id (fun c => { c with phase := .preparing }) =
      (s.updCtx id fun c => { c with phase := .preparing }).setLine l (x.reads job) := by
    rw [State.updLine_eq, State.line_setLine_same, State.setLine_setLine]
    rfl
  have hlength : ((s.updCtx id fun c => { c with phase := .preparing }).ctx id).map Context.payloadLength =
      some c.payloadLength := by
    rw [State.ctx_updCtx s id id (fun c => { c with phase := .preparing }) fun _ => rfl, hc]
    simp only [Option.map_some]
    split <;> rfl
  rw [State.startWork, State.line_setLine_same, if_neg hx, State.beginRead_eq, begun, State.readIfEmpty, State.ctx_setLine,
    hlength]
  simp only [Option.some.injEq]

/-- The state in which the payload of length 0 has been read. -/
def State.readNothing (s : State) (l : LineNo) (id : Nat) (x : Line) (job : Job) : State :=
  (s.updCtx id fun c => { c with phase := .preparing }).setLine l { x.reads job with txBuffer := [], txHolds := some id }

theorem State.startWork_empty {x : Line} {job : Job} (hx : x.txHolds ≠ some id) (hc : s.ctx id = some c)
    (hn : c.payloadLength = 0) (hj : job.context = some id) :
    (s.setLine l x).startWork l job id = (s.readNothing l id x job).readGood l job := by
  rw [State.startWork_reads hx hc]
  simp only [if_pos hn, State.fillBuffer, State.updLine_eq, State.line_setLine_same, State.setLine_setLine, hj]
  rfl

theorem State.startWork_unread {x : Line} {job : Job} (hx : x.txHolds ≠ some id) (hc : s.ctx id = some c)
    (hn : c.payloadLength ≠ 0) : (s.setLine l x).startWork l job id =
      (s.updCtx id fun c => { c with phase := .preparing }).setLine l (x.reads job) := by
  rw [State.startWork_reads hx hc]
  exact if_neg hn

/-- The beginning of a read leaves the ABORT that waits. -/
theorem State.ctx_readNothing (hc : s.ctx id = some c) (ha : c.abortRequested = none) (x : Line) (job : Job) :
    ∃ c', (s.readNothing l id x job).ctx id = some c' ∧ c'.abortRequested = none := by
  refine ⟨if c.id = id ∧ c.phase ≠ .ending then { c with phase := .preparing } else c, ?_, ?_⟩
  · rw [State.readNothing, State.ctx_setLine, State.ctx_updCtx s id id (fun c => { c with phase := .preparing }) fun _ => rfl,
      hc]
    rfl
  · split <;> exact ha

/-- R61: an exchange without a payload is sent at once. -/
theorem State.startWork_command_empty {h : Handle} {origin : Phase} {st : Station} {x : Line} (hx : x.txHolds ≠ some id)
    (hc : s.ctx id = some c) (hn : c.payloadLength = 0) (ha : c.abortRequested = none) (hst : s.station h = some st)
    (hs : st.state ≠ .closing) (hp : st.paused = false) : (s.setLine l x).startWork l (.command id h origin) id =
      (s.updCtx id fun c => { c with phase := .attempting, attemptsMade := c.attemptsMade + 1 }).setLine l
        (({ x with txBuffer := [], txHolds := some id, abandoned := false } : Line).beginFrame (.command id h origin)
          (formFrame st.address .command st.cseq []) (if s.lineOffers l then min 255 (x.service + 1) else x.service)
          s.time) := by
  obtain ⟨c', hc', ha'⟩ := State.ctx_readNothing (l := l) hc ha x (.command id h origin)
  rw [State.startWork_empty hx hc hn rfl, State.readGood_sends hc' ha' hst hs hp, State.readNothing,
    State.beginTransmit_command (s := s.updCtx id fun c => { c with phase := .preparing }) hst,
    State.updCtx_preparing]
  rfl

/-- R74: and so is a broadcast. -/
theorem State.startWork_broadcast_empty {x : Line} (hx : x.txHolds ≠ some id) (hc : s.ctx id = some c)
    (hn : c.payloadLength = 0) (ha : c.abortRequested = none) : (s.setLine l x).startWork l (.broadcast id) id =
      (s.updCtx id fun c => { c with phase := .attempting, attemptsMade := 1 }).setLine l
        (({ x with txBuffer := [], txHolds := some id, abandoned := false } : Line).beginFrame (.broadcast id)
          (formFrame 0 .command false []) (if s.lineOffers l then min 255 (x.service + 1) else x.service) s.time) := by
  obtain ⟨c', hc', ha'⟩ := State.ctx_readNothing (l := l) hc ha x (.broadcast id)
  rw [State.startWork_empty hx hc hn rfl, State.readGood_broadcast hc' ha', State.readNothing,
    State.beginTransmit_broadcast, State.updCtx_preparing]
  rfl

end

/-- R58, R61, R74, R85: how the work of context `id` starts on line `l`, which stands as `y`, whose buffer holds `buffer`: its
frame is sent at `now`, the context noting it by `f`, when the buffer holds its payload or the payload is empty; otherwise the
payload is read. -/
structure State.StartsWork (s : State) (l : LineNo) (y : Line) (job : Job) (id : Nat) (c : Context) (f : Context → Context)
    (frame : List Byte → List Byte) (buffer : List Byte) (service now : Nat) (sends : Prop) : Prop where
  held : y.txHolds = some id → (s.setLine l y).startWork l job id =
    (s.updCtx id f).setLine l (y.beginFrame job (frame buffer) service now)
  empty : y.txHolds ≠ some id → c.payloadLength = 0 → c.abortRequested = none → sends → (s.setLine l y).startWork l job id =
    (s.updCtx id f).setLine l
      (({ y with txBuffer := [], txHolds := some id, abandoned := false } : Line).beginFrame job (frame []) service now)
  unread : y.txHolds ≠ some id → c.payloadLength ≠ 0 → (s.setLine l y).startWork l job id =
    (s.updCtx id fun c => { c with phase := .preparing }).setLine l (y.reads job)

section
variable {s : State} {l : LineNo} {id now service : Nat} {c : Context} {y : Line} {buffer : List Byte} (hc : s.ctx id = some c)
  (hb : y.txBuffer = buffer) (hn : s.time = now)
  (hv : (if s.lineOffers l then min 255 (y.service + 1) else y.service) = service)
include hc hb hn hv

theorem State.startsWork_command {h : Handle} {st : Station} (origin : Phase) (hst : s.station h = some st)
    (hp : st.paused = false) : s.StartsWork l y (.command id h origin) id c
      (fun c => { c with phase := .attempting, attemptsMade := c.attemptsMade + 1 })
      (fun octets => formFrame st.address .command st.cseq octets) buffer service now (st.state ≠ .closing) where
  held hx := by rw [State.startWork_held hx, State.beginTransmit_command hst, hb, hn, hv]
  empty hx hl ha hs := by rw [State.startWork_command_empty hx hc hl ha hst hs hp, hn, hv]
  unread hx hl := State.startWork_unread hx hc hl

theorem State.startsWork_broadcast : s.StartsWork l y (.broadcast id) id c
    (fun c => { c with phase := .attempting, attemptsMade := 1 }) (fun octets => formFrame 0 .command false octets) buffer
    service now True where
  held hx := by rw [State.startWork_held hx, State.beginTransmit_broadcast, hb, hn, hv]
  empty hx hl ha _ := by rw [State.startWork_broadcast_empty hx hc hl ha, hn, hv]
  unread hx hl := State.startWork_unread hx hc hl

end

/-! ## The engine acts on the choice (R85, R103) -/

/-- R108: the move of a pointer leaves what the start of work reads. -/
theorem Line.movePtr_keeps (x : Line) (k : QueueClass) (i : Fin 65) : (x.movePtr k i).service = x.service ∧
    (x.movePtr k i).txBuffer = x.txBuffer ∧ (x.movePtr k i).txHolds = x.txHolds ∧ (x.movePtr k i).fifo = x.fifo := by
  cases k <;> exact ⟨rfl, rfl, rfl, rfl⟩

section
variable {s : State} {l : LineNo} {h : Handle} {st : Station} {id : Nat} {c : Context}

theorem State.act_probe (hst : s.station h = some st) : s.act l (.probe h) =
    s.setLine l ((s.line l).beginFrame (.probe h) (formFrame st.address .linkReset false []) 0 s.time) := by
  have sent := State.beginTransmit_probe (l := l) hst (s.line l)
  rwa [State.setLine_line_self] at sent

/-- R72, R111: a poll under the reservation granted for it. -/
theorem State.act_poll (hst : s.station h = some st) : s.act l (.poll h) = (s.grantReservation l).setLine l
    ((s.line l).beginFrame (.poll h st.pseq) (formFrame st.address .poll st.pseq []) 0 s.time) := by
  have sent := State.beginTransmit_poll (s := s.grantReservation l) (l := l) hst (s.line l) st.pseq
  rw [show (s.grantReservation l).setLine l (s.line l) = s.grantReservation l from
    (s.grantReservation l).setLine_line_self l] at sent
  simp only [State.act, State.startPoll, hst]
  exact sent

theorem State.act_retry (hc : s.ctx id = some c) (hh : c.exchangeHandle = some h) : s.act l (.retry id) =
    (s.setLine l { s.line l with retryList := (s.line l).retryList.erase id }).startWork l (.command id h .waitingRetry)
      id := by
  simp only [State.act, hc, Option.bind_some, hh]
  rfl

theorem State.act_work_station {k : QueueClass} (hst : s.station h = some st) (hp : st.pending.head? = some id) :
    s.act l (.work k h.val) =
      (s.setLine l ((s.line l).movePtr k h.castSucc)).startWork l (.command id h .queued) id := by
  have hptr : (⟨h.val % 65, Nat.mod_lt _ (by decide)⟩ : Fin 65) = h.castSucc :=
    Fin.ext (Nat.mod_eq_of_lt (Nat.lt_succ_of_lt h.isLt))
  have hhead : ((s.setLine l ((s.line l).movePtr k h.castSucc)).station h).bind (fun st => st.pending.head?) = some id := by
    rw [State.station_setLine, hst]
    exact hp
  simp only [State.act, dif_pos h.isLt, hptr, State.updLine_eq, Fin.eta, State.startHead, hhead]

theorem State.act_work_fifo {k : QueueClass} (hf : (s.line l).fifo.head? = some id) : s.act l (.work k 64) =
    (s.setLine l ((s.line l).movePtr k 64)).startWork l (.broadcast id) id := by
  obtain ⟨-, -, -, hfifo⟩ := (s.line l).movePtr_keeps k 64
  have hhead : ((s.setLine l ((s.line l).movePtr k 64)).line l).fifo.head? = some id := by
    rw [State.line_setLine_same, hfifo, hf]
  show (s.setLine l ((s.line l).movePtr k 64)).startBroadcast l = _
  rw [State.startBroadcast, hhead]

end
end Sys2Proof.Machine

open Sys2Proof Sys2Proof.Machine

/-- Settles O34: the consultation is made exactly when it may be, and by the choice it starts a break, a frame or a read. -/
theorem schedulerChoiceActs : Obligations.SchedulerChoiceActs := by
  intro s l wait x now u v may
  have hnow : s.time ≤ now := Nat.le_add_right ..
  have hline : u.line l = { s.line l with consultDue := false } := State.line_setLine_same ..
  obtain ⟨uservice, ubuffer, uholds⟩ : (u.line l).service = x.service ∧ (u.line l).txBuffer = x.txBuffer ∧
      (u.line l).txHolds = x.txHolds := by
    rw [hline]
    exact ⟨rfl, rfl, rfl⟩
  have hv : v.line l = u.line l := State.line_refusing (s := u)
  have hstation : ∀ h, v.station h = s.station h := State.station_refusing (s := u) (l := l)
  have hctx : ∀ id, v.ctx id = s.ctx id := State.ctx_refusing (s := u) (l := l)
  have hoffers : v.lineOffers l = u.lineOffers l := State.lineOffers_refusing (s := u)
  have acts : may → exec (.schedulerChoice l wait) s = .next (v.act l (u.choose l)).finish := fun hmay => by
    rw [exec_schedulerChoice, runCommand_occurs rfl (by simp [State.live, hmay.1]) ((State.mayChoose_reach_iff hnow).2 hmay)]
    rfl
  have htime : may → u.time = now := fun ⟨_, hrunning, _⟩ => State.time_reach (by rw [hrunning]; decide) hnow
  obtain ⟨-, -, -, vtime⟩ : _ ∧ _ ∧ _ ∧ v.time = u.time := State.refusing_keeps (s := u) (l := l)
  refine ⟨fun hmay => ?_, fun hmay hc => ?_, fun hmay hc => ?_, fun h st hmay hc hst => ?_, fun h st hmay hc hst => ?_,
    fun h st hmay hc hst => ?_, fun id c h st hmay hc hid hh hst => ?_, fun k i h st id c hmay hc hi hst hp hid => ?_,
    fun k id c hmay hc hf hid => ?_⟩
  -- no consultation
  · rw [exec_schedulerChoice]
    exact runCommand_absent rfl (Bool.eq_false_iff.2 fun hchoose => hmay ((State.mayChoose_reach_iff hnow).1 hchoose))
  -- nothing to do
  · rw [acts hmay, hc]
    rfl
  -- a pending line reset
  · refine ⟨_, acts hmay, ?_⟩
    have hu : v = u := State.refusing_early (State.asksInVain_early (.inl hc))
    rw [hu, hc, ← htime hmay]
    exact u.beginsBreak l [] u.time
  -- a probe
  · rw [acts hmay, hc, State.act_probe ((hstation h).trans hst), hv, vtime, htime hmay]
  -- a poll under a granted reservation
  · have hgrant : v.grantReservation l = u.grantReservation l := State.grantReservation_refusing (s := u)
    rw [acts hmay, hc, State.act_poll ((hstation h).trans hst), hv, vtime, hgrant, ← htime hmay]
    rfl
  -- link service
  · have hu : v = u := State.refusing_early (State.asksInVain_early (.inr (.inr ⟨h, hc⟩)))
    have hst' : u.station h = some st := hst
    have chosen : exec (.schedulerChoice l wait) s =
        .next ((u.setLine l { u.line l with linkPtr := h }).beginTransmit l (.link h)).finish := by
      rw [acts hmay, hc, hu]
      rfl
    refine ⟨fun hs => ?_, fun id rest hs hp => ?_⟩
    · rw [chosen, State.beginTransmit_link_new hst' hs, htime hmay, ← uservice]
    · rw [chosen, State.beginTransmit_link_online hst' hs (State.choose_link hc hst' hs) hp, htime hmay, ← uservice]
  -- a retry
  · have hu : v = u := State.refusing_early (State.asksInVain_early (.inr (.inl ⟨id, hc⟩)))
    have hunpaused := u.choose_unpaused l
    rw [hc] at hunpaused
    have hpaused : st.paused = false := (hunpaused h ((congrArg (Option.bind · Context.exchangeHandle) hid).trans hh)).paused hst
    intro y service
    have hservice : y.service = x.service := uservice
    have hholds : y.txHolds = x.txHolds := uholds
    have started := State.startsWork_command (s := u) (y := y) (buffer := x.txBuffer) (service := service) hid ubuffer
      (htime hmay) (by rw [hservice]) .waitingRetry hst hpaused
    have chosen : ∀ t, (u.setLine l y).startWork l (.command id h .waitingRetry) id = t →
        exec (.schedulerChoice l wait) s = .next t.finish := fun t ht => by
      rw [acts hmay, hc, hu, State.act_retry (s := u) (c := c) hid hh, ← ht, show (u.line l).retryList = x.retryList by rw [hline]]
    exact ⟨fun hx => chosen _ (started.held (hholds.trans hx)),
      fun hx hn ha hs => chosen _ (started.empty (hholds.trans_ne hx) hn ha hs),
      fun hx hn => chosen _ (started.unread (hholds.trans_ne hx) hn)⟩
  -- the head exchange of a station
  · subst hi
    have hst' : v.station h = some st := (hstation h).trans hst
    obtain ⟨hservice, hbuffer, hholds, -⟩ := (u.line l).movePtr_keeps k h.castSucc
    have hunpaused := u.choose_unpaused l
    rw [hc] at hunpaused
    have hs : st.state ≠ .closing := by
      rw [State.choose_work hc hst]
      exact StationState.noConfusion
    intro y service
    have started := State.startsWork_command (s := v) (y := y) (buffer := x.txBuffer) (service := service)
      ((hctx id).trans hid) (hbuffer.trans ubuffer) (vtime.trans (htime hmay))
      (by rw [hoffers, show y.service = x.service from hservice.trans uservice]) .queued hst' ((hunpaused h.isLt).paused hst)
    have chosen : ∀ t, (v.setLine l y).startWork l (.command id h .queued) id = t →
        exec (.schedulerChoice l wait) s = .next t.finish := fun t ht => by
      rw [acts hmay, hc, State.act_work_station hst' hp, hv, ← ht]
    exact ⟨fun hx => chosen _ (started.held ((hholds.trans uholds).trans hx)),
      fun hx hn ha => chosen _ (started.empty ((hholds.trans uholds).trans_ne hx) hn ha hs),
      fun hx hn => chosen _ (started.unread ((hholds.trans uholds).trans_ne hx) hn)⟩
  -- the head of the broadcast FIFO
  · obtain ⟨hservice, hbuffer, hholds, -⟩ := (u.line l).movePtr_keeps k 64
    have hfifo : (v.line l).fifo.head? = some id := by
      rw [hv, hline]
      exact hf
    intro y service
    have started := State.startsWork_broadcast (s := v) (l := l) (y := y) (buffer := x.txBuffer) (service := service)
      ((hctx id).trans hid) (hbuffer.trans ubuffer) (vtime.trans (htime hmay))
      (by rw [hoffers, show y.service = x.service from hservice.trans uservice])
    have chosen : ∀ t, (v.setLine l y).startWork l (.broadcast id) id = t →
        exec (.schedulerChoice l wait) s = .next t.finish := fun t ht => by
      rw [acts hmay, hc, State.act_work_fifo hfifo, hv, ← ht]
    exact ⟨fun hx => chosen _ (started.held ((hholds.trans uholds).trans hx)),
      fun hx hn ha => chosen _ (started.empty ((hholds.trans uholds).trans_ne hx) hn ha trivial),
      fun hx hn => chosen _ (started.unread ((hholds.trans uholds).trans_ne hx) hn)⟩
end

section
/-! PROOFS. The detection of a break on an IDLE line, with two contexts of one name (R43, R56, R67, R68, R113; entry 7). The
statement asks for distinct contexts (R56, `State.ContextsDistinct`) only in some of its clauses, and what it says of an IDLE
line is not among them. -/

namespace Sys2Proof.Machine.NamesakeBreak

/-- An exchange of the station at `h`, without a payload. -/
def exchange (id : Nat) (h : Handle) (phase : Phase) : Context :=
  { reservedContext id 0 .normal with kind := some .exchange, body := .exchange h 0 0 0 0, phase := phase }

/-- A station of line 0. -/
def station (state : StationState) (pending : List Nat) : Station :=
  { newStation [] with state := state, pending := pending }

/-- A RUNNING part with a space under way on line 0, whose engine is IDLE and owes no consultation. The name 1 is of two
contexts: of an exchange of the CLOSING station at 0, which the model finds first, and of one in WAITING_RETRY of the ONLINE
station at 1. Two more exchanges of the CLOSING station wait, the first of them unanswered. -/
def part : State :=
  { ((State.reset.setLine 0 { Line.reset with state := .idle, spaceEdge := some 0 }).setStation 0
      (some (station .closing [1, 2, 3]))).setStation 1 (some { station .online [1] with address := 1 }) with
    device := .running
    pool := [exchange 1 0 .queued, { exchange 2 0 .queued with unanswered := true }, exchange 3 0 .queued,
      exchange 1 1 .waitingRetry] }

theorem part_operates : part.Operates := ⟨rfl, DeviceState.noConfusion⟩

theorem line_part : part.line 0 = { Line.reset with state := .idle, spaceEdge := some 0 } :=
  State.line_setLine_same State.reset 0 _

/-- The break ends the exchange found first in place of the one that waits for its retry, its CLOSING station settles, the
unanswered exchange leaves the link UNCERTAIN with another still in the list, and the notice of that reaches the engine while it
is IDLE (R113): a consultation is owed that the entry into GUARD leaves owed. -/
theorem breakDetected_part : ∃ t, exec (.breakDetected 0) part = .next t ∧ (t.line 0).consultDue = true :=
  ⟨part.breakDetected 0, rfl, by decide +kernel⟩

end Sys2Proof.Machine.NamesakeBreak

open Sys2Proof Sys2Proof.Machine

/-- Refutes O46: what it says of an IDLE line, whose owed consultation the break leaves as it was, fails where two contexts have
one name; the end of the exchange in WAITING_RETRY is then the end of its namesake. -/
theorem not_breakReachesTheLine : ¬ Obligations.BreakReachesTheLine := by
  intro h
  have hline := NamesakeBreak.line_part
  obtain ⟨t, ht, -, -, -, -, -, -, -, hidle, -⟩ := h NamesakeBreak.part 0 0 NamesakeBreak.part_operates
    (by rw [hline]; exact ⟨EngineState.noConfusion, EngineState.noConfusion, EngineState.noConfusion⟩)
    (.inl (by rw [hline]; rfl)) (by rw [hline])
  obtain ⟨t', ht', hdue⟩ := NamesakeBreak.breakDetected_part
  obtain rfl : t' = t := Host.Outcome.next.inj (ht'.symm.trans ht)
  obtain ⟨-, -, hlines, -⟩ := hidle (by rw [hline])
  obtain ⟨⟨-, htold⟩, -⟩ := hlines 0
  rw [State.line_setLine_same] at htold
  have hkept := htold EngineState.noConfusion
  rw [hdue, hline] at hkept
  cases hkept
end

section
/-! PROOFS. The choice of a line's scheduler: the first of the eight steps with an eligible candidate, and the candidate at each
step (R40, R103 to R108, R110 to R112). -/

namespace Sys2Proof.Machine

/-! ## The first ready candidate in cyclic order -/

/-- The `a`-th candidate after the pointer `p` stands at the distance `a`. -/
theorem cyclicDistance_at {n p a : Nat} (hp : p < n) (ha : a < n) : ((p + 1 + a) % n + (n - 1) - p) % n = a := by
  rcases Nat.lt_or_ge (p + 1 + a) n with hlt | hge
  · rw [Nat.mod_eq_of_lt hlt, show p + 1 + a + (n - 1) - p = n + a by omega, Nat.add_mod_left, Nat.mod_eq_of_lt ha]
  · have hwrap : (p + 1 + a) % n = p + 1 + a - n := by rw [Nat.mod_eq_sub_mod hge, Nat.mod_eq_of_lt (by omega)]
    rw [hwrap, show p + 1 + a - n + (n - 1) - p = a by omega, Nat.mod_eq_of_lt ha]

/-- The candidate at the distance of `j` after the pointer `p` is `j`. -/
theorem cyclicDistance_reaches {n p j : Nat} (hp : p < n) (hj : j < n) : (p + 1 + (j + (n - 1) - p) % n) % n = j := by
  rw [Nat.add_mod_mod, show p + 1 + (j + (n - 1) - p) = j + n by omega, Nat.add_mod_right, Nat.mod_eq_of_lt hj]

/-- What a cyclic choice among 0..n-1 answers: the ready candidate at the least distance after `p`, or none when no candidate is
ready. -/
def FirstOf (n p : Nat) (ready : Nat → Prop) : Option Nat → Prop
  | some i => i < n ∧ ready i ∧ ∀ j < n, ready j → (i + (n - 1) - p) % n ≤ (j + (n - 1) - p) % n
  | none => ∀ j < n, ¬ ready j

theorem firstAfter_firstOf {n p : Nat} {test : Nat → Bool} {ready : Nat → Prop} (hp : p < n)
    (htest : ∀ i < n, test i = true ↔ ready i) : FirstOf n p ready (firstAfter n p test) := by
  have hmod : ∀ a, a % n < n := fun a => Nat.mod_lt a (by omega)
  have passes : ∀ j < n, ready j → (test ∘ fun i => (p + 1 + i) % n) ((j + (n - 1) - p) % n) = true := fun j hj hready => by
    rw [Function.comp_apply, cyclicDistance_reaches hp hj]
    exact (htest j hj).2 hready
  rw [firstAfter, List.find?_map]
  cases hfind : (List.range n).find? (test ∘ fun i => (p + 1 + i) % n) with
  | none => exact fun j hj hready => List.find?_eq_none.1 hfind _ (List.mem_range.2 (hmod _)) (passes j hj hready)
  | some a =>
    obtain ⟨hready, hmem, hbefore⟩ := List.find?_range_eq_some.1 hfind
    refine ⟨hmod _, (htest _ (hmod _)).1 hready, fun j hj hj' => ?_⟩
    rw [cyclicDistance_at hp (List.mem_range.1 hmem)]
    refine Nat.le_of_not_lt fun hlt => ?_
    have hfails := hbefore _ hlt
    rw [passes j hj hj'] at hfails
    cases hfails

/-! ## The oldest offer -/

/-- R110 to R112: the order of the offers, by due stamp and then by handle. -/
def NotAfter (h : Handle) (t : Nat) (k : Handle) (u : Nat) : Prop := t < u ∨ (t = u ∧ h ≤ k)

/-- What a choice by due stamp answers: the station with the oldest offer, or none when there is no offer. -/
def OldestOf (offers : Handle → Nat → Prop) : Option Handle → Prop
  | some h => ∃ t, offers h t ∧ ∀ k u, offers k u → NotAfter h t k u
  | none => ∀ h t, ¬ offers h t

/-- The oldest of the offers of the stations `hs`, with its stamp. -/
def OldestIn (stamp : Handle → Option Nat) (hs : List Handle) : Option (Handle × Nat) → Prop
  | some (h, t) => h ∈ hs ∧ stamp h = some t ∧ ∀ k ∈ hs, ∀ u, stamp k = some u → NotAfter h t k u
  | none => ∀ k ∈ hs, stamp k = none

/-- A station with a higher handle is compared with the oldest offer so far, which it follows when the stamps are equal. -/
theorem OldestIn.next {stamp : Handle → Option Nat} {hs : List Handle} {best : Option (Handle × Nat)} {h : Handle}
    (hbest : OldestIn stamp hs best) (hlt : ∀ k ∈ hs, k < h) : OldestIn stamp (hs ++ [h]) (olderOffer best h (stamp h)) := by
  have last : h ∈ hs ++ [h] := List.mem_append_right _ (List.mem_singleton.2 rfl)
  have extend : ∀ {P : Handle → Prop}, (∀ k ∈ hs, P k) → P h → ∀ k ∈ hs ++ [h], P k :=
    fun hP hh => List.forall_mem_append.2 ⟨hP, List.forall_mem_singleton.2 hh⟩
  cases ht : stamp h with
  | none =>
    cases best with
    | none => exact extend hbest ht
    | some b =>
      obtain ⟨hb, hstamp, hfirst⟩ := hbest
      exact ⟨List.mem_append_left _ hb, hstamp, extend hfirst fun u hu => by rw [ht] at hu; cases hu⟩
  | some t =>
    have self : ∀ u, stamp h = some u → t = u := fun u hu => Option.some.inj (ht.symm.trans hu)
    cases best with
    | none =>
      exact ⟨last, ht, extend (fun k hk u hu => by rw [hbest k hk] at hu; cases hu) fun u hu => .inr ⟨self u hu, le_rfl⟩⟩
    | some b =>
      obtain ⟨hb, hstamp, hfirst⟩ := hbest
      simp only [olderOffer]
      split
      · next holder =>
        refine ⟨last, ht, extend (fun k hk u hu => .inl ?_) fun u hu => .inr ⟨self u hu, le_rfl⟩⟩
        rcases hfirst k hk u hu with hlater | ⟨hsame, -⟩
        · exact holder.trans hlater
        · exact hsame ▸ holder
      · next hnot =>
        refine ⟨List.mem_append_left _ hb, hstamp, extend hfirst fun u hu => ?_⟩
        rcases Nat.lt_or_eq_of_le (Nat.le_of_not_lt hnot) with hlater | hsame
        · exact .inl (self u hu ▸ hlater)
        · exact .inr ⟨hsame.trans (self u hu), le_of_lt (hlt b.1 hb)⟩

theorem oldestIn_foldl {stamp : Handle → Option Nat} (hs : List Handle) (hsorted : hs.Pairwise (· < ·)) :
    OldestIn stamp hs (hs.foldl (fun best h => olderOffer best h (stamp h)) none) := by
  induction hs using List.reverseRecOn with
  | nil => exact fun k hk => by cases hk
  | append_singleton hs h ih =>
    obtain ⟨hbefore, -, hlt⟩ := List.pairwise_append.1 hsorted
    rw [List.foldl_append]
    exact (ih hbefore).next fun k hk => hlt k hk h (List.mem_singleton.2 rfl)

section
variable {s : State} {l : LineNo}

theorem State.stationOn_iff {h : Handle} {st : Station} :
    s.stationOn l h = some st ↔ s.station h = some st ∧ st.line = l := by
  refine ⟨fun hst => ?_, fun ⟨hst, hl⟩ => ?_⟩
  · have hfound := State.station_of_stationOn hst
    rw [State.stationOn, hfound] at hst
    simp only [Option.ite_none_right_eq_some] at hst
    exact ⟨hfound, hst.1⟩
  · rw [State.stationOn, hst]
    exact if_pos hl

/-- R110 to R112: of the stamps that the stations of the line offer, the oldest is chosen. -/
theorem State.oldest_oldestOf {due : Station → Option Nat} {offers : Handle → Nat → Prop}
    (hoffers : ∀ h t, offers h t ↔ ∃ st, s.stationOn l h = some st ∧ due st = some t) :
    OldestOf offers (s.oldest l due) := by
  have hstamp : ∀ h t, (s.stationOn l h).bind due = some t ↔ offers h t := fun h t => by
    rw [hoffers, Option.bind_eq_some_iff]
  have hall : ∀ h, h ∈ allHandles := List.mem_finRange
  have hold := oldestIn_foldl (stamp := fun h => (s.stationOn l h).bind due) allHandles (List.pairwise_lt_finRange 64)
  rw [State.oldest]
  cases hbest : allHandles.foldl (fun best h => olderOffer best h ((s.stationOn l h).bind due)) none with
  | none =>
    rw [hbest] at hold
    exact fun h t ho => Option.some_ne_none t (((hstamp h t).2 ho).symm.trans (hold h (hall h)))
  | some b =>
    rw [hbest] at hold
    obtain ⟨-, hst, hfirst⟩ := hold
    exact ⟨b.2, (hstamp _ _).1 hst, fun k u hu => hfirst k (hall k) u ((hstamp k u).2 hu)⟩

end

/-! ## The eligible candidates (R40, R105 to R107) -/

/-- The station of `h` is in use and is of line `l`. -/
def State.OnLine (s : State) (l : LineNo) (h : Handle) (st : Station) : Prop := s.station h = some st ∧ st.line = l

/-- R105: a context whose exchange is of a station that is not paused. -/
def State.Retryable (s : State) (id : Nat) : Prop :=
  ∃ c h st, s.ctx id = some c ∧ c.exchangeHandle = some h ∧ s.station h = some st ∧ st.paused = false

/-- R106: a station of the line that needs link service and is not paused. -/
def State.Linkable (s : State) (l : LineNo) (h : Handle) : Prop :=
  ∃ st, s.OnLine l h st ∧ st.paused = false ∧
    (st.state = .new ∨ (st.state = .online ∧ st.link = .uncertain ∧ st.pending ≠ []))

/-- R107: the head of a list is QUEUED and of the class. -/
def State.HeadReady (s : State) (k : QueueClass) (head : Option Nat) : Prop :=
  ∃ id c, head = some id ∧ s.ctx id = some c ∧ c.phase = .queued ∧ c.cls = k

/-- R107: the station `i`, or the broadcast FIFO where `i` is 64, is ready in the class. -/
def State.ReadyIn (s : State) (l : LineNo) (k : QueueClass) (i : Nat) : Prop :=
  (∃ h st id c, h.val = i ∧ s.OnLine l h st ∧ st.state = .online ∧ st.link = .certain ∧ st.paused = false ∧
    st.pending.head? = some id ∧ s.ctx id = some c ∧ c.phase = .queued ∧ c.cls = k) ∨
  (i = 64 ∧ s.HeadReady k (s.line l).fifo.head?)

/-- R40: a poll that the station offers, with its stamp. -/
def State.Polls (s : State) (l : LineNo) (h : Handle) (t : Nat) : Prop :=
  ∃ st, s.OnLine l h st ∧ st.state = .online ∧ st.paused = false ∧ st.pollDue = some t ∧ st.attention = none

/-- R40: a probe that the station offers, with its stamp. -/
def State.Probes (s : State) (l : LineNo) (h : Handle) (t : Nat) : Prop :=
  ∃ st, s.OnLine l h st ∧ st.state = .offline ∧ st.paused = false ∧ st.probeDue = some t

/-- R110: what step 5 considers, polls only when a reservation would be granted. -/
def State.StarvedOffer (s : State) (l : LineNo) (h : Handle) (t : Nat) : Prop :=
  (s.grantable = true ∧ s.Polls l h t) ∨ s.Probes l h t

/-- Step 2 finds no candidate. -/
def State.NoRetry (s : State) (l : LineNo) : Prop := ∀ id ∈ (s.line l).retryList, ¬ s.Retryable id

/-- Step 3 finds no candidate. -/
def State.NoLink (s : State) (l : LineNo) : Prop := ∀ h, ¬ s.Linkable l h

/-- Step 4, or step 6, finds no candidate in the class. -/
def State.NoWork (s : State) (l : LineNo) (k : QueueClass) : Prop := ∀ i, ¬ s.ReadyIn l k i

/-- No station of the line offers a poll. -/
def State.NoPoll (s : State) (l : LineNo) : Prop := ∀ h t, ¬ s.Polls l h t

/-- No station of the line offers a probe. -/
def State.NoProbe (s : State) (l : LineNo) : Prop := ∀ h t, ¬ s.Probes l h t

/-- Steps 1 to 4 find no candidate. -/
structure State.PastUrgent (s : State) (l : LineNo) : Prop where
  reset : (s.line l).resetPending = false
  retry : s.NoRetry l
  link : s.NoLink l
  urgent : s.NoWork l .urgent

theorem Station.needsLink_iff (st : Station) : st.needsLink = true ↔
    st.paused = false ∧ (st.state = .new ∨ (st.state = .online ∧ st.link = .uncertain ∧ st.pending ≠ [])) := by
  simp [Station.needsLink, and_assoc]

theorem Station.pollStamp_iff {st : Station} {t : Nat} : st.pollStamp = some t ↔
    st.state = .online ∧ st.paused = false ∧ st.pollDue = some t ∧ st.attention = none := by
  simp only [Station.pollStamp, Station.offersPoll, Option.ite_none_right_eq_some, Bool.and_eq_true, beq_iff_eq,
    Bool.not_eq_true', Option.isNone_iff_eq_none]
  exact ⟨fun ⟨⟨⟨⟨hs, hp⟩, _⟩, ha⟩, ht⟩ => ⟨hs, hp, ht, ha⟩,
    fun ⟨hs, hp, ht, ha⟩ => ⟨⟨⟨⟨hs, hp⟩, Option.isSome_of_eq_some ht⟩, ha⟩, ht⟩⟩

theorem Station.probeStamp_iff {st : Station} {t : Nat} : st.probeStamp = some t ↔
    st.state = .offline ∧ st.paused = false ∧ st.probeDue = some t := by
  simp only [Station.probeStamp, Station.offersProbe, Option.ite_none_right_eq_some, Bool.and_eq_true, beq_iff_eq,
    Bool.not_eq_true']
  exact ⟨fun ⟨⟨⟨hs, hp⟩, _⟩, ht⟩ => ⟨hs, hp, ht⟩,
    fun ⟨hs, hp, ht⟩ => ⟨⟨⟨hs, hp⟩, Option.isSome_of_eq_some ht⟩, ht⟩⟩

section
variable {s : State} {l : LineNo}

theorem State.headReady_iff {k : QueueClass} {head : Option Nat} :
    ((head.bind s.ctx).any fun c => c.phase == .queued && c.cls == k) = true ↔ s.HeadReady k head := by
  simp only [Option.any_eq_true, Option.bind_eq_some_iff, Bool.and_eq_true, beq_iff_eq, State.HeadReady]
  exact ⟨fun ⟨c, ⟨id, hid, hc⟩, hready⟩ => ⟨id, c, hid, hc, hready⟩,
    fun ⟨id, c, hid, hc, hready⟩ => ⟨c, ⟨id, hid, hc⟩, hready⟩⟩

theorem State.stationReady_iff {k : QueueClass} {st : Station} : s.stationReady k st = true ↔
    st.state = .online ∧ st.link = .certain ∧ st.paused = false ∧ s.HeadReady k st.pending.head? := by
  have hhead : s.stationReady k st = (st.state == .online && st.link == .certain && !st.paused &&
      (st.pending.head?.bind s.ctx).any fun c => c.phase == .queued && c.cls == k) := by
    unfold State.stationReady
    cases st.pending.head?.bind s.ctx <;> rfl
  simp only [hhead, Bool.and_eq_true, State.headReady_iff, beq_iff_eq, Bool.not_eq_true', and_assoc]

theorem State.fifoReady_iff {k : QueueClass} : s.fifoReady l k = true ↔ s.HeadReady k (s.line l).fifo.head? := by
  rw [← State.headReady_iff, State.fifoReady]
  cases (s.line l).fifo.head?.bind s.ctx <;> rfl

theorem State.candidateReady_iff {k : QueueClass} {i : Nat} (hi : i < 65) :
    s.candidateReady l k i = true ↔ s.ReadyIn l k i := by
  unfold State.candidateReady
  split
  · next hlt =>
    have hfifo : i ≠ 64 := by omega
    constructor
    · intro hready
      split at hready
      · next st hst =>
        obtain ⟨hs, hl, hp, id, c, hid, hc⟩ := State.stationReady_iff.1 hready
        exact .inl ⟨⟨i, hlt⟩, st, id, c, rfl, State.stationOn_iff.1 hst, hs, hl, hp, hid, hc⟩
      · cases hready
    · rintro (⟨h, st, id, c, rfl, hst, hs, hl, hp, hid, hc⟩ | ⟨h64, -⟩)
      · rw [State.stationOn_iff.2 hst]
        exact State.stationReady_iff.2 ⟨hs, hl, hp, id, c, hid, hc⟩
      · exact absurd h64 hfifo
  · next hge =>
    rw [State.fifoReady_iff]
    constructor
    · exact fun hready => .inr ⟨by omega, hready⟩
    · rintro (⟨h, -, -, -, rfl, -⟩ | ⟨-, hready⟩)
      · exact absurd h.isLt hge
      · exact hready

theorem State.ReadyIn.lt {k : QueueClass} {i : Nat} (h : s.ReadyIn l k i) : i < 65 := by
  rcases h with ⟨h, -, -, -, rfl, -⟩ | ⟨rfl, -⟩ <;> omega

theorem State.polls_iff {h : Handle} {t : Nat} :
    s.Polls l h t ↔ ∃ st, s.stationOn l h = some st ∧ st.pollStamp = some t := by
  simp only [State.Polls, State.OnLine, State.stationOn_iff, Station.pollStamp_iff]

theorem State.probes_iff {h : Handle} {t : Nat} :
    s.Probes l h t ↔ ∃ st, s.stationOn l h = some st ∧ st.probeStamp = some t := by
  simp only [State.Probes, State.OnLine, State.stationOn_iff, Station.probeStamp_iff]

/-! ## The candidate at each step (R105, R106, R108, R110 to R112) -/

/-- The test that R105 makes of a context of the retry list. -/
def State.retryTest (s : State) (id : Nat) : Bool :=
  (((s.ctx id).bind Context.exchangeHandle).bind s.station).any fun st => !st.paused

theorem State.retryTest_iff {id : Nat} : s.retryTest id = true ↔ s.Retryable id := by
  simp only [State.retryTest, State.Retryable, Option.any_eq_true, Option.bind_eq_some_iff, Bool.not_eq_true']
  exact ⟨fun ⟨st, ⟨h, ⟨c, hc, hh⟩, hst⟩, hp⟩ => ⟨c, h, st, hc, hh, hst, hp⟩,
    fun ⟨c, h, st, hc, hh, hst, hp⟩ => ⟨st, ⟨h, ⟨c, hc, hh⟩, hst⟩, hp⟩⟩

theorem State.retryChoice_eq_find? : s.retryChoice l = (s.line l).retryList.find? s.retryTest := by
  refine congrArg ((s.line l).retryList.find? ·) (funext fun id => ?_)
  unfold State.retryTest
  cases (s.ctx id).bind Context.exchangeHandle with
  | none => rfl
  | some h =>
    dsimp only [Option.bind_some]
    cases s.station h <;> rfl

/-- R105: the first context of the retry list whose station is not paused. -/
theorem State.retryChoice_some {id : Nat} (hc : s.retryChoice l = some id) :
    ∃ before after, (s.line l).retryList = before ++ id :: after ∧ s.Retryable id ∧ ∀ j ∈ before, ¬ s.Retryable j := by
  rw [State.retryChoice_eq_find?, List.find?_eq_some_iff_append] at hc
  obtain ⟨hready, before, after, hlist, hbefore⟩ := hc
  refine ⟨before, after, hlist, State.retryTest_iff.1 hready, fun j hj hr => ?_⟩
  have hfails := hbefore j hj
  rw [State.retryTest_iff.2 hr] at hfails
  cases hfails

theorem State.retryChoice_none (hc : s.retryChoice l = none) : s.NoRetry l := by
  rw [State.retryChoice_eq_find?, List.find?_eq_none] at hc
  exact fun id hid hr => hc id hid (State.retryTest_iff.2 hr)

theorem State.linkChoice_firstOf :
    FirstOf 64 (s.line l).linkPtr.val (fun i => ∃ h : Handle, h.val = i ∧ s.Linkable l h) (s.linkChoice l) := by
  refine firstAfter_firstOf (s.line l).linkPtr.isLt fun i hi => ?_
  rw [dif_pos hi]
  constructor
  · intro hready
    split at hready
    · next st hst => exact ⟨⟨i, hi⟩, rfl, st, State.stationOn_iff.1 hst, st.needsLink_iff.1 hready⟩
    · cases hready
  · rintro ⟨h, rfl, st, hst, hready⟩
    rw [State.stationOn_iff.2 hst]
    exact st.needsLink_iff.2 hready

theorem State.classChoice_firstOf (k : QueueClass) :
    FirstOf 65 ((s.line l).classPtr k).val (s.ReadyIn l k) (s.classChoice l k) :=
  firstAfter_firstOf ((s.line l).classPtr k).isLt fun _ => State.candidateReady_iff

theorem State.linkChoice_none (hc : s.linkChoice l = none) : s.NoLink l := by
  have first := State.linkChoice_firstOf (s := s) (l := l)
  rw [hc] at first
  exact fun h hready => first h.val h.isLt ⟨h, rfl, hready⟩

theorem State.classChoice_none {k : QueueClass} (hc : s.classChoice l k = none) : s.NoWork l k := by
  have first := State.classChoice_firstOf (s := s) (l := l) k
  rw [hc] at first
  exact fun i hready => first i hready.lt hready

theorem State.pollOffered_oldestOf : OldestOf (s.Polls l) (s.pollOffered l) :=
  State.oldest_oldestOf fun _ _ => State.polls_iff

theorem State.probeOffered_oldestOf : OldestOf (s.Probes l) (s.oldest l Station.probeStamp) :=
  State.oldest_oldestOf fun _ _ => State.probes_iff

/-- A station offers a poll or a probe, not both, so the stamp compared at step 5 is the one it offers. -/
theorem Station.starvedStamp_iff {st : Station} {g : Bool} {t : Nat} :
    (if g then st.pollStamp.orElse fun _ => st.probeStamp else st.probeStamp) = some t ↔
      (g = true ∧ st.pollStamp = some t) ∨ st.probeStamp = some t := by
  cases g with
  | false => simp
  | true =>
    cases hpoll : st.pollStamp with
    | none => simp
    | some u =>
      have hprobe : st.probeStamp ≠ some t := fun h => by
        obtain ⟨honline, -⟩ := Station.pollStamp_iff.1 hpoll
        obtain ⟨hoffline, -⟩ := Station.probeStamp_iff.1 h
        rw [honline] at hoffline
        cases hoffline
      simp [hprobe]

theorem State.starvedChoice_oldestOf : OldestOf (s.StarvedOffer l) (s.starvedChoice l) := by
  refine State.oldest_oldestOf fun h t => ?_
  rw [State.StarvedOffer, State.polls_iff, State.probes_iff]
  simp only [Station.starvedStamp_iff]
  constructor
  · rintro (⟨hg, st, hst, ht⟩ | ⟨st, hst, ht⟩)
    · exact ⟨st, hst, .inl ⟨hg, ht⟩⟩
    · exact ⟨st, hst, .inr ht⟩
  · rintro ⟨st, hst, ⟨hg, ht⟩ | ht⟩
    · exact .inl ⟨hg, st, hst, ht⟩
    · exact .inr ⟨st, hst, ht⟩

/-! ## The steps in order (R103) -/

/-- R103 to R112: what a choice says of the state it is made on. -/
def State.ChosenInOrder (s : State) (l : LineNo) : Choice → Prop
  | .reset => (s.line l).resetPending = true
  | .retry id => (s.line l).resetPending = false ∧
      ∃ before after, (s.line l).retryList = before ++ id :: after ∧ s.Retryable id ∧ ∀ j ∈ before, ¬ s.Retryable j
  | .link h => (s.line l).resetPending = false ∧ s.NoRetry l ∧ s.Linkable l h ∧
      ∀ k, s.Linkable l k →
        (h.val + 63 - (s.line l).linkPtr.val) % 64 ≤ (k.val + 63 - (s.line l).linkPtr.val) % 64
  | .work k i => (s.line l).resetPending = false ∧ s.NoRetry l ∧ s.NoLink l ∧ s.ReadyIn l k i ∧
      (∀ j, s.ReadyIn l k j →
        (i + 64 - ((s.line l).classPtr k).val) % 65 ≤ (j + 64 - ((s.line l).classPtr k).val) % 65) ∧
      (k = .normal → s.NoWork l .urgent ∧
        (8 ≤ (s.line l).service → s.NoProbe l ∧ (s.grantable = true → s.NoPoll l)))
  | .poll h => (s.line l).resetPending = false ∧ s.NoRetry l ∧ s.NoLink l ∧ s.NoWork l .urgent ∧ s.grantable = true ∧
      ∃ t, s.Polls l h t ∧ (∀ k u, s.Polls l k u → NotAfter h t k u) ∧
        ((8 ≤ (s.line l).service ∧ ∀ k u, s.Probes l k u → NotAfter h t k u) ∨
          ((s.line l).service < 8 ∧ s.NoWork l .normal))
  | .probe h => (s.line l).resetPending = false ∧ s.NoRetry l ∧ s.NoLink l ∧ s.NoWork l .urgent ∧
      ∃ t, s.Probes l h t ∧ (∀ k u, s.Probes l k u → NotAfter h t k u) ∧
        ((8 ≤ (s.line l).service ∧ (s.grantable = true → ∀ k u, s.Polls l k u → NotAfter h t k u)) ∨
          ((s.line l).service < 8 ∧ s.NoWork l .normal ∧ (s.grantable = true → s.NoPoll l)))
  | .nothing => (s.line l).resetPending = false ∧ s.NoRetry l ∧ s.NoLink l ∧ s.NoWork l .urgent ∧ s.NoWork l .normal ∧
      s.NoProbe l ∧ (s.grantable = true → s.NoPoll l)

/-- R106: step 3 finds a candidate. -/
theorem State.link_chosenInOrder {i : Nat} (hreset : (s.line l).resetPending = false) (hretry : s.NoRetry l)
    (hc : s.linkChoice l = some i) : s.ChosenInOrder l (.link ⟨i % 64, Nat.mod_lt _ (by decide)⟩) := by
  have first := State.linkChoice_firstOf (s := s) (l := l)
  rw [hc] at first
  obtain ⟨hi, ⟨h, rfl, hready⟩, hfirst⟩ := first
  have hsame : (⟨h.val % 64, Nat.mod_lt _ (by decide)⟩ : Handle) = h := Fin.ext (Nat.mod_eq_of_lt hi)
  rw [hsame]
  exact ⟨hreset, hretry, hready, fun k hk => hfirst k.val k.isLt ⟨k, rfl, hk⟩⟩

/-- R107, R108: step 4, or step 6, finds a candidate. -/
theorem State.work_chosenInOrder {k : QueueClass} {i : Nat} (hreset : (s.line l).resetPending = false)
    (hretry : s.NoRetry l) (hlink : s.NoLink l) (hc : s.classChoice l k = some i)
    (hnormal : k = .normal → s.NoWork l .urgent ∧
      (8 ≤ (s.line l).service → s.NoProbe l ∧ (s.grantable = true → s.NoPoll l))) :
    s.ChosenInOrder l (.work k i) := by
  have first := State.classChoice_firstOf (s := s) (l := l) k
  rw [hc] at first
  obtain ⟨-, hready, hfirst⟩ := first
  exact ⟨hreset, hretry, hlink, hready, fun j hj => hfirst j hj.lt hj, hnormal⟩

/-- R110: step 5 finds a candidate, which is polled when it is ONLINE and probed when it is OFFLINE. -/
theorem State.pollOrProbe_chosenInOrder {h : Handle} (past : s.PastUrgent l) (hs : 8 ≤ (s.line l).service)
    (hc : s.starvedChoice l = some h) : s.ChosenInOrder l (s.pollOrProbe h) := by
  have oldest := State.starvedChoice_oldestOf (s := s) (l := l)
  rw [hc] at oldest
  obtain ⟨t, hoffer, hfirst⟩ := oldest
  have probes : ∀ k u, s.Probes l k u → NotAfter h t k u := fun k u hk => hfirst k u (.inr hk)
  have polls : s.grantable = true → ∀ k u, s.Polls l k u → NotAfter h t k u :=
    fun hg k u hk => hfirst k u (.inl ⟨hg, hk⟩)
  rcases hoffer with ⟨hg, hpoll⟩ | hprobe
  · have ⟨st, ⟨hst, _⟩, hstate, _⟩ := hpoll
    have hchoice : s.pollOrProbe h = .poll h := by simp only [State.pollOrProbe, hst, if_pos hstate]
    rw [hchoice]
    exact ⟨past.reset, past.retry, past.link, past.urgent, hg, t, hpoll, polls hg, .inl ⟨hs, probes⟩⟩
  · have ⟨st, ⟨hst, _⟩, hstate, _⟩ := hprobe
    have hchoice : s.pollOrProbe h = .probe h := by simp [State.pollOrProbe, hst, hstate]
    rw [hchoice]
    exact ⟨past.reset, past.retry, past.link, past.urgent, t, hprobe, probes, .inl ⟨hs, polls⟩⟩

/-- R110: step 5 is not taken, or finds no candidate. -/
theorem State.starvedChoice_none (hc : (if s.starved l then s.starvedChoice l else none) = none)
    (hs : 8 ≤ (s.line l).service) : s.NoProbe l ∧ (s.grantable = true → s.NoPoll l) := by
  have oldest := State.starvedChoice_oldestOf (s := s) (l := l)
  rw [if_pos (show s.starved l = true from decide_eq_true hs)] at hc
  rw [hc] at oldest
  exact ⟨fun h t hprobe => oldest h t (.inr hprobe), fun hg h t hpoll => oldest h t (.inl ⟨hg, hpoll⟩)⟩

/-- R111: step 7 finds no candidate. -/
theorem State.pollChoice_none (hc : (if s.grantable then s.pollOffered l else none) = none) :
    s.grantable = true → s.NoPoll l := fun hg => by
  have oldest := State.pollOffered_oldestOf (s := s) (l := l)
  rw [if_pos hg] at hc
  rwa [hc] at oldest

/-- R107, R111, R112: steps 6 to 8, after a step 5 that found no candidate. -/
theorem State.lateChoice_chosenInOrder (past : s.PastUrgent l)
    (hfive : 8 ≤ (s.line l).service → s.NoProbe l ∧ (s.grantable = true → s.NoPoll l)) :
    s.ChosenInOrder l (s.lateChoice l) := by
  unfold State.lateChoice
  split
  · next i hi => exact State.work_chosenInOrder past.reset past.retry past.link hi fun _ => ⟨past.urgent, hfive⟩
  · next hwork =>
    have hnormal := State.classChoice_none hwork
    split
    · next h hpoll =>
      obtain ⟨hg, hpoll⟩ := Option.ite_none_right_eq_some.1 hpoll
      have oldest := State.pollOffered_oldestOf (s := s) (l := l)
      rw [hpoll] at oldest
      obtain ⟨t, hoffer, hfirst⟩ := oldest
      have hbelow : (s.line l).service < 8 := Nat.lt_of_not_le fun hs => (hfive hs).2 hg h t hoffer
      exact ⟨past.reset, past.retry, past.link, past.urgent, hg, t, hoffer, hfirst, .inr ⟨hbelow, hnormal⟩⟩
    · next hpoll =>
      have hpolls := State.pollChoice_none hpoll
      have oldest := State.probeOffered_oldestOf (s := s) (l := l)
      split
      · next h hprobe =>
        rw [hprobe] at oldest
        obtain ⟨t, hoffer, hfirst⟩ := oldest
        have hbelow : (s.line l).service < 8 := Nat.lt_of_not_le fun hs => (hfive hs).1 h t hoffer
        exact ⟨past.reset, past.retry, past.link, past.urgent, t, hoffer, hfirst, .inr ⟨hbelow, hnormal, hpolls⟩⟩
      · next hprobe =>
        rw [hprobe] at oldest
        exact ⟨past.reset, past.retry, past.link, past.urgent, hnormal, oldest, hpolls⟩

/-- R103: the first step with an eligible candidate makes the choice. -/
theorem State.choose_chosenInOrder : s.ChosenInOrder l (s.choose l) := by
  unfold State.choose
  split
  · next hreset => exact hreset
  · next hnot =>
    have hreset : (s.line l).resetPending = false := Bool.eq_false_iff.2 hnot
    split
    · next hid => exact ⟨hreset, State.retryChoice_some hid⟩
    · next hnone =>
      have hretry := State.retryChoice_none hnone
      split
      · next hi => exact State.link_chosenInOrder hreset hretry hi
      · next hnone =>
        have hlink := State.linkChoice_none hnone
        split
        · next hi => exact State.work_chosenInOrder hreset hretry hlink hi fun hk => QueueClass.noConfusion hk
        · next hnone =>
          have past : s.PastUrgent l := ⟨hreset, hretry, hlink, State.classChoice_none hnone⟩
          split
          · next hh =>
            obtain ⟨hs, hh⟩ := Option.ite_none_right_eq_some.1 hh
            exact State.pollOrProbe_chosenInOrder past (of_decide_eq_true hs) hh
          · next hnone => exact State.lateChoice_chosenInOrder past (State.starvedChoice_none hnone)

end

end Sys2Proof.Machine

open Sys2Proof Sys2Proof.Machine

/-- Settles O33, by what each step finds, taken in the order of the choice. -/
theorem schedulerStepsInOrder : Obligations.SchedulerStepsInOrder :=
  fun _ _ => State.choose_chosenInOrder
end

section
/-! PROOFS. What the records that manage stations and lines begin (R18, R43, R45, R93, R95 to R97, R113, R116 to R126). -/

namespace Sys2Proof.Machine

/-! ## The commands -/

section
variable (r : List Byte) (s : State)

theorem exec_addStation : exec (.addStation r) s =
    runRecord (.addStation r) r (fun s id => (s.addStation r).endOk id) s := rfl

theorem exec_removeStation : exec (.removeStation r) s = runRecord (.removeStation r) r
    (fun s id => (s.updStation (recHandle r) fun st => st.enterClosing id).settleClosing (recHandle r)) s := rfl

theorem exec_pauseStation : exec (.pauseStation r) s = runRecord (.pauseStation r) r
    (fun s id => (s.updStation (recHandle r) fun st => { st with paused := true }).endOk id) s := rfl

theorem exec_resumeStation : exec (.resumeStation r) s =
    runRecord (.resumeStation r) r (fun s id => (s.resumeStation (recHandle r)).endOk id) s := rfl

theorem exec_setLineDisable : exec (.setLineDisable r) s =
    runRecord (.setLineDisable r) r (fun s id => (s.disableLine (recLine r)).endOk id) s := rfl

theorem exec_setLineEnable : exec (.setLineEnable r) s =
    runRecord (.setLineEnable r) r (fun s id => s.updLine (recLine r) fun x => x.configure id) s := rfl

theorem exec_quiesceLine : exec (.quiesceLine r) s =
    runRecord (.quiesceLine r) r (fun s id => s.quiesceLine (recLine r) id) s := rfl

theorem exec_resumeLine : exec (.resumeLine r) s =
    runRecord (.resumeLine r) r (fun s id => (s.updLine (recLine r) Line.resume).endOk id) s := rfl

theorem exec_lineReset : exec (.lineReset r) s =
    runRecord (.lineReset r) r (fun s id => s.resetLine (recLine r) id) s := rfl

end

/-- R136: acceptance touches no line. -/
@[simp] theorem State.line_accept (s : State) (rd : RecordRead) (r : List Byte) (l : LineNo) :
    (s.accept rd r).line l = s.line l := rfl

/-- R56: the fields of a record that is taken are those of its kind. -/
theorem State.recordBody_taken {s : State} {r : List Byte} {k : RecordKind} (hv : s.verdict r = none)
    (hk : kindOfCode (recKind r) = some k) : s.recordBody r = bodyOf k r := by
  rw [State.recordBody, hv, hk]

/-! ## ADD_STATION, PAUSE_STATION and RESUME_STATION (R18, R119, R120) -/

/-- R18: the octets of a record in range are the values that the new entry holds. -/
theorem newStation_fields {r : List Byte} (h : fieldsInRange .addStation r = true) :
    (newStation r).line.val = le8 r 5 ∧ (newStation r).address.toNat = le8 r 6 ∧ (newStation r).band.val = le8 r 7 := by
  simp only [fieldsInRange, Bool.and_eq_true, decide_eq_true_eq] at h
  obtain ⟨⟨⟨⟨⟨⟨⟨⟨-, hline⟩, -, haddress⟩, hband⟩, -⟩, -⟩, -⟩, -⟩, -⟩ := h
  refine ⟨Nat.mod_eq_of_lt hline, ?_, Nat.mod_eq_of_lt hband⟩
  rw [newStation, recAddress, BitVec.toNat_ofNat]
  exact Nat.mod_eq_of_lt (by omega)

/-- R120: the flag of a station in use is cleared; where it was set, its line's scheduler is told. -/
theorem State.resumeStation_eq {s : State} {h : Handle} {st : Station} (hst : s.station h = some st) :
    s.resumeStation h =
      if st.paused then (s.setStation h (some { st with paused := false })).notify st.line
      else s.setStation h (some { st with paused := false }) := by
  rw [State.resumeStation, hst]

/-! ## REMOVE_STATION (R43, R45) -/

/-- R45: an attempt to the station `h`, whose entry is `x`, is in progress, or a delivery of it. -/
def State.StationInFlight (s : State) (h : Handle) (x : Station) : Prop :=
  (s.line x.line).attempting h = true ∨ x.attention ≠ none

/-- Ends leave what is in flight in flight. -/
theorem State.Ends.stationInFlight {s t : State} (e : s.Ends t) {h : Handle} {x y : Station} (hline : y.line = x.line)
    (hattention : y.attention = x.attention) : t.StationInFlight h y ↔ s.StationInFlight h x := by
  rw [State.StationInFlight, State.StationInFlight, hline, hattention, e.attempting]

section
variable {s : State} {h : Handle} {x : Station}

/-- R45: a CLOSING entry with an empty list and nothing in flight is free, and its record ends OK. -/
theorem State.tryFree_frees {id : Nat} (hx : s.station h = some x) (hs : x.state = .closing) (hpending : x.pending = [])
    (hf : ¬ s.StationInFlight h x) (hr : x.remover = some id) :
    s.tryFree h = (s.setStation h none).endRecord id .ok .none := by
  rw [State.StationInFlight, not_or, Bool.not_eq_true, not_not] at hf
  simp only [State.tryFree, hx, hs, hpending, hf, and_self, if_true, hr]

/-- R45: an entry with something in flight stays. -/
theorem State.tryFree_inFlight (hx : s.station h = some x) (hf : s.StationInFlight h x) : s.tryFree h = s := by
  simp only [State.tryFree, hx]
  refine if_neg fun ⟨_, _, hattempt, hattention⟩ => ?_
  rcases hf with hf | hf
  · rw [hattempt] at hf
    cases hf
  · exact hf hattention

/-- R45: an entry with a context in its list stays. -/
theorem State.tryFree_listed (hx : s.station h = some x) (hpending : x.pending ≠ []) : s.tryFree h = s := by
  simp only [State.tryFree, hx]
  exact if_neg fun ⟨_, hnil, _⟩ => hpending hnil

/-- R43: the list of an entry waits while one of its contexts is in PREPARING or ATTEMPTING. -/
theorem State.drainClosing_inAttempt (hx : s.station h = some x) {id : Nat} (hid : id ∈ x.pending)
    (hp : s.phaseOf id = some .preparing ∨ s.phaseOf id = some .attempting) : s.drainClosing h = s := by
  have hany : (x.pending.any fun id => s.inAttempt id) = true :=
    List.any_eq_true.2 ⟨id, hid, by simpa [State.inAttempt] using hp⟩
  simp only [State.drainClosing, hx, hany]
  exact if_neg fun ⟨_, hnone⟩ => Bool.noConfusion hnone

/-- R43: with none of its list in PREPARING or ATTEMPTING the list of a CLOSING entry ends CANCELLED. -/
theorem State.drainClosing_ends (hx : s.station h = some x) (hs : x.state = .closing)
    (hp : ∀ id ∈ x.pending, s.phaseOf id ≠ some .preparing ∧ s.phaseOf id ≠ some .attempting) :
    s.drainClosing h = s.endPlains x.pending .cancelled := by
  have hnone : (x.pending.any fun id => s.inAttempt id) = false :=
    List.any_eq_false.2 fun id hid => by simpa [State.inAttempt] using hp id hid
  simp only [State.drainClosing, hx, hs, hnone, and_self, if_true, State.endList_eq hx]

/-- R43, R45: an entry with an empty list has nothing to drain. -/
theorem State.settleClosing_of_empty (hx : s.station h = some x) (hs : x.state = .closing) (hpending : x.pending = []) :
    s.settleClosing h = s.tryFree h := by
  rw [State.settleClosing, State.drainClosing_ends hx hs (by simp [hpending]), hpending]
  rfl

/-- R43: while a context of its list is in PREPARING or ATTEMPTING, list and entry wait. -/
theorem State.settleClosing_inAttempt (hx : s.station h = some x) {id : Nat} (hid : id ∈ x.pending)
    (hp : s.phaseOf id = some .preparing ∨ s.phaseOf id = some .attempting) : s.settleClosing h = s := by
  rw [State.settleClosing, State.drainClosing_inAttempt hx hid hp, State.tryFree_listed hx (List.ne_nil_of_mem hid)]

/-- R70: the end of an exchange, of whatever station, changes at most the list and the link of an entry, and frees none. -/
theorem State.station_endPlain_inUse (hx : s.station h = some x) (id : Nat) (st : Status) :
    ∃ pending link, (s.endPlain id st).station h = some { x with pending := pending, link := link } := by
  unfold State.endPlain State.endOne
  cases hc : s.ctx id with
  | none => exact ⟨x.pending, x.link, hx⟩
  | some c =>
    simp only
    split
    · exact ⟨x.pending, x.link, hx⟩
    · have left : ∃ pending, (s.leaveLists c).station h = some { x with pending := pending } := by
        by_cases hh : c.exchangeHandle = some h
        · exact ⟨_, State.station_leaveLists hh hx⟩
        · exact ⟨x.pending, (State.station_leaveLists_ne hh).trans hx⟩
      obtain ⟨pending, hleft⟩ := left
      obtain ⟨link, hmarked⟩ := State.station_markUncertain c st hleft
      refine ⟨pending, link, ?_⟩
      rw [State.station, State.stations_hand]
      exact hmarked

theorem State.station_endPlains_inUse (hx : s.station h = some x) (ids : List Nat) (st : Status) :
    ∃ pending link, (s.endPlains ids st).station h = some { x with pending := pending, link := link } := by
  induction ids generalizing s x with
  | nil => exact ⟨x.pending, x.link, hx⟩
  | cons id rest ih =>
    obtain ⟨pending, link, hfirst⟩ := State.station_endPlain_inUse hx id st
    obtain ⟨pending', link', hrest⟩ := ih hfirst
    exact ⟨pending', link', hrest⟩

/-- R43, R45: with something in flight the list ends and the entry stays. -/
theorem State.settleClosing_inFlight (hx : s.station h = some x) (hs : x.state = .closing)
    (hp : ∀ id ∈ x.pending, s.phaseOf id ≠ some .preparing ∧ s.phaseOf id ≠ some .attempting)
    (hf : s.StationInFlight h x) : s.settleClosing h = s.endPlains x.pending .cancelled := by
  obtain ⟨pending, link, hy⟩ := State.station_endPlains_inUse hx x.pending .cancelled
  rw [State.settleClosing, State.drainClosing_ends hx hs hp, State.tryFree_inFlight hy]
  exact (State.ends_endPlains.stationInFlight rfl rfl).2 hf

/-- An entry in use stays in use at the end of the step, in its state. -/
theorem State.station_finish_inUse (hx : s.station h = some x) :
    ∃ y, s.finish.station h = some y ∧ y.state = x.state := by
  have hentry := ((s.sameButWriters_iff _).1 s.writers_finish).2.2.2 h
  rw [hx] at hentry
  cases hy : s.finish.station h with
  | none =>
    rw [hy] at hentry
    exact hentry.elim
  | some y =>
    rw [hy] at hentry
    have hsame : x.SameButReport y := hentry
    exact ⟨y, rfl, by rw [hsame]⟩

end

/-- R43: an exchange whose end is open and that is in no attempt waits. -/
theorem Context.waitsFor_of {c : Context} {h : Handle} (hh : c.exchangeHandle = some h) (hp : c.phase ≠ .ending)
    (hn : c.phase ≠ .preparing ∧ c.phase ≠ .attempting) : c.WaitsFor h := by
  refine ⟨hh, ?_⟩
  cases hc : c.phase <;> simp_all

/-! ## SET_LINE, QUIESCE_LINE and LINE_RESET (R93, R95, R97, R121, R122, R124, R126) -/

/-- R63: a reply write is under way exactly while the receive buffer holds a REPLY. -/
theorem Line.replying_iff (x : Line) : x.replying = true ↔ ∃ id octets, x.rxBuffer = some (.reply id octets) := by
  unfold Line.replying
  split <;> simp_all

/-- R122: the outstanding SET_LINE and the begin of its table read. -/
theorem Line.configure_eq (x : Line) (id : Nat) : x.configure id =
    if x.replying then { x with setLine := some id }
    else { x with setLine := some id, bandReading := true, txHolds := none } := rfl

/-- R93, R113: the record in the list of the pending line reset, and the notice. -/
theorem Line.deferReset_eq (x : Line) (id : Nat) : x.deferReset id =
    { x with
      resetPending := true, resetRecords := x.resetRecords ++ [id]
      consultDue := if x.state = .idle then true else x.consultDue } := by
  unfold Line.deferReset Line.noticed
  split <;> rfl

section
variable {s : State} {l : LineNo} {id : Nat}

/-- R124: an IDLE engine enters QUIESCED at once. -/
theorem State.quiesceLine_idle (hs : (s.line l).state = .idle) : s.quiesceLine l id =
    (s.setLine l { s.line l with quiesce := true, state := .quiesced }).endRecord id .ok .none := by
  simp [State.quiesceLine, hs, State.endOk]

/-- R124: in GUARD and QUIESCED the record ends at once. -/
theorem State.quiesceLine_resting (hs : (s.line l).state = .guard ∨ (s.line l).state = .quiesced) : s.quiesceLine l id =
    (s.setLine l { s.line l with quiesce := true }).endRecord id .ok .none := by
  rcases hs with hs | hs <;> simp [State.quiesceLine, hs, State.endOk]

/-- R95: in an attempt or a break the record waits. -/
theorem State.quiesceLine_busy (hs : (s.line l).state.busy = true) : s.quiesceLine l id =
    s.setLine l { s.line l with quiesce := true, quiescers := (s.line l).quiescers ++ [id] } := by
  cases hx : (s.line l).state <;> simp [EngineState.busy, hx] at hs <;> simp [State.quiesceLine, hx]

/-- R93: an engine in IDLE, GUARD or QUIESCED of a RUNNING part begins the break at once. -/
theorem State.resetLine_now
    (hs : (s.line l).state = .idle ∨ (s.line l).state = .guard ∨ (s.line l).state = .quiesced)
    (hd : s.device = .running) : s.resetLine l id = s.enterBreakOut l [id] s.time := by
  rcases hs with hs | hs | hs <;> simp only [State.resetLine, hs, hd, if_true]

/-- R93: a part that is not RUNNING, or an attempt, defers the break. -/
theorem State.resetLine_deferred
    (hs : (((s.line l).state = .idle ∨ (s.line l).state = .guard ∨ (s.line l).state = .quiesced) ∧ s.device ≠ .running) ∨
      (s.line l).state = .preparing ∨ (s.line l).state = .transmit ∨ (s.line l).state = .await ∨
        (s.line l).state = .receive) :
    s.resetLine l id = s.setLine l ((s.line l).deferReset id) := by
  rcases hs with ⟨hs | hs | hs, hd⟩ | hs | hs | hs | hs
  all_goals simp only [State.resetLine, hs, State.updLine_eq]
  all_goals exact if_neg hd

/-- R126: the record is bound to the break in progress. -/
theorem State.resetLine_breakOut (hs : (s.line l).state = .breakOut) : s.resetLine l id =
    s.setLine l { s.line l with boundResets := (s.line l).boundResets ++ [id] } := by
  simp only [State.resetLine, hs, State.updLine_eq]

end

end Sys2Proof.Machine

open Sys2Proof Sys2Proof.Machine

/-- Settles O23, by whether the list is empty and whether any of it is in an attempt: what `State.settleClosing` does in each. -/
theorem stationRemoved : Obligations.StationRemoved := by
  intro s r rd st ht hst u closing inFlight
  have ⟨_, _, _, _, hwell, hverdict⟩ := ht
  let w := u.setStation (recHandle r) (some closing)
  have hw : w.station (recHandle r) = some closing := State.station_setStation_same ..
  have hflight : w.StationInFlight (recHandle r) closing ↔ inFlight := Iff.rfl
  have hexec : exec (.removeStation r) s = .next (w.settleClosing (recHandle r)).finish := by
    have hclosing : u.updStation (recHandle r) (fun x => x.enterClosing rd.ctx) = w := by
      rw [State.updStation_eq, State.station_accept, hst]
      rfl
    rw [exec_removeStation, runRecord_taken ht, hclosing]
  rw [hexec]
  refine ⟨fun hpending hf => ?_, fun hpending hf => ?_, fun ⟨id, hid, hp⟩ => ?_, fun hne hp => ?_⟩
  · rw [State.settleClosing_of_empty hw rfl hpending, State.tryFree_frees hw rfl hpending hf rfl]
  · rw [State.settleClosing_of_empty hw rfl hpending, State.tryFree_inFlight hw hf]
  · rw [State.settleClosing_inAttempt hw hid hp]
  · refine ⟨_, rfl, State.sameButEnds_finish (State.ends_settleClosing ..), fun hf => ?_,
      fun _ hnodup => ⟨fun id hid c hc hlive hh => ?_, fun x hf hx hopen hall => ?_⟩⟩
    · rw [State.settleClosing_inFlight hw rfl hp hf]
      obtain ⟨pending, link, hy⟩ := State.station_endPlains_inUse hw st.pending .cancelled
      refine ⟨State.station_finish_inUse hy, fun hnot => ?_⟩
      rw [State.ctx_finish, State.ctx_endPlains_of_not_mem hnot, State.ctx_setStation]
    · rw [State.settleClosing, State.drainClosing_ends hw rfl hp]
      have handed : (w.endPlains st.pending .cancelled).Handed id .cancelled c.failureDetail :=
        State.handed_endPlains hid hc (Context.live_of_exchange hlive hh)
      exact (handed.tells (State.tells_tryFree ..)).reports
    · have hwait : ∀ id ∈ st.pending, ∃ c, w.ctx id = some c ∧ c.WaitsFor (recHandle r) := fun id hid => by
        obtain ⟨c, hc, hlive, hh⟩ := hall id hid
        exact ⟨c, hc, Context.waitsFor_of hh hlive (by simpa [State.phaseOf, hc] using hp id hid)⟩
      have hrecord : w.ctx rd.ctx = some (x.accept r (s.recordBody r)) := State.ctx_accept hx hopen r
      have hbody : s.recordBody r = .station (recHandle r) :=
        State.recordBody_taken (k := .removeStation) hverdict (by rw [recordOf_kind hwell]; rfl)
      have hnot : rd.ctx ∉ st.pending := fun hid => by
        obtain ⟨c, hc, hwaits⟩ := hwait _ hid
        obtain rfl := Option.some.inj (hrecord.symm.trans hc)
        have hh := hwaits.1
        rw [hbody] at hh
        cases hh
      obtain ⟨hattempt, hattention⟩ := not_or.1 hf
      obtain ⟨-, hfreed⟩ := State.settleClosing_settles hw rfl hnodup hwait (Bool.not_eq_true _ ▸ hattempt)
      obtain ⟨hnone, hreports⟩ := hfreed (not_not.1 hattention)
      exact ⟨State.station_finish_none hnone, (hreports rd.ctx _ rfl hnot hrecord (x.live_accept r s)).reports⟩

/-- Settles O27, by the engine state: the break begun at once is the part's own (`State.beginsBreak`). -/
theorem lineResetBound : Obligations.LineResetBound := by
  intro s r rd ht l x idle
  rw [exec_lineReset, runRecord_taken ht]
  refine ⟨fun hs hd => ⟨_, rfl, ?_⟩, fun hs => ?_, fun hs => ?_⟩
  · have hnow := State.resetLine_now (s := s.accept rd r) (l := l) (id := rd.ctx) hs hd
    rw [hnow]
    exact State.beginsBreak (s.accept rd r) l [rd.ctx] s.time
  · rw [State.resetLine_deferred (s := s.accept rd r) hs, Line.deferReset_eq]
    rfl
  · rw [State.resetLine_breakOut (s := s.accept rd r) hs]
    rfl

/-- Settles O22: the entry is `newStation r`. -/
theorem stationTakenIntoUse : Obligations.StationTakenIntoUse := by
  intro s r rd ht
  have ⟨_, _, _, _, hwell, hverdict⟩ := ht
  obtain ⟨hrange, -⟩ := State.verdict_of_recordOf hverdict hwell (k := .addStation) rfl
  obtain ⟨hline, haddress, hband⟩ := newStation_fields hrange
  refine ⟨newStation r, ?_, hline, haddress, hband, ?_⟩
  · rw [exec_addStation, runRecord_taken ht]
    rfl
  · simp [newStation]

/-- Settles O24, by the kind of record, and for a resumption by the paused flag. -/
theorem stationPausedAndResumed : Obligations.StationPausedAndResumed := by
  intro s r rd st hst
  have hst' : (s.accept rd r).station (recHandle r) = some st := hst
  refine ⟨fun ht => ?_, fun ht => ⟨fun hp => ?_, fun hp => ?_⟩⟩
  · rw [exec_pauseStation, runRecord_taken ht, State.updStation_eq, hst']
    rfl
  · rw [exec_resumeStation, runRecord_taken ht, State.resumeStation_eq hst', if_pos hp]
    rfl
  · have hsame : ({ st with paused := false } : Station) = st := by rw [← hp]
    rw [exec_resumeStation, runRecord_taken ht, State.resumeStation_eq hst', if_neg (by simp [hp]), hsame]
    rfl

/-- Settles O25, by the engine state (R121) and by whether a reply write is under way (R122). -/
theorem setLineTaken : Obligations.SetLineTaken := by
  intro s r rd l x
  refine ⟨fun ht => ?_, fun ht => ?_⟩
  · rw [exec_setLineDisable, runRecord_taken ht, State.disableLine]
    refine ⟨fun hs => ?_, fun hs => ?_⟩
    · rw [if_neg (by rw [State.line_accept, show (s.line (recLine r)).state = .disabled from hs]; exact EngineState.noConfusion)]
      rfl
    · rw [if_pos (by rw [State.line_accept]; exact hs)]
      rfl
  · rw [exec_setLineEnable, runRecord_taken ht, State.updLine_eq, Line.configure_eq, State.line_accept]
    refine ⟨fun hreply => ?_, fun hfree => ?_⟩
    · rw [if_pos ((Line.replying_iff _).2 hreply)]
    · rw [if_neg fun hr => ?_]
      obtain ⟨id, octets, hreply⟩ := (Line.replying_iff _).1 hr
      exact hfree id octets hreply

/-- Settles O26, by the engine state; R115 has a taken RESUME_LINE find the engine QUIESCED. -/
theorem lineQuiescedAndResumed : Obligations.LineQuiescedAndResumed := by
  refine ⟨fun s r rd ht => ?_, fun s r rd ht => ⟨?_, ?_⟩⟩
  · intro l x
    rw [exec_quiesceLine, runRecord_taken ht]
    refine ⟨fun hs => ?_, fun hs => ?_, fun hs => ?_⟩
    · rw [State.quiesceLine_idle (s := s.accept rd r) hs]
      rfl
    · rw [State.quiesceLine_resting (s := s.accept rd r) hs]
      rfl
    · have hbusy : x.state.busy = true := by rcases hs with hs | hs | hs | hs | hs <;> rw [hs] <;> rfl
      rw [State.quiesceLine_busy (s := s.accept rd r) hbusy]
      rfl
  · have ⟨_, _, _, _, hwell, hverdict⟩ := ht
    obtain ⟨-, hcheck⟩ := State.verdict_of_recordOf hverdict hwell (k := .resumeLine) rfl
    have hpermits := State.checkLine_taken hcheck
    exact beq_iff_eq.1 hpermits
  · rw [exec_resumeLine, runRecord_taken ht]
    rfl
end

section
/-! PROOFS. The end of a band table read (R49, R97, R122, R123; entries 20, 37). -/

namespace Sys2Proof.Machine

/-! ## The order of completions and the rest of the state under an end -/

/-- R144: what follows in the same step joins the order of completions at its tail. -/
theorem State.Tells.completionOrder {s t : State} (e : s.Tells t) :
    ∃ rest, t.completionOrder = s.completionOrder ++ rest := by
  obtain ⟨more, hmore⟩ := e.handed
  exact ⟨more.map (·.ctx), by simp [State.completionOrder, hmore, e.write]⟩

/-- R144: the end of a record moves neither the device state nor the time. -/
theorem State.endRecord_rest (s : State) (id : Nat) (st : Status) (d : Detail) :
    (s.endRecord id st d).device = s.device ∧ (s.endRecord id st d).time = s.time := by
  have hrest := (s.ends_endRecord id st d).rest
  exact ⟨by rw [hrest], by rw [hrest]⟩

/-! ## The command -/

theorem read64_good {b : List Byte} (h : b.length = 64) : read64 (.good b) = true := beq_iff_eq.2 h

section
variable {s : State} {l : LineNo} {id : Nat}

theorem exec_bandTableReadEnd (l : LineNo) (result : BusRead) (s : State) : exec (.bandTableReadEnd l result) s =
    runCommand (.bandTableReadEnd l result) (s.operating && (s.line l).bandReading && (s.line l).setLine.isSome)
      (fun s => s.tableReadEnds l result) s := rfl

/-- R123: the table read of the outstanding SET_LINE ends. -/
theorem exec_bandTableReadEnd_outstanding (ho : s.Operates) (hr : (s.line l).bandReading = true)
    (hid : (s.line l).setLine = some id) {result : BusRead} (hw : read64 result = true) :
    exec (.bandTableReadEnd l result) s = .next (s.tableReadEnds l result) := by
  rw [exec_bandTableReadEnd]
  exact runCommand_occurs hw ho.live (by simp [ho.operating, hr, hid])

theorem State.tableReadEnds_error (hid : (s.line l).setLine = some id) :
    s.tableReadEnds l .error = (s.tableFails l id .hostReadError .bandTableRead).finish := by
  rw [State.tableReadEnds, hid]

theorem State.tableReadEnds_invalid (hid : (s.line l).setLine = some id) {b : List Byte} (hb : bandBlockValid b = false) :
    s.tableReadEnds l (.good b) = (s.tableFails l id .badRecord .bandTableInvalid).finish := by
  simp only [State.tableReadEnds, hid, hb]
  rfl

/-- R49, R123: a valid table is installed with the hysteresis and the rate of the record. -/
theorem State.tableReadEnds_valid (hid : (s.line l).setLine = some id) {c : Context} (hc : s.ctx id = some c)
    {m : LineNo} {enable : Bool} {rate : Fin 8} {hysteresis : Nat} {a : Word}
    (hbody : c.body = .setLine m enable rate hysteresis a) {b : List Byte} (hb : bandBlockValid b = true) :
    s.tableReadEnds l (.good b) = (s.installTable l id b hysteresis rate).finish := by
  have hfields : s.setLineFields id = (hysteresis, rate) := by rw [State.setLineFields, hc]; simp only [hbody]
  simp only [State.tableReadEnds, hid, hb, hfields, if_true]

/-- R122: the read reads at the address of the outstanding record. -/
theorem State.tableReadAt_eq (hid : (s.line l).setLine = some id) {c : Context} (hc : s.ctx id = some c)
    {m : LineNo} {enable : Bool} {rate : Fin 8} {hysteresis : Nat} {a : Word}
    (hbody : c.body = .setLine m enable rate hysteresis a) : s.tableReadAt l = some a := by
  rw [State.tableReadAt, hid, Option.bind_some, hc, Option.bind_some]
  simp only [hbody]

/-! ## The installation (R49, R97) -/

/-- The table is installed on the line, and the record has ended OK (entry 20). -/
def State.installed (s : State) (l : LineNo) (id : Nat) (b : List Byte) (hysteresis : Nat) (rate : Fin 8) : State :=
  (s.setLine l ((s.line l).install (bandTableOf b) hysteresis rate s.time)).endRecord id .ok .none

variable {b : List Byte} {hysteresis : Nat} {rate : Fin 8}

theorem State.line_installed : (s.installed l id b hysteresis rate).line l =
    (s.line l).install (bandTableOf b) hysteresis rate s.time := by
  rw [State.installed, State.line_endRecord, State.line_setLine_same]

theorem State.installed_rest : (s.installed l id b hysteresis rate).device = s.device ∧
    (s.installed l id b hysteresis rate).time = s.time := State.endRecord_rest ..

/-- R97: on a line that is not DISABLED the character being received is discarded. -/
theorem State.installTable_enabled (hs : (s.line l).state ≠ .disabled) : s.installTable l id b hysteresis rate =
    (s.installed l id b hysteresis rate).setLine l ((s.line l).install (bandTableOf b) hysteresis rate s.time).dropCharacter := by
  rw [← State.line_installed (id := id)]
  exact if_neg hs

theorem State.installTable_disabled (hs : (s.line l).state = .disabled) : s.installTable l id b hysteresis rate =
    (s.installed l id b hysteresis rate).enableLine l := if_pos hs

/-- R97: a DISABLED line of a part that is not RUNNING enters GUARD with a line reset pending. -/
theorem State.enableLine_guard (hd : s.device ≠ .running) : s.enableLine l = s.setLine l
    { (s.line l).startReceiver s.time with state := .guard, guardSince := s.time, resetPending := true } := by
  simp only [State.enableLine, State.updLine_eq, State.setLine_device, State.setLine_time, State.line_setLine_same,
    State.setLine_setLine, if_neg hd]

/-- R97: a DISABLED line of a RUNNING part begins its break. -/
theorem State.enableLine_break (hd : s.device = .running) : s.enableLine l =
    (s.setLine l ((s.line l).startReceiver s.time)).enterBreakOut l [] s.time := if_pos hd

/-- R144: the record that ended OK with the installation comes first among the completions of the step (entry 20). -/
theorem State.reports_installed {c : Context} (hc : s.ctx id = some c) (hl : c.Live) {t : State}
    (e : (s.installed l id b hysteresis rate).Tells t) :
    t.finish.Reports id .ok .none ∧ ∃ rest, t.finish.completionOrder = s.completionOrder ++ id :: rest := by
  refine ⟨State.reports_finish (State.handed_endRecord (s.setLine l _) id .ok .none hc hl) e, ?_⟩
  obtain ⟨rest, hrest⟩ := e.completionOrder
  have hfirst : (s.installed l id b hysteresis rate).completionOrder = s.completionOrder ++ [id] :=
    State.completionOrder_endRecord (s := s.setLine l _) hc hl
  exact ⟨rest, by rw [State.completionOrder_finish, hrest, hfirst, List.append_assoc]; rfl⟩

end

end Sys2Proof.Machine

open Sys2Proof Sys2Proof.Machine

/-- Settles O31, by how the read ends; a valid table is installed, and the line's state decides what follows (R97). -/
theorem bandTableReadEnds : Obligations.BandTableReadEnds := by
  intro s l id c hysteresis rate enable a ho hr hid hc hbody x ended
  refine ⟨State.tableReadAt_eq hid hc hbody, ?_, fun b hlen hb => ?_, fun b hlen hb => ?_⟩
  · rw [exec_bandTableReadEnd_outstanding ho hr hid rfl, State.tableReadEnds_error hid]
    rfl
  · rw [exec_bandTableReadEnd_outstanding ho hr hid (read64_good hlen), State.tableReadEnds_invalid hid hb]
    rfl
  · intro on
    rw [exec_bandTableReadEnd_outstanding ho hr hid (read64_good hlen), State.tableReadEnds_valid hid hc hbody hb]
    obtain ⟨hdevice, htime⟩ := State.installed_rest (s := s) (l := l) (id := id) (b := b) (hysteresis := hysteresis) (rate := rate)
    have hline := State.line_installed (s := s) (l := l) (id := id) (b := b) (hysteresis := hysteresis) (rate := rate)
    refine ⟨fun hs => ?_, fun hs => ?_⟩
    · rw [State.installTable_enabled hs]
      rfl
    · intro up
      rw [State.installTable_disabled hs]
      refine ⟨fun hd => ?_, fun hd => ⟨_, rfl, ?_⟩⟩
      · rw [State.enableLine_guard (hdevice.trans_ne hd), hline, htime]
        rfl
      · rw [State.enableLine_break (hdevice.trans hd), hline, htime]
        refine ⟨State.beginsBreak _ l [] s.time, fun hp => ?_⟩
        have hlive : c.Live := ⟨hp, by rw [hbody]; exact Body.noConfusion⟩
        exact State.reports_installed hc hlive (State.Tells.after (State.tells_enterBreakOut ..) (.same rfl rfl rfl))
end

section
/-! PROOFS. Submission queues: POST writes, the fetch arbiter's choice, and a record read in error (R130 to R137, R142, R162;
entries 5, 24, 30). -/

namespace Sys2Proof.Machine

/-! ## POST writes (R130 to R133, R162) -/

/-- R130, R146, R162: the device states in which register writes to the rings are taken. -/
theorem DeviceState.started_iff (d : DeviceState) : d.started = true ↔ d = .running ∨ d = .halting ∨ d = .halted := by
  cases d <;> simp [DeviceState.started]

/-- R151: an ignored write sets REJECTED and changes nothing else. -/
theorem State.rejects_reject (s : State) : s.Rejects s.reject := rfl

theorem State.live_of_resetHeld {s : State} (h : s.resetHeld = false) : s.live = true := by
  rw [State.live, h]
  rfl

/-- Section 11.1: bits 1..0 of a POST write name the queue. -/
theorem postQueue_eq {v : Word} {k : QueueNo} (h : v.toNat % 4 = k.val) : postQueue v = k := Fin.ext h

/-- R131: a tail inside the ring is recorded. -/
theorem Queue.postTail_inside {q : Queue} {tail : Nat} (h : tail < q.size) : q.postTail tail = { q with tail := tail } :=
  if_pos h

/-- R131: a tail outside the ring stops the queue. -/
theorem Queue.postTail_outside {q : Queue} {tail : Nat} (h : q.size ≤ tail) : q.postTail tail = q.stopBadTail :=
  if_neg (Nat.not_lt.2 h)

/-- R133: without a read in progress the report of a queue that stops is pending at once. -/
theorem Queue.stopBadTail_reports {q : Queue} (h : q.fetching = false) : q.stopBadTail =
    { q with state := .stopped, stopCause := some .badTail, report := some { cause := .badTail, head := q.head } } := by
  simp [Queue.stopBadTail, h]

/-- R133: the report waits for the end of a read in progress. -/
theorem Queue.stopBadTail_waits {q : Queue} (h : q.fetching = true) : q.stopBadTail =
    { q with state := .stopped, stopCause := some .badTail } := by
  simp [Queue.stopBadTail, h]

section
variable {s : State} {v : Word} {k : QueueNo} {tail : Nat}

/-- R142: a tail that is recorded tells the fetch arbiter. -/
theorem State.postedTail_inside (h : tail < (s.queue k).size) :
    s.postedTail k tail = { s with
      queues := s.queues.set k { s.queue k with tail := tail }, fetchDue := s.fetchDue || s.reading.isNone } := by
  have posts : s.postedTail k tail = (s.updQueue k fun q => q.postTail tail).tellArbiter := if_pos h
  rw [posts, State.updQueue, Queue.postTail_inside h]
  rfl

theorem State.postedTail_outside (h : (s.queue k).size ≤ tail) :
    s.postedTail k tail = { s with queues := s.queues.set k (s.queue k).stopBadTail } := by
  have posts : s.postedTail k tail = s.updQueue k fun q => q.postTail tail := if_neg (Nat.not_lt.2 h)
  rw [posts, State.updQueue, Queue.postTail_outside h]

theorem exec_postTail (v : Word) (s : State) : exec (.postTail v) s =
    runCommand (.postTail v) true (fun s => s.postTail v) s := rfl

theorem exec_postRestart (v : Word) (s : State) : exec (.postRestart v) s =
    runCommand (.postRestart v) true (fun s => s.postRestart v) s := rfl

/-- Section 11.1: the restart bit tells the two commands apart. -/
theorem wellFormed_postTail (hv : v.getLsbD 2 = false) : (Instr.postTail v).wellFormed = true := by
  rw [Instr.wellFormed, hv]
  rfl

theorem wellFormed_postRestart (hv : v.getLsbD 2 = true) : (Instr.postRestart v).wellFormed = true := hv

/-- R130, R131: a POST write with restart 0 is taken for an ACTIVE queue of a started part. -/
theorem State.postTail_eq (hk : v.toNat % 4 = k.val) : s.postTail v =
    if s.device.started = true ∧ (s.queue k).state = .active then (s.postedTail k (v.toNat / 65536)).finish
    else s.reject := by
  rw [State.postTail, postQueue_eq hk]
  rfl

/-- R130, R132: one with restart 1, for a STOPPED queue without a read in progress. -/
theorem State.postRestart_eq (hk : v.toNat % 4 = k.val) : s.postRestart v =
    if s.device.started = true ∧ (s.queue k).state = .stopped ∧ (s.queue k).fetching = false then
      (s.updQueue k Queue.restart).tellArbiter
    else s.reject := by
  rw [State.postRestart, postQueue_eq hk]

end

/-! ## Record reads in error (R133, R137) -/

/-- R138: a read in progress can end while the device is RUNNING or HALTING. -/
theorem State.readInProgress_of {s : State} {rd : RecordRead} (hd : s.device = .running ∨ s.device = .halting)
    (hr : s.reading = some rd) : s.readInProgress = true := by
  rcases hd with hd | hd <;> simp [State.readInProgress, hd, hr]

theorem exec_recordReadError (s : State) : exec .recordReadError s =
    runCommand .recordReadError s.readInProgress (fun s => s.readFails.finish) s := rfl

/-- R137: what the error of the read `rd` does. -/
theorem State.readFails_eq {s : State} {rd : RecordRead} (hr : s.reading = some rd) : s.readFails =
    { s.updQueue rd.queue Queue.readFails with
      reading := none
      fetchDue := true
      pool := s.pool.filter fun c => c.id != rd.ctx } := by
  rw [State.readFails, hr]

/-! ## The context that is reserved (R135; entry 5) -/

/-- The context taken is the lowest without a namesake in use. -/
theorem State.freeCtx_eq_some_iff {s : State} {i : Nat} : s.freeCtx = some i ↔
    i < 256 ∧ (∀ c ∈ s.pool, c.id ≠ i) ∧ ∀ j, j < i → ∃ c ∈ s.pool, c.id = j := by
  rw [State.freeCtx, List.find?_range_eq_some]
  simp [Config.contexts, and_left_comm]

theorem State.freeCtx_isSome_iff {s : State} : s.freeCtx.isSome = true ↔ ∃ i, i < 256 ∧ ∀ c ∈ s.pool, c.id ≠ i := by
  simp [State.freeCtx, Config.contexts]

/-! ## The queue that is chosen (R134) -/

/-- R134: queue `q` is ACTIVE, non-empty and of class `k`. -/
def State.Ready (s : State) (k : QueueClass) (q : QueueNo) : Prop :=
  (s.queue q).state = .active ∧ (s.queue q).head ≠ (s.queue q).tail ∧ (s.queue q).cls = k

/-- The arbiter's pointer of class `k`. -/
def State.fetchPtr (s : State) (k : QueueClass) : QueueNo :=
  match k with
  | .urgent => s.fetchUrgent
  | .normal => s.fetchNormal

theorem State.queueReady_iff {s : State} {k : QueueClass} (q : QueueNo) : s.queueReady k q.val = true ↔ s.Ready k q := by
  simp [State.queueReady, State.Ready, and_assoc]

section
variable {s : State} {k : QueueClass} {q : QueueNo}

theorem State.classQueue_eq_map : s.classQueue k =
    (firstAfter 4 (s.fetchPtr k).val (s.queueReady k)).map fun i => ⟨i % 4, Nat.mod_lt _ (by decide)⟩ := by
  cases k <;> rfl

theorem State.classQueue_firstOf :
    FirstOf 4 (s.fetchPtr k).val (fun i => ∃ r : QueueNo, r.val = i ∧ s.Ready k r)
      (firstAfter 4 (s.fetchPtr k).val (s.queueReady k)) := by
  refine firstAfter_firstOf (s.fetchPtr k).isLt fun i hi => ⟨fun h => ⟨⟨i, hi⟩, rfl, (s.queueReady_iff _).1 h⟩, ?_⟩
  rintro ⟨r, rfl, hr⟩
  exact (s.queueReady_iff r).2 hr

/-- R134: no queue of the class is chosen exactly when none is ready. -/
theorem State.classQueue_eq_none_iff : s.classQueue k = none ↔ ∀ r, ¬ s.Ready k r := by
  have first := State.classQueue_firstOf (s := s) (k := k)
  rw [State.classQueue_eq_map, Option.map_eq_none_iff]
  cases hfind : firstAfter 4 (s.fetchPtr k).val (s.queueReady k) with
  | none =>
    rw [hfind] at first
    exact iff_of_true rfl fun r hr => first r.val r.isLt ⟨r, rfl, hr⟩
  | some i =>
    rw [hfind] at first
    obtain ⟨-, ⟨r, -, hr⟩, -⟩ := first
    exact iff_of_false (Option.some_ne_none i) fun none_ready => none_ready r hr

/-- R134: no two queues stand at one distance after the pointer. -/
theorem cyclicDistance_inj {p q r : QueueNo} (h : (q.val + 3 - p.val) % 4 = (r.val + 3 - p.val) % 4) : q = r :=
  Fin.ext (by omega)

/-- R134: a ready queue at the least distance after the pointer of its class is the one chosen. -/
theorem State.classQueue_eq_some (hq : s.Ready k q)
    (least : ∀ r, s.Ready k r → (q.val + 3 - (s.fetchPtr k).val) % 4 ≤ (r.val + 3 - (s.fetchPtr k).val) % 4) :
    s.classQueue k = some q := by
  have first := State.classQueue_firstOf (s := s) (k := k)
  rw [State.classQueue_eq_map]
  cases hfind : firstAfter 4 (s.fetchPtr k).val (s.queueReady k) with
  | none =>
    rw [hfind] at first
    exact (first q.val q.isLt ⟨q, rfl, hq⟩).elim
  | some i =>
    rw [hfind] at first
    obtain ⟨-, ⟨r, rfl, hr⟩, before⟩ := first
    obtain rfl : q = r := cyclicDistance_inj (Nat.le_antisymm (least r hr) (before q.val q.isLt ⟨q, rfl, hq⟩))
    exact congrArg some (Fin.ext (Nat.mod_eq_of_lt q.isLt))

/-- R134: the queue chosen in its class is the arbiter's choice, unless it is NORMAL and an URGENT one is ready. -/
theorem State.fetchQueue_eq (hq : s.classQueue k = some q) (urgent : k = .normal → ∀ r, ¬ s.Ready .urgent r) :
    s.fetchQueue = some (k, q) := by
  unfold State.fetchQueue
  cases k with
  | urgent => rw [hq]
  | normal => rw [State.classQueue_eq_none_iff.2 (urgent rfl), hq]; rfl

theorem State.fetchQueue_isSome_iff : s.fetchQueue.isSome = true ↔ ∃ k q, s.Ready k q := by
  rw [Option.isSome_iff_ne_none]
  refine ⟨fun chosen => ?_, fun ⟨k, q, hq⟩ none_chosen => ?_⟩
  · by_contra none_ready
    push Not at none_ready
    refine chosen ?_
    rw [State.fetchQueue, State.classQueue_eq_none_iff.2 (none_ready .urgent),
      State.classQueue_eq_none_iff.2 (none_ready .normal)]
    rfl
  · unfold State.fetchQueue at none_chosen
    split at none_chosen
    · cases none_chosen
    · next no_urgent =>
      have no_normal := Option.map_eq_none_iff.1 none_chosen
      cases k with
      | urgent => exact State.classQueue_eq_none_iff.1 no_urgent q hq
      | normal => exact State.classQueue_eq_none_iff.1 no_normal q hq

/-! ## The look (R134, R135, R142) -/

/-- R134: the conditions of a choice beside a ready queue. -/
def State.MayRead (s : State) : Prop :=
  s.device = .running ∧ s.reading = none ∧ (∃ i, i < 256 ∧ ∀ c ∈ s.pool, c.id ≠ i) ∧
    s.completion.posted + s.pool.length + 1 < s.completion.size

theorem State.mayFetch_iff : s.mayFetch = true ↔ s.MayRead ∧ ∃ k q, s.Ready k q := by
  rw [State.mayFetch, Bool.and_eq_true, State.fetchQueue_isSome_iff]
  refine and_congr_left fun _ => ?_
  simp only [Bool.and_eq_true, beq_iff_eq, Option.isNone_iff_eq_none, State.freeCtx_isSome_iff, State.creditFree,
    decide_eq_true_eq, State.MayRead, and_assoc]

/-- R134, R135: what the start of the read of queue `q`'s record into context `i` leaves. -/
theorem State.beginFetch_eq {i : Nat} (hq : s.fetchQueue = some (k, q)) (hi : s.freeCtx = some i) : s.beginFetch =
    { s with
      fetchUrgent := if k = .urgent then q else s.fetchUrgent
      fetchNormal := if k = .normal then q else s.fetchNormal
      queues := s.queues.set q { s.queue q with fetching := true }
      reading := some { queue := q, ctx := i, addr := (s.queue q).base + BitVec.ofNat 32 (32 * (s.queue q).head) }
      pool := s.pool ++ [reservedContext i q k] } := by
  rw [State.beginFetch, hq, hi]
  cases k <;> rfl

theorem exec_fetchChoice (s : State) : exec .fetchChoice s =
    runCommand .fetchChoice (s.operating && s.fetchDue) State.fetchLook s := rfl

/-- R142: a look that is owed is made on an operating part. -/
theorem exec_fetchChoice_owed (hr : s.resetHeld = false) (hd : s.device ≠ .failed) (ho : s.fetchDue = true) :
    exec .fetchChoice s = .next s.fetchLook := by
  have operating : s.operating = true := State.Operates.operating ⟨hr, hd⟩
  rw [exec_fetchChoice, runCommand_occurs rfl (State.live_of_resetHeld hr) (by rw [operating, ho]; rfl)]

theorem exec_fetchChoice_absent (h : s.device = .failed ∨ s.fetchDue = false) : exec .fetchChoice s = .next s := by
  have absent : (s.operating && s.fetchDue) = false := by
    rcases h with h | h <;> simp [State.operating, h]
  rw [exec_fetchChoice, runCommand_absent rfl absent]

theorem State.fetchLook_chooses (h : s.mayFetch = true) :
    s.fetchLook = ({ s with fetchDue := false } : State).beginFetch := if_pos h

theorem State.fetchLook_idle (h : ¬ s.mayFetch = true) : s.fetchLook = { s with fetchDue := false } := if_neg h

end

end Sys2Proof.Machine

open Sys2Proof Sys2Proof.Machine

/-- Settles O14, by the restart bit; the tail against the size decides what an ACTIVE queue does. -/
theorem postWritesTaken : Obligations.PostWritesTaken := by
  refine ⟨fun v s k hv hr hk => ?_, fun v s k hv hr hk => ?_⟩
  · intro q tail
    rw [exec_postTail, runCommand_occurs (wellFormed_postTail hv) (State.live_of_resetHeld hr) rfl, State.postTail_eq hk]
    refine ⟨fun hd hs => ?_, fun refused => ⟨_, rfl, ?_⟩⟩
    · rw [if_pos ⟨s.device.started_iff.2 hd, hs⟩]
      refine ⟨fun inside => ?_, fun outside idle => ?_, fun outside busy => ?_⟩
      · rw [State.postedTail_inside inside]
      · rw [State.postedTail_outside outside, Queue.stopBadTail_reports idle]
      · rw [State.postedTail_outside outside, Queue.stopBadTail_waits busy]
    · rw [if_neg fun h => refused ⟨s.device.started_iff.1 h.1, h.2⟩]
      exact s.rejects_reject
  · intro q taken
    rw [exec_postRestart, runCommand_occurs (wellFormed_postRestart hv) (State.live_of_resetHeld hr) rfl,
      State.postRestart_eq hk]
    refine ⟨fun h => ?_, fun h => ⟨_, rfl, ?_⟩⟩
    · rw [if_pos ⟨s.device.started_iff.2 h.1, h.2⟩]
      rfl
    · rw [if_neg fun started => h ⟨s.device.started_iff.1 started.1, started.2⟩]
      exact s.rejects_reject

/-- Settles O17: `State.readFails_eq`, on a part whose read can end. -/
theorem recordReadErrorStopsQueue : Obligations.RecordReadErrorStopsQueue := by
  intro s rd cause hreset hd hr hcause
  rw [exec_recordReadError, runCommand_occurs rfl (State.live_of_resetHeld hreset) (State.readInProgress_of hd hr),
    State.readFails_eq hr, hcause]
  rfl

/-- Settles O16: the choice is `State.fetchQueue_eq`, the context `State.freeCtx_eq_some_iff`, and `State.mayFetch_iff` says
when a choice is made. -/
theorem fetchArbiterChooses : Obligations.FetchArbiterChooses := by
  intro s hr ready may
  refine ⟨fun k q ho hmay hq urgent least => ?_, fun hd ho hnot => ?_, exec_fetchChoice_absent⟩
  · obtain ⟨running, -, free, -⟩ := id hmay
    have operates : s.device ≠ .failed := by
      rw [running]
      exact DeviceState.noConfusion
    have chosen : s.fetchQueue = some (k, q) :=
      State.fetchQueue_eq (State.classQueue_eq_some hq (by cases k <;> exact least)) urgent
    obtain ⟨i, hi⟩ := Option.isSome_iff_exists.1 (State.freeCtx_isSome_iff.2 free)
    obtain ⟨hlt, hfree, hlowest⟩ := State.freeCtx_eq_some_iff.1 hi
    refine ⟨_, i, exec_fetchChoice_owed hr operates ho, hlt, hfree, hlowest, ?_⟩
    have begun := State.beginFetch_eq (s := { s with fetchDue := false }) chosen hi
    rw [State.fetchLook_chooses (State.mayFetch_iff.2 ⟨hmay, k, q, hq⟩), begun]
    rfl
  · have idle : ¬ s.mayFetch = true := fun h => hnot (State.mayFetch_iff.1 h)
    rw [exec_fetchChoice_owed hr hd ho, State.fetchLook_idle idle]
end

section
/-! PROOFS. The octets of a record and the checks it passes or fails (R115, R140; sections 7.3, 7.4, 8.5, 11.3). -/

namespace Sys2Proof.Machine

/-! ## Octets (section 11.3) -/

section
variable {r : List Byte} {i : Nat}

theorem le8_lt (r : List Byte) (i : Nat) : le8 r i < 256 := (octetAt r i).isLt

theorem le8_of_getElem? {b : Byte} (h : r[i]? = some b) : le8 r i = b.toNat := by
  simp [le8, octetAt, List.getD, h]

/-- Four octets, the least significant first, are a number of 32 bits. -/
theorem toNat_addrAt (r : List Byte) (i : Nat) : (addrAt r i).toNat =
    le8 r i + 256 * le8 r (i + 1) + 65536 * le8 r (i + 2) + 16777216 * le8 r (i + 3) := by
  have h0 := le8_lt r i
  have h1 := le8_lt r (i + 1)
  have h2 := le8_lt r (i + 2)
  have h3 := le8_lt r (i + 3)
  rw [addrAt, BitVec.toNat_ofNat, le32, le16, le16, show i + 2 + 1 = i + 3 from rfl]
  omega

theorem toNat_recAddress (h : le8 r 6 < 128) : (recAddress r).toNat = le8 r 6 := by
  rw [recAddress, BitVec.toNat_ofNat]
  exact Nat.mod_eq_of_lt h

end

/-- Section 8.5: the kind codes as numbers. -/
theorem kindOfCode_eq (b : Byte) : kindOfCode b = match b.toNat with
    | 0x01 => some .exchange
    | 0x02 => some .broadcast
    | 0x10 => some .addStation
    | 0x11 => some .removeStation
    | 0x12 => some .pauseStation
    | 0x13 => some .resumeStation
    | 0x20 => some .setLine
    | 0x21 => some .quiesceLine
    | 0x22 => some .resumeLine
    | 0x23 => some .lineReset
    | 0x30 => some .abort
    | 0x31 => some .fence
    | _ => none := by
  simp only [kindOfCode, BitVec.toNat_eq]
  symm
  split <;> simp_all

/-! ## Check 1 (R140; sections 7.3, 7.4, 8.5) -/

/-- Octet 3 is of no kind's fields. -/
theorem three_not_mem_fieldOffsets (k : RecordKind) : 3 ∉ fieldOffsets k := by
  cases k <;> decide

/-- Check 1b: octet 3 and every octet after the header that the kind does not list are zero. -/
theorem reservedZero_iff {k : RecordKind} {r : List Byte} : reservedZero k r = true ↔
    octetAt r 3 = 0 ∧ ∀ i, 4 ≤ i → i < 32 → i ∉ fieldOffsets k → octetAt r i = 0 := by
  simp only [reservedZero, List.all_eq_true, List.mem_range, Bool.or_eq_true, List.contains_iff_mem, beq_iff_eq]
  refine ⟨fun zero => ⟨?_, fun i h4 h32 hi => ?_⟩, fun ⟨zero3, zero⟩ j hj => ?_⟩
  · exact (zero 0 (by decide)).resolve_left (three_not_mem_fieldOffsets k)
  · have hi3 := zero (i - 3) (by omega)
    rw [Nat.sub_add_cancel (by omega : 3 ≤ i)] at hi3
    exact hi3.resolve_left hi
  · rw [or_iff_not_imp_left]
    intro hfree
    rcases Nat.eq_zero_or_pos j with rfl | hpos
    · exact zero3
    · exact zero (j + 3) (by omega) (by omega) hfree

/-- Check 1c: the ranges of each kind's fields. -/
theorem fieldsInRange_iff (k : RecordKind) (r : List Byte) : fieldsInRange k r = true ↔
    match k with
    | .exchange => le8 r 4 ≤ 63 ∧ le8 r 5 ≤ 240 ∧ le8 r 6 ≤ 240
    | .broadcast => le8 r 4 ≤ 3 ∧ le8 r 5 ≤ 240
    | .addStation =>
      le8 r 4 ≤ 63 ∧ le8 r 5 ≤ 3 ∧ (1 ≤ le8 r 6 ∧ le8 r 6 ≤ 126) ∧ le8 r 7 ≤ 7 ∧ le8 r 8 ≤ 7 ∧
        (1 ≤ le8 r 9 ∧ le8 r 9 ≤ 15) ∧ (le16 r 12 = 0 ∨ (5 ≤ le16 r 12 ∧ le16 r 12 ≤ 60000)) ∧
        (1 ≤ le16 r 14 ∧ le16 r 14 ≤ 60000) ∧ (100 ≤ le16 r 16 ∧ le16 r 16 ≤ 60000)
    | .setLine => le8 r 4 ≤ 3 ∧ (le8 r 5 = 0 ∨ (le8 r 5 = 1 ∧ le8 r 6 ≤ 7 ∧ le32 r 12 % 4 = 0))
    | .removeStation | .pauseStation | .resumeStation => le8 r 4 ≤ 63
    | .quiesceLine | .resumeLine | .lineReset | .abort => le8 r 4 ≤ 3
    | .fence => True := by
  cases k <;> simp [fieldsInRange, Nat.lt_succ_iff, and_assoc]

section
variable {s : State} {k : RecordKind} {r : List Byte}

theorem State.verdict_unknownKind (h : kindOfCode (recKind r) = none) : s.verdict r = some (.badRecord, .unknownKind) := by
  rw [State.verdict, h]

theorem State.verdict_reservedNonzero (hk : kindOfCode (recKind r) = some k) (h : reservedZero k r = false) :
    s.verdict r = some (.badRecord, .reservedNonzero) := by
  rw [State.verdict, hk]
  exact if_pos h

theorem State.verdict_fieldRange (hk : kindOfCode (recKind r) = some k) (hz : reservedZero k r = true)
    (h : fieldsInRange k r = false) : s.verdict r = some (.badRecord, .fieldRange) := by
  simp only [State.verdict, hk, hz, h, Bool.true_eq_false, if_true, if_false]

theorem State.verdict_wellFormed (hk : kindOfCode (recKind r) = some k) (hz : reservedZero k r = true)
    (h : fieldsInRange k r = true) : s.verdict r = s.checkKind k r := by
  simp only [State.verdict, hk, hz, h, Bool.true_eq_false, if_false]

end

/-! ## Checks 2 to 5 (R115, R140) -/

section
variable {s : State} {r : List Byte}

/-- Check 3: the handle of an ADD_STATION is free. -/
theorem State.checkNew_inUse (h : (s.station (recHandle r)).isSome = true) :
    s.checkNew r = some (.badStation, .handleInUse) := if_pos h

theorem State.checkNew_free (h : s.station (recHandle r) = none) :
    s.checkNew r = (s.pairHolder (recStationLine r) (recAddress r)).map fun k => (.duplicateAddress, .handle k) := by
  simp [State.checkNew, h]

/-- The holder of a pair is an entry in use with it. -/
theorem State.pairHolder_some {l : LineNo} {a : BitVec 7} {h : Handle} (hh : s.pairHolder l a = some h) :
    ∃ st, s.station h = some st ∧ st.line = l ∧ st.address = a := by
  have holds := List.find?_some hh
  cases hst : s.station h with
  | none => simp [hst] at holds
  | some st => exact ⟨st, rfl, by simpa [hst] using holds⟩

theorem State.pairHolder_eq_none {l : LineNo} {a : BitVec 7}
    (unused : ∀ h st, s.station h = some st → ¬ (st.line = l ∧ st.address = a)) : s.pairHolder l a = none := by
  rw [State.pairHolder, List.find?_eq_none]
  intro h _
  cases hst : s.station h with
  | none => simp
  | some st => simpa using unused h st hst

/-- Check 4: a pair in use is refused with an entry that holds it. -/
theorem State.checkNew_duplicate {h : Handle} {st : Station} (hfree : s.station (recHandle r) = none)
    (hst : s.station h = some st) (hline : st.line = recStationLine r) (haddress : st.address = recAddress r) :
    ∃ h' st', s.station h' = some st' ∧ st'.line = recStationLine r ∧ st'.address = recAddress r ∧
      s.checkNew r = some (.duplicateAddress, .handle h') := by
  rw [State.checkNew_free hfree]
  cases hp : s.pairHolder (recStationLine r) (recAddress r) with
  | none => exact (State.pairHolder_none hp h st hst hline haddress).elim
  | some h' =>
    obtain ⟨st', hst', hline', haddress'⟩ := State.pairHolder_some hp
    exact ⟨h', st', hst', hline', haddress', rfl⟩

theorem State.checkNew_taken (hfree : s.station (recHandle r) = none)
    (unused : ∀ h st, s.station h = some st → ¬ (st.line = recStationLine r ∧ st.address = recAddress r)) :
    s.checkNew r = none := by
  rw [State.checkNew_free hfree, State.pairHolder_eq_none unused]
  rfl

/-- Check 5 for the two records that wait for an outstanding SET_LINE to end. -/
theorem State.checkLine_configures {k : RecordKind} (hk : k = .setLine ∨ k = .resumeLine) (l : LineNo) :
    s.checkLine k l =
      if (s.line l).setLine.isSome then some (.refusedState, .lineConfiguring)
      else if linePermits k (s.line l).state then none else some (.refusedState, .engine (s.line l).state) := by
  rcases hk with rfl | rfl <;> simp [State.checkLine]

/-- Check 5 for the two records that are refused on a DISABLED line alone. -/
theorem State.checkLine_enabled {k : RecordKind} (hk : k = .quiesceLine ∨ k = .lineReset) (l : LineNo) :
    s.checkLine k l =
      if (s.line l).state = .disabled then some (.refusedState, .engine (s.line l).state) else none := by
  rcases hk with rfl | rfl <;> by_cases hs : (s.line l).state = .disabled <;> simp [State.checkLine, linePermits, hs]

end

end Sys2Proof.Machine

open Sys2Proof Sys2Proof.Machine

/-- Settles O19: the offsets of the fields, the four ways check 1 can end with `fieldsInRange_iff`, and checks 2 to 5 by what
they read. -/
theorem recordsChecked : Obligations.RecordsChecked := by
  refine ⟨fun k i => ?_,
    fun s r _ => ⟨State.verdict_unknownKind, fun k hk => ⟨⟨fun nonzero => ?_, fun zero => ?_⟩, ?_⟩⟩,
    fun s r => ⟨?_, ⟨State.checkNew_inUse, fun hfree =>
      ⟨fun _ _ => State.checkNew_duplicate hfree, State.checkNew_taken hfree⟩⟩, ?_, ?_⟩⟩
  · cases k <;> simp only [fieldOffsets, List.mem_cons, List.not_mem_nil, or_false] <;> omega
  · refine State.verdict_reservedNonzero hk (Bool.eq_false_iff.2 fun hz => ?_)
    obtain ⟨zero3, zero⟩ := reservedZero_iff.1 hz
    rcases nonzero with h3 | ⟨i, h4, h32, hfree, hi⟩
    · exact h3 zero3
    · exact hi (zero i h4 h32 hfree)
  · exact ⟨State.verdict_fieldRange hk (reservedZero_iff.2 zero), State.verdict_wellFormed hk (reservedZero_iff.2 zero)⟩
  · have ranges := fieldsInRange_iff k r
    cases k <;> exact ranges
  · rintro k (rfl | rfl | rfl | rfl) <;> rfl
  · rintro k (rfl | rfl | rfl) <;> rfl
  · refine ⟨?_, ?_, State.checkLine_enabled (.inl rfl) _, State.checkLine_enabled (.inr rfl) _⟩
    · refine (State.checkLine_configures (.inl rfl) _).trans ?_
      simp only [linePermits, Bool.or_eq_true, beq_iff_eq]
    · refine (State.checkLine_configures (.inr rfl) _).trans ?_
      simp only [linePermits, beq_iff_eq]
end

section
/-! PROOFS. The acceptance of a record, taken or refused (R56, R128, R136, R139, R141; section 11.3). -/

namespace Sys2Proof.Machine

/-! ## What acceptance leaves (R56, R136, R139) -/

section
variable {s : State} {rd : RecordRead}

/-- R136: the read of a record ends for its queue alone. -/
theorem State.queue_accept_same (s : State) (rd : RecordRead) (r : List Byte) :
    (s.accept rd r).queue rd.queue = (s.queue rd.queue).readEnds := s.queue_updQueue_same rd.queue Queue.readEnds

theorem State.queue_accept_ne {j : QueueNo} (h : j ≠ rd.queue) (r : List Byte) : (s.accept rd r).queue j = s.queue j :=
  s.queue_updQueue_ne h Queue.readEnds

/-- R136: the head advances. -/
theorem Queue.readEnds_running {q : Queue} (h : q.state ≠ .stopped) : q.readEnds =
    { q with head := if q.head + 1 = q.size then 0 else q.head + 1, fetching := false } := by
  simp only [Queue.readEnds, if_neg h]

/-- R133: a queue that stopped during the read reports with the advanced head. -/
theorem Queue.readEnds_stopped {q : Queue} (h : q.state = .stopped) :
    let head := if q.head + 1 = q.size then 0 else q.head + 1
    q.readEnds = { q with
      head := head, fetching := false, report := some { cause := q.stopCause.getD .badTail, head := head } } := by
  simp only [Queue.readEnds, if_pos h]

/-- R56, R139: a record that is refused is kept as it was read. -/
theorem State.recordBody_refused {r : List Byte} {v : Status × Detail} (hv : s.verdict r = some v) :
    s.recordBody r = .refused r := by
  rw [State.recordBody, hv]

theorem State.ctx_accept_ne {j : Nat} (h : j ≠ rd.ctx) (r : List Byte) : (s.accept rd r).ctx j = s.ctx j :=
  State.ctx_updCtx_ne (s := s.updQueue rd.queue Queue.readEnds) (f := fun c => c.accept r (s.recordBody r))
    (fun _ => rfl) h

/-! ## A refused record (R139, R141) -/

/-- Every command of a record read has the common frame of the record commands. -/
theorem exec_of_recordCarried {c : Instr} {r : List Byte} (h : recordCarried c = some r) (s : State) :
    ∃ act, exec c s = runRecord c r act s := by
  cases c <;> cases h <;> exact ⟨_, rfl⟩

/-- R139, R141: a record that fails a check is accepted, ends, and the step ends, whatever its act would be. -/
theorem runRecord_refused {c : Instr} {r : List Byte} {v : Status × Detail} (hw : c.wellFormed = true)
    (hreset : s.resetHeld = false) (hd : s.device = .running ∨ s.device = .halting) (hr : s.reading = some rd)
    (hv : s.verdict r = some v) (act : State → Nat → State) :
    runRecord c r act s = .next ((s.accept rd r).endRecord rd.ctx v.1 v.2).finish := by
  rw [runRecord, runCommand_occurs hw (State.live_of_resetHeld hreset) (State.readInProgress_of hd hr), State.takeRecord, hr]
  simp only [hv]

/-- The end of a record moves contexts and the handed list, and the end of a step no more than the writers' part. -/
theorem State.rest_endRecord_finish (s : State) (id : Nat) (st : Status) (d : Detail) :
    (s.endRecord id st d).finish.reading = s.reading ∧ (s.endRecord id st d).finish.mem = s.mem := by
  rw [(State.writers_finish _).1, (s.ends_endRecord id st d).rest]
  exact ⟨rfl, rfl⟩

end

end Sys2Proof.Machine

open Sys2Proof Sys2Proof.Machine

/-- Settles O18: the octets by their offsets, a field in range is not cut off, and what `State.accept` leaves of the queues
and the contexts. -/
theorem acceptedRecordIsHeld : Obligations.AcceptedRecordIsHeld := by
  refine ⟨fun r => ⟨fun _ _ => le8_of_getElem?, fun i => ⟨rfl, toNat_addrAt r i⟩, kindOfCode_eq _, Nat.mod_eq_of_lt,
    Nat.mod_eq_of_lt, Nat.mod_eq_of_lt, toNat_recAddress, fun k hk => ?_⟩, fun s rd r => ?_⟩
  · have ranges := (fieldsInRange_iff k r).1 hk
    have in64 : le8 r 4 ≤ 63 → le8 r 4 % 64 = le8 r 4 := fun h => Nat.mod_eq_of_lt (Nat.lt_succ_of_le h)
    have in4 : le8 r 4 ≤ 3 → le8 r 4 % 4 = le8 r 4 := fun h => Nat.mod_eq_of_lt (Nat.lt_succ_of_le h)
    cases k with
    | exchange => exact ⟨in64 ranges.1, rfl, rfl, rfl, rfl⟩
    | broadcast => exact ⟨in4 ranges.1, rfl, rfl⟩
    | setLine =>
      obtain ⟨hline, henable⟩ := ranges
      refine ⟨in4 hline, beq_iff_eq, fun on => ?_, rfl, rfl⟩
      rcases henable with off | ⟨-, hrate, -⟩
      · simp [off] at on
      · exact Nat.mod_eq_of_lt (Nat.lt_succ_of_le hrate)
    | addStation => exact in64 ranges.1
    | removeStation => exact in64 ranges
    | pauseStation => exact in64 ranges
    | resumeStation => exact in64 ranges
    | quiesceLine => exact in4 ranges
    | resumeLine => exact in4 ranges
    | lineReset => exact in4 ranges
    | abort => exact ⟨in4 ranges, rfl⟩
    | fence => trivial
  · intro q head t holds
    have held : holds (s.recordBody r) := rfl
    refine ⟨rfl, fun j hj => State.queue_accept_ne hj r, fun hq => ?_, fun hq => ?_, fun k hk hv => ?_, fun v hv => ?_⟩
    · exact (s.queue_accept_same rd r).trans (Queue.readEnds_running hq)
    · exact (s.queue_accept_same rd r).trans (Queue.readEnds_stopped hq)
    · rwa [State.recordBody_taken hv hk] at held
    · rwa [State.recordBody_refused hv] at held

/-- Settles O20: the step is `runRecord_refused`, and neither acceptance nor the end of the record touches the tables. -/
theorem refusedRecordEndsAtOnce : Obligations.RefusedRecordEndsAtOnce := by
  intro c r s rd x status detail hc hw hreset hd hr hv hx hp
  obtain ⟨act, hexec⟩ := exec_of_recordCarried hc s
  have accepted := State.ctx_accept hx hp r
  obtain ⟨hreading, hmem⟩ := (s.accept rd r).rest_endRecord_finish rd.ctx status detail
  obtain ⟨-, -, hlines, hstations⟩ := State.writers_finish ((s.accept rd r).endRecord rd.ctx status detail)
  refine ⟨_, hexec.trans (runRecord_refused hw hreset hd hr hv act), ?_, hreading, hmem, fun l => ?_, fun h => ?_,
    fun j hj => ?_⟩
  · exact (State.handed_endRecord _ _ _ _ accepted (x.live_accept r s)).reports
  · have line := hlines l
    rwa [State.line_endRecord, State.line_accept] at line
  · have entry := hstations h
    rwa [State.station_endRecord, State.station_accept] at entry
  · rw [State.ctx_finish, State.ctx_endRecord_ne hj, State.ctx_accept_ne hj]
end

section
/-! PROOFS. The interrupt registers, what each register reads, and the coalescing of postings (R130, R146, R151, R152, R154,
R155; section 11.1). -/

namespace Sys2Proof.Machine

/-! ## Writes of the interrupt registers (R151) -/

section
variable {s : State} (v : Word)

/-- R151: a write of INT_STATUS clears the causes written 1. -/
theorem exec_intStatusWrite (hr : s.resetHeld = false) : exec (.intStatusWrite v) s =
    .next ({ s with intStatus := s.intStatus &&& ~~~causeBits v } : State).drivePin :=
  runCommand_occurs (c := .intStatusWrite v) (o := true)
    (e := fun s => ({ s with intStatus := s.intStatus &&& ~~~causeBits v } : State).drivePin) rfl
    (State.live_of_resetHeld hr) rfl

/-- R151: a write of INT_ENABLE replaces the enables. -/
theorem exec_intEnableWrite (hr : s.resetHeld = false) : exec (.intEnableWrite v) s =
    .next ({ s with intEnable := causeBits v } : State).drivePin :=
  runCommand_occurs (c := .intEnableWrite v) (o := true)
    (e := fun s => ({ s with intEnable := causeBits v } : State).drivePin) rfl (State.live_of_resetHeld hr) rfl

/-- R154: a write of IDENT or STATUS is ignored. -/
theorem exec_registerWriteIgnored {offset : BitVec 5} (ho : offset = 0x00 ∨ offset = 0x08) (hr : s.resetHeld = false) :
    exec (.registerWriteIgnored offset v) s = .next s.reject := by
  have wellFormed : (Instr.registerWriteIgnored offset v).wellFormed = true := by rcases ho with rfl | rfl <;> rfl
  exact runCommand_occurs (o := true) (e := State.reject) wellFormed (State.live_of_resetHeld hr) rfl

end

/-- Section 11.1: the cause bits are bits 4..0 of the value. -/
theorem getLsbD_causeBits (v : Word) (i : Fin 5) : (causeBits v).getLsbD i = v.getLsbD i := by
  rw [causeBits, BitVec.getLsbD_setWidth, decide_eq_true i.isLt, Bool.true_and]

/-- R151: a cause written 1 is cleared. -/
theorem getLsbD_clearCauses (status : BitVec 5) (v : Word) (i : Fin 5) :
    (status &&& ~~~causeBits v).getLsbD i = (status.getLsbD i && !v.getLsbD i) := by
  rw [BitVec.getLsbD_and, BitVec.getLsbD_not, getLsbD_causeBits, decide_eq_true i.isLt, Bool.true_and]

/-! ## Register reads (section 11.1) -/

theorem QueueState.code_lt (q : QueueState) : q.code < 4 := by cases q <;> decide

/-- R130: the POST register holds the four queue states in its low octet. -/
theorem State.toNat_postValue (s : State) : s.postValue.toNat = (s.queue 0).state.code + 4 * (s.queue 1).state.code +
    16 * (s.queue 2).state.code + 64 * (s.queue 3).state.code := by
  have h0 := (s.queue 0).state.code_lt
  have h1 := (s.queue 1).state.code_lt
  have h2 := (s.queue 2).state.code_lt
  have h3 := (s.queue 3).state.code_lt
  rw [State.postValue, BitVec.toNat_ofNat]
  omega

theorem State.postValue_lt (s : State) : s.postValue.toNat < 256 := by
  have h0 := (s.queue 0).state.code_lt
  have h1 := (s.queue 1).state.code_lt
  have h2 := (s.queue 2).state.code_lt
  have h3 := (s.queue 3).state.code_lt
  rw [s.toNat_postValue]
  omega

/-- R130: two bits for each queue, the lowest number in the lowest bits. -/
theorem State.postValue_digit (s : State) (q : QueueNo) : s.postValue.toNat / 4 ^ q.val % 4 = (s.queue q).state.code := by
  have h0 := (s.queue 0).state.code_lt
  have h1 := (s.queue 1).state.code_lt
  have h2 := (s.queue 2).state.code_lt
  have h3 := (s.queue 3).state.code_lt
  rw [s.toNat_postValue]
  match q with
  | 0 => show _ / 1 % 4 = _; omega
  | 1 => show _ / 4 % 4 = _; omega
  | 2 => show _ / 16 % 4 = _; omega
  | 3 => show _ / 64 % 4 = _; omega

/-- R146: the RETIRE register holds both tails while they fit their halves. -/
theorem State.toNat_retireValue {s : State} (hc : s.completion.tail < 65536) (he : s.event.tail < 65536) :
    s.retireValue.toNat = s.completion.tail + 65536 * s.event.tail := by
  rw [State.retireValue, BitVec.toNat_ofNat]
  omega

/-! ## Coalescing (R152) -/

section
variable {c : Coalescing}

/-- R152: without holdoff, and at the threshold, the posting is announced. -/
theorem Coalescing.posting_announces {now : Nat} (hc : c.count < 255) (h : c.holdoff = 0 ∨ c.threshold ≤ c.count + 1) :
    c.posting now = ({ c with count := 0, timer := none }, true) := by
  have hmin : min 255 (c.count + 1) = c.count + 1 := Nat.min_eq_right hc
  rw [Coalescing.posting, hmin]
  exact if_pos h

/-- R152: below the threshold the posting is counted, and the first one starts the timer. -/
theorem Coalescing.posting_counts (now : Nat) (ht : c.threshold ≤ 255) (hh : c.holdoff ≠ 0) (h : c.count + 1 < c.threshold) :
    c.posting now = ({ c with
      count := c.count + 1, timer := if c.count = 0 then some (now + c.holdoff * 144) else c.timer }, false) := by
  have hmin : min 255 (c.count + 1) = c.count + 1 := Nat.min_eq_right (by omega)
  rw [Coalescing.posting, hmin]
  exact if_neg fun e => e.elim hh (Nat.not_le.2 h)

end

section
variable {s : State} {ring : Ring} {e : Nat}

/-- R152: a running holdoff timer expires in every device state. -/
theorem exec_holdoffTimerExpiry (hr : s.resetHeld = false) (ht : s.holdoffTimer ring = some e) :
    exec (.holdoffTimerExpiry ring) s = .next (s.holdoffExpires ring) :=
  runCommand_occurs (c := .holdoffTimerExpiry ring) (o := (s.holdoffTimer ring).isSome)
    (e := fun s => s.holdoffExpires ring) rfl (State.live_of_resetHeld hr) (by rw [ht]; rfl)

/-- The clock reaches the moment of the timer, if it has not passed it (entry 3). -/
theorem clock_reaches (clock e : Nat) : clock + (e - clock) = max clock e := by omega

/-- R152: what the expiry of the completion ring's timer does. -/
theorem State.holdoffExpires_completion (ht : s.completionInt.timer = some e) : s.holdoffExpires .completion = { s with
    completionInt := { s.completionInt with count := 0, timer := none }
    clock := max s.clock e, time := if s.device = .failed then s.time else s.time + (e - s.clock)
    intStatus := s.intStatus ||| 0x01#5, intPin := (s.intStatus ||| 0x01#5) &&& s.intEnable != 0 } := by
  rw [State.holdoffExpires, State.holdoffTimer, ht, ← clock_reaches]
  rfl

/-- R152: what the expiry of the event ring's timer does. -/
theorem State.holdoffExpires_event (ht : s.eventInt.timer = some e) : s.holdoffExpires .event = { s with
    eventInt := { s.eventInt with count := 0, timer := none }
    clock := max s.clock e, time := if s.device = .failed then s.time else s.time + (e - s.clock)
    intStatus := s.intStatus ||| 0x02#5, intPin := (s.intStatus ||| 0x02#5) &&& s.intEnable != 0 } := by
  rw [State.holdoffExpires, State.holdoffTimer, ht, ← clock_reaches]
  rfl

end

end Sys2Proof.Machine

open Sys2Proof Sys2Proof.Machine

/-- Settles O10: the writes by their bits, the reads by the fields of each register. -/
theorem registersAnswer : Obligations.RegistersAnswer := by
  refine ⟨fun v s hr => ⟨⟨_, exec_intStatusWrite v hr, rfl, getLsbD_clearCauses _ v⟩,
    ⟨_, exec_intEnableWrite v hr, rfl, getLsbD_causeBits v⟩⟩,
    fun offset v s ho hr => ⟨_, exec_registerWriteIgnored v ho hr, s.rejects_reject⟩, fun s => ?_⟩
  exact ⟨rfl, rfl, rfl, rfl, ⟨_, rfl, s.postValue_lt, s.postValue_digit⟩,
    fun hc he => ⟨_, rfl, State.toNat_retireValue hc he⟩, rfl, rfl⟩

/-- Settles O13: both outcomes of `Coalescing.posting`, and the expiry by its ring. -/
theorem coalescingAnnounces : Obligations.CoalescingAnnounces := by
  refine ⟨fun c now hc ht => ⟨Coalescing.posting_announces hc, Coalescing.posting_counts now ht⟩, fun s e hr => ?_⟩
  refine ⟨fun ht => ?_, fun ht => ?_⟩
  · rw [exec_holdoffTimerExpiry (ring := .completion) hr ht, State.holdoffExpires_completion ht]
  · rw [exec_holdoffTimerExpiry (ring := .event) hr ht, State.holdoffExpires_event ht]
end

section
/-! PROOFS. RETIRE writes, and the grant condition that a freed place of the event ring has judged (R101, R142, R146 to R148,
R162). -/

namespace Sys2Proof.Machine

/-! ## RETIRE (R146, R162) -/

section
variable {s : State} {v : Word} {head : Nat}

/-- R146: a RETIRE retires entries that have been posted and no others. -/
theorem RingState.mayRetire_iff (r : RingState) (head : Nat) : r.mayRetire head = true ↔
    head < r.size ∧ (head + r.size - r.hostHead) % r.size ≤ (r.tail + r.size - r.hostHead) % r.size := by
  rw [RingState.mayRetire, Bool.and_eq_true, decide_eq_true_eq, decide_eq_true_eq, RingState.distance, RingState.posted]

theorem exec_retire (v : Word) (hr : s.resetHeld = false) : exec (.retire v) s = .next (s.retire v) :=
  runCommand_occurs (c := .retire v) (o := true) (e := fun s => s.retire v) rfl (State.live_of_resetHeld hr) rfl

/-- Section 11.1: bit 0 of a RETIRE write names the ring. -/
def State.ringNamed (s : State) (v : Word) : RingState := if v.getLsbD 0 then s.event else s.completion

/-- R146, R162: a RETIRE write is taken on a started part, for posted entries of its ring. -/
def State.TakesRetire (s : State) (v : Word) : Prop :=
  s.device.started = true ∧ (s.ringNamed v).mayRetire (v.toNat / 65536) = true

theorem State.retire_completion (hv : v.getLsbD 0 = false) (h : s.TakesRetire v) :
    s.retire v = s.retireCompletion (v.toNat / 65536) := by
  obtain ⟨started, fits⟩ := h
  rw [State.ringNamed, hv] at fits
  have ring : retireRing v = .completion := by rw [retireRing, hv]; rfl
  rw [State.retire, if_pos started, ring]
  exact if_pos fits

theorem State.retire_event (hv : v.getLsbD 0 = true) (h : s.TakesRetire v) :
    s.retire v = s.retireEvent (v.toNat / 65536) := by
  obtain ⟨started, fits⟩ := h
  rw [State.ringNamed, hv] at fits
  have ring : retireRing v = .event := by rw [retireRing, hv]; rfl
  rw [State.retire, if_pos started, ring]
  exact if_pos fits

/-- R146, R162: every other RETIRE write is ignored. -/
theorem State.retire_rejected (h : ¬ s.TakesRetire v) : s.retire v = s.reject := by
  by_cases started : s.device.started = true
  · have unfit : ¬ (s.ringNamed v).mayRetire (v.toNat / 65536) = true := fun fits => h ⟨started, fits⟩
    rw [State.retire, if_pos started, retireRing]
    rw [State.ringNamed] at unfit
    cases hv : v.getLsbD 0 with
    | false =>
      rw [hv] at unfit
      exact if_neg unfit
    | true =>
      rw [hv] at unfit
      exact if_neg unfit
  · rw [State.retire, if_neg started]

/-- R142: a completion head that moves tells the fetch arbiter. -/
theorem State.retireCompletion_moved (h : head ≠ s.completion.hostHead) : s.retireCompletion head = { s with
    completion := { s.completion with hostHead := head }, fetchDue := s.fetchDue || s.reading.isNone } := if_neg h

theorem State.retireCompletion_same (h : head = s.completion.hostHead) : s.retireCompletion head = s := if_pos h

/-- R147, R148: an event head that moves has the grant condition judged, and the step ends. -/
theorem State.retireEvent_moved (h : head ≠ s.event.hostHead) : s.retireEvent head =
    ({ s with event := { s.event with hostHead := head } } : State).judgeGrant.finish := if_neg h

theorem State.retireEvent_same (h : head = s.event.hostHead) : s.retireEvent head = s := if_pos h

end

/-! ## The grant condition (R147, R148) -/

section
variable {s : State}

/-- R101: what makes a line report pending. -/
theorem Line.reportPending_iff (x : Line) : x.reportPending = true ↔
    x.breaksSeen ≠ 0 ∨ x.breakEnded = true ∨ x.stuckSeen = true ∨ x.chatter ≠ 0 := by
  simp [Line.reportPending, or_assoc]

/-- R21: what makes a presence report pending. -/
theorem State.presencePending_iff (s : State) (h : Handle) : s.presencePending h = true ↔
    ∃ st, s.station h = some st ∧ st.presenceChanges ≠ 0 := by
  unfold State.presencePending
  cases s.station h <;> simp

/-- R147: the places that are neither reserved nor posted. -/
theorem State.grantable_iff (s : State) : s.grantable = true ↔ s.pendingReports < s.freePlaces := decide_eq_true_iff

theorem State.judgeGrant_refused (h : s.grantable = false) : s.judgeGrant = s := by
  rw [State.judgeGrant, h]
  rfl

theorem State.judgeGrant_granted (h : s.grantable = true) :
    s.judgeGrant = { s.tellLines s.refusedLines with refusedLines := [] } := if_pos h

/-- R113, R148: the refused lines whose engines are IDLE owe a consultation. -/
theorem State.line_judgeGrant (h : s.grantable = true) (l : LineNo) : s.judgeGrant.line l =
    if l ∈ s.refusedLines ∧ (s.line l).state = .idle then { s.line l with consultDue := true } else s.line l := by
  have told : s.judgeGrant.line l = (s.tellLines s.refusedLines).line l := by rw [State.judgeGrant_granted h]; rfl
  rw [told, State.line_tellLines, Line.noticed]
  by_cases refused : l ∈ s.refusedLines <;> simp [refused]

end

end Sys2Proof.Machine

open Sys2Proof Sys2Proof.Machine

/-- Settles O15: a write that is taken moves a head or none, by `State.retire_completion` and `State.retire_event`; the pending
reports are counted by what makes each pending. -/
theorem retireJudged : Obligations.RetireJudged := by
  refine ⟨fun v s hr => ?_, fun s => ?_⟩
  · intro started head fits
    have takes : ∀ r, s.ringNamed v = r → started → fits r → s.TakesRetire v := fun r hring hs hf =>
      ⟨s.device.started_iff.2 hs, hring ▸ (r.mayRetire_iff head).2 hf⟩
    have completion : v.getLsbD 0 = false → s.ringNamed v = s.completion := fun hv => by rw [State.ringNamed, hv]; rfl
    have event : v.getLsbD 0 = true → s.ringNamed v = s.event := fun hv => by rw [State.ringNamed, hv]; rfl
    rw [exec_retire v hr]
    refine ⟨fun hv hs hf same => ?_, fun hv hs hf moved => ?_, fun hv hs hf same => ?_, fun hv hs hf moved => ?_,
      fun refused => ⟨_, rfl, ?_⟩⟩
    · rw [State.retire_completion hv (takes _ (completion hv) hs hf), State.retireCompletion_same same]
    · rw [State.retire_completion hv (takes _ (completion hv) hs hf), State.retireCompletion_moved moved]
    · rw [State.retire_event hv (takes _ (event hv) hs hf), State.retireEvent_same same]
    · rw [State.retire_event hv (takes _ (event hv) hs hf), State.retireEvent_moved moved]
    · rw [State.retire_rejected fun ⟨hs, hf⟩ => refused ⟨s.device.started_iff.1 hs, (RingState.mayRetire_iff _ _).1 hf⟩]
      exact s.rejects_reject
  · intro posted reports
    have counted : s.pendingReports = reports := by
      refine congrArg₂ (· + ·) (congrArg₂ (· + ·) (List.countP_congr fun l _ => ?_) (List.countP_congr fun q _ => ?_))
        (List.countP_congr fun h _ => ?_)
      · rw [decide_eq_true_iff, Line.reportPending_iff]
      · rw [decide_eq_true_iff, Option.isSome_iff_ne_none]
      · rw [decide_eq_true_iff, State.presencePending_iff]
        rfl
    refine ⟨?_, State.judgeGrant_refused, fun granted => ⟨?_, State.line_judgeGrant granted⟩⟩
    · rw [State.grantable_iff, counted]
      rfl
    · rw [State.judgeGrant_granted granted]
      rfl
end

section
/-! PROOFS. A completion handed to the writer, and the end of an exchange of a station that is not CLOSING, as one state (R40,
R68, R70, R80, R113, R144). -/

namespace Sys2Proof.Machine

/-! ## Handing (R144) -/

section
variable {s : State} {c : Context} {status : Status} {detail : Detail} {n : Nat} {band : Option (Fin 8)} {t : Option Nat}

/-- R144: a live context enters ENDING and its completion joins the handed list. -/
theorem State.hand_of_live (hc : s.ctx c.id = some c) (hl : c.Live) : s.hand c.id status detail n band t = { s with
    pool := s.pool.map fun d => if d.id = c.id ∧ d.phase ≠ .ending then { d with phase := .ending } else d
    handed := s.handed ++ [{
      ctx := c.id, kindCode := c.kindCode, tag := c.tag, queue := c.queue, status := status, detail := detail
      replyLength := n, band := band, turnaround := t }] } := by
  rw [State.hand, hc]
  exact if_neg fun h => h.elim hl.1 hl.2

/-- R144: a context whose end is decided is not handed again. -/
theorem State.hand_of_not_live (hc : s.ctx c.id = some c) (hl : ¬ c.Live) : s.hand c.id status detail n band t = s := by
  rw [State.hand, hc]
  exact if_pos (by rwa [Context.Live, not_and_or, not_not, not_not] at hl)

end

/-! ## One entry and one line replaced -/

@[simp] theorem State.setStation_setStation (s : State) (h : Handle) (x y : Option Station) :
    (s.setStation h x).setStation h y = s.setStation h y := by
  simp [State.setStation]

/-- The station table and the lines are kept apart. -/
theorem State.setStation_setLine (s : State) (l : LineNo) (x : Line) (h : Handle) (y : Option Station) :
    (s.setLine l x).setStation h y = (s.setStation h y).setLine l x := rfl

/-! ## The lists and the link (R68, R70) -/

section
variable {s : State} {c : Context} {h : Handle} {st : Station} {status : Status}

/-- The line of an exchange is that of its station. -/
theorem State.contextLine_of_exchange (hh : c.exchangeHandle = some h) (hst : s.station h = some st) :
    s.contextLine c = some st.line := by
  unfold Context.exchangeHandle at hh
  split at hh
  · next hbody =>
    obtain rfl := Option.some.inj hh
    simp only [State.contextLine, hbody, hst, Option.map_some]
  · cases hh

/-- R70: an exchange leaves the list of its station, and the lists and the buffer of its line. -/
theorem State.leaveLists_eq (hh : c.exchangeHandle = some h) (hst : s.station h = some st) : s.leaveLists c =
    (s.setStation h (some { st with pending := st.pending.erase c.id })).setLine st.line
      ((s.line st.line).forget c.id) := by
  rw [State.leaveLists, State.contextLine_of_exchange hh hst, State.leavePending, hh]
  simp only [State.updStation_eq, State.updLine_eq, hst, Option.map_some, State.line_setStation]

/-- R40, R68: a link that comes into doubt tells its scheduler, if it was certain and an exchange is left to send. -/
theorem State.linkInDoubt_eq (hst : s.station h = some st) : s.linkInDoubt h =
    (s.setStation h (some { st with link := .uncertain })).setLine st.line
      (if st.link = .certain ∧ st.pending ≠ [] then (s.line st.line).noticed else s.line st.line) := by
  rw [State.linkInDoubt, hst]
  simp only
  split
  · rfl
  · exact (State.setLine_line_self (s.setStation h (some { st with link := .uncertain })) st.line).symm

theorem Status.marksUncertain_iff (status : Status) : status.marksUncertain = true ↔
    status = .noReply ∨ status = .stationOffline ∨ status = .aborted ∨ status = .cancelled := by
  cases status <;> simp [Status.marksUncertain]

/-- R68: an unanswered exchange that ends with one of these statuses leaves its link in doubt. -/
def Context.MarksLink (c : Context) (status : Status) : Prop :=
  c.unanswered = true ∧ (status = .noReply ∨ status = .stationOffline ∨ status = .aborted ∨ status = .cancelled)

theorem Context.marksLink_iff : (c.unanswered && status.marksUncertain) = true ↔ c.MarksLink status := by
  rw [Bool.and_eq_true, Status.marksUncertain_iff, Context.MarksLink]

theorem State.markUncertain_marked (hh : c.exchangeHandle = some h) (hm : c.MarksLink status) :
    s.markUncertain c status = s.linkInDoubt h := by
  rw [State.markUncertain, hh]
  exact if_pos (Context.marksLink_iff.2 hm)

theorem State.markUncertain_unmarked (hh : c.exchangeHandle = some h) (hm : ¬ c.MarksLink status) :
    s.markUncertain c status = s := by
  rw [State.markUncertain, hh]
  exact if_neg (Context.marksLink_iff.not.2 hm)

/-- R113: a notice to a line whose lists an exchange has left, where one is given. -/
theorem Line.forget_noticed (x : Line) (id : Nat) (p : Prop) [Decidable p] :
    (if p then (x.forget id).noticed else x.forget id) =
      { x.forget id with consultDue := if p ∧ x.state = .idle then true else x.consultDue } := by
  have idle : (x.forget id).state = x.state := rfl
  rw [Line.noticed, idle]
  by_cases hp : p
  · by_cases hidle : x.state = .idle <;> simp [hp, hidle, Line.forget]
  · simp [hp, Line.forget]

/-- R40, R68, R70: the lists and the link, with what the scheduler is told. -/
theorem State.leaveLists_markUncertain (hh : c.exchangeHandle = some h) (hst : s.station h = some st) :
    let x := s.line st.line
    let told := c.MarksLink status ∧ st.link = .certain ∧ st.pending.erase c.id ≠ [] ∧ x.state = .idle
    ∃ link due, (c.MarksLink status → link = .uncertain) ∧ (¬ c.MarksLink status → link = st.link) ∧
      (told → due = true) ∧ (¬ told → due = x.consultDue) ∧
      (s.leaveLists c).markUncertain c status =
        (s.setStation h (some { st with pending := st.pending.erase c.id, link := link })).setLine st.line
          { x.forget c.id with consultDue := due } := by
  intro x told
  rw [State.leaveLists_eq hh hst]
  by_cases hm : c.MarksLink status
  · refine ⟨.uncertain,
      if (st.link = .certain ∧ st.pending.erase c.id ≠ []) ∧ x.state = .idle then true else x.consultDue, fun _ => rfl,
      fun h => (h hm).elim, fun ht => if_pos (and_assoc.2 ht.2), fun ht => if_neg fun e => ht ⟨hm, and_assoc.1 e⟩, ?_⟩
    rw [State.markUncertain_marked hh hm, State.linkInDoubt_eq (by rw [State.station_setLine, State.station_setStation_same]),
      State.line_setLine_same, State.setStation_setLine, State.setStation_setStation, State.setLine_setLine]
    exact congrArg (State.setLine _ _) (x.forget_noticed c.id _)
  · refine ⟨st.link, x.consultDue, fun h => (hm h).elim, fun _ => rfl, fun ht => (hm ht.1).elim, fun _ => rfl, ?_⟩
    rw [State.markUncertain_unmarked hh hm]
    rfl

/-- R80: an open exchange is handed from the state its lists and its link leave, with the band of its station. -/
theorem State.endPlain_eq {u : State} {after : Station} (hc : s.ctx c.id = some c) (hp : c.phase ≠ .ending)
    (hh : c.exchangeHandle = some h) (hu : (s.leaveLists c).markUncertain c status = u) (ha : u.station h = some after) :
    s.endPlain c.id status = u.hand c.id status c.failureDetail 0 (some after.band) c.lastTurnaround := by
  have band : u.completionBand c = some after.band := by
    rw [State.completionBand, hh]
    exact congrArg (Option.map Station.band) ha
  rw [State.endPlain, State.endOne, hc]
  simp only [if_neg hp, hu, band]
  rfl

end

end Sys2Proof.Machine

open Sys2Proof Sys2Proof.Machine

/-- Settles O30: what `State.hand` does by whether the context is live, and `State.endPlain_eq` from the state that
`State.leaveLists_markUncertain` gives; a station that is not CLOSING has nothing to settle after it. -/
theorem exchangeEndDecided : Obligations.ExchangeEndDecided := by
  refine ⟨fun s c status detail n band t => ⟨State.hand_of_live, State.hand_of_not_live⟩, ?_⟩
  intro s c h st status hc hp hh hst hs x marked told
  obtain ⟨link, due, uncertain, kept, owed, same, left⟩ := State.leaveLists_markUncertain (status := status) hh hst
  refine ⟨link, due, uncertain, kept, owed, same, ?_⟩
  obtain ⟨link', entry⟩ := State.station_endPlain status hc hp hh hst
  rw [State.endWith_eq status hc hh, State.settleClosing_of_not_closing entry (by exact hs),
    State.endPlain_eq hc hp hh left (by rw [State.station_setLine, State.station_setStation_same])]
  rfl
end

section
/-! PROOFS. The octets of completion and event entries and the codes they carry (R163, R164; sections 11.4, 11.5). -/

namespace Sys2Proof.Machine

/-! ## Numbers in octets, the least significant first -/

theorem toNat_octetOf (n i : Nat) : (octetOf n i).toNat = n / 256 ^ i % 256 := BitVec.toNat_ofNat _ _

/-- A number of 16 bits is its two octets. -/
theorem two_octets {n : Nat} (h : n < 65536) : (octetOf n 0).toNat + 256 * (octetOf n 1).toNat = n := by
  simp only [toNat_octetOf]
  omega

/-- A number of 32 bits is its four octets. -/
theorem four_octets {n : Nat} (h : n < 4294967296) : (octetOf n 0).toNat + 256 * (octetOf n 1).toNat +
    65536 * ((octetOf n 2).toNat + 256 * (octetOf n 3).toNat) = n := by
  simp only [toNat_octetOf]
  omega

/-- A number below 256 is one octet. -/
theorem toNat_octet {n : Nat} (h : n < 256) : (BitVec.ofNat 8 n).toNat = n := by
  rw [BitVec.toNat_ofNat]
  exact Nat.mod_eq_of_lt h

/-- Two flags, in bits 0 and 1 of an octet. -/
theorem toNat_flagOctets (a b : Bool) :
    (flagOctet a 1 ||| flagOctet b 2).toNat = (if a then 1 else 0) + (if b then 2 else 0) := by
  cases a <;> cases b <;> rfl

/-- Bit 7 of an octet for the phase. -/
theorem toNat_phaseOctet (phase : Bool) : (if phase then 0x80#8 else 0).toNat = if phase then 0x80 else 0 := by
  cases phase <;> rfl

/-! ## Completion entries (section 11.4) -/

/-- Octet 7: the band and its presence. -/
theorem toNat_bandOctet (band : Option (Fin 8)) : (bandOctet band).toNat = match band with
    | some b => 0x80 + b.val
    | none => 0 := by
  cases band with
  | none => rfl
  | some b => exact toNat_octet (by omega)

theorem turnaroundWord_lt (t : Option Nat) : turnaroundWord t < 4294967296 := by
  cases t with
  | none => decide
  | some t => simp only [turnaroundWord]; omega

/-- The word at offset 8: a turnaround that fits its field, and its presence. -/
theorem turnaroundWord_eq (t : Option Nat) : (∀ n, t = some n → n < 1000000) → turnaroundWord t = match t with
    | some t => 0x80000000 + t
    | none => 0 := by
  intro h
  cases t with
  | none => rfl
  | some n => exact congrArg (0x80000000 + ·) (Nat.mod_eq_of_lt ((h n rfl).trans (by decide)))

/-! ## Event entries (section 11.5, R164) -/

section
variable {octets : List Byte} {i : Nat}

theorem length_fill64 (octets : List Byte) : (fill64 octets).length = 64 := by
  simp [fill64]

/-- R164: the octets laid out stand first. -/
theorem getElem?_fill64 (hi : i < octets.length) (h : octets.length ≤ 64) : (fill64 octets)[i]? = octets[i]? := by
  rw [fill64, List.getElem?_take_of_lt (by omega), List.getElem?_append_left hi]

/-- R164: the rest of an event entry is zero. -/
theorem getElem?_fill64_rest (hi : octets.length ≤ i) (h : i < 64) : (fill64 octets)[i]? = some 0 := by
  rw [fill64, List.getElem?_take_of_lt h, List.getElem?_append_right hi, List.getElem?_replicate_of_lt (by omega)]

end

/-- The sixteen octets that stand before those of an ATTENTION. -/
def attentionHeader (r : AttentionReport) (phase : Bool) : List Byte :=
  eventHeader 0x01 phase
    ++ [BitVec.ofNat 8 r.handle.val, flagOctet r.pseq 1 ||| flagOctet r.ap 2, BitVec.ofNat 8 r.octets.length]
    ++ List.replicate 9 0

theorem attentionOctets_eq (r : AttentionReport) (phase : Bool) :
    attentionOctets r phase = fill64 (attentionHeader r phase ++ r.octets) := rfl

section
variable {r : AttentionReport} {phase : Bool} {i : Nat}

theorem length_attentionHeader : (attentionHeader r phase).length = 16 := rfl

theorem length_attention : (attentionHeader r phase ++ r.octets).length = 16 + r.octets.length := List.length_append

/-- Section 11.5: octets 0 to 15 of an ATTENTION entry. -/
theorem attentionOctets_header (h : r.octets.length ≤ 48) (hi : i < 16) :
    (attentionOctets r phase)[i]? = (attentionHeader r phase)[i]? := by
  rw [attentionOctets_eq, getElem?_fill64 (by rw [length_attention]; omega) (by rw [length_attention]; omega),
    List.getElem?_append_left hi]

/-- Section 11.5: the ATTENTION's own octets stand from offset 16 on. -/
theorem attentionOctets_payload (h : r.octets.length ≤ 48) (hi : i < r.octets.length) :
    (attentionOctets r phase)[16 + i]? = r.octets[i]? := by
  rw [attentionOctets_eq, getElem?_fill64 (by rw [length_attention]; omega) (by rw [length_attention]; omega),
    List.getElem?_append_right (by rw [length_attentionHeader]; omega), length_attentionHeader, Nat.add_sub_cancel_left]

theorem attentionOctets_rest (hi : 16 + r.octets.length ≤ i) (h : i < 64) : (attentionOctets r phase)[i]? = some 0 := by
  rw [attentionOctets_eq, getElem?_fill64_rest (by rw [length_attention]; exact hi) h]

/-- The reserved octets of an ATTENTION's header. -/
theorem attentionHeader_reserved (hi : i = 1 ∨ i = 2 ∨ (7 ≤ i ∧ i < 16)) : (attentionHeader r phase)[i]? = some 0 := by
  rcases hi with rfl | rfl | ⟨hlow, hhigh⟩
  · rfl
  · rfl
  · have reserved : (attentionHeader r phase)[i]? = (List.replicate 9 (0 : Byte))[i - 7]? :=
      List.getElem?_append_right hlow
    rw [reserved, List.getElem?_replicate_of_lt (by omega)]

end

end Sys2Proof.Machine
end

section
/-! PROOFS. The end of a step: which completion, ATTENTION or report begins to be written, and when HALTED is entered (R101, R133,
R144, R148, R149, R158; entries 6, 13). -/

namespace Sys2Proof.Machine

/-! ## The completion writer (R144) -/

section
variable {s : State}

/-- R144: an idle writer begins the entry of the first completion handed. -/
theorem State.startCompletion_begins {c : Completion} {rest : List Completion} (hw : s.completionWrite = none)
    (hh : s.handed = c :: rest) : s.startCompletion = { s with
      handed := rest
      completionWrite := some {
        ctx := c.ctx, addr := s.completion.base + BitVec.ofNat 32 (16 * s.completion.tail)
        octets := completionOctets c (s.queue c.queue).head s.completion.phase } } := by
  rw [State.startCompletion, hw, hh]

theorem State.startCompletion_waits (h : s.completionWrite.isSome = true ∨ s.handed = []) : s.startCompletion = s := by
  unfold State.startCompletion
  split
  · next hw hh => simp [hw, hh] at h
  · rfl

/-- R144: the completion writer moves what it holds and nothing else. -/
theorem State.startCompletion_frame (s : State) : s.startCompletion =
    { s with handed := s.startCompletion.handed, completionWrite := s.startCompletion.completionWrite } := by
  unfold State.startCompletion
  split <;> rfl

end

/-! ## The report that is taken (R101, R133, R149) -/

section
variable {s : State}

/-- The first of the lines, queues or handles in ascending order. -/
theorem find?_finRange_eq_some {n : Nat} {p : Fin n → Bool} {i : Fin n} (hi : p i = true) (h : ∀ j < i, p j = false) :
    (List.finRange n).find? p = some i := by
  rw [← Fin.find?_eq_find?_finRange, Fin.find?_eq_some_iff]
  exact ⟨hi, h⟩

theorem find?_finRange_eq_none {n : Nat} {p : Fin n → Bool} (h : ∀ i, p i = false) : (List.finRange n).find? p = none := by
  rw [← Fin.find?_eq_find?_finRange, Fin.find?_eq_none_iff]
  exact h

theorem State.find?_line_none (h : ∀ l, (s.line l).reportPending = false) :
    (allLines.find? fun l => (s.line l).reportPending) = none := find?_finRange_eq_none h

theorem State.find?_queue_none (h : ∀ q, (s.queue q).report = none) :
    (allQueues.find? fun q => (s.queue q).report.isSome) = none :=
  find?_finRange_eq_none fun q => by rw [h q]; rfl

theorem State.presencePending_of_none {h : Handle} (hn : ∀ st, s.station h = some st → st.presenceChanges = 0) :
    s.presencePending h = false := by
  rw [← Bool.not_eq_true, State.presencePending_iff]
  rintro ⟨st, hst, hc⟩
  exact hc (hn st hst)

/-- R149: a line report is taken first, of the lowest line. -/
theorem State.takeReport_line {l : LineNo} (hl : (s.line l).reportPending = true)
    (hleast : ∀ k, k < l → (s.line k).reportPending = false) : s.takeReport = s.takeLineReport l := by
  have first : (allLines.find? fun l => (s.line l).reportPending) = some l := find?_finRange_eq_some hl hleast
  rw [State.takeReport, first]

/-- R149: then a queue report, of the lowest queue. -/
theorem State.takeReport_queue {q : QueueNo} {r : QueueReport} (hline : ∀ l, (s.line l).reportPending = false)
    (hq : (s.queue q).report = some r) (hleast : ∀ k, k < q → (s.queue k).report = none) :
    s.takeReport = s.takeQueueReport q r := by
  have first : (allQueues.find? fun q => (s.queue q).report.isSome) = some q :=
    find?_finRange_eq_some (by rw [hq]; rfl) fun k hk => by rw [hleast k hk]; rfl
  rw [State.takeReport, State.find?_line_none hline]
  simp only [first, hq]

/-- R149: then a presence report, of the lowest handle. -/
theorem State.takeReport_presence {h : Handle} {st : Station} (hline : ∀ l, (s.line l).reportPending = false)
    (hqueue : ∀ q, (s.queue q).report = none) (hst : s.station h = some st) (hc : st.presenceChanges ≠ 0)
    (hleast : ∀ k st', k < h → s.station k = some st' → st'.presenceChanges = 0) :
    s.takeReport = s.takePresenceReport h st := by
  have first : (allHandles.find? fun h => s.presencePending h) = some h :=
    find?_finRange_eq_some ((s.presencePending_iff h).2 ⟨st, hst, hc⟩) fun k hk =>
      State.presencePending_of_none fun st' => hleast k st' hk
  rw [State.takeReport, State.find?_line_none hline]
  simp only [State.find?_queue_none hqueue, first, hst]

theorem State.takeReport_none (hline : ∀ l, (s.line l).reportPending = false)
    (hqueue : ∀ q, (s.queue q).report = none) (hpresence : ∀ h st, s.station h = some st → st.presenceChanges = 0) :
    s.takeReport = s := by
  have none : (allHandles.find? fun h => s.presencePending h) = none :=
    find?_finRange_eq_none fun h => State.presencePending_of_none (hpresence h)
  rw [State.takeReport, State.find?_line_none hline]
  simp only [State.find?_queue_none hqueue, none]

/-- R149: a report that is taken clears what it reports, begins its entry and takes a place. -/
theorem State.takeReport_cases (s : State) : s.takeReport = s ∨ ∃ queues stations lines octets, s.takeReport =
    (({ s with queues := queues, stations := stations, lines := lines } : State).beginEvent octets none).takePlace := by
  unfold State.takeReport
  split
  · exact .inr ⟨_, _, _, _, rfl⟩
  · split
    · split
      · exact .inr ⟨_, _, _, _, rfl⟩
      · exact .inl rfl
    · split
      · split
        · exact .inr ⟨_, _, _, _, rfl⟩
        · exact .inl rfl
      · exact .inl rfl

/-- R148: the grant judged leaves everything but the notices and the record of refused lines. -/
theorem State.judgeGrant_frame (s : State) :
    s.judgeGrant = { s with lines := s.judgeGrant.lines, refusedLines := s.judgeGrant.refusedLines } := by
  cases hg : s.grantable with
  | false => rw [State.judgeGrant_refused hg]
  | true => rw [State.judgeGrant_granted hg]; rfl

/-- R148: a place taken leaves everything but its count and what the grant judged moves. -/
theorem State.takePlace_frame (s : State) : s.takePlace =
    { s with reserved := s.takePlace.reserved, lines := s.takePlace.lines, refusedLines := s.takePlace.refusedLines } := by
  rw [State.takePlace, State.judgeGrant_frame]

/-- A notice makes no line report. -/
theorem State.reportPending_takePlace (s : State) (l : LineNo) :
    (s.takePlace.line l).reportPending = (s.line l).reportPending := by
  unfold State.takePlace State.judgeGrant
  split
  · show (({ s with reserved := s.reserved + 1 } : State).tellLines s.refusedLines |>.line l).reportPending = _
    rw [State.line_tellLines, Line.noticed_eq]
    split <;> rfl
  · rfl

end

/-! ## The event writer (R149) -/

section
variable {s : State}

/-- R149: an ATTENTION goes before every report. -/
theorem State.startEvent_first {r : AttentionReport} {rest : List AttentionReport} (hw : s.eventWrite = none)
    (ha : s.attentions = r :: rest) : s.startEvent = ({ s with attentions := rest } : State).beginEvent
      (attentionOctets r s.event.phase) (some (r.line, r.handle)) := by
  rw [State.startEvent, hw, ha]

/-- R149: a report is taken with no write in progress, no ATTENTION waiting and a place free. -/
def State.TakesReport (s : State) : Prop := s.eventWrite = none ∧ s.attentions = [] ∧ 0 < s.freePlaces

theorem State.startEvent_report (h : s.TakesReport) : s.startEvent = s.takeReport := by
  obtain ⟨hw, ha, hf⟩ := h
  rw [State.startEvent, hw, ha]
  exact if_pos hf

/-- R149: otherwise, with no ATTENTION waiting, no write begins. -/
theorem State.startEvent_waits (h : s.eventWrite.isSome = true ∨ (s.attentions = [] ∧ s.freePlaces = 0)) :
    s.startEvent = s := by
  unfold State.startEvent
  split
  · rfl
  · next hw =>
    obtain ⟨ha, hf⟩ := h.resolve_left (by rw [hw]; exact Bool.false_ne_true)
    rw [ha, hf]
    rfl

/-- The event writer moves the tables of what it reports, what it holds itself, and the counts of its places. -/
theorem State.startEvent_frame (s : State) : s.startEvent = { s with
    queues := s.startEvent.queues, stations := s.startEvent.stations, lines := s.startEvent.lines
    attentions := s.startEvent.attentions, eventWrite := s.startEvent.eventWrite, reserved := s.startEvent.reserved
    refusedLines := s.startEvent.refusedLines } := by
  unfold State.startEvent
  split
  · rfl
  · split
    · rfl
    · split
      · rcases s.takeReport_cases with same | ⟨queues, stations, lines, octets, taken⟩
        · rw [same]
        · rw [taken, State.takePlace_frame]
          rfl
      · rfl

/-- R158: no engine becomes busy or idle by it. -/
theorem State.state_startEvent (s : State) (l : LineNo) : (s.startEvent.line l).state = (s.line l).state := by
  rw [(((s.sameButWriters_iff _).1 s.writers_startEvent).2.2.1 l).2]

end

/-! ## HALTED (R158) -/

section
variable {s : State}

/-- R158: nothing holds the device in HALTING any more. -/
def State.Halts (s : State) : Prop := s.device = .halting ∧ s.reading = none ∧ ∀ l, (s.line l).state.busy = false

theorem State.halts_iff : (s.device = .halting ∧ s.reading = none ∧ (allLines.all fun l => !(s.line l).state.busy) = true) ↔
    s.Halts := by
  simp [State.Halts, allLines]

theorem State.checkHalted_halts (h : s.Halts) : s.checkHalted = ({ s with device := .halted } : State).setCause .halted :=
  if_pos (State.halts_iff.2 h)

theorem State.checkHalted_stays (h : ¬ s.Halts) : s.checkHalted = s := if_neg (State.halts_iff.not.2 h)

/-- R158: entry into HALTED moves the device and its cause. -/
theorem State.checkHalted_frame (s : State) : s.checkHalted = { s with
    device := s.checkHalted.device, intStatus := s.checkHalted.intStatus, intPin := s.checkHalted.intPin } := by
  by_cases h : s.Halts
  · rw [State.checkHalted_halts h]; rfl
  · rw [State.checkHalted_stays h]

end

end Sys2Proof.Machine
end

section
/-! PROOFS. The end of a step as a whole (R101, R133, R144, R149, R153, R158; entry 6): the completion writer, then the event
writer, then HALTED; with the octets of what they begin (R163, R164; sections 11.4, 11.5). -/

namespace Sys2Proof.Machine

/-! ## When the event writer takes no report (R149) -/

section
variable {s : State}

/-- R147, R149: no report of a line, a queue or a station is pending. -/
def State.NoneReports (s : State) : Prop :=
  (∀ l, (s.line l).reportPending = false) ∧ (∀ q, (s.queue q).report = none) ∧
    ∀ h st, s.station h = some st → st.presenceChanges = 0

theorem State.NoneReports.takeReport (h : s.NoneReports) : s.takeReport = s :=
  State.takeReport_none h.1 h.2.1 h.2.2

/-- R149: with no ATTENTION waiting and no report that can be taken, no write begins. -/
theorem State.startEvent_idle (h : s.eventWrite.isSome = true ∨ (s.attentions = [] ∧ (s.freePlaces = 0 ∨ s.NoneReports))) :
    s.startEvent = s := by
  rcases h with hw | ⟨ha, hf | hn⟩
  · exact State.startEvent_waits (.inl hw)
  · exact State.startEvent_waits (.inr ⟨ha, hf⟩)
  · cases hw : s.eventWrite with
    | some w => exact State.startEvent_waits (.inl (by rw [hw]; rfl))
    | none =>
      rcases Nat.eq_zero_or_pos s.freePlaces with hf | hf
      · exact State.startEvent_waits (.inr ⟨ha, hf⟩)
      · rw [State.startEvent_report ⟨hw, ha, hf⟩, hn.takeReport]

/-- R149: where no report is taken, at most an ATTENTION begins to be written. -/
theorem State.startEvent_noReport
    (h : s.eventWrite.isSome = true ∨ s.attentions ≠ [] ∨ s.freePlaces = 0 ∨ s.NoneReports) :
    s.startEvent = { s with attentions := s.startEvent.attentions, eventWrite := s.startEvent.eventWrite } := by
  cases hw : s.eventWrite with
  | some w => rw [State.startEvent_waits (.inl (by rw [hw]; rfl))]
  | none =>
    cases ha : s.attentions with
    | nil =>
      have idle : s.freePlaces = 0 ∨ s.NoneReports := by simpa [hw, ha] using h
      rw [State.startEvent_idle (.inr ⟨ha, idle⟩)]
    | cons r rest =>
      rw [State.startEvent_first hw ha]
      rfl

end

/-! ## The three parts of the end of a step -/

section
variable {s : State}

/-- The state in which the completion writer has begun what it can (R144). -/
def State.completionBegun (s : State) : State :=
  { s with handed := s.startCompletion.handed, completionWrite := s.startCompletion.completionWrite }

/-- R153: outside RUNNING, HALTING and HALTED the end of a step does nothing. -/
theorem State.finish_idle (hp : s.posting = false) : s.finish = s := by
  rw [State.finish, hp]
  rfl

theorem State.finish_eq (hp : s.posting = true) : s.finish = s.completionBegun.startEvent.checkHalted := by
  rw [State.finish, hp, State.completionBegun, ← State.startCompletion_frame]
  rfl

/-- What the writers hold and what they report is fixed before HALTED is judged. -/
theorem State.finish_frame (hp : s.posting = true) : s.finish = { s.completionBegun.startEvent with
    device := s.finish.device, intStatus := s.finish.intStatus, intPin := s.finish.intPin } := by
  rw [State.finish_eq hp, State.checkHalted_frame]

/-- R144: the event writer leaves what the completion writer holds. -/
theorem State.finish_completion (hp : s.posting = true) :
    s.finish.handed = s.startCompletion.handed ∧ s.finish.completionWrite = s.startCompletion.completionWrite := by
  rw [State.finish_frame hp]
  exact State.startEvent_told _

/-- R158: what is judged for HALTED is as it was when the step's end began. -/
theorem State.halts_startEvent : s.completionBegun.startEvent.Halts ↔ s.Halts := by
  unfold State.Halts
  simp only [State.state_startEvent]
  rw [State.startEvent_frame]
  rfl

/-- R158: HALTED is entered at the end of the step. -/
theorem State.finish_halts (hp : s.posting = true) (h : s.Halts) : s.finish.device = .halted ∧
    s.finish.intStatus = s.intStatus ||| 0x04#5 ∧ s.finish.intPin = ((s.intStatus ||| 0x04#5) &&& s.intEnable != 0) := by
  rw [State.finish_eq hp, State.checkHalted_halts (State.halts_startEvent.2 h), State.startEvent_frame]
  exact ⟨rfl, rfl, rfl⟩

theorem State.finish_stays (hp : s.posting = true) (h : ¬ s.Halts) :
    s.finish.device = s.device ∧ s.finish.intStatus = s.intStatus ∧ s.finish.intPin = s.intPin := by
  rw [State.finish_eq hp, State.checkHalted_stays (State.halts_startEvent.not.2 h), State.startEvent_frame]
  exact ⟨rfl, rfl, rfl⟩

/-- R149: a report that can be taken begins its entry and takes a place. -/
theorem State.finish_takes {u : State} {octets : List Byte} (hp : s.posting = true) (hr : s.TakesReport)
    (taken : s.completionBegun.takeReport = (u.beginEvent octets none).takePlace) :
    s.finish.eventWrite = some {
      addr := u.event.base + BitVec.ofNat 32 (64 * u.event.tail), octets := octets, attention := none } ∧
    s.finish.reserved = u.reserved + 1 ∧ s.finish.queues = u.queues ∧ s.finish.stations = u.stations ∧
    ∀ l, (s.finish.line l).reportPending = (u.line l).reportPending := by
  have begun : s.completionBegun.startEvent = (u.beginEvent octets none).takePlace :=
    (State.startEvent_report (s := s.completionBegun) hr).trans taken
  have pending := State.reportPending_takePlace (u.beginEvent octets none)
  obtain ⟨reserved, write⟩ := (u.beginEvent octets none).takePlace_counts
  rw [State.finish_frame hp, begun]
  refine ⟨write, reserved, ?_, ?_, pending⟩
  · rw [State.takePlace_frame]; rfl
  · rw [State.takePlace_frame]; rfl

/-- R101, R149: a line report that is taken. -/
theorem State.finish_lineReport {l : LineNo} (hp : s.posting = true) (hr : s.TakesReport)
    (hl : (s.line l).reportPending = true) (hleast : ∀ k, k < l → (s.line k).reportPending = false) :
    s.finish.eventWrite = some {
      addr := s.event.base + BitVec.ofNat 32 (64 * s.event.tail), octets := lineOctets l (s.line l) s.event.phase
      attention := none } ∧
    (s.finish.line l).reportPending = false ∧ s.finish.reserved = s.reserved + 1 := by
  obtain ⟨write, reserved, -, -, pending⟩ := State.finish_takes hp hr (State.takeReport_line hl hleast)
  refine ⟨write, (pending l).trans ?_, reserved⟩
  rw [State.updLine_eq, State.line_setLine_same]
  rfl

/-- R133, R149: a queue report that is taken. -/
theorem State.finish_queueReport {q : QueueNo} {r : QueueReport} (hp : s.posting = true) (hr : s.TakesReport)
    (hline : ∀ l, (s.line l).reportPending = false) (hq : (s.queue q).report = some r)
    (hleast : ∀ k, k < q → (s.queue k).report = none) :
    s.finish.eventWrite = some {
      addr := s.event.base + BitVec.ofNat 32 (64 * s.event.tail), octets := queueStoppedOctets q r s.event.phase
      attention := none } ∧
    (s.finish.queue q).report = none ∧ s.finish.reserved = s.reserved + 1 := by
  obtain ⟨write, reserved, queues, -, -⟩ := State.finish_takes hp hr (State.takeReport_queue hline hq hleast)
  refine ⟨write, ?_, reserved⟩
  rw [State.queue, queues, ← State.queue, State.queue_updQueue_same]

/-- R21, R149: a presence report that is taken. -/
theorem State.finish_presenceReport {h : Handle} {st : Station} (hp : s.posting = true) (hr : s.TakesReport)
    (hline : ∀ l, (s.line l).reportPending = false) (hqueue : ∀ q, (s.queue q).report = none)
    (hst : s.station h = some st) (hc : st.presenceChanges ≠ 0)
    (hleast : ∀ k st', k < h → s.station k = some st' → st'.presenceChanges = 0) :
    s.finish.eventWrite = some {
      addr := s.event.base + BitVec.ofNat 32 (64 * s.event.tail), octets := presenceOctets h st s.event.phase
      attention := none } ∧
    s.finish.reserved = s.reserved + 1 ∧
    s.finish.station h = some { st with lastReported := st.presence, presenceChanges := 0 } := by
  obtain ⟨write, reserved, -, stations, -⟩ :=
    State.finish_takes hp hr (State.takeReport_presence hline hqueue hst hc hleast)
  refine ⟨write, reserved, ?_⟩
  rw [State.station, stations, ← State.station, State.station_setStation_same]

/-- R149: the first ATTENTION handed begins to be written. -/
theorem State.finish_attention {r : AttentionReport} {rest : List AttentionReport} (hp : s.posting = true)
    (hw : s.eventWrite = none) (ha : s.attentions = r :: rest) :
    s.finish.attentions = rest ∧ s.finish.eventWrite = some {
      addr := s.event.base + BitVec.ofNat 32 (64 * s.event.tail), octets := attentionOctets r s.event.phase
      attention := some (r.line, r.handle) } := by
  have begun := State.startEvent_first (s := s.completionBegun) hw ha
  rw [State.finish_frame hp, begun]
  exact ⟨rfl, rfl⟩

end

end Sys2Proof.Machine

open Sys2Proof Sys2Proof.Machine

/-- Settles O54: `State.finish_frame` gives what is begun at the end of a step, `State.finish_takes` what a taken report leaves,
`State.finish_halts` HALTED; the octets stand at their offsets in the lists of sections 11.4 and 11.5. -/
theorem writersFollowTheStep : Obligations.WritersFollowTheStep := by
  refine ⟨fun s => ?_, fun c head phase hturn htag hlen hhead => ?_, ⟨by decide, by decide, by decide, fun _ => rfl, fun h =>
    toNat_octet (by omega)⟩, fun r phase hlen => ?_, fun h st phase hcount => ?_, fun l x phase hbreaks hchatter => ?_,
    fun q r phase hhead => ?_⟩
  · intro entry free noLine noQueue noPresence halts
    refine ⟨s.writers_finish, State.finish_idle, fun hp => ⟨fun c rest hw hh => ?_, fun r rest => State.finish_attention hp,
      fun l => State.finish_lineReport hp, fun q r => State.finish_queueReport hp,
      fun h st => State.finish_presenceReport hp, fun h => ?_, fun h => ?_, fun h => ?_, State.finish_halts hp,
      State.finish_stays hp⟩⟩
    · have begun := State.startCompletion_begins hw hh
      obtain ⟨handed, write⟩ := State.finish_completion hp
      exact ⟨handed.trans (by rw [begun]), write.trans (by rw [begun])⟩
    · obtain ⟨handed, write⟩ := State.finish_completion hp
      rw [State.startCompletion_waits h] at handed write
      exact ⟨write, handed⟩
    · have begun := State.startEvent_noReport (s := s.completionBegun) h
      rw [State.finish_frame hp, begun]
      exact ⟨rfl, rfl, rfl, rfl, rfl⟩
    · have begun := State.startEvent_idle (s := s.completionBegun) h
      rw [State.finish_frame hp, begun]
      exact ⟨rfl, rfl⟩
  · intro o
    refine ⟨rfl, rfl, rfl, rfl, toNat_octet (by omega), two_octets htag, toNat_octet (by omega), toNat_bandOctet c.band, ?_,
      two_octets hhead, rfl, toNat_phaseOctet phase⟩
    exact (four_octets (turnaroundWord_lt c.turnaround)).trans (turnaroundWord_eq _ hturn)
  · intro o
    have header : ∀ i, i < 16 → o[i]? = (attentionHeader r phase)[i]? := fun i => attentionOctets_header hlen
    refine ⟨length_fill64 _, header 0 (by decide), header 3 (by decide), ?_, ?_, ?_, fun i => attentionOctets_payload hlen,
      fun i hi => ?_, fun i => attentionOctets_rest⟩
    · exact (le8_of_getElem? (header 4 (by decide))).trans (toNat_octet (by omega))
    · exact (le8_of_getElem? (header 5 (by decide))).trans (toNat_flagOctets r.pseq r.ap)
    · exact (le8_of_getElem? (header 6 (by decide))).trans (toNat_octet (by omega))
    · rw [header i (by omega), attentionHeader_reserved hi]
  · intro o code
    refine ⟨length_fill64 _, rfl, rfl, toNat_octet (by omega), ?_, toNat_octet (by omega), ?_, fun i hi h => ?_⟩
    · show (Presence.code st.presence).toNat = _
      cases st.presence <;> rfl
    · show (Presence.code st.lastReported).toNat = _
      cases st.lastReported <;> rfl
    · rcases hi with rfl | rfl | hi
      · rfl
      · rfl
      · exact getElem?_fill64_rest hi h
  · intro o
    refine ⟨length_fill64 _, rfl, rfl, toNat_octet (by omega), toNat_octet (by omega), toNat_octet (by omega),
      toNat_flagOctets x.breakEnded x.stuckSeen, ?_, fun i hi h => ?_⟩
    · show (Condition.code x.condition).toNat = _
      cases x.condition <;> rfl
    · rcases hi with rfl | rfl | hi
      · rfl
      · rfl
      · exact getElem?_fill64_rest hi h
  · intro o
    refine ⟨length_fill64 _, rfl, rfl, toNat_octet (by omega), ?_, two_octets hhead, fun i hi h => ?_⟩
    · show (StopCause.code r.cause).toNat = _
      cases r.cause <;> rfl
    · rcases hi with rfl | rfl | rfl | rfl | hi
      · rfl
      · rfl
      · rfl
      · rfl
      · exact getElem?_fill64_rest hi h
end

section
/-! PROOFS. What the posting of an entry does to host memory and to the interrupt unit (R144, R149, R151, R152;
entries 11, 13). -/

namespace Sys2Proof.Machine

/-! ## Host memory (entries 11, 13) -/

/-- An octet lies in one of the words written when its word is one of them. -/
theorem mem_wordOffsets {words : List Nat} {n i : Nat} : i ∈ wordOffsets words n ↔ i / 4 ∈ words.take n := by
  have within : ∀ w, i ∈ [4 * w, 4 * w + 1, 4 * w + 2, 4 * w + 3] ↔ i / 4 = w := fun w => by
    simp only [List.mem_cons, List.not_mem_nil, or_false]
    omega
  simp only [wordOffsets, List.mem_flatMap, within, exists_eq_right']

/-- R144: the four words of a completion entry are its sixteen octets. -/
theorem mem_completionOffsets (i : Nat) : i ∈ wordOffsets completionWords 4 ↔ i < 16 := by
  rw [mem_wordOffsets, show completionWords.take 4 = [0, 1, 2, 3] from rfl]
  simp only [List.mem_cons, List.not_mem_nil, or_false]
  omega

/-- R149: the sixteen words of an event entry are its 64 octets. -/
theorem mem_eventOffsets (i : Nat) : i ∈ wordOffsets eventWords 16 ↔ i < 64 := by
  rw [mem_wordOffsets, show eventWords.take 16 = [1, 2, 3, 4, 5, 6, 7, 8, 9, 10, 11, 12, 13, 14, 15, 0] from rfl]
  simp only [List.mem_cons, List.not_mem_nil, or_false]
  omega

/-- An entry that has been written is in memory, and the rest of memory is as it was. -/
theorem readMem_entry {base : Word} {octets : List Byte} {offsets : List Nat} {n : Nat} (m : List Host.Cell)
    (ho : ∀ i, i ∈ offsets ↔ i < n) (hlen : octets.length = n) (hn : n ≤ 64) :
    (∀ i, i < n → readMem (writeOctets base octets offsets m) (addrPlus base i) = octets[i]?) ∧
      ∀ a, (∀ i, i < n → a ≠ addrPlus base i) → readMem (writeOctets base octets offsets m) a = readMem m a := by
  refine ⟨fun i hi => ?_, fun a ha => readMem_writeOctets_ne _ _ _ _ _ fun i hi => ha i ((ho i).1 hi)⟩
  have octet : octets[i]? = some (octetAt octets i) := by
    rw [octetAt, List.getD_eq_getElem _ _ (hlen ▸ hi), List.getElem?_eq_getElem]
  rw [octet]
  refine readMem_writeOctets m ((ho i).2 hi) fun j hj => ?_
  have := (ho j).1 hj
  omega

/-! ## The interrupt unit (R151, R152) -/

section
variable {s : State}

/-- R152: a posting of the completion ring moves its coalescing and the causes. -/
theorem State.completionPosting_frame (s : State) : s.completionPosting = { s with
    completionInt := (s.completionInt.posting s.clock).1
    intStatus := s.completionPosting.intStatus, intPin := s.completionPosting.intPin } := by
  unfold State.completionPosting
  simp only
  split <;> rfl

/-- R152: a posting of the event ring moves its coalescing and the causes. -/
theorem State.eventPosting_frame (s : State) : s.eventPosting = { s with
    eventInt := (s.eventInt.posting s.clock).1
    intStatus := s.eventPosting.intStatus, intPin := s.eventPosting.intPin } := by
  unfold State.eventPosting
  simp only
  split <;> rfl

/-- R151: a cause that is set shows in its bit. -/
theorem getLsbD_setCause {n : Nat} (status : BitVec 5) {mask : BitVec 5} (hm : mask.getLsbD n = true) :
    (status ||| mask).getLsbD n = true := by
  rw [BitVec.getLsbD_or, hm, Bool.or_true]

theorem State.completionPosting_announces (h : (s.completionInt.posting s.clock).2 = true) :
    s.completionPosting.intStatus.getLsbD 0 = true := by
  unfold State.completionPosting
  simp only [if_pos h]
  exact getLsbD_setCause s.intStatus (mask := 1) rfl

theorem State.eventPosting_announces (h : (s.eventInt.posting s.clock).2 = true) :
    s.eventPosting.intStatus.getLsbD 1 = true := by
  unfold State.eventPosting
  simp only [if_pos h]
  exact getLsbD_setCause s.intStatus (mask := 2) rfl

/-- R151: the end of a step clears no cause. -/
theorem State.intStatus_finish {n : Nat} (h : s.intStatus.getLsbD n = true) : s.finish.intStatus.getLsbD n = true := by
  cases hp : s.posting with
  | false => rwa [State.finish_idle hp]
  | true =>
    by_cases halts : s.Halts
    · rw [(State.finish_halts hp halts).2.1, BitVec.getLsbD_or, h, Bool.true_or]
    · rwa [(State.finish_stays hp halts).2.1]

end

end Sys2Proof.Machine
end

section
/-! PROOFS. The posting of a completion entry: the context it frees and the FENCEs that count it (R56, R79, R142, R145,
R152). -/

namespace Sys2Proof.Machine

/-! ## One FENCE (R79) -/

section
variable {s : State} {id k : Nat} {f : Context}

theorem State.ctx_fenceCounts_ne (h : k ≠ id) : (s.fenceCounts id).ctx k = s.ctx k := by
  have counted : (s.updCtx id fun c => { c with fenceCount := c.fenceCount - 1 }).ctx k = s.ctx k :=
    State.ctx_updCtx_ne (fun _ => rfl) h
  unfold State.fenceCounts
  simp only
  split
  · rw [State.ctx_endRecord_ne h, counted]
  · exact counted

theorem State.tells_fenceCounts (s : State) (id : Nat) : s.Tells (s.fenceCounts id) := by
  have counted := s.tells_updCtx id (fun c => { c with fenceCount := c.fenceCount - 1 }) fun _ => rfl
  unfold State.fenceCounts
  simp only
  split
  · exact counted.trans (State.tells_endRecord ..)
  · exact counted

/-- R79: a FENCE whose last counted context is freed ends OK. -/
theorem State.handed_fenceCounts (hf : s.ctx id = some f) (hl : f.Live) (hn : f.fenceCount = 1) :
    (s.fenceCounts id).Handed id .ok .none := by
  have counted : (s.updCtx id fun c => { c with fenceCount := c.fenceCount - 1 }).ctx id =
      some { f with fenceCount := f.fenceCount - 1 } := State.ctx_updCtx_same (fun _ => rfl) hf hl.1
  have ends : s.fenceCounts id =
      (s.updCtx id fun c => { c with fenceCount := c.fenceCount - 1 }).endRecord id .ok .none :=
    if_pos (by rw [counted, hn]; rfl)
  rw [ends]
  exact State.handed_endRecord _ id .ok .none counted hl

/-- R79: a FENCE that still counts contexts counts one fewer. -/
theorem State.ctx_fenceCounts (hf : s.ctx id = some f) (hp : f.phase ≠ .ending) (hn : 1 < f.fenceCount) :
    (s.fenceCounts id).ctx id = some { f with fenceCount := f.fenceCount - 1 } := by
  have counted : (s.updCtx id fun c => { c with fenceCount := c.fenceCount - 1 }).ctx id =
      some { f with fenceCount := f.fenceCount - 1 } := State.ctx_updCtx_same (fun _ => rfl) hf hp
  have waits : s.fenceCounts id = s.updCtx id fun c => { c with fenceCount := c.fenceCount - 1 } := by
    refine if_neg ?_
    rw [counted, Option.map_some, Option.some.injEq]
    show f.fenceCount - 1 ≠ 0
    omega
  rw [waits, counted]

end

/-! ## The FENCEs of a list (R79) -/

/-- The FENCEs listed count one entry fewer, in the order of the list. -/
def State.fencesCount (s : State) (ids : List Nat) : State := ids.foldl (fun s id => s.fenceCounts id) s

section
variable {s : State} {ids : List Nat} {k : Nat}

theorem State.tells_fencesCount : s.Tells (s.fencesCount ids) := .foldl _ (fun s id => s.tells_fenceCounts id) _ _

theorem State.ctx_fencesCount_of_not_mem (h : k ∉ ids) : (s.fencesCount ids).ctx k = s.ctx k := by
  induction ids generalizing s with
  | nil => rfl
  | cons id rest ih =>
    obtain ⟨hid, hrest⟩ : k ≠ id ∧ k ∉ rest := by simpa using h
    exact (ih hrest).trans (State.ctx_fenceCounts_ne hid)

/-- A list with `k` in it once: those before it, `k`, and those after it. -/
theorem State.fencesCount_append (s : State) (before after : List Nat) (k : Nat) :
    s.fencesCount (before ++ k :: after) = ((s.fencesCount before).fenceCounts k).fencesCount after :=
  List.foldl_append ..

variable {before after : List Nat} {f : Context}

theorem State.handed_fencesCount (hb : k ∉ before) (hf : s.ctx k = some f) (hl : f.Live) (hn : f.fenceCount = 1) :
    (s.fencesCount (before ++ k :: after)).Handed k .ok .none := by
  rw [State.fencesCount_append]
  exact (State.handed_fenceCounts ((State.ctx_fencesCount_of_not_mem hb).trans hf) hl hn).tells State.tells_fencesCount

theorem State.ctx_fencesCount (hb : k ∉ before) (ha : k ∉ after) (hf : s.ctx k = some f) (hp : f.phase ≠ .ending)
    (hn : 1 < f.fenceCount) :
    (s.fencesCount (before ++ k :: after)).ctx k = some { f with fenceCount := f.fenceCount - 1 } := by
  rw [State.fencesCount_append, State.ctx_fencesCount_of_not_mem ha,
    State.ctx_fenceCounts ((State.ctx_fencesCount_of_not_mem hb).trans hf) hp hn]

end

/-! ## The FENCEs that count a context (R79) -/

/-- A FENCE of the queue of `c` whose end is not decided. -/
def Context.fences (c d : Context) : Bool := d.kind == some .fence && d.queue == c.queue && d.phase == .queued

section
variable {s : State} {c : Context}

/-- R56: a name stands in the pool once. -/
theorem State.name_once {before after : List Context} {f : Context} (h : s.ContextsDistinct)
    (hpool : s.pool = before ++ f :: after) : (∀ d ∈ before, d.id ≠ f.id) ∧ ∀ d ∈ after, d.id ≠ f.id := by
  have names := h.1
  rw [hpool, List.map_append, List.map_cons, List.nodup_middle, List.nodup_cons, List.mem_append, not_or] at names
  obtain ⟨⟨notBefore, notAfter⟩, -⟩ := names
  exact ⟨fun d hd e => notBefore (List.mem_map.2 ⟨d, hd, e⟩), fun d hd e => notAfter (List.mem_map.2 ⟨d, hd, e⟩)⟩

/-- R79: they are among those accepted after it. -/
theorem State.fencesAfter_eq {before after : List Context} (h : s.ContextsDistinct) (hpool : s.pool = before ++ c :: after) :
    s.fencesAfter c = (after.filter c.fences).map (·.id) := by
  have others : ∀ d ∈ before, (d.id != c.id) = true := fun d hd => bne_iff_ne.2 ((State.name_once h hpool).1 d hd)
  have own : ¬ (c.id != c.id) = true := by simp
  rw [State.fencesAfter, hpool, List.dropWhile_append_of_pos others, List.dropWhile_cons, if_neg own]
  rfl

/-- R79: a FENCE accepted after the context stands once among those that count it. -/
theorem State.fencesAfter_split {before mid after : List Context} {f : Context} (h : s.ContextsDistinct)
    (hpool : s.pool = before ++ c :: mid ++ f :: after) (hf : c.fences f = true) : ∃ others later,
    s.fencesAfter c = others ++ f.id :: later ∧ f.id ∉ others ∧ f.id ∉ later := by
  obtain ⟨notBefore, notAfter⟩ := State.name_once h hpool
  have unlisted : ∀ ds : List Context, (∀ d ∈ ds, d.id ≠ f.id) → f.id ∉ (ds.filter c.fences).map (·.id) := by
    intro ds hds hm
    obtain ⟨d, hd, hid⟩ := List.mem_map.1 hm
    exact hds d (List.mem_filter.1 hd).1 hid
  refine ⟨(mid.filter c.fences).map (·.id), (after.filter c.fences).map (·.id), ?_,
    unlisted mid fun d hd => notBefore d (List.mem_append_right _ (List.mem_cons_of_mem _ hd)), unlisted after notAfter⟩
  rw [State.fencesAfter_eq (after := mid ++ f :: after) h (hpool.trans (List.append_assoc ..)),
    List.filter_append, List.filter_cons_of_pos hf, List.map_append, List.map_cons]

/-- R79: what counts the context is a FENCE. -/
theorem State.kind_of_mem_fencesAfter {f : Context} (h : s.ContextsDistinct) (hf : s.ctx f.id = some f)
    (hm : f.id ∈ s.fencesAfter c) : f.kind = some .fence := by
  obtain ⟨d, hd, hid⟩ := List.mem_map.1 hm
  obtain ⟨hin, hfence⟩ := List.mem_filter.1 hd
  have pool : d ∈ s.pool := (List.dropWhile_suffix _).subset (List.mem_of_mem_drop hin)
  obtain rfl := State.eq_of_distinct h pool (State.mem_of_ctx hf) hid
  simp only [Bool.and_eq_true, beq_iff_eq] at hfence
  exact hfence.1.1

end

/-! ## The context that is freed (R145) -/

section
variable {s : State} {id k : Nat} {c : Context}

theorem State.freeContext_eq (hc : s.ctx id = some c) : s.freeContext id =
    { s.fencesCount (s.fencesAfter c) with
      pool := (s.fencesCount (s.fencesAfter c)).pool.filter fun d => d.id != id } := by
  rw [State.freeContext, hc]
  rfl

/-- R145: the freed context is in use no more. -/
theorem State.ctx_freeContext_same (hc : s.ctx id = some c) : (s.freeContext id).ctx id = none := by
  rw [State.freeContext_eq hc, State.ctx, List.find?_eq_none]
  intro d hd
  simpa using (List.mem_filter.1 hd).2

/-- R145: every other context is as the FENCEs leave it. -/
theorem State.ctx_freeContext_ne (hc : s.ctx id = some c) (h : k ≠ id) :
    (s.freeContext id).ctx k = (s.fencesCount (s.fencesAfter c)).ctx k := by
  rw [State.freeContext_eq hc, State.ctx, State.ctx, List.find?_filter]
  congr 1
  funext d
  by_cases hd : d.id = k <;> simp [hd, h]

/-- R144: what the FENCEs hand stays handed. -/
theorem State.handed_freeContext {st : Status} {d : Detail} (hc : s.ctx id = some c) (h : k ≠ id)
    (hk : (s.fencesCount (s.fencesAfter c)).Handed k st d) : (s.freeContext id).Handed k st d := by
  refine ⟨?_, ?_⟩
  · rw [State.phaseOf, State.ctx_freeContext_ne hc h]
    exact hk.1
  · rw [State.freeContext_eq hc]
    exact hk.2

end

/-! ## The posting (R142, R145, R152) -/

section
variable {s : State} {w : CompletionWrite}

theorem State.posting_of (hr : s.resetHeld = false) (hd : s.device = .running ∨ s.device = .halting ∨ s.device = .halted) :
    s.posting = true := by
  rw [State.posting, State.live_of_resetHeld hr]
  rcases hd with hd | hd | hd <;> rw [hd] <;> rfl

/-- R145: an entry whose last transaction ends good is posted. -/
theorem exec_completionEntryPosted (hr : s.resetHeld = false)
    (hd : s.device = .running ∨ s.device = .halting ∨ s.device = .halted) (hw : s.completionWrite = some w) :
    exec .completionEntryPosted s = .next s.completionPosted :=
  runCommand_occurs (c := .completionEntryPosted) (o := s.posting && s.completionWrite.isSome) (e := State.completionPosted) rfl
    (State.live_of_resetHeld hr) (by rw [State.posting_of hr hd, hw]; rfl)

/-- R145: the entry is in memory and the ring has moved; its context is still in use. -/
def State.completionWritten (s : State) (w : CompletionWrite) : State := { s with
  mem := writeOctets w.addr w.octets (wordOffsets completionWords 4) s.mem
  completion := s.completion.post
  completionWrite := none }

/-- R142, R152: the context is free, and the arbiter and the interrupt unit know of it. -/
def State.completionAnnounced (s : State) (w : CompletionWrite) : State :=
  ((s.completionWritten w).freeContext w.ctx).tellArbiter.completionPosting

theorem State.completionPosted_eq (hw : s.completionWrite = some w) :
    s.completionPosted = (s.completionAnnounced w).finish := by
  rw [State.completionPosted, hw]
  rfl

theorem State.ctx_completionPosting (s : State) (k : Nat) : s.completionPosting.ctx k = s.ctx k := by
  rw [State.completionPosting_frame]
  rfl

theorem State.handed_completionPosting (s : State) : s.completionPosting.handed = s.handed := by
  rw [State.completionPosting_frame]

/-- R145: what the announcement and the end of the step leave of the contexts. -/
theorem State.ctx_completionAnnounced (s : State) (w : CompletionWrite) (k : Nat) :
    (s.completionAnnounced w).finish.ctx k = ((s.completionWritten w).freeContext w.ctx).ctx k := by
  rw [State.ctx_finish, State.completionAnnounced, State.ctx_completionPosting, State.ctx_tellArbiter]

/-- R144: what the FENCEs hand is reported when the step has ended. -/
theorem State.reports_completionAnnounced {k : Nat} {st : Status} {d : Detail}
    (h : ((s.completionWritten w).freeContext w.ctx).Handed k st d) : (s.completionAnnounced w).finish.Reports k st d := by
  refine State.Handed.reports ⟨?_, ?_⟩
  · rw [State.phaseOf, State.completionAnnounced, State.ctx_completionPosting, State.ctx_tellArbiter]
    exact h.1
  · rw [State.completionAnnounced, State.handed_completionPosting]
    exact h.2

/-- The part after the posting: the entry in memory, the ring, its coalescing and the arbiter. -/
def State.completionSettled (s : State) (w : CompletionWrite) : State := { s.completionWritten w with
  completionInt := (s.completionInt.posting s.clock).1
  fetchDue := s.fetchDue || s.reading.isNone }

theorem State.mem_completionSettled (s : State) (w : CompletionWrite) : (s.completionSettled w).mem =
    writeOctets w.addr w.octets (wordOffsets completionWords 4) s.mem := by
  rw [State.completionSettled, State.completionWritten]

/-- The posting settles these fields and no others. -/
theorem State.completionSettled_eq (s : State) (w : CompletionWrite) : s.completionSettled w = { s with
    completion := (s.completionSettled w).completion, completionInt := (s.completionSettled w).completionInt
    completionWrite := none, fetchDue := s.fetchDue || s.reading.isNone, mem := (s.completionSettled w).mem } := by
  simp only [State.completionSettled, State.completionWritten]

/-- Beside them the posting moves what ends and the end of a step move. -/
theorem State.sameButEnds_completionAnnounced (s : State) (w : CompletionWrite) :
    (s.completionSettled w).SameButEnds (s.completionAnnounced w).finish := by
  obtain ⟨rest, lines, stations⟩ := (s.completionWritten w).ends_freeContext w.ctx
  have freed : (s.completionSettled w).Ends { (s.completionWritten w).freeContext w.ctx with
      completionInt := (s.completionInt.posting s.clock).1, fetchDue := s.fetchDue || s.reading.isNone } := by
    refine ⟨?_, lines, stations⟩
    rw [rest]
    rfl
  refine ((State.sameButEnds_of_ends freed).trans (State.sameButEnds_of_writers (State.sameButWriters_plain ?_))).trans
    (State.sameButEnds_of_writers (State.writers_finish _))
  rw [State.completionAnnounced, State.completionPosting_frame]
  rw [rest]
  rfl

/-- R152: an announced posting sets the ring's cause. -/
theorem State.completionAnnounced_cause (h : (s.completionInt.posting s.clock).2 = true) :
    (s.completionAnnounced w).finish.intStatus.getLsbD 0 = true := by
  refine State.intStatus_finish (State.completionPosting_announces ?_)
  have same : ((s.completionWritten w).freeContext w.ctx).tellArbiter.completionInt = s.completionInt ∧
      ((s.completionWritten w).freeContext w.ctx).tellArbiter.clock = s.clock := by
    rw [((s.completionWritten w).ends_freeContext w.ctx).rest]
    exact ⟨rfl, rfl⟩
  rw [same.1, same.2, h]

end

/-- What is not among what ends move is as it was. -/
theorem State.SameButEnds.kept {s t : State} (h : s.SameButEnds t) : t.completion = s.completion ∧
    t.completionInt = s.completionInt ∧ t.event = s.event ∧ t.eventInt = s.eventInt ∧ t.mem = s.mem := by
  rw [h.1]
  exact ⟨rfl, rfl, rfl, rfl, rfl⟩

end Sys2Proof.Machine

open Sys2Proof Sys2Proof.Machine

/-- Settles O51: the step is `State.completionAnnounced` and the end of the step; a FENCE that counts the freed context stands
after it in the pool, once. -/
theorem completionEntryPosted : Obligations.CompletionEntryPosted := by
  intro s w x hr hd hw hlen hx hdistinct
  have same := s.sameButEnds_completionAnnounced w
  obtain ⟨ring, coalescing, -, -, mem⟩ := same.kept
  have id : x.id = w.ctx := State.ctx_id hx
  have context := s.ctx_completionAnnounced w
  have written : (s.completionWritten w).ctx w.ctx = some x := hx
  obtain ⟨entry, outside⟩ := readMem_entry (base := w.addr) s.mem mem_completionOffsets hlen (by decide)
  refine ⟨_, (exec_completionEntryPosted hr hd hw).trans (congrArg _ (State.completionPosted_eq hw)), ring, coalescing,
    State.completionAnnounced_cause, ?_, ?_, ?_, fun j f hj hf hkind => ?_, ?_,
    fun before mid after f hpool hkind hqueue hp hb => ?_⟩
  · rw [mem, State.mem_completionSettled]
    exact entry
  · rw [State.SameMemoryOutside, mem, State.mem_completionSettled]
    exact outside
  · rw [context, State.ctx_freeContext_same written]
  · have uncounted : j ∉ (s.completionWritten w).fencesAfter x := fun hm => by
      obtain rfl := State.ctx_id hf
      exact hkind (State.kind_of_mem_fencesAfter (s := s.completionWritten w) hdistinct hf hm)
    rw [context, State.ctx_freeContext_ne written hj, State.ctx_fencesCount_of_not_mem uncounted]
    exact hf
  · rwa [ring, coalescing, mem, ← State.completionSettled_eq]
  · have fence : x.fences f = true := by simp [Context.fences, hkind, hqueue, hp]
    have waiting : f.phase ≠ .ending := by rw [hp]; exact Phase.noConfusion
    have inUse : (s.completionWritten w).ctx f.id = some f :=
      State.ctx_of_mem (s := s) hdistinct (hpool ▸ List.mem_append_right _ (List.mem_cons_self ..))
    have other : f.id ≠ w.ctx := fun e =>
      (State.name_once hdistinct hpool).1 x (List.mem_append_right _ (List.mem_cons_self ..)) (id.trans e.symm)
    obtain ⟨others, later, counting, first, once⟩ :=
      State.fencesAfter_split (s := s.completionWritten w) hdistinct hpool fence
    refine ⟨fun hn => State.reports_completionAnnounced (State.handed_freeContext written other ?_), fun hn => ?_⟩
    · rw [counting]
      exact State.handed_fencesCount first inUse ⟨waiting, hb⟩ hn
    · rw [context, State.ctx_freeContext_ne written other, counting, State.ctx_fencesCount first once inUse waiting hn]
end

section
/-! PROOFS. The posting of an event entry: the place it gives up, the delivery it ends, and the CLOSING entry that settles then
(R23, R45, R73, R113, R118, R148, R150, R152; entry 36). -/

namespace Sys2Proof.Machine

/-! ## The delivery that ends (R23, R73, R113) -/

/-- R73, R113: the receive buffer is released, of which the line's scheduler is told. -/
theorem Line.releaseBuffer_eq (x : Line) : x.releaseBuffer =
    { x with rxBuffer := none, consultDue := if x.state = .idle then true else x.consultDue } := by
  unfold Line.releaseBuffer Line.noticed
  by_cases idle : x.state = .idle <;> simp [idle]

theorem Line.attempting_releaseBuffer (x : Line) (h : Handle) : x.releaseBuffer.attempting h = x.attempting h := by
  rw [Line.releaseBuffer_eq]
  rfl

/-- R73: what the written entry of an ATTENTION ends, before a CLOSING station is looked at. -/
def State.deliveryEnded (s : State) : Option (LineNo × Handle) → State
  | none => s
  | some (l, h) => (s.setLine l (s.line l).releaseBuffer).setStation h ((s.station h).map Station.deliveryEnds)

section
variable {s : State} {l : LineNo} {h : Handle} {st : Station}

theorem State.attentionWritten_some (s : State) (l : LineNo) (h : Handle) :
    s.attentionWritten (some (l, h)) = (s.deliveryEnded (some (l, h))).settleClosing h := rfl

theorem State.ends_attentionWritten (s : State) (a : Option (LineNo × Handle)) :
    (s.deliveryEnded a).Ends (s.attentionWritten a) := by
  match a with
  | none => exact .refl s
  | some (l, h) => exact State.ends_settleClosing _ h

theorem State.station_deliveryEnded (hst : s.station h = some st) :
    (s.deliveryEnded (some (l, h))).station h = some st.deliveryEnds := by
  rw [State.deliveryEnded, State.station_setStation_same, hst, Option.map_some]

/-- The end of a delivery touches no attempt. -/
theorem State.attempting_deliveryEnded (s : State) (l k : LineNo) (h g : Handle) :
    ((s.deliveryEnded (some (l, h))).line k).attempting g = (s.line k).attempting g := by
  rw [State.deliveryEnded, State.line_setStation, State.line_setLine]
  split
  · next e => rw [e, Line.attempting_releaseBuffer]
  · rfl

/-- The end of a delivery moves lines and stations alone. -/
theorem State.deliveryEnded_frame (s : State) (a : Option (LineNo × Handle)) : s.deliveryEnded a =
    { s with lines := (s.deliveryEnded a).lines, stations := (s.deliveryEnded a).stations } := by
  match a with
  | none => rfl
  | some (l, h) => rfl

end

/-! ## The posting (R148, R150, R152) -/

section
variable {s : State} {w : EventWrite}

/-- R150: an entry whose last transaction ends good is posted. -/
theorem exec_eventEntryPosted (hr : s.resetHeld = false)
    (hd : s.device = .running ∨ s.device = .halting ∨ s.device = .halted) (hw : s.eventWrite = some w) :
    exec .eventEntryPosted s = .next s.eventPosted :=
  runCommand_occurs (c := .eventEntryPosted) (o := s.posting && s.eventWrite.isSome) (e := State.eventPosted) rfl
    (State.live_of_resetHeld hr) (by rw [State.posting_of hr hd, hw]; rfl)

/-- R150: the entry is in memory, the ring has moved and the place is given up. -/
def State.eventWritten (s : State) (w : EventWrite) : State := { s with
  mem := writeOctets w.addr w.octets (wordOffsets eventWords 16) s.mem
  event := s.event.post
  reserved := s.reserved - 1
  eventWrite := none }

/-- R148, R152: the delivery has ended, the interrupt unit knows of the posting, and the grant condition is judged. -/
def State.eventAnnounced (s : State) (w : EventWrite) : State :=
  ((s.eventWritten w).attentionWritten w.attention).eventPosting.judgeGrant

theorem State.eventPosted_eq (hw : s.eventWrite = some w) : s.eventPosted = (s.eventAnnounced w).finish := by
  rw [State.eventPosted, hw]
  rfl

/-- The announcement of a posting leaves contexts, completions and stations alone. -/
theorem State.eventPosting_judgeGrant (s : State) :
    s.eventPosting.judgeGrant.pool = s.pool ∧ s.eventPosting.judgeGrant.handed = s.handed ∧
      s.eventPosting.judgeGrant.completionWrite = s.completionWrite ∧
      s.eventPosting.judgeGrant.stations = s.stations ∧ s.eventPosting.judgeGrant.reserved = s.reserved ∧
      s.eventPosting.judgeGrant.eventWrite = s.eventWrite := by
  rw [State.judgeGrant_frame, State.eventPosting_frame]
  exact ⟨rfl, rfl, rfl, rfl, rfl, rfl⟩

/-- The part after the posting: the entry in memory, the ring and its coalescing. -/
def State.eventSettled (s : State) (w : EventWrite) : State := { s with
  mem := writeOctets w.addr w.octets (wordOffsets eventWords 16) s.mem
  event := s.event.post
  eventInt := (s.eventInt.posting s.clock).1
  eventWrite := none }

theorem State.mem_eventSettled (s : State) (w : EventWrite) : (s.eventSettled w).mem =
    writeOctets w.addr w.octets (wordOffsets eventWords 16) s.mem := by
  rw [State.eventSettled]

/-- The posting settles these fields and no others. -/
theorem State.eventSettled_eq (s : State) (w : EventWrite) : s.eventSettled w = { s with
    event := (s.eventSettled w).event, eventInt := (s.eventSettled w).eventInt
    eventWrite := none, mem := (s.eventSettled w).mem } := by
  simp only [State.eventSettled]

/-- Until it is announced, the place and the coalescing stand apart from it. -/
theorem State.deliveryEnded_eventSettled (s : State) (w : EventWrite) (a : Option (LineNo × Handle)) :
    (s.eventSettled w).deliveryEnded a = { (s.eventWritten w).deliveryEnded a with
      reserved := s.reserved, eventInt := (s.eventInt.posting s.clock).1 } := by
  unfold State.eventSettled State.eventWritten
  generalize writeOctets w.addr w.octets (wordOffsets eventWords 16) s.mem = written
  match a with
  | none => rfl
  | some (l, h) => rfl

/-- The end of a delivery leaves what the interrupt unit holds. -/
theorem State.coalescing_attentionWritten (s : State) (a : Option (LineNo × Handle)) :
    (s.attentionWritten a).eventInt = s.eventInt ∧ (s.attentionWritten a).clock = s.clock := by
  rw [(s.ends_attentionWritten a).rest, State.deliveryEnded_frame]
  exact ⟨rfl, rfl⟩

/-- Beside them and the delivery the posting moves what ends and the end of a step move. -/
theorem State.sameButEnds_eventAnnounced (s : State) (w : EventWrite) :
    ((s.eventSettled w).deliveryEnded w.attention).SameButEnds (s.eventAnnounced w).finish := by
  obtain ⟨rest, lines, stations⟩ := (s.eventWritten w).ends_attentionWritten w.attention
  obtain ⟨coalescing, clock⟩ := (s.eventWritten w).coalescing_attentionWritten w.attention
  have ended : ((s.eventSettled w).deliveryEnded w.attention).Ends { (s.eventWritten w).attentionWritten w.attention with
      reserved := s.reserved, eventInt := (s.eventInt.posting s.clock).1 } := by
    rw [State.deliveryEnded_eventSettled]
    refine ⟨?_, lines, stations⟩
    rw [rest]
  refine ((State.sameButEnds_of_ends ended).trans (State.sameButEnds_of_writers (State.sameButWriters_plain ?_))).trans
    (State.sameButEnds_of_writers ((State.writers_judgeGrant _).trans (State.writers_finish _)))
  rw [State.eventPosting_frame, coalescing, clock]
  rfl

/-- R152: an announced posting sets the ring's cause. -/
theorem State.eventAnnounced_cause (h : (s.eventInt.posting s.clock).2 = true) :
    (s.eventAnnounced w).finish.intStatus.getLsbD 1 = true := by
  obtain ⟨coalescing, clock⟩ := (s.eventWritten w).coalescing_attentionWritten w.attention
  refine State.intStatus_finish ?_
  rw [State.eventAnnounced, State.judgeGrant_frame]
  exact State.eventPosting_announces (by rw [coalescing, clock]; exact h)

/-- R150: the place of the entry is given up, unless the next entry takes one at once. -/
theorem State.reserved_eventAnnounced (h : (s.eventAnnounced w).finish.eventWrite = none) :
    (s.eventAnnounced w).finish.reserved = s.reserved - 1 := by
  obtain ⟨-, -, -, -, announced, -⟩ := ((s.eventWritten w).attentionWritten w.attention).eventPosting_judgeGrant
  have given : ((s.eventWritten w).attentionWritten w.attention).reserved = s.reserved - 1 := by
    rw [((s.eventWritten w).ends_attentionWritten w.attention).rest, State.deliveryEnded_frame]
    rfl
  rcases State.mayTakePlace_finish (s.eventAnnounced w) with same | ⟨-, begun, -⟩
  · exact same.trans (announced.trans given)
  · rw [h] at begun
    cases begun

variable {l : LineNo} {h : Handle} {st : Station}

/-- R118: with the station not CLOSING the posting ends no context. -/
theorem State.pool_eventAnnounced (ha : w.attention = some (l, h)) (hst : s.station h = some st)
    (hs : st.state ≠ .closing) : (s.eventAnnounced w).finish.pool = s.pool := by
  obtain ⟨pool, -⟩ := ((s.eventWritten w).attentionWritten w.attention).eventPosting_judgeGrant
  have entry := State.station_deliveryEnded (s := s.eventWritten w) (l := l) (h := h) hst
  have none : ((s.eventWritten w).attentionWritten w.attention).pool = s.pool := by
    rw [ha, State.attentionWritten_some, State.settleClosing_of_not_closing entry hs, State.deliveryEnded_frame]
    rfl
  rw [(State.writers_finish _).1]
  exact pool.trans none

/-- R45, R73, R118: a CLOSING entry without an attempt settles with the end of its delivery. -/
theorem State.closingSettles_eventAnnounced (ha : w.attention = some (l, h)) (hst : s.station h = some st)
    (hs : st.state = .closing) (hatt : (s.line st.line).attempting h = false) :
    s.ClosingSettles (s.eventAnnounced w).finish h st.deliveryEnds none := by
  obtain ⟨pool, handed, write, stations, -⟩ :=
    ((s.eventWritten w).attentionWritten w.attention).eventPosting_judgeGrant
  have entry := State.station_deliveryEnded (s := s.eventWritten w) (l := l) (h := h) hst
  have settled : (s.eventWritten w).attentionWritten w.attention =
      ((s.eventWritten w).deliveryEnded (some (l, h))).settleClosing h := by rw [ha, State.attentionWritten_some]
  rw [settled] at pool handed write stations
  rw [State.eventAnnounced, settled]
  refine State.closingSettles_finish (waiting := st.deliveryEnds.pending) (link := st.deliveryEnds.link) entry hs
    (fun hn => ⟨hn, fun k => by simp⟩) (fun k _ => ?_) ((State.attempting_deliveryEnded ..).trans hatt)
    (.same pool handed write) ?_
  · rw [State.ctx, State.deliveryEnded_frame]
    rfl
  · rw [State.station, State.station, stations]

end

end Sys2Proof.Machine

open Sys2Proof Sys2Proof.Machine

/-- Settles O52: the step is `State.eventAnnounced` and the end of the step, from the state in which the delivery has ended. -/
theorem eventEntryPosted : Obligations.EventEntryPosted := by
  intro s w hr hd hw hlen
  have same := s.sameButEnds_eventAnnounced w
  obtain ⟨-, -, ring, coalescing, mem⟩ := same.kept
  rw [State.deliveryEnded_frame] at ring coalescing mem
  have settled : ({ s with
      event := (s.eventAnnounced w).finish.event, eventInt := (s.eventAnnounced w).finish.eventInt
      eventWrite := none, mem := (s.eventAnnounced w).finish.mem } : State) = s.eventSettled w := by
    rw [ring, coalescing, mem, ← State.eventSettled_eq]
  obtain ⟨entry, outside⟩ := readMem_entry (base := w.addr) s.mem mem_eventOffsets hlen (by decide)
  refine ⟨_, (exec_eventEntryPosted hr hd hw).trans (congrArg _ (State.eventPosted_eq hw)), ring, coalescing,
    State.eventAnnounced_cause, ?_, ?_, State.reserved_eventAnnounced, ?_⟩
  · rw [mem, State.mem_eventSettled]
    exact entry
  · rw [State.SameMemoryOutside, mem, State.mem_eventSettled]
    exact outside
  · intro u
    have base : u = s.eventSettled w := settled
    refine ⟨fun ha => ?_, ?_⟩
    · rw [ha] at same
      rw [base]
      exact same
    · intro l h st ha hst x
      refine ⟨?_, State.pool_eventAnnounced ha hst, State.closingSettles_eventAnnounced ha hst⟩
      have inUse : (s.eventSettled w).station h = some st := hst
      rw [ha, State.deliveryEnded, inUse, Option.map_some, Line.releaseBuffer_eq] at same
      rw [base]
      exact same
end

section
/-! PROOFS. The part that does not act: while its reset input is held (R161), and in FAILED, where only the interrupt unit, its
holdoff timers and the resets do (R99, R138, R152, R153, R159). -/

namespace Sys2Proof.Machine

/-! ## The reset input held (R161) -/

/-- R161: a command of the common frame has no effect while the reset input is held. -/
theorem runCommand_held {c : Instr} {o : Bool} {e : State → State} {s t : State} (hr : s.resetHeld = true)
    (h : runCommand c o e s = .next t) : t = s := by
  obtain ⟨-, ⟨hlive, -, -⟩ | same⟩ := runCommand_next h
  · rw [State.live, hr] at hlive
    cases hlive
  · exact same

/-- R161: every command but a hardware reset and its release goes through the common frame. -/
theorem exec_held {c : Instr} {s t : State} (hr : s.resetHeld = true) (hreset : c ≠ .hardwareReset)
    (hrelease : c ≠ .resetRelease) (h : exec c s = .next t) : t = s := by
  have record {r : List Byte} {act : State → Nat → State} (h : runRecord c r act s = .next t) : t = s := runCommand_held hr h
  unfold exec at h
  cases c
  case hardwareReset => exact (hreset rfl).elim
  case resetRelease => exact (hrelease rfl).elim
  case unknownKind | exchange | broadcast | addStation | removeStation | pauseStation | resumeStation | setLineDisable |
      setLineEnable | quiesceLine | resumeLine | lineReset | abort | fence => exact record h
  all_goals exact runCommand_held hr h

/-! ## What does not act in FAILED -/

/-- Everything but the interrupt unit, its clock and the held reset input is the same (R152, R159). -/
def State.SameButInterrupts (s t : State) : Prop :=
  t = { s with
        intStatus := t.intStatus, intEnable := t.intEnable, intPin := t.intPin, completionInt := t.completionInt
        eventInt := t.eventInt, clock := t.clock, resetHeld := t.resetHeld }

section
variable {s t : State} (hf : s.device = .failed)
include hf

/-- R159: lines, intake and station timers stand still. -/
theorem State.operating_failed : s.operating = false := by
  rw [State.operating, hf]
  exact Bool.and_false _

theorem State.watching_failed (l : LineNo) : s.watching l = false := by
  rw [State.watching, State.operating_failed hf]
  rfl

theorem State.reads_failed (l : LineNo) : s.reads l = false := by
  rw [State.reads, State.operating_failed hf]
  rfl

theorem State.mayEndReply_failed (l : LineNo) (r : BusWrite) : s.mayEndReply l r = false := by
  unfold State.mayEndReply
  rw [State.operating_failed hf]
  rfl

theorem State.timerRuns_failed (h : Handle) (k : TimerKind) : s.timerRuns h k = false := by
  rw [State.timerRuns, State.operating_failed hf]
  rfl

/-- R138: no record read ends. -/
theorem State.readInProgress_failed : s.readInProgress = false := by
  rw [State.readInProgress, hf]
  rfl

/-- R153: the writers write nothing. -/
theorem State.posting_failed : s.posting = false := by
  rw [State.posting, hf]
  exact Bool.and_false _

/-- R85: no engine consults its scheduler. -/
theorem State.mayChoose_failed (now : Nat) (l : LineNo) : (s.reach now).mayChoose l = false := by
  simp [State.mayChoose, hf]

/-! ## What the commands do in FAILED -/

/-- R130, R132, R146, R154, R159: the register writes that FAILED ignores. -/
theorem State.writes_failed : s.enableOne = s.reject ∧ s.enableZero = s.reject ∧ (∀ v, s.writeSetupAddr v = s.reject) ∧
    (∀ v, s.postTail v = s.reject) ∧ (∀ v, s.postRestart v = s.reject) ∧ ∀ v, s.retire v = s.reject := by
  simp [State.enableOne, State.enableZero, State.writeSetupAddr, State.postTail, State.postRestart, State.retire,
    DeviceState.started, hf]

/-- R35, R152: the expiry of a holdoff timer moves the interrupt unit and its clock, and no other time. -/
theorem State.sameButInterrupts_holdoff (ring : Ring) : s.SameButInterrupts (s.holdoffExpires ring) := by
  unfold State.holdoffExpires
  simp only [State.elapse_failed hf]
  cases ring <;> rfl

omit hf in
/-- A command of the common frame moves no more than its effect does where it occurs. -/
theorem sameButInterrupts_runCommand {c : Instr} {o : Bool} {e : State → State} (h : runCommand c o e s = .next t)
    (k : s.SameButInterrupts (e s)) : s.SameButInterrupts t := by
  obtain ⟨-, ⟨-, -, rfl⟩ | rfl⟩ := runCommand_next h
  · exact k
  · rfl

omit hf in
/-- An ignored write sets its cause (R151). -/
theorem sameButInterrupts_ignored {c : Instr} {o : Bool} {e : State → State} (h : runCommand c o e s = .next t)
    (ignored : e s = s.reject) : s.SameButInterrupts t :=
  sameButInterrupts_runCommand h (by rw [ignored]; rfl)

omit hf in
/-- An event that does not occur changes nothing (entry 1). -/
theorem sameButInterrupts_absent {c : Instr} {o : Bool} {e : State → State} (h : runCommand c o e s = .next t)
    (absent : o = false) : s.SameButInterrupts t := by
  obtain ⟨-, ⟨-, occurs, -⟩ | rfl⟩ := runCommand_next h
  · rw [absent] at occurs
    cases occurs
  · rfl

/-- R99, R138, R152, R153, R159: in FAILED a command that is no reset leaves all but the interrupt unit as it was frozen. -/
theorem exec_failed {c : Instr} (h : exec c s = .next t) (hhard : c ≠ .hardwareReset) (hsoft : ∀ v, c ≠ .softReset v) :
    s.SameButInterrupts t := by
  obtain ⟨enableOne, enableZero, setupAddr, postTail, postRestart, retire⟩ := State.writes_failed hf
  have acts {a : Bool} : (s.operating && a) = false := by rw [State.operating_failed hf]; rfl
  have posts {a : Bool} : (s.posting && a) = false := by rw [State.posting_failed hf]; rfl
  have watches {l : LineNo} {a : Bool} : (s.watching l && a) = false := by rw [State.watching_failed hf]; rfl
  have reads {l : LineNo} {a : Bool} : (s.reads l && a) = false := by rw [State.reads_failed hf]; rfl
  have record {r : List Byte} {act : State → Nat → State} (h : runRecord c r act s = .next t) : s.SameButInterrupts t :=
    sameButInterrupts_absent h (State.readInProgress_failed hf)
  unfold exec at h
  cases c with
  | hardwareReset => exact (hhard rfl).elim
  | resetRelease =>
    cases h
    rfl
  | softReset v => exact (hsoft v rfl).elim
  | enableWritten1 v => exact sameButInterrupts_ignored h enableOne
  | enableWritten0 v => exact sameButInterrupts_ignored h enableZero
  | setupAddrWrite v => exact sameButInterrupts_ignored h (setupAddr v)
  | postTail v => exact sameButInterrupts_ignored h (postTail v)
  | postRestart v => exact sameButInterrupts_ignored h (postRestart v)
  | retire v => exact sameButInterrupts_ignored h (retire v)
  | intStatusWrite v => exact sameButInterrupts_runCommand h rfl
  | intEnableWrite v => exact sameButInterrupts_runCommand h rfl
  | registerWriteIgnored offset v => exact sameButInterrupts_ignored h rfl
  | setupReadEnd result => exact sameButInterrupts_absent h (by rw [hf]; rfl)
  | fetchChoice => exact sameButInterrupts_absent h acts
  | recordReadError => exact sameButInterrupts_absent h (State.readInProgress_failed hf)
  | unknownKind r | exchange r | broadcast r | addStation r | removeStation r | pauseStation r | resumeStation r
  | setLineDisable r | setLineEnable r | quiesceLine r | resumeLine r | lineReset r | abort r | fence r => exact record h
  | bandTableReadEnd l result => exact sameButInterrupts_absent h (by rw [acts]; rfl)
  | schedulerChoice l wait => exact sameButInterrupts_absent h (State.mayChoose_failed hf _ l)
  | payloadReadEnd l octets => exact sameButInterrupts_absent h reads
  | payloadReadError l => exact sameButInterrupts_absent h reads
  | abandonedReadEnd l => exact sameButInterrupts_absent h (by rw [acts]; rfl)
  | transmitEnd l => exact sameButInterrupts_absent h (by rw [acts]; rfl)
  | characterReceived l octet mark stop => exact sameButInterrupts_absent h watches
  | interCharacterGapExpiry l => exact sameButInterrupts_absent h acts
  | replyTimerExpiry l => exact sameButInterrupts_absent h (by rw [acts]; rfl)
  | replyWriteEnd l result => exact sameButInterrupts_absent h (State.mayEndReply_failed hf l result)
  | breakDetected l => exact sameButInterrupts_absent h watches
  | stuck l => exact sameButInterrupts_absent h watches
  | lineReturnToMark l wait => exact sameButInterrupts_absent h watches
  | recoveryEnd l => exact sameButInterrupts_absent h watches
  | guardEnd l => exact sameButInterrupts_absent h acts
  | breakSpaceEnd l => exact sameButInterrupts_absent h (by rw [acts]; rfl)
  | breakRelease l => exact sameButInterrupts_absent h (by rw [acts]; rfl)
  | pollTimerExpiry k => exact sameButInterrupts_absent h (State.timerRuns_failed hf k .poll)
  | holdTimerExpiry k => exact sameButInterrupts_absent h (State.timerRuns_failed hf k .hold)
  | probeTimerExpiry k => exact sameButInterrupts_absent h (State.timerRuns_failed hf k .probe)
  | completionEntryPosted => exact sameButInterrupts_absent h posts
  | completionWriteError done => exact sameButInterrupts_absent h posts
  | eventEntryPosted => exact sameButInterrupts_absent h posts
  | eventWriteError done => exact sameButInterrupts_absent h posts
  | holdoffTimerExpiry ring => exact sameButInterrupts_runCommand h (State.sameButInterrupts_holdoff hf ring)
  | characterBegun l wait => exact sameButInterrupts_absent h (by rw [watches]; rfl)
  | glitchDiscarded l wait => exact sameButInterrupts_absent h watches
  | markBitRead l => exact sameButInterrupts_absent h (by rw [watches]; rfl)

end

end Sys2Proof.Machine

open Sys2Proof Sys2Proof.Machine

/-- Settles O59, by what each command does in FAILED (`exec_failed`). -/
theorem failedPartIsFrozen : Obligations.FailedPartIsFrozen := by
  intro c s t hf h hhard hsoft
  exact exec_failed hf h hhard hsoft

/-- Settles O4: every command but these two has no effect (`exec_held`), and on an empty queue no time is counted. -/
theorem heldResetIsInert : Obligations.HeldResetIsInert := by
  intro s hr
  refine ⟨fun c t => exec_held hr, fun hp => ?_⟩
  rw [step_of_empty hp, State.tick_held hr]
end

section
/-! PROOFS. The address held in SETUP_ADDR under the shared operations (R154): none of them moves it. -/

namespace Sys2Proof.Machine

theorem State.Ends.setupAddr {s t : State} (e : s.Ends t) : t.setupAddr = s.setupAddr := by rw [e.rest]

theorem State.SameButWriters.setupAddr {s t : State} (w : s.SameButWriters t) : t.setupAddr = s.setupAddr := by rw [w.1]

/-- A fold of operations that leave the address leaves it. -/
theorem State.setupAddr_foldl {α : Type} {f : State → α → State} (hf : ∀ (s : State) a, (f s a).setupAddr = s.setupAddr)
    (as : List α) (s : State) : (as.foldl f s).setupAddr = s.setupAddr := by
  induction as generalizing s with
  | nil => rfl
  | cons a rest ih => exact (ih _).trans (hf s a)

section
variable (s : State) (l : LineNo) (h : Handle) (id : Nat) (st : Status) (job : Job)

/-! ## Ends, writers and breaks -/

@[simp] theorem State.setupAddr_hand (d : Detail) (n : Nat) (b : Option (Fin 8)) (t : Option Nat) :
    (s.hand id st d n b t).setupAddr = s.setupAddr := (s.ends_hand ..).setupAddr

@[simp] theorem State.setupAddr_endOk : (s.endOk id).setupAddr = s.setupAddr := (s.ends_endOk id).setupAddr

@[simp] theorem State.setupAddr_endRecord (d : Detail) : (s.endRecord id st d).setupAddr = s.setupAddr :=
  (s.ends_endRecord ..).setupAddr

@[simp] theorem State.setupAddr_endExchange (d : Detail) (n : Nat) : (s.endExchange id st d n).setupAddr = s.setupAddr :=
  (s.ends_endExchange ..).setupAddr

@[simp] theorem State.setupAddr_endWith : (s.endWith id st).setupAddr = s.setupAddr := (s.ends_endWith ..).setupAddr

@[simp] theorem State.setupAddr_endAbort (a : Option Nat) : (s.endAbort a st).setupAddr = s.setupAddr :=
  (s.ends_endAbort ..).setupAddr

@[simp] theorem State.setupAddr_settleClosing : (s.settleClosing h).setupAddr = s.setupAddr :=
  (s.ends_settleClosing h).setupAddr

@[simp] theorem State.setupAddr_drainOffline : (s.drainOffline h job).setupAddr = s.setupAddr :=
  (s.ends_drainOffline h job).setupAddr

@[simp] theorem State.setupAddr_returnToWait (origin : Phase) : (s.returnToWait l id origin).setupAddr = s.setupAddr :=
  (s.ends_returnToWait ..).setupAddr

@[simp] theorem State.setupAddr_exchangeFailed (c : Context) (x : Station) :
    (s.exchangeFailed l c x).setupAddr = s.setupAddr := (s.ends_exchangeFailed l c x).setupAddr

@[simp] theorem State.setupAddr_finish : s.finish.setupAddr = s.setupAddr := s.writers_finish.setupAddr

@[simp] theorem State.setupAddr_judgeGrant : s.judgeGrant.setupAddr = s.setupAddr := s.writers_judgeGrant.setupAddr

@[simp] theorem State.setupAddr_breakReaches : (s.breakReaches l).setupAddr = s.setupAddr :=
  (State.ends_endRetries _ l).setupAddr

@[simp] theorem State.setupAddr_enterBreakOut (records : List Nat) (now : Nat) :
    (s.enterBreakOut l records now).setupAddr = s.setupAddr := State.setupAddr_breakReaches _ l

@[simp] theorem State.setupAddr_toGuard : (s.toGuard l).setupAddr = s.setupAddr :=
  State.setupAddr_foldl (fun u id => u.setupAddr_endRecord id .ok .none) _ _

@[simp] theorem State.setupAddr_setCause (c : IntCause) : (s.setCause c).setupAddr = s.setupAddr := rfl

@[simp] theorem State.setupAddr_reject : s.reject.setupAddr = s.setupAddr := rfl

/-! ## Outcomes of attempts -/

@[simp] theorem State.setupAddr_replyWritten (octets : List Byte) (r : BusWrite) :
    (s.replyWritten l id octets r).setupAddr = s.setupAddr := by
  unfold State.replyWritten
  split <;> simp

theorem State.setupAddr_exchangeActs (c : Context) (x : Station) (o : AttemptOutcome) :
    (s.exchangeActs l c x o).setupAddr = s.setupAddr := by
  cases o with
  | reply octets =>
    simp only [State.exchangeActs, State.beginReply]
    split <;> simp
  | busy => exact (s.ends_exchangeBusy c x).setupAddr
  | nak cls reason => cases cls <;> simp [State.exchangeActs]
  | lineBreak =>
    simp only [State.exchangeActs]
    split <;> simp
  | _ => simp [State.exchangeActs]

theorem State.setupAddr_pollActs (p : Bool) (o : AttemptOutcome) (ap : Bool) :
    (s.pollActs l h p o ap).setupAddr = s.setupAddr := by
  unfold State.pollActs
  split
  · rfl
  · exact s.writers_releaseReservation.setupAddr

theorem State.setupAddr_jobActs (x after : Station) (o : AttemptOutcome) (ap : Bool) :
    (s.jobActs l h job x after o ap).setupAddr = s.setupAddr := by
  cases job with
  | command id h' origin =>
    simp only [State.jobActs]
    split
    · simp
    · split
      · exact s.setupAddr_exchangeActs ..
      · rfl
  | broadcast id => rfl
  | poll h' p =>
    simp only [State.jobActs, State.setupAddr_settleClosing, State.setupAddr_pollActs]
    split <;> simp
  | link h' =>
    simp only [State.jobActs]
    split
    · simp
    · split
      · exact (s.ends_linkLoop ..).setupAddr
      · simp
  | probe h' => simp [State.jobActs]

theorem State.setupAddr_deliver (o : AttemptOutcome) (ap : Bool) : (s.deliver l job o ap).setupAddr = s.setupAddr := by
  have noted : ∀ (u : State) n, (u.noteContext job o n).setupAddr = u.setupAddr := fun u n =>
    (u.ends_noteContext job o n).setupAddr
  unfold State.deliver
  simp only
  split
  · simp [noted]
  · split
    · simp [noted]
    · simp [State.setupAddr_jobActs, noted]

@[simp] theorem State.setupAddr_endAttempt (o : AttemptOutcome) (ap : Bool) :
    (s.endAttempt l o ap).setupAddr = s.setupAddr := by
  unfold State.endAttempt
  split <;> simp [State.setupAddr_deliver]

/-! ## The engine and its scheduler -/

@[simp] theorem State.setupAddr_beginTransmit : (s.beginTransmit l job).setupAddr = s.setupAddr :=
  (s.ends_beginAttempt job).setupAddr

@[simp] theorem State.setupAddr_leaveRead : (s.leaveRead l).setupAddr = s.setupAddr := by
  have ended : ∀ u : State, (u.endQuiescers l).setupAddr = u.setupAddr := fun u =>
    State.setupAddr_foldl (fun v id => v.setupAddr_endRecord id .ok .none) _ _
  unfold State.leaveRead
  simp only
  split
  · simp
  · simp [ended]

@[simp] theorem State.setupAddr_readGood : (s.readGood l job).setupAddr = s.setupAddr := by
  cases job with
  | command id h' origin =>
    simp only [State.readGood]
    split
    · simp
    · split
      · simp
      · split
        · simp
        · split <;> simp
  | broadcast id =>
    simp only [State.readGood]
    split <;> simp
  | _ => simp [State.readGood]

@[simp] theorem State.setupAddr_readFailed : (s.readFailed l id).setupAddr = s.setupAddr := by
  unfold State.readFailed
  simp only [State.setupAddr_leaveRead]
  split <;> simp

@[simp] theorem State.setupAddr_startWork : (s.startWork l job id).setupAddr = s.setupAddr := by
  unfold State.startWork State.beginRead State.fillBuffer
  simp only
  split
  · simp
  · split <;> simp

@[simp] theorem State.setupAddr_abandonRead : (s.abandonRead l).setupAddr = s.setupAddr := by
  unfold State.abandonRead
  split
  · rfl
  · simp only
    split
    · split <;> simp
    · split <;> simp
    all_goals rfl

theorem State.setupAddr_act (choice : Choice) : (s.act l choice).setupAddr = s.setupAddr := by
  cases choice with
  | retry id =>
    simp only [State.act]
    split <;> simp
  | work k i =>
    simp only [State.act, State.startHead, State.startBroadcast]
    split
    · split <;> simp
    · split <;> simp
  | poll h' =>
    simp only [State.act, State.startPoll, State.grantReservation]
    split <;> simp
  | _ => simp [State.act]

@[simp] theorem State.setupAddr_consult : (s.consult l).setupAddr = s.setupAddr := by
  unfold State.consult State.recordRefusal
  simp only [State.setupAddr_act]
  split <;> rfl

end

end Sys2Proof.Machine
end

section
/-! PROOFS. The address held in SETUP_ADDR under each command (R154): only its own write in READY and a hardware reset move it
(O9). -/

namespace Sys2Proof.Machine

section
variable (s : State) (l : LineNo)

/-! ## The part as a whole -/

@[simp] theorem State.setupAddr_landCompletion : s.landCompletion.setupAddr = s.setupAddr := by
  unfold State.landCompletion
  split <;> rfl

@[simp] theorem State.setupAddr_landEvent : s.landEvent.setupAddr = s.setupAddr := by
  unfold State.landEvent
  split <;> rfl

theorem State.setupAddr_landReply : (s.landReply l).setupAddr = s.setupAddr := by
  unfold State.landReply
  split
  · split <;> rfl
  · rfl
  · rfl

@[simp] theorem State.setupAddr_landReplies : s.landReplies.setupAddr = s.setupAddr :=
  State.setupAddr_foldl State.setupAddr_landReply _ s

@[simp] theorem State.setupAddr_enterFailed (cause : CauseCode) : (s.enterFailed cause).setupAddr = s.setupAddr := rfl

theorem State.setupAddr_serveReset : (s.serveReset l).setupAddr = s.setupAddr := by
  unfold State.serveReset
  split <;> simp

@[simp] theorem State.setupAddr_resume : s.resume.setupAddr = s.setupAddr :=
  State.setupAddr_foldl State.setupAddr_serveReset _ s.enterRunning

theorem State.setupAddr_enableOne : s.enableOne.setupAddr = s.setupAddr := by
  unfold State.enableOne
  split <;> simp

theorem State.setupAddr_enableZero : s.enableZero.setupAddr = s.setupAddr := by
  unfold State.enableZero
  split <;> simp

theorem State.setupAddr_setupEnds (r : BusRead) : (s.setupEnds r).setupAddr = s.setupAddr := by
  unfold State.setupEnds
  split
  · split
    · rfl
    · split <;> rfl
  · rfl

/-! ## Queues and rings -/

theorem State.setupAddr_postTail (v : Word) : (s.postTail v).setupAddr = s.setupAddr := by
  unfold State.postTail State.postedTail
  simp only
  split
  · split <;> simp
  · rfl

theorem State.setupAddr_postRestart (v : Word) : (s.postRestart v).setupAddr = s.setupAddr := by
  unfold State.postRestart
  split <;> rfl

theorem State.setupAddr_retire (v : Word) : (s.retire v).setupAddr = s.setupAddr := by
  unfold State.retire
  split
  · split
    · split
      · unfold State.retireCompletion
        split <;> rfl
      · rfl
    · split
      · unfold State.retireEvent
        split <;> simp
      · rfl
  · rfl

theorem State.setupAddr_fetchLook : s.fetchLook.setupAddr = s.setupAddr := by
  unfold State.fetchLook State.beginFetch
  simp only
  split
  · split
    · next k q id hq hid => cases k <;> rfl
    · rfl
  · rfl

@[simp] theorem State.setupAddr_readFails : s.readFails.setupAddr = s.setupAddr := by
  unfold State.readFails
  split <;> rfl

theorem State.setupAddr_completionPosted : s.completionPosted.setupAddr = s.setupAddr := by
  unfold State.completionPosted
  split
  · rfl
  · rw [State.setupAddr_finish, State.completionPosting_frame]
    exact (State.ends_freeContext _ _).setupAddr

theorem State.setupAddr_completionFails (n : Nat) : (s.completionFails n).setupAddr = s.setupAddr := by
  unfold State.completionFails
  split <;> simp

theorem State.setupAddr_attentionWritten (a : Option (LineNo × Handle)) : (s.attentionWritten a).setupAddr = s.setupAddr := by
  unfold State.attentionWritten
  split <;> simp

theorem State.setupAddr_eventPosted : s.eventPosted.setupAddr = s.setupAddr := by
  unfold State.eventPosted
  split
  · rfl
  · rw [State.setupAddr_finish, State.setupAddr_judgeGrant, State.eventPosting_frame]
    exact State.setupAddr_attentionWritten _ _

theorem State.setupAddr_eventFails (n : Nat) : (s.eventFails n).setupAddr = s.setupAddr := by
  unfold State.eventFails
  split <;> simp

/-! ## Records -/

theorem State.setupAddr_takeRecord (r : List Byte) {act : State → Nat → State}
    (hact : ∀ u id, (act u id).setupAddr = u.setupAddr) : (s.takeRecord r act).setupAddr = s.setupAddr := by
  unfold State.takeRecord
  split
  · rfl
  · split
    · simp [State.accept]
    · simp [State.accept, hact]

theorem State.setupAddr_acceptExchange (h : Handle) (id : Nat) : (s.acceptExchange h id).setupAddr = s.setupAddr := by
  unfold State.acceptExchange
  split
  · rfl
  · split <;> simp

@[simp] theorem State.setupAddr_resumeStation (h : Handle) : (s.resumeStation h).setupAddr = s.setupAddr := by
  unfold State.resumeStation
  split
  · rfl
  · simp only
    split <;> simp

@[simp] theorem State.setupAddr_disableLine : (s.disableLine l).setupAddr = s.setupAddr := by
  unfold State.disableLine
  split <;> simp

theorem State.setupAddr_quiesceLine (id : Nat) : (s.quiesceLine l id).setupAddr = s.setupAddr := by
  unfold State.quiesceLine
  simp only
  split <;> simp

theorem State.setupAddr_resetLine (id : Nat) : (s.resetLine l id).setupAddr = s.setupAddr := by
  have now : (if s.device = .running then s.enterBreakOut l [id] s.time
      else s.updLine l fun x => x.deferReset id).setupAddr = s.setupAddr := by
    split <;> simp
  unfold State.resetLine
  simp only
  split
  · exact now
  · exact now
  · exact now
  all_goals rfl

/-! ## Lines -/

theorem State.setupAddr_transmitEnds : (s.transmitEnds l).setupAddr = s.setupAddr := by
  have sent : ∀ (u : State) job t, (u.frameSent l job t).setupAddr = u.setupAddr := fun u job t => by
    cases job <;> simp [State.frameSent, (u.ends_markUnanswered _).setupAddr]
  unfold State.transmitEnds
  split <;> simp [sent]

theorem State.setupAddr_payloadRead (octets : List Byte) : (s.payloadRead l octets).setupAddr = s.setupAddr := by
  unfold State.payloadRead State.fillBuffer
  split <;> simp

theorem State.setupAddr_payloadFails : (s.payloadFails l).setupAddr = s.setupAddr := by
  unfold State.payloadFails
  split <;> simp

theorem State.setupAddr_replyWriteEnds (r : BusWrite) : (s.replyWriteEnds l r).setupAddr = s.setupAddr := by
  unfold State.replyWriteEnds
  split <;> simp

theorem State.setupAddr_tableReadEnds (r : BusRead) : (s.tableReadEnds l r).setupAddr = s.setupAddr := by
  have enabled : ∀ u : State, (u.enableLine l).setupAddr = u.setupAddr := fun u => by
    unfold State.enableLine
    simp only
    split <;> simp
  have installed : ∀ id b n rate, (s.installTable l id b n rate).setupAddr = s.setupAddr := fun id b n rate => by
    unfold State.installTable
    simp only
    split <;> simp [enabled]
  unfold State.tableReadEnds State.tableFails
  split
  · rfl
  · rw [State.setupAddr_finish]
    split
    · simp
    · split
      · exact installed ..
      · simp

theorem State.setupAddr_guardEnds : (s.guardEnds l).setupAddr = s.setupAddr := by
  unfold State.guardEnds
  simp only [State.setupAddr_finish]
  split <;> simp

theorem State.setupAddr_breakReleased : (s.breakReleased l).setupAddr = s.setupAddr := by
  have bound : ∀ u : State, (u.endBound l).setupAddr = u.setupAddr := fun u =>
    State.setupAddr_foldl (fun v id => v.setupAddr_endOk id) _ _
  simp [State.breakReleased, bound]

/-! ## The receiver -/

theorem State.setupAddr_takeCharacter (octet : Byte) (mark : Bool) (stop : StopBit) (e : Nat) :
    (s.takeCharacter l octet mark stop e).setupAddr = s.setupAddr := by
  have received : ∀ (u : State) ferr, (u.receiveOctet l octet mark ferr).setupAddr = u.setupAddr := fun u ferr => by
    unfold State.receiveOctet
    simp only
    split
    · rfl
    · split
      · rfl
      · split <;> simp
  have used : ∀ (u : State) ferr, (u.useCharacter l octet mark ferr).setupAddr = u.setupAddr := fun u ferr => by
    unfold State.useCharacter
    split <;> simp [received]
  have begins : (s.answerBegins l mark).setupAddr = s.setupAddr := by
    unfold State.answerBegins
    split <;> rfl
  simp [State.takeCharacter, used, begins]

theorem State.setupAddr_breakDetected : (s.breakDetected l).setupAddr = s.setupAddr := by
  have read : ∀ u : State, (u.breakOnRead l).setupAddr = u.setupAddr := fun u => by
    unfold State.breakOnRead
    split <;> simp
  have attempt : ∀ u : State, (u.breakOnAttempt l).setupAddr = u.setupAddr := fun u => by
    unfold State.breakOnAttempt
    split
    · split
      · exact u.setupAddr_deliver ..
      · rfl
    · rfl
  have guarded : ∀ u : State, (u.guardAfterBreak l).setupAddr = u.setupAddr := fun u => by
    unfold State.guardAfterBreak
    split <;> simp
  have cancelled : ∀ (u : State) job, (u.cancelAbandoned job).setupAddr = u.setupAddr := fun u job =>
    (u.ends_cancelAbandoned job).setupAddr
  simp [State.breakDetected, read, attempt, guarded, cancelled]

/-! ## Timers -/

theorem State.setupAddr_timerExpires (h : Handle) (k : TimerKind) (f : Station → Nat → Station) :
    (s.timerExpires h k f).setupAddr = s.setupAddr := rfl

theorem State.setupAddr_tellStationLine (h : Handle) : (s.tellStationLine h).setupAddr = s.setupAddr := by
  unfold State.tellStationLine
  split <;> simp

theorem State.setupAddr_releaseHeld (h : Handle) : (s.releaseHeld h).setupAddr = s.setupAddr := by
  unfold State.releaseHeld
  split <;> simp

theorem State.setupAddr_holdoffExpires (ring : Ring) : (s.holdoffExpires ring).setupAddr = s.setupAddr := by
  cases ring <;> rfl

end

/-! ## The commands -/

section
variable {c : Instr} {o : Bool} {e : State → State} {s t : State}

/-- What the effect of a command leaves, the command leaves. -/
theorem setupAddr_runCommand (h : runCommand c o e s = .next t) (k : (e s).setupAddr = s.setupAddr) :
    t.setupAddr = s.setupAddr := by
  obtain ⟨-, ⟨-, -, rfl⟩ | rfl⟩ := runCommand_next h
  · exact k
  · rfl

/-- R154: every command but a hardware reset and a write of SETUP_ADDR in READY leaves the address held. -/
theorem exec_setupAddr_kept (h : exec c s = .next t) (hhard : c ≠ .hardwareReset)
    (hready : ∀ v, c = .setupAddrWrite v → s.device ≠ .ready) : t.setupAddr = s.setupAddr := by
  have record {r : List Byte} {act : State → Nat → State} (h : runRecord c r act s = .next t)
      (hact : ∀ u id, (act u id).setupAddr = u.setupAddr) : t.setupAddr = s.setupAddr :=
    setupAddr_runCommand h (s.setupAddr_takeRecord r hact)
  unfold exec at h
  cases c with
  | hardwareReset => exact (hhard rfl).elim
  | resetRelease =>
    cases h
    rfl
  | softReset v => exact setupAddr_runCommand h rfl
  | enableWritten1 v => exact setupAddr_runCommand h s.setupAddr_enableOne
  | enableWritten0 v => exact setupAddr_runCommand h s.setupAddr_enableZero
  | setupAddrWrite v =>
    refine setupAddr_runCommand h ?_
    rw [State.writeSetupAddr, if_neg (hready v rfl), State.setupAddr_reject]
  | postTail v => exact setupAddr_runCommand h (s.setupAddr_postTail v)
  | postRestart v => exact setupAddr_runCommand h (s.setupAddr_postRestart v)
  | retire v => exact setupAddr_runCommand h (s.setupAddr_retire v)
  | intStatusWrite v => exact setupAddr_runCommand h rfl
  | intEnableWrite v => exact setupAddr_runCommand h rfl
  | registerWriteIgnored offset v => exact setupAddr_runCommand h rfl
  | setupReadEnd result => exact setupAddr_runCommand h (s.setupAddr_setupEnds result)
  | fetchChoice => exact setupAddr_runCommand h s.setupAddr_fetchLook
  | recordReadError => exact setupAddr_runCommand h (by simp)
  | unknownKind r => exact record h fun _ _ => rfl
  | exchange r => exact record h fun u id => u.setupAddr_acceptExchange (recHandle r) id
  | broadcast r => exact record h fun _ _ => rfl
  | addStation r => exact record h fun _ _ => by simp [State.addStation]
  | removeStation r => exact record h fun _ _ => by simp
  | pauseStation r => exact record h fun _ _ => by simp
  | resumeStation r => exact record h fun _ _ => by simp
  | setLineDisable r => exact record h fun _ _ => by simp
  | setLineEnable r => exact record h fun _ _ => rfl
  | quiesceLine r => exact record h fun u id => u.setupAddr_quiesceLine (recLine r) id
  | resumeLine r => exact record h fun _ _ => by simp
  | lineReset r => exact record h fun u id => u.setupAddr_resetLine (recLine r) id
  | abort r => exact record h fun u id => (u.ends_abortRecord _ _ id).setupAddr
  | fence r => exact record h fun u id => (u.ends_fenceRecord id).setupAddr
  | bandTableReadEnd l result => exact setupAddr_runCommand h (s.setupAddr_tableReadEnds l result)
  | schedulerChoice l wait => exact setupAddr_runCommand h (by simp)
  | payloadReadEnd l octets => exact setupAddr_runCommand h (s.setupAddr_payloadRead l octets)
  | payloadReadError l => exact setupAddr_runCommand h (s.setupAddr_payloadFails l)
  | abandonedReadEnd l => exact setupAddr_runCommand h (by simp)
  | transmitEnd l => exact setupAddr_runCommand h (s.setupAddr_transmitEnds l)
  | characterReceived l octet mark stop => exact setupAddr_runCommand h (s.setupAddr_takeCharacter l octet mark stop _)
  | interCharacterGapExpiry l => exact setupAddr_runCommand h (by simp)
  | replyTimerExpiry l => exact setupAddr_runCommand h (by simp [State.replyExpires])
  | replyWriteEnd l result => exact setupAddr_runCommand h (s.setupAddr_replyWriteEnds l result)
  | breakDetected l => exact setupAddr_runCommand h (s.setupAddr_breakDetected l)
  | stuck l => exact setupAddr_runCommand h (by simp)
  | lineReturnToMark l wait => exact setupAddr_runCommand h rfl
  | recoveryEnd l => exact setupAddr_runCommand h (by simp)
  | guardEnd l => exact setupAddr_runCommand h (s.setupAddr_guardEnds l)
  | breakSpaceEnd l => exact setupAddr_runCommand h rfl
  | breakRelease l => exact setupAddr_runCommand h (s.setupAddr_breakReleased l)
  | pollTimerExpiry k => exact setupAddr_runCommand h (State.setupAddr_tellStationLine _ k)
  | holdTimerExpiry k =>
    exact setupAddr_runCommand h ((State.setupAddr_tellStationLine _ k).trans (State.setupAddr_releaseHeld _ k))
  | probeTimerExpiry k => exact setupAddr_runCommand h (State.setupAddr_tellStationLine _ k)
  | completionEntryPosted => exact setupAddr_runCommand h s.setupAddr_completionPosted
  | completionWriteError done => exact setupAddr_runCommand h (s.setupAddr_completionFails done)
  | eventEntryPosted => exact setupAddr_runCommand h s.setupAddr_eventPosted
  | eventWriteError done => exact setupAddr_runCommand h (s.setupAddr_eventFails done)
  | holdoffTimerExpiry ring => exact setupAddr_runCommand h (s.setupAddr_holdoffExpires ring)
  | characterBegun l wait => exact setupAddr_runCommand h rfl
  | glitchDiscarded l wait => exact setupAddr_runCommand h rfl
  | markBitRead l => exact setupAddr_runCommand h rfl

end

/-! ## The write of SETUP_ADDR -/

/-- R154: the write goes through the common frame, and is never ill-formed. -/
theorem exec_setupAddrWrite {s : State} (v : Word) (hr : s.resetHeld = false) :
    exec (.setupAddrWrite v) s = .next (s.writeSetupAddr v) :=
  runCommand_occurs (c := .setupAddrWrite v) (o := true) (e := fun s => s.writeSetupAddr v) rfl (State.live_of_resetHeld hr) rfl

/-- R154: the mask keeps bits 31..6. -/
theorem getLsbD_setupAddrMask : ∀ i : Fin 32, (0xFFFFFFC0#32).getLsbD i = decide (6 ≤ i.val) := by decide

/-- R154: the address is held without its six low bits. -/
theorem toNat_setupAddrField (v : Word) : (setupAddrField v).toNat = v.toNat / 64 * 64 := by
  have shifted : setupAddrField v = v >>> 6 <<< 6 := by
    refine BitVec.eq_of_getLsbD_eq fun i hi => ?_
    rw [setupAddrField, BitVec.getLsbD_and, getLsbD_setupAddrMask ⟨i, hi⟩, BitVec.getLsbD_shiftLeft, BitVec.getLsbD_ushiftRight]
    by_cases h6 : 6 ≤ i
    · simp [h6, hi, Nat.add_sub_cancel' h6]
    · simp [h6]
  have hv := v.isLt
  rw [shifted, BitVec.toNat_shiftLeft, BitVec.toNat_ushiftRight, Nat.shiftRight_eq_div_pow, Nat.shiftLeft_eq]
  omega

end Sys2Proof.Machine

open Sys2Proof Sys2Proof.Machine

/-- Settles O9: the write by the device state, and every other command by what it leaves (`exec_setupAddr_kept`). -/
theorem setupAddrHeld : Obligations.SetupAddrHeld := by
  refine ⟨fun v s hr => ⟨fun hd => ⟨setupAddrField v, toNat_setupAddrField v, ?_⟩, fun hd => ⟨s.reject, ?_, s.rejects_reject⟩⟩,
    fun c s t h moved => ?_⟩
  · rw [exec_setupAddrWrite v hr, State.writeSetupAddr, if_pos hd]
  · rw [exec_setupAddrWrite v hr, State.writeSetupAddr, if_neg hd]
  · by_cases hhard : c = .hardwareReset
    · subst hhard
      cases h
      exact .inl ⟨rfl, rfl⟩
    · by_contra hnot
      refine moved (exec_setupAddr_kept h hhard fun v hv hd => hnot (.inr ⟨hd, v, hv⟩))
end

section
/-! PROOFS. The setup block: when it is valid (R157, section 11.2), and the end of its read (R113, R129, R142, R156, R157). -/

namespace Sys2Proof.Machine

/-! ## The valid block (R157, section 11.2) -/

/-- Section 11.2: the sizes of a submission queue and of the completion ring are the powers of two in 16..4096. -/
theorem ringSize4096_iff {n : Nat} : ringSize4096 n = true ↔ ∃ k, 4 ≤ k ∧ k ≤ 12 ∧ n = 2 ^ k := by
  simp only [ringSize4096, List.contains_iff_mem, List.mem_cons, List.not_mem_nil, or_false]
  refine ⟨fun h => ?_, fun ⟨k, h4, h12, hn⟩ => ?_⟩
  · rcases h with rfl | rfl | rfl | rfl | rfl | rfl | rfl | rfl | rfl
    exacts [⟨4, by decide⟩, ⟨5, by decide⟩, ⟨6, by decide⟩, ⟨7, by decide⟩, ⟨8, by decide⟩, ⟨9, by decide⟩, ⟨10, by decide⟩,
      ⟨11, by decide⟩, ⟨12, by decide⟩]
  · interval_cases k <;> simp [hn]

/-- Section 11.2: the sizes of the event ring are the powers of two in 16..1024. -/
theorem ringSize1024_iff {n : Nat} : ringSize1024 n = true ↔ ∃ k, 4 ≤ k ∧ k ≤ 10 ∧ n = 2 ^ k := by
  simp only [ringSize1024, List.contains_iff_mem, List.mem_cons, List.not_mem_nil, or_false]
  refine ⟨fun h => ?_, fun ⟨k, h4, h10, hn⟩ => ?_⟩
  · rcases h with rfl | rfl | rfl | rfl | rfl | rfl | rfl
    exacts [⟨4, by decide⟩, ⟨5, by decide⟩, ⟨6, by decide⟩, ⟨7, by decide⟩, ⟨8, by decide⟩, ⟨9, by decide⟩, ⟨10, by decide⟩]
  · interval_cases k <;> simp [hn]

/-- R157: a queue of size 0 has nothing else examined. -/
theorem setupQueueValid_iff {b : List Byte} {q : Nat} : setupQueueValid b q = true ↔ (le16 b (8 * q + 4) ≠ 0 →
    (∃ k, 4 ≤ k ∧ k ≤ 12 ∧ le16 b (8 * q + 4) = 2 ^ k) ∧ le32 b (8 * q) % 32 = 0 ∧
      (le8 b (8 * q + 6) = 0 ∨ le8 b (8 * q + 6) = 1) ∧ le8 b (8 * q + 7) = 0) := by
  have cls : le8 b (8 * q + 6) ≤ 1 ↔ le8 b (8 * q + 6) = 0 ∨ le8 b (8 * q + 6) = 1 := by omega
  simp only [setupQueueValid, setupQueueSize, Bool.or_eq_true, Bool.and_eq_true, beq_iff_eq, decide_eq_true_eq,
    ringSize4096_iff, cls, ← or_iff_not_imp_left, ne_eq, and_assoc]

/-- R157: the reserved octets at the end of the block. -/
theorem setupTail_iff {b : List Byte} :
    ((List.range 12).all fun i => le8 b (52 + i) == 0) = true ↔ ∀ i, 52 ≤ i → i < 64 → le8 b i = 0 := by
  simp only [List.all_eq_true, List.mem_range, beq_iff_eq]
  refine ⟨fun h i h52 h64 => ?_, fun h i hi => h _ (by omega) (by omega)⟩
  have octet := h (i - 52) (by omega)
  rwa [Nat.add_sub_cancel' h52] at octet

/-! ## The end of the read (R156, R157) -/

section
variable {s : State} {b : List Byte}

/-- R156: the read ends where STARTING has made it. -/
theorem exec_setupReadEnd {result : BusRead} (hr : s.resetHeld = false) (hd : s.device = .starting)
    (hw : read64 result = true) : exec (.setupReadEnd result) s = .next (s.setupEnds result) :=
  runCommand_occurs (c := .setupReadEnd result) (o := s.device == .starting) (e := fun s => s.setupEnds result) hw
    (State.live_of_resetHeld hr) (by rw [hd]; rfl)

/-- R156: with ENABLE cleared meanwhile the part is READY again, whatever was read. -/
theorem State.setupEnds_disabled (he : s.enable = false) (result : BusRead) : s.setupEnds result = s.backToReady .none := by
  simp [State.setupEnds, he]

theorem State.setupEnds_error (he : s.enable = true) : s.setupEnds .error = s.backToReady .setupRead := if_pos he

theorem State.setupEnds_good (he : s.enable = true) :
    s.setupEnds (.good b) = if setupValid b then s.install b else s.backToReady .setupInvalid := if_pos he

/-- Every line is listed. -/
theorem mem_allLines (l : LineNo) : l ∈ allLines := List.mem_finRange l

/-- R113: entry into RUNNING tells the scheduler of every line. -/
theorem State.line_enterRunning (s : State) (l : LineNo) : s.enterRunning.line l = (s.line l).noticed := by
  have told : s.enterRunning.line l = (s.tellLines allLines).line l := rfl
  rw [told, State.line_tellLines, if_pos (by simpa using mem_allLines l)]

/-- R129: the queues that a setup block installs. -/
theorem State.queue_install (s : State) (b : List Byte) (q : QueueNo) : (s.install b).queue q = setupQueue b q.val := by
  fin_cases q <;> rfl

end

end Sys2Proof.Machine

open Sys2Proof Sys2Proof.Machine

/-- Settles O12, field by field of section 11.2. -/
theorem setupBlockValidity : Obligations.SetupBlockValidity := by
  intro b
  unfold setupValid
  rw [Bool.and_eq_true, setupTail_iff]
  simp only [setupQueueSize, Bool.and_eq_true, List.all_eq_true, List.any_eq_true, List.mem_range, setupQueueValid_iff,
    ringSize4096_iff, ringSize1024_iff, beq_iff_eq, bne_iff_ne, decide_eq_true_eq, and_assoc]

/-- Settles O11: the end by ENABLE, the result and the block; the installation leaves all but what it names. -/
theorem setupReadEnds : Obligations.SetupReadEnds := by
  intro s hr hd
  have ends : ∀ result, read64 result = true → exec (.setupReadEnd result) s = .next (s.setupEnds result) := fun _ =>
    exec_setupReadEnd hr hd
  have whole : ∀ b : List Byte, b.length = 64 → read64 (.good b) = true := fun _ hlen => beq_iff_eq.2 hlen
  refine ⟨fun result hw he => ?_, fun he => ?_, fun b hlen he hv => ?_,
    fun b hlen he hv => ⟨s.install b, ?_, rfl, s.line_enterRunning, s.queue_install b⟩⟩
  · rw [ends result hw, State.setupEnds_disabled he, State.backToReady, ← he]
  · rw [ends .error rfl, State.setupEnds_error he, State.backToReady]
  · rw [ends _ (whole b hlen), State.setupEnds_good he, hv]
    rfl
  · rw [ends _ (whole b hlen), State.setupEnds_good he, if_pos hv]
end

section
/-! PROOFS. ENABLE written 0 (R155, R158, R159). -/

namespace Sys2Proof.Machine

section
variable {s : State}

/-- R155: a write of CONTROL with SOFT_RESET and ENABLE 0. -/
theorem exec_enableWritten0 {v : Word} (h1 : v.getLsbD 1 = false) (h0 : v.getLsbD 0 = false) (hr : s.resetHeld = false) :
    exec (.enableWritten0 v) s = .next s.enableZero :=
  runCommand_occurs (c := .enableWritten0 v) (o := true) (e := State.enableZero)
    (by rw [Instr.wellFormed, h1, h0]; rfl) (State.live_of_resetHeld hr) rfl

/-- R158: the device that begins to halt is HALTED in the same step exactly when nothing is in progress. -/
theorem State.halts_halting : ({ s with enable := false, device := .halting } : State).Halts ↔
    s.reading = none ∧ ∀ l, (s.line l).state.busy = false :=
  ⟨fun ⟨_, hreading, hlines⟩ => ⟨hreading, hlines⟩, fun ⟨hreading, hlines⟩ => ⟨rfl, hreading, hlines⟩⟩

end

end Sys2Proof.Machine

open Sys2Proof Sys2Proof.Machine

/-- Settles O8, by the device state; from RUNNING the end of the step decides between HALTING and HALTED. -/
theorem enableWrittenZero : Obligations.EnableWrittenZero := by
  intro v s h1 h0 hr
  have written := exec_enableWritten0 h1 h0 hr
  refine ⟨fun hd => ?_, fun hd => ⟨s.reject, ?_, s.rejects_reject⟩, fun hd => ?_⟩
  · rw [written, State.enableZero]
    rcases hd with hd | hd | hd | hd <;> rw [hd]
  · obtain ⟨-, ignored, -⟩ := State.writes_failed hd
    rw [written, ignored]
  · have halting : s.enableZero = ({ s with enable := false, device := .halting } : State).finish := by
      rw [State.enableZero, hd]
    have hp : ({ s with enable := false, device := .halting } : State).posting = true :=
      State.posting_of hr (.inr (.inl rfl))
    refine ⟨_, written.trans (congrArg _ halting), State.writers_finish _, fun idle => ?_, fun busy => ?_⟩
    · obtain ⟨device, status, -⟩ := State.finish_halts hp (State.halts_halting.2 idle)
      exact ⟨device, by rw [status]; exact getLsbD_setCause _ rfl⟩
    · exact (State.finish_stays hp (State.halts_halting.not.2 busy)).1
end

section
/-! PROOFS. Writes cut short: the octets of host memory that a reset or the entry into FAILED may still move (R145, R150, R153,
R160; entries 11 and 12). -/

namespace Sys2Proof.Machine

/-! ## Octets in flight -/

/-- A write that stops leaves only octets of host memory in flight moved, and with them the count of such writes. -/
structure State.Lands (s t : State) : Prop where
  frame : t = { s with mem := t.mem, landings := t.landings }
  memory : ∀ a, ¬ s.InFlight a → readMem t.mem a = readMem s.mem a

theorem State.Lands.refl (s : State) : s.Lands s := ⟨rfl, fun _ _ => rfl⟩

/-- What is in flight stays so while other writes stop. -/
theorem State.Lands.inFlight {s t : State} (e : s.Lands t) (a : Nat) : t.InFlight a ↔ s.InFlight a := by
  rw [e.frame]
  rfl

theorem State.Lands.trans {s t u : State} (a : s.Lands t) (b : t.Lands u) : s.Lands u := by
  refine ⟨?_, fun k hk => (b.memory k fun h => hk ((a.inFlight k).1 h)).trans (a.memory k hk)⟩
  have frame := b.frame
  rw [a.frame] at frame
  exact frame

theorem State.Lands.foldl {α : Type} (f : State → α → State) (hf : ∀ (s : State) a, s.Lands (f s a)) (as : List α)
    (s : State) : s.Lands (as.foldl f s) := by
  induction as generalizing s with
  | nil => exact .refl s
  | cons a rest ih => exact (hf s a).trans (ih _)

/-- Octets of a write that are all in flight reach memory. -/
theorem State.lands_writeOctets {s : State} {base : Word} {octets : List Byte} {offsets : List Nat} (n : Nat)
    (h : ∀ i ∈ offsets, s.InFlight (addrPlus base i)) :
    s.Lands { s with mem := writeOctets base octets offsets s.mem, landings := n } :=
  ⟨rfl, fun _ ha => readMem_writeOctets_ne _ _ _ _ _ fun i hi e => ha (e ▸ h i hi)⟩

/-- R144: every word of a completion entry lies in its sixteen octets. -/
theorem lt_of_mem_completionOffsets {n i : Nat} (h : i ∈ wordOffsets completionWords n) : i < 16 := by
  have word := List.mem_of_mem_take (mem_wordOffsets.1 h)
  simp only [completionWords, List.mem_cons, List.not_mem_nil, or_false] at word
  omega

/-- R149: every word of an event entry lies in its 64 octets. -/
theorem lt_of_mem_eventOffsets {n i : Nat} (h : i ∈ wordOffsets eventWords n) : i < 64 := by
  have word := List.mem_of_mem_take (mem_wordOffsets.1 h)
  simp only [eventWords, List.mem_cons, List.not_mem_nil, or_false] at word
  omega

/-- Some words of the completion entry under way reach memory. -/
theorem State.lands_completionWords {s : State} {w : CompletionWrite} (hw : s.completionWrite = some w) (words n : Nat) :
    s.Lands { s with
      mem := writeOctets w.addr w.octets (wordOffsets completionWords words) s.mem, landings := n } :=
  State.lands_writeOctets n fun i hi => .inl ⟨w, hw, i, lt_of_mem_completionOffsets hi, rfl⟩

/-- Some words of the event entry under way reach memory. -/
theorem State.lands_eventWords {s : State} {w : EventWrite} (hw : s.eventWrite = some w) (words n : Nat) :
    s.Lands { s with mem := writeOctets w.addr w.octets (wordOffsets eventWords words) s.mem, landings := n } :=
  State.lands_writeOctets n fun i hi => .inr (.inl ⟨w, hw, i, lt_of_mem_eventOffsets hi, rfl⟩)

/-! ## The writes that stop -/

section
variable (s : State)

theorem State.lands_landCompletion : s.Lands s.landCompletion := by
  unfold State.landCompletion
  split
  · exact .refl s
  · next w hw => exact State.lands_completionWords hw _ _

theorem State.lands_landEvent : s.Lands s.landEvent := by
  unfold State.landEvent
  split
  · exact .refl s
  · next w hw => exact State.lands_eventWords hw _ _

/-- R63: a reply write reaches no octet beyond the reply and its capacity. -/
theorem State.lands_landReply (l : LineNo) : s.Lands (s.landReply l) := by
  unfold State.landReply
  split
  · next id octets hx =>
    split
    · exact .refl s
    · next c hc =>
      exact State.lands_writeOctets _ fun i hi =>
        .inr (.inr ⟨l, id, octets, c, hx, hc, i, (mem_transactionOffsets.1 hi).1, rfl⟩)
  · exact .refl s
  · exact .refl s

theorem State.lands_landReplies : s.Lands s.landReplies := .foldl _ (fun u l => u.lands_landReply l) _ s

theorem State.lands_landWrites : s.Lands s.landWrites := by
  unfold State.landWrites
  split
  · exact .refl s
  · exact (s.lands_landCompletion.trans (State.lands_landEvent _)).trans (State.lands_landReplies _)

/-- R153: in FAILED no write is under way. -/
theorem State.landWrites_failed {s : State} (h : s.device = .failed) : s.landWrites = s := if_pos h

theorem State.landCompletion_none {s : State} (h : s.completionWrite = none) : s.landCompletion = s := by
  rw [State.landCompletion, h]

theorem State.landEvent_none {s : State} (h : s.eventWrite = none) : s.landEvent = s := by
  rw [State.landEvent, h]

/-- Without a reply in a receive buffer no reply write stops. -/
theorem State.landReplies_none {s : State} (h : ∀ l, (s.line l).rxBuffer = none) : s.landReplies = s := by
  have each : ∀ l, s.landReply l = s := fun l => by rw [State.landReply, h l]
  unfold State.landReplies
  induction allLines with
  | nil => rfl
  | cons l rest ih => rw [List.foldl_cons, each, ih]

end

end Sys2Proof.Machine
end

section
/-! PROOFS. The resets (R100, R153, R160, R161). -/

namespace Sys2Proof.Machine

section
variable {s : State}

theorem exec_softReset {v : Word} (h1 : v.getLsbD 1 = true) (hr : s.resetHeld = false) :
    exec (.softReset v) s = .next s.softResetValues :=
  runCommand_occurs (c := .softReset v) (o := true) (e := State.softResetValues) h1 (State.live_of_resetHeld hr) rfl

/-- R160, R161: the host memory that a reset of either kind leaves. -/
theorem State.mem_softReset (s : State) : (∀ a, ¬ s.InFlight a → readMem s.softResetValues.mem a = readMem s.mem a) ∧
    (s.device = .failed → s.softResetValues.mem = s.mem) :=
  ⟨s.lands_landWrites.memory, fun h => congrArg (·.mem) (State.landWrites_failed h)⟩

end

end Sys2Proof.Machine

open Sys2Proof Sys2Proof.Machine

/-- Settles O6: the values by `State.softResetValues` and `State.hardResetValues`, the memory by the writes they stop. -/
theorem resetsTakeResetValues : Obligations.ResetsTakeResetValues :=
  ⟨fun _ s h1 hr => ⟨_, exec_softReset h1 hr, rfl, s.mem_softReset⟩, fun s => ⟨⟨_, rfl, rfl, s.mem_softReset⟩, rfl⟩⟩
end

section
/-! PROOFS. Entry into FAILED on a bus error of an entry write (R99, R145, R150, R159; entry 12). -/

namespace Sys2Proof.Machine

/-! ## The words before the failing one (R144, R149) -/

/-- R144: the first `done` words of a completion entry, the phase word last. -/
theorem mem_completionOffsets_before {done i : Nat} (h : done < 4) : i ∈ wordOffsets completionWords done ↔ i < 4 * done := by
  have taken : completionWords.take done = List.range done := by
    rw [show completionWords = List.range 4 from rfl, List.take_range, Nat.min_eq_left h.le]
  rw [mem_wordOffsets, taken, List.mem_range]
  omega

/-- R149: the phase word of an event entry, word 0, is written last. -/
theorem take_eventWords : ∀ done : Fin 16, eventWords.take done = List.range' 1 done := by decide

/-- R149: the first `done` words of an event entry. -/
theorem mem_eventOffsets_before {done i : Nat} (h : done < 16) :
    i ∈ wordOffsets eventWords done ↔ 4 ≤ i ∧ i < 4 * (done + 1) := by
  have taken : eventWords.take done = List.range' 1 done := take_eventWords ⟨done, h⟩
  rw [mem_wordOffsets, taken, List.mem_range'_1]
  omega

/-- The octets of an entry at the offsets written are in memory, and the rest of memory is as it was. -/
theorem readMem_partial {base : Word} {octets : List Byte} {offsets : List Nat} (m : List Host.Cell)
    (ho : ∀ i ∈ offsets, i < octets.length) (hlen : octets.length ≤ 64) :
    (∀ i ∈ offsets, readMem (writeOctets base octets offsets m) (addrPlus base i) = octets[i]?) ∧
      ∀ a, (∀ i ∈ offsets, a ≠ addrPlus base i) → readMem (writeOctets base octets offsets m) a = readMem m a := by
  refine ⟨fun i hi => ?_, fun a => readMem_writeOctets_ne _ _ _ _ a⟩
  rw [readMem_writeOctets m hi fun j hj => (ho j hj).trans_le (hlen.trans (by decide)), octetAt,
    List.getD_eq_getElem _ _ (ho i hi), List.getElem?_eq_getElem]

/-! ## FAILED (R99, R159) -/

section
variable {s : State} {done : Nat}

/-- R99, R159: entry into FAILED after the writes have stopped moves the device, its cause, the lines and the interrupt unit, and
of host memory only octets in flight. -/
theorem State.Lands.enterFailed {t : State} (e : s.Lands t) (cause : CauseCode) :
    t.enterFailed cause = { s with
      device := .failed, cause := cause
      lines := s.lines.map fun x => { x with driverEnable := false, txd := .mark, replyTimer := none }
      intStatus := s.intStatus ||| 0x08#5, intPin := (s.intStatus ||| 0x08#5) &&& s.intEnable != 0
      mem := (t.enterFailed cause).mem, landings := (t.enterFailed cause).landings } := by
  rw [e.frame]
  rfl

/-- R145: the state in which the words of a completion entry before the failing one are in memory. -/
def State.completionBroken (s : State) (w : CompletionWrite) (done : Nat) : State :=
  { s with mem := writeOctets w.addr w.octets (wordOffsets completionWords done) s.mem }

/-- R150: the state in which the words of an event entry before the failing one are in memory. -/
def State.eventBroken (s : State) (w : EventWrite) (done : Nat) : State :=
  { s with mem := writeOctets w.addr w.octets (wordOffsets eventWords done) s.mem }

/-- R145, R159: the part after an error of the completion entry's write. -/
theorem State.completionFails_eq {w : CompletionWrite} (hw : s.completionWrite = some w) : s.completionFails done =
    (s.completionBroken w done).landEvent.landReplies.enterFailed .completionWrite := by
  unfold State.completionFails
  split
  · next hn =>
    rw [hw] at hn
    cases hn
  · next v hv =>
    obtain rfl : v = w := Option.some.inj (hv.symm.trans hw)
    rfl

/-- R150, R159: the part after an error of the event entry's write. -/
theorem State.eventFails_eq {w : EventWrite} (hw : s.eventWrite = some w) : s.eventFails done =
    (s.eventBroken w done).landCompletion.landReplies.enterFailed .eventWrite := by
  unfold State.eventFails
  split
  · next hn =>
    rw [hw] at hn
    cases hn
  · next v hv =>
    obtain rfl : v = w := Option.some.inj (hv.symm.trans hw)
    rfl

theorem State.lands_completionFails {w : CompletionWrite} (hw : s.completionWrite = some w) :
    s.Lands (s.completionBroken w done).landEvent.landReplies :=
  ((State.lands_completionWords hw done s.landings).trans (State.lands_landEvent _)).trans (State.lands_landReplies _)

theorem State.lands_eventFails {w : EventWrite} (hw : s.eventWrite = some w) :
    s.Lands (s.eventBroken w done).landCompletion.landReplies :=
  ((State.lands_eventWords hw done s.landings).trans (State.lands_landCompletion _)).trans (State.lands_landReplies _)

/-- With no other write under way the words before the failing one are what memory takes. -/
theorem State.mem_completionFails {w : CompletionWrite} (hw : s.completionWrite = some w) (he : s.eventWrite = none)
    (hx : ∀ l, (s.line l).rxBuffer = none) :
    (s.completionFails done).mem = writeOctets w.addr w.octets (wordOffsets completionWords done) s.mem := by
  rw [State.completionFails_eq hw, State.landEvent_none (s := s.completionBroken w done) he,
    State.landReplies_none (s := s.completionBroken w done) hx]
  rfl

theorem State.mem_eventFails {w : EventWrite} (hw : s.eventWrite = some w) (hc : s.completionWrite = none)
    (hx : ∀ l, (s.line l).rxBuffer = none) :
    (s.eventFails done).mem = writeOctets w.addr w.octets (wordOffsets eventWords done) s.mem := by
  rw [State.eventFails_eq hw, State.landCompletion_none (s := s.eventBroken w done) hc,
    State.landReplies_none (s := s.eventBroken w done) hx]
  rfl

theorem exec_completionWriteError {w : CompletionWrite} (hr : s.resetHeld = false)
    (hd : s.device = .running ∨ s.device = .halting ∨ s.device = .halted) (hw : s.completionWrite = some w) (hdone : done < 4) :
    exec (.completionWriteError done) s = .next (s.completionFails done) :=
  runCommand_occurs (c := .completionWriteError done) (o := s.posting && s.completionWrite.isSome)
    (e := fun s => s.completionFails done) (decide_eq_true hdone) (State.live_of_resetHeld hr)
    (by rw [State.posting_of hr hd, hw]; rfl)

theorem exec_eventWriteError {w : EventWrite} (hr : s.resetHeld = false)
    (hd : s.device = .running ∨ s.device = .halting ∨ s.device = .halted) (hw : s.eventWrite = some w) (hdone : done < 16) :
    exec (.eventWriteError done) s = .next (s.eventFails done) :=
  runCommand_occurs (c := .eventWriteError done) (o := s.posting && s.eventWrite.isSome)
    (e := fun s => s.eventFails done) (decide_eq_true hdone) (State.live_of_resetHeld hr)
    (by rw [State.posting_of hr hd, hw]; rfl)

end

end Sys2Proof.Machine

open Sys2Proof Sys2Proof.Machine

/-- Settles O53, for each of the two writers: the whole state by `State.Lands.enterFailed`, the words written by their offsets. -/
theorem writeErrorFailsTheDevice : Obligations.WriteErrorFailsTheDevice := by
  intro s hr hd failed
  refine ⟨fun w done hw hdone hlen => ?_, fun w done hw hdone hlen => ?_⟩
  · have lands := State.lands_completionFails (done := done) hw
    refine ⟨_, exec_completionWriteError hr hd hw hdone, ?_, fun he hx => ?_⟩
    · rw [State.completionFails_eq hw]
      exact ⟨lands.enterFailed _, lands.memory⟩
    · obtain ⟨written, outside⟩ := readMem_partial (base := w.addr) (octets := w.octets) s.mem
        (fun i hi => hlen ▸ lt_of_mem_completionOffsets (n := done) hi) (by omega)
      rw [State.SameMemoryOutside, State.mem_completionFails hw he hx]
      simp only [mem_completionOffsets_before hdone] at written outside
      exact ⟨written, outside⟩
  · have lands := State.lands_eventFails (done := done) hw
    refine ⟨_, exec_eventWriteError hr hd hw hdone, ?_, fun hc hx => ?_⟩
    · rw [State.eventFails_eq hw]
      exact ⟨lands.enterFailed _, lands.memory⟩
    · obtain ⟨written, outside⟩ := readMem_partial (base := w.addr) (octets := w.octets) s.mem
        (fun i hi => hlen ▸ lt_of_mem_eventOffsets (n := done) hi) (by omega)
      rw [State.mem_eventFails hw hc hx]
      simp only [mem_eventOffsets_before hdone, and_imp] at written outside
      exact ⟨written, outside⟩
end

section
/-! PROOFS. The return to RUNNING: the notices, and the pending line resets that IDLE and QUIESCED lines serve then (R41, R67, R93,
R94, R98, R113, R142, R158; entry 32). -/

namespace Sys2Proof.Machine

/-! ## The lines that serve a reset (R98) -/

/-- R98: the line serves its pending reset when the device returns to RUNNING. -/
def State.serves (s : State) (l : LineNo) : Bool :=
  ((s.line l).state == .idle || (s.line l).state == .quiesced) && (s.line l).resetPending

/-- The lines listed serve their pending resets, in the order of the list. -/
def State.serveResets (s : State) (ls : List LineNo) : State := ls.foldl (fun u l => u.serveReset l) s

theorem State.resume_eq (s : State) : s.resume = s.enterRunning.serveResets allLines := rfl

section
variable {s : State} {l : LineNo}

theorem State.serveReset_serves (h : s.serves l = true) : s.serveReset l = (s.breakStart l [] s.time).endRetries l :=
  if_pos (by simpa [State.serves] using h)

theorem State.serveReset_idle (h : s.serves l = false) : s.serveReset l = s :=
  if_neg (by simpa [State.serves, ← Bool.not_eq_true] using h)

/-- Ends move neither the engine of a line nor its pending reset. -/
theorem State.SameButEnds.serves {t : State} (a : s.SameButEnds t) (l : LineNo) : t.serves l = s.serves l := by
  rw [State.serves, (a.2.2.1 l).2]
  rfl

/-- R94: a break that has begun leaves no reset pending, and the other lines as they were. -/
theorem State.serves_breakStart (k : LineNo) :
    (s.breakStart l [] s.time).serves k = if k = l then false else s.serves k := by
  split
  · next e =>
    subst e
    rw [State.serves, State.line_breakStart]
    rfl
  · next e =>
    have line : (s.breakStart l [] s.time).line k = s.line k := s.line_setLine_ne e _
    rw [State.serves, line]
    rfl

end

/-! ## The breaks that begin (R41, R94) -/

/-- The state in which the breaks of those lines listed that serve a reset have begun, before the exchanges they end. -/
def State.breaksStart (s : State) (ls : List LineNo) : State :=
  ls.foldl (fun u l => if u.serves l then u.breakStart l [] u.time else u) s

theorem State.breaksStart_cons (s : State) (l : LineNo) (ls : List LineNo) :
    s.breaksStart (l :: ls) = (if s.serves l then s.breakStart l [] s.time else s).breaksStart ls := rfl

section
variable {s : State} {ls : List LineNo}

/-- Breaks that begin move the lines and the entries alone. -/
theorem State.breaksStart_frame : s.breaksStart ls = { s with
    lines := (s.breaksStart ls).lines, stations := (s.breaksStart ls).stations } := by
  induction ls generalizing s with
  | nil => rfl
  | cons l rest ih =>
    rw [State.breaksStart_cons]
    split
    · exact ih
    · exact ih

theorem State.line_breaksStart (k : LineNo) : (s.breaksStart ls).line k =
    if k ∈ ls ∧ s.serves k = true then (s.line k).beginBreak [] s.time else s.line k := by
  induction ls generalizing s with
  | nil => simp [State.breaksStart]
  | cons l rest ih =>
    rw [State.breaksStart_cons]
    by_cases hs : s.serves l = true
    · rw [if_pos hs, ih, State.serves_breakStart]
      by_cases hk : k = l
      · subst hk
        simp [hs, State.line_breakStart]
      · have line : (s.breakStart l [] s.time).line k = s.line k := s.line_setLine_ne hk _
        simp [hk, line]
        rfl
    · rw [if_neg hs, ih]
      by_cases hk : k = l
      · subst hk
        simp [hs]
      · simp [hk]

/-- R41: the breaks reach the stations of their lines. -/
theorem State.station_breaksStart (h : Handle) : (s.breaksStart ls).station h =
    (s.station h).map fun x => if x.line ∈ ls ∧ s.serves x.line = true then x.breakReaches else x := by
  induction ls generalizing s with
  | nil => simp [State.breaksStart]
  | cons l rest ih =>
    rw [State.breaksStart_cons]
    by_cases hs : s.serves l = true
    · rw [if_pos hs, ih, State.station_breakStart, Option.map_map]
      refine Option.map_congr fun x _ => ?_
      by_cases hx : x.line = l
      · subst hx
        have line : x.breakReaches.line = x.line := rfl
        simp [hs, line, State.serves_breakStart]
      · simp [hx, State.serves_breakStart]
    · rw [if_neg hs, ih]
      refine Option.map_congr fun x _ => ?_
      by_cases hx : x.line = l
      · subst hx
        simp [hs]
      · simp [hx]

end

/-! ## The resets served after ends -/

/-- A break begins alike after ends on a line that owes its scheduler a consultation if it is IDLE. -/
theorem Line.SameButEnds.beginBreak_due {x y : Line} (h : x.SameButEnds y) (hs : x.state = .idle → x.consultDue = true)
    (records : List Nat) (now : Nat) : (x.beginBreak records now).SameButEnds (y.beginBreak records now) := by
  obtain ⟨⟨hkept, hsame⟩, heq⟩ := h
  have due : y.consultDue = x.consultDue := by
    by_cases hidle : x.state = .idle
    · rw [hs hidle, hkept (hs hidle)]
    · exact hsame hidle
  refine ⟨⟨fun hx => due.trans hx, fun _ => due⟩, ?_⟩
  rw [heq]
  rfl

theorem State.SameButEnds.breakStart_due {s t : State} (a : s.SameButEnds t) {l : LineNo}
    (hs : (s.line l).state = .idle → (s.line l).consultDue = true) (records : List Nat) (now : Nat) :
    (s.breakStart l records now).SameButEnds (t.breakStart l records now) :=
  (a.updLine l (fun x => x.beginBreak records now) ((a.2.2.1 l).beginBreak_due hs records now)).breakStations l

/-- R98: serving the pending resets begins their breaks, and moves no more than ends may. -/
theorem State.SameButEnds.serveResets {s t : State} (a : s.SameButEnds t)
    (hs : ∀ l, (s.line l).state = .idle → (s.line l).consultDue = true) (ls : List LineNo) :
    (s.breaksStart ls).SameButEnds (t.serveResets ls) := by
  induction ls generalizing s t with
  | nil => exact a
  | cons l rest ih =>
    show (s.breaksStart (l :: rest)).SameButEnds ((t.serveReset l).serveResets rest)
    rw [State.breaksStart_cons]
    by_cases hserves : s.serves l = true
    · have time : t.time = s.time := by rw [a.1]
      rw [if_pos hserves, State.serveReset_serves ((a.serves l).trans hserves), time]
      refine ih ((a.breakStart_due (hs l) [] s.time).trans (State.sameButEnds_of_ends (State.ends_endRetries _ l))) fun k hk => ?_
      by_cases e : k = l
      · subst e
        rw [State.line_breakStart] at hk
        cases hk
      · have line : (s.breakStart l [] s.time).line k = s.line k := s.line_setLine_ne e _
        rw [line] at hk ⊢
        exact hs k hk
    · rw [if_neg hserves, State.serveReset_idle (Bool.eq_false_iff.2 fun h => hserves ((a.serves l).symm.trans h))]
      exact ih a hs

/-! ## The exchanges that the breaks end (R67) -/

/-- Every station of the line has a CERTAIN link. -/
def State.CertainOn (s : State) (l : LineNo) : Prop := ∀ h y, s.station h = some y → y.line = l → y.link = .certain

theorem State.KeepsLinks.certainOn {s t : State} (a : s.KeepsLinks t) {l : LineNo} (h : s.CertainOn l) : t.CertainOn l := by
  intro k y hy hl
  obtain ⟨x, hx, hline, hlink⟩ := a k y hy
  rw [hlink]
  exact h k x hx (hline.symm.trans hl)

section
variable {s : State} {l : LineNo}

/-- A context waits on the line of its station alone. -/
theorem State.retryWaits_unique {k : LineNo} {c : Context} (hk : s.retryWaits k c = true) (hl : s.retryWaits l c = true) :
    k = l := by
  obtain ⟨-, h, x, hh, hx, rfl, -⟩ := State.retryWaits_iff.1 hk
  obtain ⟨-, h', x', hh', hx', rfl, -⟩ := State.retryWaits_iff.1 hl
  obtain rfl : h = h' := Option.some.inj (hh.symm.trans hh')
  rw [Option.some.inj (hx.symm.trans hx')]

theorem State.tells_serveReset : s.Tells (s.serveReset l) := by
  unfold State.serveReset
  split
  · exact s.tells_enterBreakOut ..
  · exact .refl s

theorem State.tells_serveResets (ls : List LineNo) : s.Tells (s.serveResets ls) :=
  .foldl _ (fun _ _ => State.tells_serveReset) ls s

/-- One line serves its reset: the other lines still serve theirs, and every context waits where it did. -/
theorem State.serveReset_others : (∀ k, k ≠ l → (s.serveReset l).serves k = s.serves k) ∧
    ∀ k c, (s.serveReset l).retryWaits k c = s.retryWaits k c := by
  by_cases h : s.serves l = true
  · rw [State.serveReset_serves h]
    have e := State.ends_endRetries (s.breakStart l [] s.time) l
    refine ⟨fun k hk => ?_, fun k c => (e.retryWaits k c).trans (State.retryWaits_breakStart k c)⟩
    rw [(State.sameButEnds_of_ends e).serves, State.serves_breakStart, if_neg hk]
  · rw [State.serveReset_idle (Bool.eq_false_iff.2 h)]
    exact ⟨fun _ _ => rfl, fun _ _ => rfl⟩

/-- R56: the contexts stay distinct. -/
theorem State.distinct_serveReset (hd : s.ContextsDistinct) : (s.serveReset l).ContextsDistinct := by
  unfold State.serveReset
  split
  · exact (s.keepsRings_enterBreakOut l [] s.time).distinct hd
  · exact hd

/-- R41, R67: what one line that serves its reset does to the contexts and the links. -/
theorem State.serveReset_breaks (hd : s.ContextsDistinct) :
    (s.serves l = true → (s.serveReset l).CertainOn l ∧ ∀ id c, s.ctx id = some c → s.retryWaits l c = true →
      (s.serveReset l).Handed id .lineBreak (.failure .lineBreak)) ∧
    (∀ k, s.CertainOn k → (s.serveReset l).CertainOn k) ∧
    ∀ id c, s.ctx id = some c → (s.serves l = true → s.retryWaits l c = false) → (s.serveReset l).ctx id = some c := by
  by_cases hserves : s.serves l = true
  · have begun : (s.breakStart l [] s.time).ContextsDistinct := hd
    have hwaits := fun c => State.retryWaits_breakStart (s := s) (l := l) (records := []) (now := s.time) l c
    have hall := State.allWait_retriesOf (l := l) begun
    rw [State.serveReset_serves hserves, State.endRetries_eq]
    refine ⟨fun _ => ⟨hall.links.certainOn fun h y hy hline => ?_, fun id c hc hw => ?_⟩,
      fun k hk => hall.links.certainOn fun h y hy hline => ?_, fun id c hc hw => ?_⟩
    · rw [State.station_breakStart, Option.map_eq_some_iff] at hy
      obtain ⟨x, -, rfl⟩ := hy
      split at hline
      · next hx => rw [if_pos hx]; rfl
      · next hx => exact (hx hline).elim
    · exact hall.handed ((State.mem_retriesOf begun (c := c) hc).2 ((hwaits c).trans hw))
    · rw [State.station_breakStart, Option.map_eq_some_iff] at hy
      obtain ⟨x, hx, rfl⟩ := hy
      split at hline
      · next he => rw [if_pos he]; rfl
      · next he =>
        rw [if_neg he]
        exact hk h x hx hline
    · refine (hall.ctx fun hid => ?_).trans hc
      have hwait := (State.mem_retriesOf begun (c := c) hc).1 hid
      rw [hwaits, hw hserves] at hwait
      cases hwait
  · rw [State.serveReset_idle (Bool.eq_false_iff.2 hserves)]
    exact ⟨fun h => (hserves h).elim, fun _ => id, fun _ _ hc _ => hc⟩

/-- Links that are CERTAIN stay so while lines serve their resets. -/
theorem State.certainOn_serveResets {k : LineNo} (hd : s.ContextsDistinct) (h : s.CertainOn k) (ls : List LineNo) :
    (s.serveResets ls).CertainOn k := by
  induction ls generalizing s with
  | nil => exact h
  | cons l rest ih => exact ih (State.distinct_serveReset hd) ((State.serveReset_breaks hd).2.1 k h)

/-- R41, R67: what the lines that serve their resets, each listed once, do to the contexts and the links. -/
theorem State.serveResets_breaks {ls : List LineNo} (hn : ls.Nodup) (hd : s.ContextsDistinct) :
    (∀ l ∈ ls, s.serves l = true → (s.serveResets ls).CertainOn l ∧ ∀ id c, s.ctx id = some c → s.retryWaits l c = true →
      (s.serveResets ls).Handed id .lineBreak (.failure .lineBreak)) ∧
    ∀ id c, s.ctx id = some c → (∀ l ∈ ls, s.serves l = true → s.retryWaits l c = false) →
      (s.serveResets ls).ctx id = some c := by
  induction ls generalizing s with
  | nil => exact ⟨fun _ hl => (by cases hl), fun _ _ hc _ => hc⟩
  | cons l rest ih =>
    obtain ⟨hl, hrest⟩ := List.nodup_cons.1 hn
    have hd' := State.distinct_serveReset (l := l) hd
    obtain ⟨served, -, left⟩ := State.serveReset_breaks (l := l) hd
    obtain ⟨others, waits⟩ := State.serveReset_others (s := s) (l := l)
    obtain ⟨restServed, restLeft⟩ := ih hrest hd'
    refine ⟨fun k hk hserves => ?_, fun id c hc hnone => ?_⟩
    · rcases List.mem_cons.1 hk with rfl | hk
      · obtain ⟨certain, handed⟩ := served hserves
        exact ⟨State.certainOn_serveResets hd' certain rest,
          fun id c hc hw => (handed id c hc hw).tells (State.tells_serveResets rest)⟩
      · have hne : k ≠ l := fun e => hl (e ▸ hk)
        obtain ⟨certain, handed⟩ := restServed k hk ((others k hne).trans hserves)
        refine ⟨certain, fun id c hc hw => handed id c (left id c hc fun _ => ?_) ((waits k c).trans hw)⟩
        exact Bool.eq_false_iff.2 fun hwl => hne (State.retryWaits_unique hw hwl)
    · refine restLeft id c (left id c hc (hnone l (List.mem_cons_self ..))) fun k hk hserves => ?_
      have hne : k ≠ l := fun e => hl (e ▸ hk)
      rw [waits]
      exact hnone k (List.mem_cons_of_mem _ hk) ((others k hne).symm.trans hserves)

end

end Sys2Proof.Machine
end

section
/-! PROOFS. ENABLE written 1 (R155, R156, R158, R159): the device states, and the return to RUNNING (R41, R67, R93, R94, R98, R113,
R142; entry 32). -/

namespace Sys2Proof.Machine

section
variable {s : State}

/-- R155: a write of CONTROL with SOFT_RESET 0 and ENABLE 1. -/
theorem exec_enableWritten1 {v : Word} (h1 : v.getLsbD 1 = false) (h0 : v.getLsbD 0 = true) (hr : s.resetHeld = false) :
    exec (.enableWritten1 v) s = .next s.enableOne :=
  runCommand_occurs (c := .enableWritten1 v) (o := true) (e := State.enableOne)
    (by rw [Instr.wellFormed, h1, h0]; rfl) (State.live_of_resetHeld hr) rfl

/-! ## The notices of the return (R113, R142) -/

/-- R113: a notice written out by field. -/
theorem Line.noticed_eq_ite (x : Line) :
    x.noticed = { x with consultDue := if x.state = .idle then true else x.consultDue } := by
  unfold Line.noticed
  split <;> rfl

/-- The device that has returned to RUNNING, before its lines serve their pending resets. -/
def State.returned (s : State) : State := ({ s with enable := true } : State).enterRunning

theorem State.enableOne_returns (hd : s.device = .halting ∨ s.device = .halted) :
    s.enableOne = (s.returned.serveResets allLines).finish := by
  rw [State.enableOne]
  rcases hd with hd | hd <;> rw [hd] <;> rfl

theorem State.line_returned (l : LineNo) :
    s.returned.line l = { s.line l with consultDue := if (s.line l).state = .idle then true else (s.line l).consultDue } :=
  (State.line_enterRunning { s with enable := true } l).trans (s.line l).noticed_eq_ite

theorem State.serves_returned (l : LineNo) : s.returned.serves l = s.serves l := by
  rw [State.serves, State.line_returned]
  rfl

/-- R113: an IDLE line has been told, so that its break changes no notice of its own. -/
theorem State.returned_due (l : LineNo) (h : (s.returned.line l).state = .idle) : (s.returned.line l).consultDue = true := by
  rw [State.line_returned] at h ⊢
  exact if_pos h

/-! ## The breaks of the return (R41, R94) -/

/-- The lines of the device returned, when the pending resets have become breaks. -/
theorem State.lines_breaksStart_returned : (s.returned.breaksStart allLines).lines = Vector.ofFn fun l =>
    if s.serves l then ((s.setLine l (s.returned.line l)).breakStart l [] s.time).line l else s.returned.line l := by
  refine Vector.ext fun i hi => ?_
  rw [Vector.getElem_ofFn]
  have line := State.line_breaksStart (s := s.returned) (ls := allLines) ⟨i, hi⟩
  have time : s.returned.time = s.time := rfl
  rw [State.serves_returned, time] at line
  rw [State.line_breakStart, State.line_setLine_same]
  simpa [mem_allLines, State.line] using line

/-- R41: the stations of the device returned, when the breaks have reached those of their lines. -/
theorem State.stations_breaksStart_returned : (s.returned.breaksStart allLines).stations = s.stations.map fun o => o.map fun x =>
    if s.serves x.line then x.breakReaches else x := by
  refine Vector.ext fun i hi => ?_
  rw [Vector.getElem_map]
  have station := State.station_breaksStart (s := s.returned) (ls := allLines) ⟨i, hi⟩
  simp only [mem_allLines, true_and, State.serves_returned] at station
  exact station

/-- R113: the return moves, beyond the breaks it begins, no more than the ends of exchanges and of the step may. -/
theorem State.SameButEnds.returns : (s.returned.breaksStart allLines).SameButEnds (s.returned.serveResets allLines).finish :=
  ((State.SameButEnds.refl _).serveResets State.returned_due allLines).trans
    (State.sameButEnds_of_writers (State.writers_finish _))

/-- R94: a line that served its reset drives SPACE, its records bound to the break. -/
theorem State.SameButEnds.breakOut {l : LineNo} {t : State} (a : (s.returned.breaksStart allLines).SameButEnds t)
    (h : s.serves l = true) : (t.line l).state = .breakOut ∧ (t.line l).driverEnable = true ∧ (t.line l).txd = .space ∧
      (t.line l).resetPending = false ∧ (t.line l).boundResets = (s.line l).resetRecords := by
  have line := State.line_breaksStart (s := s.returned) (ls := allLines) l
  rw [if_pos ⟨mem_allLines l, State.serves_returned l |>.trans h⟩] at line
  have kept := (a.2.2.1 l).2
  rw [line, State.line_returned] at kept
  rw [kept]
  exact ⟨rfl, rfl, rfl, rfl, List.append_nil _⟩

/-- The device is RUNNING: no HALTED is entered. -/
theorem State.SameButEnds.running {t : State} (a : s.SameButEnds t) (h : s.device = .running) : t.device = .running := by
  rcases a.2.1.2 with e | ⟨e, -⟩
  · exact e.trans h
  · rw [h] at e
    cases e

/-! ## The contexts after the return (R67) -/

/-- R41, R67: the exchanges that wait on the lines that serve their resets end, those lines' links are CERTAIN, and every other
context is as it was. -/
theorem State.returns_breaks (hd : s.ContextsDistinct) :
    (∀ l, s.serves l = true → s.RetriesBroken (s.returned.serveResets allLines).finish l [] ∧
      (s.returned.serveResets allLines).finish.CertainOn l) ∧
    ∀ id c, s.ctx id = some c → (∀ l, s.serves l = true → s.retryWaits l c = false) →
      (s.returned.serveResets allLines).finish.ctx id = some c := by
  have distinct : s.returned.ContextsDistinct := hd
  obtain ⟨served, left⟩ := State.serveResets_breaks (List.nodup_finRange 4) distinct
  refine ⟨fun l hl => ?_, fun id c hc hw => ?_⟩
  · obtain ⟨certain, handed⟩ := served l (mem_allLines l) ((State.serves_returned l).trans hl)
    exact ⟨fun c hc hw _ => (handed c.id c (State.ctx_of_mem hd hc) hw).reports, (State.keepsLinks_finish _).certainOn certain⟩
  · rw [State.ctx_finish]
    exact left id c hc fun l _ hl => hw l ((State.serves_returned l).symm.trans hl)

end

end Sys2Proof.Machine

open Sys2Proof Sys2Proof.Machine

/-- Settles O7, by the device state; the return to RUNNING is the notices, then the breaks of the lines that serve their resets,
then the ends of the exchanges that waited there. -/
theorem enableWrittenOne : Obligations.EnableWrittenOne := by
  intro v s h1 h0 hr
  have written := exec_enableWritten1 h1 h0 hr
  refine ⟨fun hd => ?_, fun hd => ?_, fun hd => ⟨s.reject, ?_, s.rejects_reject⟩, fun hd => ?_⟩
  · rw [written, State.enableOne, hd]
  · rw [written, State.enableOne]
    rcases hd with hd | hd <;> rw [hd]
  · obtain ⟨ignored, -⟩ := State.writes_failed hd
    rw [written, ignored]
  · intro served told u
    have begun : s.returned.breaksStart allLines = u := by
      rw [State.breaksStart_frame, State.lines_breaksStart_returned, State.stations_breaksStart_returned]
      simp only [State.line_returned]
      rfl
    have ends := State.SameButEnds.returns (s := s)
    refine ⟨_, written.trans (congrArg _ (State.enableOne_returns hd)), (begun ▸ ends).running rfl, begun ▸ ends,
      fun l hl => ends.breakOut hl, fun distinct => State.returns_breaks distinct⟩
end

section
/-! PROOFS. What a step and a command's common frame decide whatever the state: which command runs (entry 22), and whether it
completes or is refused (entries 1 and 2). -/

namespace Sys2Proof.Machine

theorem step_of_front {c : Instr} {rest : List Instr} {s : State} (h : s.pending = c :: rest) :
    step s = exec c { s with pending := rest } := by
  rw [step, h]

/-- Entry 2: a command of the common frame completes when its row can carry its operands. -/
theorem runCommand_completes {c : Instr} {o : Bool} {e : State → State} {s : State} (well : c.wellFormed = true) :
    ∃ t, runCommand c o e s = .next t :=
  ⟨_, if_pos well⟩

/-- Entry 2: the common frame refuses every other term by name, in every state. -/
theorem runCommand_refuses {c : Instr} {o : Bool} {e : State → State} {s : State} (ill : c.wellFormed = false) :
    runCommand c o e s = .refused .illFormed :=
  if_neg (Bool.eq_false_iff.mp ill)

/-- R161: every command but a hardware reset and its release goes through the common frame. -/
theorem exec_eq_runCommand {c : Instr} {s : State} (hreset : c ≠ .hardwareReset) (hrelease : c ≠ .resetRelease) :
    ∃ o e, exec c s = runCommand c o e s := by
  have record (c : Instr) (r : List Byte) (act : State → Nat → State) : ∃ o e, runRecord c r act s = runCommand c o e s :=
    ⟨_, _, rfl⟩
  unfold exec
  cases c
  case hardwareReset => exact (hreset rfl).elim
  case resetRelease => exact (hrelease rfl).elim
  case unknownKind | exchange | broadcast | addStation | removeStation | pauseStation | resumeStation | setLineDisable |
      setLineEnable | quiesceLine | resumeLine | lineReset | abort | fence => exact record ..
  all_goals exact ⟨_, _, rfl⟩

end Sys2Proof.Machine

open Sys2Proof Sys2Proof.Machine

/-- Settles O1, by the equation of the step on a queue that holds a command. -/
theorem frontCommandRuns : Obligations.FrontCommandRuns :=
  fun _ _ _ front => step_of_front front

/-- Settles O3, by the command: a hardware reset and its release have no operand and complete; every other command goes
through the common frame, which looks at the operands alone. -/
theorem onlyIllFormedCommandsStop : Obligations.OnlyIllFormedCommandsStop := by
  intro c s
  by_cases hreset : c = .hardwareReset
  · subst hreset
    exact ⟨fun _ => ⟨s.hardResetValues, rfl⟩, fun ill => nomatch ill⟩
  by_cases hrelease : c = .resetRelease
  · subst hrelease
    exact ⟨fun _ => ⟨{ s with resetHeld := false }, rfl⟩, fun ill => nomatch ill⟩
  obtain ⟨o, e, framed⟩ := exec_eq_runCommand (s := s) hreset hrelease
  rw [framed]
  exact ⟨runCommand_completes, runCommand_refuses⟩
end
